-- ==== Sys2Proof/Word.lean ====
section
/-! DEFINITION. The word types of Cleos Disol (00_scope R10) and their plainest arithmetic. -/

namespace Sys2Proof

/-- A byte (R10). -/
abbrev Byte := BitVec 8
/-- A half (R10). -/
abbrev Half := BitVec 16
/-- A word (R10): a lane register, an instruction word. -/
abbrev Word := BitVec 32
/-- A dword (R10): an s-register, an address, a queue entry. -/
abbrev DWord := BitVec 64
/-- The PC: a 24-bit word index relative to the code base, wrapping modulo 2^24 (02 R66). -/
abbrev Pc := BitVec 24
/-- A register field (R23): window-relative register v0-v63, or s0-s63 in Zenith code. -/
abbrev Reg := BitVec 6
/-- A predicate field (R23): p0-p7. -/
abbrev PredNo := BitVec 3
/-- The guard bits [31:28] of a word: N in bit 3, G in bits [2:0] (R19). -/
abbrev Guard := BitVec 4

/-- N of a guard (R19). -/
def Guard.neg (g : Guard) : Bool := g.getLsbD 3
/-- G of a guard (R19). -/
def Guard.pred (g : Guard) : PredNo := g.extractLsb' 0 3

/-- The low word of a dword. -/
def lo32 (x : DWord) : Word := x.extractLsb' 0 32
/-- The high word of a dword. -/
def hi32 (x : DWord) : Word := x.extractLsb' 32 32
/-- A dword from its high and low words (little-endian pairs, R9). -/
def pair64 (hi lo : Word) : DWord := hi ++ lo

@[simp] theorem lo32_pair64 (hi lo : Word) : lo32 (pair64 hi lo) = lo := by
  unfold lo32 pair64; ext i h
  rw [BitVec.getElem_extractLsb']
  refine (BitVec.getLsbD_append (x := hi) (y := lo) (i := 0 + i)).trans ?_
  simp [h]

@[simp] theorem hi32_pair64 (hi lo : Word) : hi32 (pair64 hi lo) = hi := by
  unfold hi32 pair64; ext i h
  rw [BitVec.getElem_extractLsb']
  refine (BitVec.getLsbD_append (x := hi) (y := lo) (i := 32 + i)).trans ?_
  simp [h]

@[simp] theorem pair64_hi_lo (x : DWord) : pair64 (hi32 x) (lo32 x) = x := by
  unfold hi32 lo32 pair64
  apply BitVec.eq_of_getLsbD_eq
  intro i hi; refine (BitVec.getLsbD_append).trans ?_; split
  · simp; omega
  · simp; rw [show 32 + (i - 32) = i by omega]; simp; intro; omega

end Sys2Proof
end

