-- ==== Sys2Proof/Config.lean ====
section
/-! DEFINITION. What an implementation fixes, and the free values: what the spec leaves open, as constants with no
body, so that no proof can see a value of them (log 2). Each is applied to the counter `State.freeCtr`. -/

namespace Sys2Proof.Config

/-- HBM4 bytes of the package: 384 GiB (R5). -/
def hbmBytes : Nat := 384 * 1024 * 1024 * 1024
/-- CXL expander bytes: the most that a package takes, 1024 GB (R5; log 5). -/
def cxlBytes : Nat := 1024 * 1000 * 1000 * 1000

/-- How far after acceptance a promise lies, 0 to 2^31 - 1 (R201). -/
opaque freePromise : Nat → BitVec 31
/-- The same in a deterministic launch: from the command and the commands queued before it (R302). -/
opaque detPromise : List (BitVec 64) → List (List (BitVec 64)) → BitVec 31
/-- A byte that the outside world supplies and the spec does not (a block read from NVMe, R196). -/
opaque freeByte : Nat → Byte
/-- A choice between two allowed outcomes (R200: which bytes of a failing copy are written). -/
opaque freeBool : Nat → Bool
/-- In a deterministic launch that choice, from the command: its outcome is the same on every run (R285). -/
opaque detBool : List (BitVec 64) → Nat → Bool
/-- In a deterministic launch a byte of a namespace, by namespace and place in it: the same on every run (R285). -/
opaque detByte : BitVec 32 → Nat → Byte
/-- The contents of an accumulator element whose residue check fails: unknown (R172). -/
opaque freeWord : Nat → BitVec 32
/-- A place in a list whose order the spec leaves undefined (R256), or any other open natural number. -/
opaque freeNat : Nat → Nat
/-- In a deterministic launch that place, from the descriptor, the entries that the list holds and the index (R285). -/
opaque detPlace : Nat → Nat → Nat → Nat
/-- The stall ratio that a cluster's sample at a chip time finds, in 1/256 (R369; log 55). -/
opaque freeRatio : Nat → Nat → Fin 257
/-- The home slice of a line, of 128: the spec leaves open which it is (R206). -/
opaque homeSlice : Nat → Fin 128
/-- An ECDSA P-384 signature by the device identity key, which is made at manufacture and never leaves the security
processor (R344). -/
opaque freeSignature : Nat → BitVec 768
/-- The certificate chain of that key to Adegeber's root, and the measurement of the security configuration (R344). -/
opaque certificates : List Byte
opaque securityHash : BitVec 384
/-- Whether a signature over a firmware image's hash verifies under FIPS 186-5 (R344). -/
opaque verifies : BitVec 384 → BitVec 768 → Bool

end Sys2Proof.Config
end

