-- ==== Sys2Proof/Syntax.lean ====
section
/-! DEFINITION. The instructions: one constructor for each row of spec/opcode_table.json (01 R19 to R34 for
the words; the chapters' own rules for the events that no word encodes). -/

namespace Sys2Proof

/-- Ordering annotation `ord` (R23). -/
inductive Ord4 where
  | none | acq | rel | acqrel
  deriving DecidableEq, Repr

/-- Scope `scp` (R23, R214); 6 and 7 are reserved. -/
inductive Scope where
  | wave | team | cluster | die | device | system
  deriving DecidableEq, Repr

/-- Access width `w` of the M format (R23); 5 to 7 are reserved. -/
inductive Width where
  | b8 | b16 | b32 | b64 | b128
  deriving DecidableEq, Repr

/-- Cache hint `ch` (R23, R156). It never changes a result. -/
inductive CacheHint where
  | normal | stream | noL1 | lastUse
  deriving DecidableEq, Repr

/-- Element type of FADD, FMUL, FMA and FMNX (R32); 3 is reserved. -/
inductive FTy where
  | f32 | f16x2 | bf16x2
  deriving DecidableEq, Repr

/-- Rounding mode of a MOD hint (R26, R112); 5 to 7 are reserved. -/
inductive Rnd where
  | rne | rtz | rdn | rup | rna
  deriving DecidableEq, Repr

/-- Shift kind of SHFI (R32, R97). -/
inductive ShfKind where
  | shl | shr | sar | rotl
  deriving DecidableEq, Repr

/-- The `b` field of MOVS (R102): low word, high word or the pair; 3 is refused. -/
inductive MovsPart where
  | low | high | pair
  deriving DecidableEq, Repr

/-- Condition of ICMP (R32, R104). -/
inductive ICond where
  | eq | ne | lt | le | gt | ge | ltu | leu | gtu | geu
  deriving DecidableEq, Repr

/-- Condition of FCMP (R32, R132). -/
inductive FCond where
  | eq | ne | lt | le | gt | ge | uno | ord | equ | neu | ltu | leu | gtu | geu
  deriving DecidableEq, Repr

/-- Operation of PLOP (R32, R105). -/
inductive PlopOp where
  | and | or | xor | andn | orn | not | mov
  deriving DecidableEq, Repr

/-- binary8 parameters, laid out as the CVT `b` field (R33): P, unsigned, finite-only. -/
structure B8Par where
  p : BitVec 3
  uns : Bool
  fin : Bool
  deriving DecidableEq, Repr

/-- Conversion of CVT (R33). -/
inductive CvtOp where
  | f32ToF16 | f32ToBf16 | f16ToF32 | bf16ToF32
  | f32ToB8 (p : B8Par) | b8ToF32 (p : B8Par)
  | f32ToS32 | f32ToU32 | s32ToF32 | u32ToF32 | f32ToS8
  | f16x2ToB8x2 (p : B8Par)
  | frnd
  deriving DecidableEq, Repr

/-- Mode of SHFL (R32, R136). -/
inductive ShflMode where
  | pick | rot | lead | swap
  deriving DecidableEq, Repr

/-- Operator and type of SCAN and WRED (R138). OR exists only for s32. -/
inductive ScanOp where
  | addF | minF | maxF | addS | minS | maxS | orS
  deriving DecidableEq, Repr

/-- Metric of DIST (R140). -/
inductive DistMetric where
  | l2 | ip | cos | ham
  deriving DecidableEq, Repr

/-- Element type of DIST (R140). -/
inductive DistTy where
  | f16 | bf16 | s8 | b8p4
  deriving DecidableEq, Repr

/-- Operation of ATOMS (R154). -/
inductive AtomsOp where
  | add | min | max | umin | umax | and | or | xor | exch | cas | fadd
  deriving DecidableEq, Repr

/-- Operation of ATOM and REDM (R34, R239). -/
inductive AtomOp where
  | add | sub | minS | maxS | minU | maxU | and | or | xor | exch | cas | incw | decw
  | addD | exchD | casD | faddF32 | fminF32 | fmaxF32 | faddBf16 | faddB8p4 | faddB8p5
  deriving DecidableEq, Repr

/-- Condition of WAITC (R248). -/
inductive WCond where
  | eq | ne | geu | ltu | ges | lts | anyset | allclr
  deriving DecidableEq, Repr

/-- Type of MMQ (R160). -/
inductive MmqTy where
  | b8 | bf16 | f16 | s8
  deriving DecidableEq, Repr

/-- Who sent a message that reaches a mailbox (R330): a message already on its way inside the device
(a device store with MSG, a copy or phase completion, a fault record), a host write of `bytes` at
offset `off` of the mailbox's window (R339), or a peer with the message's sixteen words. -/
inductive MsgSource where
  | inFlight (k : Nat)
  | host (mbx off : Nat) (bytes : List Byte)
  | peer (mbx : Nat) (words : List Word)
  deriving DecidableEq, Repr

/-- What the checks of one MMQ find (R171, R172): an input from the physical array. -/
inductive MmqCheck where
  /-- Every check agrees. -/
  | agree
  /-- A first mismatch; the replay from the pinned operands agrees. -/
  | replayAgrees
  /-- A second column mismatch; `col` is the lowest mismatching column. -/
  | columnFails (col : Nat)
  /-- A second add-and-round residue failure at an element. -/
  | residueFails (row col : Nat)
  deriving DecidableEq, Repr

/-- What the device behind a storage window, or the copy engine's own search, reports for a copy (R196, R200). -/
inductive CopyInput where
  /-- The engine moved everything it could. -/
  | moved
  /-- The NVMe device reported a read error with this status code type and code, after `blocks` blocks. -/
  | ioError (sct : BitVec 3) (sc : Byte) (blocks : Nat)
  deriving DecidableEq, Repr

/-- An engine operation that can meet a fault (R268): an outstanding copy, or an outstanding MDRAIN or MREST. -/
inductive EngineOp where
  | copy (k : Nat)
  | tiles (k : Nat)
  deriving DecidableEq, Repr

/-- An agent that can hold the only modified copy of a line (R231). -/
inductive Agent where
  | core (c : Nat)
  | peer (p : Nat)
  | hostCache
  deriving DecidableEq, Repr

/-- A memory request of the host (CXL.mem), of a peer (Vohan Link) or of an Orrery core (R268, R346). `wr` is
`none` for a read of `n` bytes and the bytes written for a write. -/
structure OutsideReq where
  asid : Nat
  va : DWord
  n : Nat
  wr : Option (List Byte)
  from_ : Agent
  episode : Option Nat
  deriving DecidableEq, Repr

/-- What makes an error fatal (R328, R374): an uncorrectable error in one of the device's own structures, the loss of both
Vesper banks of a partition that holds waves, a failed restore of a partition's context, the heat of a cluster, or an
error that the spec does not name. -/
inductive FatalSource where
  | shadowStorage | directory | translationTables | faultQueue | transitStages
  | banks (p : Nat) | restore (p : Nat) | heat (cluster : Nat) | other
  deriving DecidableEq, Repr

/-- A register of the host port that has no row of its own (R11, R253, R340). -/
inductive HostReg where
  | waddr (i : Nat) | wval (i : Nat) | wdest (i : Nat) | wctl (i : Nat) | wasid (i : Nat)
  | ringBase | ringSize | ringCtl
  | identity (k : Nat) | ringHead
  deriving DecidableEq, Repr

/-- A sensor sample of one cluster (R369, R374): stall ratio in 1/256 (0 to 256), temperature in 1/8 degree C,
measured millivolts, oscillator count. -/
structure Sample where
  ratio : Nat
  temp : BitVec 16
  mv : BitVec 16
  osc : BitVec 16
  deriving DecidableEq, Repr

/-- The instructions and events of spec/opcode_table.json, in the table's order but for the events without an operand.
The first argument of an ordinary word is its guard (R19, R20). -/
inductive Instr where
  -- SYS (major 0x00)
  | nop (g : Guard)
  | trap (g : Guard) (code : BitVec 12)
  | rte (g : Guard)
  | rteReg (g : Guard) (a : Reg)
  | brk (g : Guard)
  | yield (g : Guard)
  | fend (g : Guard)
  | chkerr (g : Guard) (d : Reg)
  | nopre (g : Guard)
  | preon (g : Guard)
  | perfq (g : Guard) (d a : Reg)
  | livetile (g : Guard) (m : BitVec 8)
  | errinj (g : Guard) (a : Reg)
  -- branches, calls, forks, masks, loops, decisions (0x01 to 0x08)
  | bra (g : Guard) (off : BitVec 22)
  | call (g : Guard) (s : BitVec 6) (off : BitVec 16)
  | jmpi (g : Guard) (a : Reg)
  | calli (g : Guard) (a : Reg) (s : BitVec 6)
  | ret (g : Guard)
  | fork (g : Guard) (d a : Reg) (imm : BitVec 10)
  | join (g : Guard) (j : BitVec 4)
  | waitj (g : Guard) (j : BitVec 4)
  | jclr (g : Guard) (j : BitVec 4)
  | loop (g : Guard) (c : BitVec 2) (a : Reg) (imm : BitVec 10)
  | ubr (g : Guard) (imm : BitVec 10)
  | popd (g : Guard) (d : Reg)
  | dpush (g : Guard) (d a b : Reg)
  | dcnt (g : Guard) (d a : Reg)
  -- IALU (0x09)
  | iadd (g : Guard) (d a b : Reg)
  | isub (g : Guard) (d a b : Reg)
  | and (g : Guard) (d a b : Reg)
  | or (g : Guard) (d a b : Reg)
  | xor (g : Guard) (d a b : Reg)
  | andn (g : Guard) (d a b : Reg)
  | shl (g : Guard) (d a b : Reg)
  | shr (g : Guard) (d a b : Reg)
  | sar (g : Guard) (d a b : Reg)
  | rotl (g : Guard) (d a b : Reg)
  | imin (g : Guard) (d a b : Reg)
  | imax (g : Guard) (d a b : Reg)
  | umin (g : Guard) (d a b : Reg)
  | umax (g : Guard) (d a b : Reg)
  | iadds (g : Guard) (d a b : Reg)
  | iabsd (g : Guard) (d a b : Reg)
  -- immediate forms and moves of immediates (0x0A to 0x10)
  | iaddi (g : Guard) (d a : Reg) (imm : BitVec 10)
  | andi (g : Guard) (d a : Reg) (imm : BitVec 10)
  | ori (g : Guard) (d a : Reg) (imm : BitVec 10)
  | xori (g : Guard) (d a : Reg) (imm : BitVec 10)
  | shfi (g : Guard) (d a : Reg) (k : ShfKind) (n : BitVec 5)
  | movi (g : Guard) (d : Reg) (imm : BitVec 16)
  | movhi (g : Guard) (d : Reg) (imm : BitVec 16)
  -- IMUL, IBIT, I64 (0x11 to 0x13)
  | imul (g : Guard) (d a b : Reg)
  | imulhs (g : Guard) (d a b : Reg)
  | imulhu (g : Guard) (d a b : Reg)
  | imad (g : Guard) (d a b : Reg)
  | idp4s (g : Guard) (d a b : Reg)
  | idp4u (g : Guard) (d a b : Reg)
  | popc (g : Guard) (d a : Reg)
  | clz (g : Guard) (d a : Reg)
  | brev (g : Guard) (d a : Reg)
  | bfe (g : Guard) (d a b : Reg)
  | bfes (g : Guard) (d a b : Reg)
  | bfi (g : Guard) (d a b : Reg)
  | bpick (g : Guard) (d a b : Reg)
  | iadd64 (g : Guard) (d a b : Reg)
  | isub64 (g : Guard) (d a b : Reg)
  | lea64s0 (g : Guard) (d a b : Reg)
  | lea64s1 (g : Guard) (d a b : Reg)
  | lea64s2 (g : Guard) (d a b : Reg)
  | lea64s3 (g : Guard) (d a b : Reg)
  | imulw (g : Guard) (d a b : Reg)
  | shl64 (g : Guard) (d a b : Reg)
  | shr64 (g : Guard) (d a b : Reg)
  -- MOVX, SEL, compares, predicate logic (0x14 to 0x18)
  | mov (g : Guard) (d a : Reg) (pair : Bool)
  | movs (g : Guard) (d a : Reg) (part : MovsPart)
  | movsr (g : Guard) (d a : Reg) (pair : Bool)
  | movsw (g : Guard) (chk : Bool) (a : Reg)
  | movpw (g : Guard) (d : Reg)
  | movwp (g : Guard) (a : Reg)
  | sel (g : Guard) (d a b : Reg) (neg : Bool) (p : PredNo)
  | icmp (g : Guard) (pd pe : PredNo) (a b : Reg) (cc : ICond)
  | fcmp (g : Guard) (pd pe : PredNo) (a b : Reg) (cc : FCond)
  | plop (g : Guard) (pd pe : PredNo) (x y : PredNo) (op : PlopOp)
  -- floating point (0x19 to 0x1E)
  | fadd (g : Guard) (d a b : Reg) (t : FTy)
  | fsub (g : Guard) (d a b : Reg) (t : FTy)
  | fmul (g : Guard) (d a b : Reg) (t : FTy)
  | fma (g : Guard) (d a b : Reg) (t : FTy)
  | fnma (g : Guard) (d a b : Reg) (t : FTy)
  | fms (g : Guard) (d a b : Reg) (t : FTy)
  | fnms (g : Guard) (d a b : Reg) (t : FTy)
  | fmin (g : Guard) (d a b : Reg) (t : FTy)
  | fmax (g : Guard) (d a b : Reg) (t : FTy)
  | fminn (g : Guard) (d a b : Reg) (t : FTy)
  | fmaxn (g : Guard) (d a b : Reg) (t : FTy)
  | cvt (g : Guard) (d a : Reg) (op : CvtOp)
  | rcp (g : Guard) (d a : Reg)
  | rsq (g : Guard) (d a : Reg)
  | sqrt (g : Guard) (d a : Reg)
  | exp2 (g : Guard) (d a : Reg)
  | log2 (g : Guard) (d a : Reg)
  | sinpi (g : Guard) (d a : Reg)
  | cospi (g : Guard) (d a : Reg)
  | tanh (g : Guard) (d a : Reg)
  | fclass (g : Guard) (d a : Reg)
  -- cross-lane (0x1F to 0x24)
  | shfl (g : Guard) (d a b : Reg) (m : ShflMode)
  | voteAll (g : Guard) (pd pa : PredNo)
  | voteAny (g : Guard) (pd pa : PredNo)
  | voteBallot (g : Guard) (d : Reg) (pa : PredNo) (hi : Bool)
  | scan (g : Guard) (d a : Reg) (op : ScanOp) (ex : Bool)
  | wred (g : Guard) (d a : Reg) (op : ScanOp)
  | dist (g : Guard) (d a b : Reg) (t : DistTy) (m : DistMetric)
  | topk (g : Guard) (d a b : Reg) (desc : Bool)
  -- scratchpad and barriers (0x25 to 0x28)
  | lds (g : Guard) (d a : Reg) (ord : Ord4) (scp : Scope) (w : Width) (ch : CacheHint)
  | sts (g : Guard) (d a : Reg) (ord : Ord4) (scp : Scope) (w : Width) (ch : CacheHint)
  | atoms (g : Guard) (d a b : Reg) (op : AtomsOp)
  | bara (g : Guard) (b : BitVec 4)
  | barw (g : Guard) (b : BitVec 4)
  | bars (g : Guard) (b : BitVec 4)
  | barc (g : Guard) (a : Reg) (b : BitVec 4)
  -- global memory (0x29 to 0x2F)
  | ldg (g : Guard) (d a : Reg) (ord : Ord4) (scp : Scope) (w : Width) (ch : CacheHint)
  | stg (g : Guard) (d a : Reg) (ord : Ord4) (scp : Scope) (w : Width) (ch : CacheHint)
  | stgMsg (g : Guard) (d a : Reg) (ord : Ord4) (scp : Scope) (w : Width) (ch : CacheHint)
  | stgClrpoison (g : Guard) (d a : Reg) (ord : Ord4) (scp : Scope) (w : Width) (ch : CacheHint)
  | pref (g : Guard) (a : Reg) (scp : Scope) (w : Width) (ch : CacheHint)
  | atom (g : Guard) (d a : Reg) (ord : Ord4) (scp : Scope) (op : AtomOp)
  | redm (g : Guard) (d a : Reg) (ord : Ord4) (scp : Scope) (op : AtomOp)
  | waitc (g : Guard) (d a : Reg) (ord : Ord4) (scp : Scope) (c : WCond) (w64 : Bool)
  | scatb (g : Guard) (a b : Reg)
  | scatf (g : Guard) (d a : Reg)
  -- queue registers, waits (0x30 to 0x32)
  | qpush (g : Guard) (k : BitVec 4) (a : Reg)
  | qpop (g : Guard) (d : Reg) (k : BitVec 4)
  | qtry (g : Guard) (d : Reg) (k : BitVec 4)
  | qcnt (g : Guard) (d : Reg) (k : BitVec 4)
  | waitn (g : Guard) (ld st cp tl : BitVec 5)
  | sleept (g : Guard) (a : Reg)
  -- matrix (0x33 to 0x36)
  | signset (g : Guard) (c : BitVec 3) (a b : Reg)
  | signclr (g : Guard) (c : BitVec 3)
  | mmq (g : Guard) (c acc : BitVec 3) (sa vb : Reg) (t : MmqTy)
  | accz (g : Guard) (t : BitVec 3)
  | accrd (g : Guard) (d a : Reg) (t : BitVec 3)
  | accwr (g : Guard) (d a : Reg) (t : BitVec 3)
  | acccv (g : Guard) (a : Reg) (t : BitVec 3)
  | mdrain (g : Guard) (a : Reg)
  | mrest (g : Guard) (a : Reg)
  | mstat (g : Guard) (d a : Reg)
  -- fixed-star regions, token, steps (0x37 to 0x39)
  | freeze (g : Guard) (d a b : Reg)
  | thaw (g : Guard) (d a : Reg)
  | fquery (g : Guard) (d a : Reg)
  | tokw (g : Guard)
  | tokp (g : Guard)
  | stepp (g : Guard) (d a b : Reg)
  | stepr (g : Guard) (d a b : Reg)
  | stepq (g : Guard) (d b : Reg)
  -- hint words (R25, R26)
  | ximm (p : BitVec 24)
  | xop (p : BitVec 24)
  | mod (inv msg clr sat : Bool) (rm : Rnd)
  | sched (yld : Bool) (reuse stall : BitVec 4)
  | xoff (p : BitVec 24)
  -- events: faults, waves, matrix, copies, waits
  | faultRecordPost (k : Nat)
  | waveEnd (w : Nat)
  | mmqIssue (q : Nat)
  | mmqCommit (q : Nat) (c : MmqCheck)
  | tilesOperationComplete (k : Nat)
  | copyCompletion (k : Nat) (inp : CopyInput)
  | sleeptWake (w : Nat)
  | waitcRelease (w lane : Nat)
  | waitcTimeout (w lane : Nat)
  | monitorPoll (w lane : Nat)
  | waveSwapOut (w : Nat)
  | waveReturn (w : Nat)
  | watchArm (i : Nat)
  | watchDisarm (i : Nat)
  | watchFire (i : Nat)
  -- events: mapping port and ring; `q` names the issuer's queue
  | codePageScan (k : Nat)
  | map (q : Nat)
  | unmap (q : Nat)
  | protect (q : Nat)
  | split (q : Nat)
  | unfix (q : Nat)
  | resolve (q : Nat)
  | asidnew (q : Nat)
  | asidfree (q : Nat)
  | mappingCompletion (q : Nat)
  -- events: freeze, replicas, death
  | freezeComplete (k : Nat)
  | replicaMake (page dev : Nat)
  | replicaDrop (page dev : Nat)
  | replicaCollect (page dev : Nat)
  | thawComplete (page : Nat)
  | agentDeath (a : Agent)
  -- events: determinism, launch, completion
  | stageRelease (t : Nat)
  | deterministicWatchdog (t : Nat)
  | phaseEnd (p : Nat)
  | gridCompletion (k : Nat)
  | mailboxMessage (m : MsgSource)
  | launch (m : Nat)
  | scratchpadAllotmentCleared (t : Nat)
  -- events: pre-emption, test, fatal
  | partitionHalt (p : Nat)
  | contextSave (p : Nat)
  | contextRestore (p : Nat)
  | nopreOverrun (w : Nat)
  | inFieldTest (p : Nat)
  | vesperBankTest (p bank : Nat)
  | inFieldTestResult (p : Nat) (pass : Bool)
  | throttleHalving (p : Nat)
  -- events: power
  | stallSample (c : Nat) (x : Sample)
  | clockSwitch (c : Nat)
  | crossingResync (c : Nat)
  | levelChangeComplete (c : Nat)
  | perfqHoldExpiry (c : Nat)
  | powerLimitCheck (watts : Nat)
  | heatReductionFall (c : Nat)
  -- events: host, device states
  | hostSnoop (line : Nat)
  | spdmRequest (nonce : Nat)
  | peerLeave (p : Nat)
  | commandRingEnable (en : Bool)
  | commandRingTail (v : BitVec 16)
  | registerWrite (r : HostReg) (v : DWord)
  -- events: Orrery
  | ecallWait (e limit : Nat)
  | ecallExit (e : Nat) (code : DWord)
  | ecallYield (e : Nat)
  | ecallOther (e : Nat)
  | episodeWaitLimit (e : Nat)
  | episodeQuantum (e : Nat)
  | episodeAccessDenied (e : Nat)
  | episodeException (e : Nat)
  | observationPost (p : Nat)
  | stepWatchdog (e : Nat)
  -- events: completions outside the wave
  | storeCompletion (k : Nat)
  | atomicCompletion (w lane : Nat)
  | asynchronousEngineFault (o : EngineOp)
  | hostOrPeerRequest (r : OutsideReq)
  | powerLimitSet (watts : Nat)
  | fatalError
  -- the events without an operand, last so that every constructor with one can be compiled
  | teamPlacement
  | hostLinkLoss
  | reset
  | powerGating
  | mbbind
  | mbfree
  | swbind
  | swfree
  | scrub
  | kill
  | inject
  | preempt
  | epnew
  | epgo
  | epkill
  | epfree
  | pairbind
  | pairfree
  | epbudget
  deriving DecidableEq, Repr

end Sys2Proof
end

