-- ==== Sys2Proof/Decode.lean ====
section
/-! DEFINITION. Decoding of one 32-bit word (R19, R22 to R34) and the encoder written from the same tables. A word
is laid out as guard [31:28], major [27:22], d [21:16], a [15:10] and low [9:0]; every format of R22 divides these
parts further. Every reserved or must-be-zero value is refused. -/

namespace Sys2Proof

/-! ### Layout -/

/-- A word from its parts (R19, R22). -/
def layout (g : Guard) (maj : BitVec 6) (d a : BitVec 6) (low : BitVec 10) : Word :=
  g ++ maj ++ d ++ a ++ low

/-- Guard bits [31:28] (R19). -/
def guardOf (w : Word) : Guard := w.extractLsb' 28 4
/-- Major opcode [27:22] (R19). -/
def majorOf (w : Word) : BitVec 6 := w.extractLsb' 22 6
/-- Field d [21:16] (R22). -/
def dOf (w : Word) : BitVec 6 := w.extractLsb' 16 6
/-- Field a [15:10] (R22). -/
def aOf (w : Word) : BitVec 6 := w.extractLsb' 10 6
/-- Bits [9:0]: b and f, imm10, or the M and A formats' small fields (R22). -/
def lowOf (w : Word) : BitVec 10 := w.extractLsb' 0 10

/-- Bits [9:4] and [3:0] of `low` (R format). -/
def rLow (b : BitVec 6) (f : BitVec 4) : BitVec 10 := b ++ f
def bOf (l : BitVec 10) : BitVec 6 := l.extractLsb' 4 6
def fOf (l : BitVec 10) : BitVec 4 := l.extractLsb' 0 4
/-- ord, scp, w, ch of the M format. -/
def mLow (o : BitVec 2) (s w : BitVec 3) (h : BitVec 2) : BitVec 10 := o ++ s ++ w ++ h
/-- ord, scp, op of the A format. -/
def aLow (o : BitVec 2) (s : BitVec 3) (p : BitVec 5) : BitVec 10 := o ++ s ++ p
def ordOf (l : BitVec 10) : BitVec 2 := l.extractLsb' 8 2
def scpOf (l : BitVec 10) : BitVec 3 := l.extractLsb' 5 3
def widOf (l : BitVec 10) : BitVec 3 := l.extractLsb' 2 3
def chOf (l : BitVec 10) : BitVec 2 := l.extractLsb' 0 2
def opOf (l : BitVec 10) : BitVec 5 := l.extractLsb' 0 5

/-! ### Codes of the enumerated fields -/

def Ord4.code : Ord4 → BitVec 2
  | .none => 0 | .acq => 1 | .rel => 2 | .acqrel => 3
def Ord4.ofCode (c : BitVec 2) : Ord4 :=
  match c.toNat with | 0 => .none | 1 => .acq | 2 => .rel | _ => .acqrel

def Scope.code : Scope → BitVec 3
  | .wave => 0 | .team => 1 | .cluster => 2 | .die => 3 | .device => 4 | .system => 5
def Scope.ofCode (c : BitVec 3) : Option Scope :=
  match c.toNat with
  | 0 => some .wave | 1 => some .team | 2 => some .cluster | 3 => some .die | 4 => some .device | 5 => some .system
  | _ => none

def Width.code : Width → BitVec 3
  | .b8 => 0 | .b16 => 1 | .b32 => 2 | .b64 => 3 | .b128 => 4
def Width.ofCode (c : BitVec 3) : Option Width :=
  match c.toNat with
  | 0 => some .b8 | 1 => some .b16 | 2 => some .b32 | 3 => some .b64 | 4 => some .b128 | _ => none

def CacheHint.code : CacheHint → BitVec 2
  | .normal => 0 | .stream => 1 | .noL1 => 2 | .lastUse => 3
def CacheHint.ofCode (c : BitVec 2) : CacheHint :=
  match c.toNat with | 0 => .normal | 1 => .stream | 2 => .noL1 | _ => .lastUse

def FTy.code : FTy → BitVec 2
  | .f32 => 0 | .f16x2 => 1 | .bf16x2 => 2
def FTy.ofCode (c : BitVec 2) : Option FTy :=
  match c.toNat with | 0 => some .f32 | 1 => some .f16x2 | 2 => some .bf16x2 | _ => none

def Rnd.code : Rnd → BitVec 3
  | .rne => 0 | .rtz => 1 | .rdn => 2 | .rup => 3 | .rna => 4
def Rnd.ofCode (c : BitVec 3) : Option Rnd :=
  match c.toNat with
  | 0 => some .rne | 1 => some .rtz | 2 => some .rdn | 3 => some .rup | 4 => some .rna | _ => none

def ShfKind.code : ShfKind → BitVec 2
  | .shl => 0 | .shr => 1 | .sar => 2 | .rotl => 3
def ShfKind.ofCode (c : BitVec 2) : ShfKind :=
  match c.toNat with | 0 => .shl | 1 => .shr | 2 => .sar | _ => .rotl

def MovsPart.code : MovsPart → BitVec 6
  | .low => 0 | .high => 1 | .pair => 2
def MovsPart.ofCode (c : BitVec 6) : Option MovsPart :=
  match c.toNat with | 0 => some .low | 1 => some .high | 2 => some .pair | _ => none

def ICond.code : ICond → BitVec 4
  | .eq => 0 | .ne => 1 | .lt => 2 | .le => 3 | .gt => 4 | .ge => 5 | .ltu => 6 | .leu => 7 | .gtu => 8 | .geu => 9
def ICond.ofCode (c : BitVec 4) : Option ICond :=
  match c.toNat with
  | 0 => some .eq | 1 => some .ne | 2 => some .lt | 3 => some .le | 4 => some .gt | 5 => some .ge
  | 6 => some .ltu | 7 => some .leu | 8 => some .gtu | 9 => some .geu | _ => none

def FCond.code : FCond → BitVec 4
  | .eq => 0 | .ne => 1 | .lt => 2 | .le => 3 | .gt => 4 | .ge => 5 | .uno => 6 | .ord => 7
  | .equ => 8 | .neu => 9 | .ltu => 10 | .leu => 11 | .gtu => 12 | .geu => 13
def FCond.ofCode (c : BitVec 4) : Option FCond :=
  match c.toNat with
  | 0 => some .eq | 1 => some .ne | 2 => some .lt | 3 => some .le | 4 => some .gt | 5 => some .ge
  | 6 => some .uno | 7 => some .ord | 8 => some .equ | 9 => some .neu | 10 => some .ltu | 11 => some .leu
  | 12 => some .gtu | 13 => some .geu | _ => none

def PlopOp.code : PlopOp → BitVec 4
  | .and => 0 | .or => 1 | .xor => 2 | .andn => 3 | .orn => 4 | .not => 5 | .mov => 6
def PlopOp.ofCode (c : BitVec 4) : Option PlopOp :=
  match c.toNat with
  | 0 => some .and | 1 => some .or | 2 => some .xor | 3 => some .andn | 4 => some .orn | 5 => some .not
  | 6 => some .mov | _ => none

/-- Bit of a Bool. -/
def bit1 (b : Bool) : BitVec 1 := BitVec.ofBool b

def B8Par.code (p : B8Par) : BitVec 6 := (0#1) ++ bit1 p.fin ++ bit1 p.uns ++ p.p
/-- The CVT b field as binary8 parameters (R33): P = 0 and b[5] = 1 are reserved. -/
def B8Par.ofCode (b : BitVec 6) : Option B8Par :=
  if b.getLsbD 5 || b.extractLsb' 0 3 == 0#3 then none
  else some { p := b.extractLsb' 0 3, uns := b.getLsbD 3, fin := b.getLsbD 4 }

/-- The f and b fields of CVT (R33). -/
def CvtOp.code : CvtOp → BitVec 10
  | .f32ToF16 => rLow 0 0 | .f32ToBf16 => rLow 0 1 | .f16ToF32 => rLow 0 2 | .bf16ToF32 => rLow 0 3
  | .f32ToB8 p => rLow p.code 4 | .b8ToF32 p => rLow p.code 5
  | .f32ToS32 => rLow 0 6 | .f32ToU32 => rLow 0 7 | .s32ToF32 => rLow 0 8 | .u32ToF32 => rLow 0 9
  | .f32ToS8 => rLow 0 10 | .f16x2ToB8x2 p => rLow p.code 11 | .frnd => rLow 0 12
def CvtOp.ofCode (l : BitVec 10) : Option CvtOp :=
  let z (o : CvtOp) : Option CvtOp := if bOf l == 0#6 then some o else none
  match (fOf l).toNat with
  | 0 => z .f32ToF16 | 1 => z .f32ToBf16 | 2 => z .f16ToF32 | 3 => z .bf16ToF32
  | 4 => (B8Par.ofCode (bOf l)).map .f32ToB8
  | 5 => (B8Par.ofCode (bOf l)).map .b8ToF32
  | 6 => z .f32ToS32 | 7 => z .f32ToU32 | 8 => z .s32ToF32 | 9 => z .u32ToF32 | 10 => z .f32ToS8
  | 11 => (B8Par.ofCode (bOf l)).map .f16x2ToB8x2
  | 12 => z .frnd
  | _ => none

def ShflMode.code : ShflMode → BitVec 4
  | .pick => 0 | .rot => 1 | .lead => 2 | .swap => 3
def ShflMode.ofCode (c : BitVec 4) : Option ShflMode :=
  match c.toNat with | 0 => some .pick | 1 => some .rot | 2 => some .lead | 3 => some .swap | _ => none

/-- f[3] type and f[1:0] operator of SCAN and WRED (R32). -/
def ScanOp.ty : ScanOp → BitVec 1
  | .addF | .minF | .maxF => 0 | .addS | .minS | .maxS | .orS => 1
def ScanOp.fn : ScanOp → BitVec 2
  | .addF | .addS => 0 | .minF | .minS => 1 | .maxF | .maxS => 2 | .orS => 3
def ScanOp.ofCode (ty : Bool) (fn : BitVec 2) : Option ScanOp :=
  match ty, fn.toNat with
  | false, 0 => some .addF | false, 1 => some .minF | false, 2 => some .maxF | false, _ => none
  | true, 0 => some .addS | true, 1 => some .minS | true, 2 => some .maxS | true, _ => some .orS

def DistTy.code : DistTy → BitVec 2
  | .f16 => 0 | .bf16 => 1 | .s8 => 2 | .b8p4 => 3
def DistTy.ofCode (c : BitVec 2) : DistTy :=
  match c.toNat with | 0 => .f16 | 1 => .bf16 | 2 => .s8 | _ => .b8p4
def DistMetric.code : DistMetric → BitVec 2
  | .l2 => 0 | .ip => 1 | .cos => 2 | .ham => 3
def DistMetric.ofCode (c : BitVec 2) : DistMetric :=
  match c.toNat with | 0 => .l2 | 1 => .ip | 2 => .cos | _ => .ham

def AtomsOp.code : AtomsOp → BitVec 4
  | .add => 0 | .min => 1 | .max => 2 | .umin => 3 | .umax => 4 | .and => 5 | .or => 6 | .xor => 7 | .exch => 8
  | .cas => 9 | .fadd => 10
def AtomsOp.ofCode (c : BitVec 4) : Option AtomsOp :=
  match c.toNat with
  | 0 => some .add | 1 => some .min | 2 => some .max | 3 => some .umin | 4 => some .umax | 5 => some .and
  | 6 => some .or | 7 => some .xor | 8 => some .exch | 9 => some .cas | 10 => some .fadd | _ => none

def AtomOp.code : AtomOp → BitVec 5
  | .add => 0 | .sub => 1 | .minS => 2 | .maxS => 3 | .minU => 4 | .maxU => 5 | .and => 6 | .or => 7 | .xor => 8
  | .exch => 9 | .cas => 10 | .incw => 11 | .decw => 12 | .addD => 13 | .exchD => 14 | .casD => 15
  | .faddF32 => 16 | .fminF32 => 17 | .fmaxF32 => 18 | .faddBf16 => 19 | .faddB8p4 => 20 | .faddB8p5 => 21
def AtomOp.ofCode (c : BitVec 5) : Option AtomOp :=
  match c.toNat with
  | 0 => some .add | 1 => some .sub | 2 => some .minS | 3 => some .maxS | 4 => some .minU | 5 => some .maxU
  | 6 => some .and | 7 => some .or | 8 => some .xor | 9 => some .exch | 10 => some .cas | 11 => some .incw
  | 12 => some .decw | 13 => some .addD | 14 => some .exchD | 15 => some .casD | 16 => some .faddF32
  | 17 => some .fminF32 | 18 => some .fmaxF32 | 19 => some .faddBf16 | 20 => some .faddB8p4
  | 21 => some .faddB8p5 | _ => none

/-- The ops that REDM may not name (R34). -/
def AtomOp.returnsOnly : AtomOp → Bool
  | .exch | .cas | .exchD | .casD => true
  | _ => false

def WCond.code : WCond → BitVec 3
  | .eq => 0 | .ne => 1 | .geu => 2 | .ltu => 3 | .ges => 4 | .lts => 5 | .anyset => 6 | .allclr => 7
def WCond.ofCode (c : BitVec 3) : WCond :=
  match c.toNat with
  | 0 => .eq | 1 => .ne | 2 => .geu | 3 => .ltu | 4 => .ges | 5 => .lts | 6 => .anyset | _ => .allclr

def MmqTy.code : MmqTy → BitVec 4
  | .b8 => 0 | .bf16 => 1 | .f16 => 2 | .s8 => 3
def MmqTy.ofCode (c : BitVec 4) : Option MmqTy :=
  match c.toNat with | 0 => some .b8 | 1 => some .bf16 | 2 => some .f16 | 3 => some .s8 | _ => none

/-! ### Decoding by major opcode -/

/-- Gives `x` when the condition holds; otherwise the word is refused. -/
def only (c : Bool) (x : Instr) : Option Instr := if c then some x else none

/-- SYS (R32, R313, R314, R184, R371). -/
def decodeSys (g : Guard) (d a : BitVec 6) (l : BitVec 10) : Option Instr :=
  let b := bOf l
  let z := d == 0#6 && a == 0#6 && b == 0#6
  match (fOf l).toNat with
  | 0 => only z (.nop g)
  | 1 => only (d == 0#6) (.trap g (a ++ b))
  | 2 => if b == 0#6 then only (d == 0#6 && a == 0#6) (.rte g) else only (d == 0#6 && b == 1#6) (.rteReg g a)
  | 3 => only z (.brk g)
  | 4 => only z (.yield g)
  | 5 => only z (.fend g)
  | 6 => only (a == 0#6 && b == 0#6) (.chkerr g d)
  | 7 => only z (.nopre g)
  | 8 => only z (.preon g)
  | 9 => only (b == 0#6) (.perfq g d a)
  | 10 => only (d == 0#6 && a.extractLsb' 2 4 == 0#4) (.livetile g (a.extractLsb' 0 2 ++ b))
  | 11 => only (d == 0#6 && b == 0#6) (.errinj g a)
  | _ => none

/-- IALU (R95). -/
def decodeIalu (g : Guard) (d a b : BitVec 6) (f : Nat) : Option Instr :=
  match f with
  | 0 => some (.iadd g d a b) | 1 => some (.isub g d a b) | 2 => some (.and g d a b) | 3 => some (.or g d a b)
  | 4 => some (.xor g d a b) | 5 => some (.andn g d a b) | 6 => some (.shl g d a b) | 7 => some (.shr g d a b)
  | 8 => some (.sar g d a b) | 9 => some (.rotl g d a b) | 10 => some (.imin g d a b) | 11 => some (.imax g d a b)
  | 12 => some (.umin g d a b) | 13 => some (.umax g d a b) | 14 => some (.iadds g d a b)
  | 15 => some (.iabsd g d a b) | _ => none

/-- IMUL, IBIT and I64 (R99 to R101). -/
def decodeImul (g : Guard) (d a b : BitVec 6) (f : Nat) : Option Instr :=
  match f with
  | 0 => some (.imul g d a b) | 1 => some (.imulhs g d a b) | 2 => some (.imulhu g d a b)
  | 3 => some (.imad g d a b) | 4 => some (.idp4s g d a b) | 5 => some (.idp4u g d a b) | _ => none
def decodeIbit (g : Guard) (d a b : BitVec 6) (f : Nat) : Option Instr :=
  match f with
  | 0 => only (b == 0#6) (.popc g d a) | 1 => only (b == 0#6) (.clz g d a) | 2 => only (b == 0#6) (.brev g d a)
  | 3 => some (.bfe g d a b) | 4 => some (.bfes g d a b) | 5 => some (.bfi g d a b) | 6 => some (.bpick g d a b)
  | _ => none
def decodeI64 (g : Guard) (d a b : BitVec 6) (f : Nat) : Option Instr :=
  match f with
  | 0 => some (.iadd64 g d a b) | 1 => some (.isub64 g d a b) | 2 => some (.lea64s0 g d a b)
  | 3 => some (.lea64s1 g d a b) | 4 => some (.lea64s2 g d a b) | 5 => some (.lea64s3 g d a b)
  | 6 => some (.imulw g d a b) | 7 => some (.shl64 g d a b) | 8 => some (.shr64 g d a b) | _ => none

/-- MOVX (R102). -/
def decodeMovx (g : Guard) (d a b : BitVec 6) (f : Nat) : Option Instr :=
  match f with
  | 0 => only (b.extractLsb' 1 5 == 0#5) (.mov g d a (b.getLsbD 0))
  | 1 => (MovsPart.ofCode b).map (.movs g d a)
  | 2 => only (b == 0#6 || b == 2#6) (.movsr g d a (b == 2#6))
  | 3 => only (d.extractLsb' 1 5 == 0#5 && b == 0#6) (.movsw g (d.getLsbD 0) a)
  | 4 => only (a == 0#6 && b == 0#6) (.movpw g d)
  | 5 => only (d == 0#6 && b == 0#6) (.movwp g a)
  | _ => none

/-- FADD to FMNX (R32). -/
def decodeFadd (g : Guard) (d a b : BitVec 6) (f : BitVec 4) : Option Instr :=
  (FTy.ofCode (f.extractLsb' 0 2)).bind fun t =>
    match (f.extractLsb' 2 2).toNat with
    | 0 => some (.fadd g d a b t) | 1 => some (.fsub g d a b t) | _ => none
def decodeFmul (g : Guard) (d a b : BitVec 6) (f : BitVec 4) : Option Instr :=
  (FTy.ofCode (f.extractLsb' 0 2)).bind fun t => only (f.extractLsb' 2 2 == 0#2) (.fmul g d a b t)
def decodeFma (g : Guard) (d a b : BitVec 6) (f : BitVec 4) : Option Instr :=
  (FTy.ofCode (f.extractLsb' 0 2)).map fun t =>
    match (f.extractLsb' 2 2).toNat with
    | 0 => .fma g d a b t | 1 => .fnma g d a b t | 2 => .fms g d a b t | _ => .fnms g d a b t
def decodeFmnx (g : Guard) (d a b : BitVec 6) (f : BitVec 4) : Option Instr :=
  (FTy.ofCode (f.extractLsb' 0 2)).map fun t =>
    match (f.extractLsb' 2 2).toNat with
    | 0 => .fmin g d a b t | 1 => .fmax g d a b t | 2 => .fminn g d a b t | _ => .fmaxn g d a b t

/-- SFU (R32). -/
def decodeSfu (g : Guard) (d a b : BitVec 6) (f : Nat) : Option Instr :=
  if b == 0#6 then
    match f with
    | 0 => some (.rcp g d a) | 1 => some (.rsq g d a) | 2 => some (.sqrt g d a) | 3 => some (.exp2 g d a)
    | 4 => some (.log2 g d a) | 5 => some (.sinpi g d a) | 6 => some (.cospi g d a) | 7 => some (.tanh g d a)
    | 8 => some (.fclass g d a) | _ => none
  else none

/-- VOTE (R32, R137). -/
def decodeVote (g : Guard) (d a b : BitVec 6) (f : Nat) : Option Instr :=
  if a.extractLsb' 3 3 == 0#3 then
    match f with
    | 0 => only (d.extractLsb' 3 3 == 0#3 && b == 0#6) (.voteAll g (d.extractLsb' 0 3) (a.extractLsb' 0 3))
    | 1 => only (d.extractLsb' 3 3 == 0#3 && b == 0#6) (.voteAny g (d.extractLsb' 0 3) (a.extractLsb' 0 3))
    | 2 => only (b.extractLsb' 1 5 == 0#5) (.voteBallot g d (a.extractLsb' 0 3) (b.getLsbD 0))
    | _ => none
  else none

/-- BAR (R80). -/
def decodeBar (g : Guard) (d a b : BitVec 6) (f : Nat) : Option Instr :=
  if d == 0#6 && b.extractLsb' 4 2 == 0#2 then
    match f with
    | 0 => only (a == 0#6) (.bara g (b.extractLsb' 0 4))
    | 1 => only (a == 0#6) (.barw g (b.extractLsb' 0 4))
    | 2 => only (a == 0#6) (.bars g (b.extractLsb' 0 4))
    | 3 => some (.barc g a (b.extractLsb' 0 4))
    | _ => none
  else none

/-- QOP (R187). -/
def decodeQop (g : Guard) (d a b : BitVec 6) (f : Nat) : Option Instr :=
  if b.extractLsb' 4 2 == 0#2 then
    match f with
    | 0 => only (d == 0#6) (.qpush g (b.extractLsb' 0 4) a)
    | 1 => only (a == 0#6) (.qpop g d (b.extractLsb' 0 4))
    | 2 => only (a == 0#6) (.qtry g d (b.extractLsb' 0 4))
    | 3 => only (a == 0#6) (.qcnt g d (b.extractLsb' 0 4))
    | _ => none
  else none

/-- ACC (R174). -/
def decodeAcc (g : Guard) (d a b : BitVec 6) (f : Nat) : Option Instr :=
  if b.extractLsb' 3 3 == 0#3 then
    match f with
    | 0 => only (d == 0#6 && a == 0#6) (.accz g (b.extractLsb' 0 3))
    | 1 => some (.accrd g d a (b.extractLsb' 0 3))
    | 2 => some (.accwr g d a (b.extractLsb' 0 3))
    | 3 => only (d == 0#6) (.acccv g a (b.extractLsb' 0 3))
    | _ => none
  else none

/-- A hint word by kind (R25, R26): kinds 5 to 15, rounding modes 5 to 7 and other non-zero bits are refused. -/
def decodeHint (w : Word) : Option Instr :=
  match (w.extractLsb' 24 4).toNat with
  | 0 => some (.ximm (w.extractLsb' 0 24))
  | 1 => some (.xop (w.extractLsb' 0 24))
  | 2 => if w.extractLsb' 7 17 == 0#17 then
      (Rnd.ofCode (w.extractLsb' 0 3)).map fun r =>
        .mod (w.getLsbD 6) (w.getLsbD 5) (w.getLsbD 4) (w.getLsbD 3) r
    else none
  | 3 => only (w.extractLsb' 9 15 == 0#15) (.sched (w.getLsbD 8) (w.extractLsb' 4 4) (w.extractLsb' 0 4))
  | 4 => some (.xoff (w.extractLsb' 0 24))
  | _ => none

/-- The M format's four small fields (R22, R23). -/
def decodeM (k : Ord4 → Scope → Width → CacheHint → Instr) (l : BitVec 10) : Option Instr :=
  (Scope.ofCode (scpOf l)).bind fun s => (Width.ofCode (widOf l)).map fun w =>
    k (Ord4.ofCode (ordOf l)) s w (CacheHint.ofCode (chOf l))

/-- An ordinary word, by its major opcode (R32). -/
def decodeOrdinary (g : Guard) (maj : Nat) (d a : BitVec 6) (l : BitVec 10) : Option Instr :=
  let b := bOf l
  let f := fOf l
  match maj with
  | 0x00 => decodeSys g d a l
  | 0x01 => some (.bra g (d ++ a ++ l))
  | 0x02 => some (.call g d (a ++ l))
  | 0x03 => match f.toNat with
    | 0 => only (d == 0#6 && b == 0#6) (.jmpi g a)
    | 1 => only (d == 0#6) (.calli g a b)
    | 2 => only (d == 0#6 && a == 0#6 && b == 0#6) (.ret g)
    | _ => none
  | 0x04 => some (.fork g d a l)
  | 0x05 => if d.extractLsb' 0 2 == 0#2 && a == 0#6 && b == 0#6 then
      match f.toNat with
      | 0 => some (.join g (d.extractLsb' 2 4)) | 1 => some (.waitj g (d.extractLsb' 2 4))
      | 2 => some (.jclr g (d.extractLsb' 2 4)) | _ => none
    else none
  | 0x06 => only (d.extractLsb' 2 4 == 0#4) (.loop g (d.extractLsb' 0 2) a l)
  | 0x07 => only (d == 0#6 && a == 0#6) (.ubr g l)
  | 0x08 => match f.toNat with
    | 0 => only (a == 0#6 && b == 0#6) (.popd g d)
    | 1 => some (.dpush g d a b)
    | 2 => only (b == 0#6) (.dcnt g d a)
    | _ => none
  | 0x09 => decodeIalu g d a b f.toNat
  | 0x0A => some (.iaddi g d a l)
  | 0x0B => some (.andi g d a l)
  | 0x0C => some (.ori g d a l)
  | 0x0D => some (.xori g d a l)
  | 0x0E => only (l.extractLsb' 5 3 == 0#3) (.shfi g d a (ShfKind.ofCode (l.extractLsb' 8 2)) (l.extractLsb' 0 5))
  | 0x0F => some (.movi g d (a ++ l))
  | 0x10 => some (.movhi g d (a ++ l))
  | 0x11 => decodeImul g d a b f.toNat
  | 0x12 => decodeIbit g d a b f.toNat
  | 0x13 => decodeI64 g d a b f.toNat
  | 0x14 => decodeMovx g d a b f.toNat
  | 0x15 => some (.sel g d a b (f.getLsbD 3) (f.extractLsb' 0 3))
  | 0x16 => (ICond.ofCode f).map (.icmp g (d.extractLsb' 3 3) (d.extractLsb' 0 3) a b)
  | 0x17 => (FCond.ofCode f).map (.fcmp g (d.extractLsb' 3 3) (d.extractLsb' 0 3) a b)
  | 0x18 => if a.extractLsb' 3 3 == 0#3 && b.extractLsb' 3 3 == 0#3 then
      (PlopOp.ofCode f).map
        (.plop g (d.extractLsb' 3 3) (d.extractLsb' 0 3) (a.extractLsb' 0 3) (b.extractLsb' 0 3))
    else none
  | 0x19 => decodeFadd g d a b f
  | 0x1A => decodeFmul g d a b f
  | 0x1B => decodeFma g d a b f
  | 0x1C => decodeFmnx g d a b f
  | 0x1D => (CvtOp.ofCode l).map (.cvt g d a)
  | 0x1E => decodeSfu g d a b f.toNat
  | 0x1F => (ShflMode.ofCode f).map (.shfl g d a b)
  | 0x20 => decodeVote g d a b f.toNat
  | 0x21 => if b == 0#6 then
      (ScanOp.ofCode (f.getLsbD 3) (f.extractLsb' 0 2)).map fun o => .scan g d a o (f.getLsbD 2)
    else none
  | 0x22 => if b == 0#6 && !f.getLsbD 2 then
      (ScanOp.ofCode (f.getLsbD 3) (f.extractLsb' 0 2)).map (.wred g d a)
    else none
  | 0x23 => some (.dist g d a b (DistTy.ofCode (f.extractLsb' 2 2)) (DistMetric.ofCode (f.extractLsb' 0 2)))
  | 0x24 => only (f.extractLsb' 1 3 == 0#3) (.topk g d a b (f.getLsbD 0))
  | 0x25 => decodeM (.lds g d a) l
  | 0x26 => decodeM (.sts g d a) l
  | 0x27 => (AtomsOp.ofCode f).map (.atoms g d a b)
  | 0x28 => decodeBar g d a b f.toNat
  | 0x29 => decodeM (.ldg g d a) l
  | 0x2A => decodeM (.stg g d a) l
  | 0x2B => if d == 0#6 && ordOf l == 0#2 then decodeM (fun _ s w h => .pref g a s w h) l else none
  | 0x2C => (Scope.ofCode (scpOf l)).bind fun s =>
      (AtomOp.ofCode (opOf l)).map (.atom g d a (Ord4.ofCode (ordOf l)) s)
  | 0x2D => (Scope.ofCode (scpOf l)).bind fun s => (AtomOp.ofCode (opOf l)).bind fun o =>
      only (!o.returnsOnly) (.redm g d a (Ord4.ofCode (ordOf l)) s o)
  | 0x2E => (Scope.ofCode (scpOf l)).bind fun s =>
      only (!l.getLsbD 1)
        (.waitc g d a (Ord4.ofCode (ordOf l)) s (WCond.ofCode (widOf l)) (l.getLsbD 0))
  | 0x2F => match f.toNat with
    | 0 => only (d == 0#6) (.scatb g a b)
    | 1 => only (b == 0#6) (.scatf g d a)
    | _ => none
  | 0x30 => decodeQop g d a b f.toNat
  | 0x31 => only (l.extractLsb' 0 2 == 0#2)
      (.waitn g (d.extractLsb' 1 5) (d.extractLsb' 0 1 ++ a.extractLsb' 2 4)
        (a.extractLsb' 0 2 ++ l.extractLsb' 7 3) (l.extractLsb' 2 5))
  | 0x32 => only (d == 0#6 && b == 0#6 && f == 0#4) (.sleept g a)
  | 0x33 => if d.extractLsb' 3 3 == 0#3 then
      match f.toNat with
      | 0 => some (.signset g (d.extractLsb' 0 3) a b)
      | 1 => only (a == 0#6 && b == 0#6) (.signclr g (d.extractLsb' 0 3))
      | _ => none
    else none
  | 0x34 => (MmqTy.ofCode f).map (.mmq g (d.extractLsb' 3 3) (d.extractLsb' 0 3) a b)
  | 0x35 => decodeAcc g d a b f.toNat
  | 0x36 => if b == 0#6 then
      match f.toNat with
      | 0 => only (d == 0#6) (.mdrain g a) | 1 => only (d == 0#6) (.mrest g a) | 2 => some (.mstat g d a)
      | _ => none
    else none
  | 0x37 => match f.toNat with
    | 0 => some (.freeze g d a b)
    | 1 => only (b == 0#6) (.thaw g d a)
    | 2 => only (b == 0#6) (.fquery g d a)
    | _ => none
  | 0x38 => if d == 0#6 && a == 0#6 && b == 0#6 then
      match f.toNat with | 0 => some (.tokw g) | 1 => some (.tokp g) | _ => none
    else none
  | 0x39 => match f.toNat with
    | 0 => some (.stepp g d a b) | 1 => some (.stepr g d a b) | 2 => only (a == 0#6) (.stepq g d b) | _ => none
  | _ => none

/-- The instruction a word encodes: N = 1 and G = 7 mark a hint word (R19). -/
def decode (w : Word) : Option Instr :=
  if guardOf w == 0xF#4 then decodeHint w
  else decodeOrdinary (guardOf w) (majorOf w).toNat (dOf w) (aOf w) (lowOf w)

/-! ### Fetching a word's bytes -/

/-- A word from its four bytes, lowest address first (R9). -/
def wordOfBytes (b0 b1 b2 b3 : Byte) : Word := b3 ++ b2 ++ b1 ++ b0

/-- The four bytes of a word, lowest address first (R9). -/
def bytesOfWord (w : Word) : List Byte :=
  [w.extractLsb' 0 8, w.extractLsb' 8 8, w.extractLsb' 16 8, w.extractLsb' 24 8]

/-- What the decoder reads from the one word of an instruction (every instruction of the table is one word, R10). -/
def decodeTableWord (nbits w : Nat) : Option Instr :=
  if nbits ≤ 32 then
    match bytesOfWord (BitVec.ofNat 32 w) with
    | [b0, b1, b2, b3] => decode (wordOfBytes b0 b1 b2 b3)
    | _ => none
  else none

/-! ### Encoding -/

/-- An R-format word. -/
def encR (g : Guard) (maj : BitVec 6) (d a b : BitVec 6) (f : BitVec 4) : Word := layout g maj d a (rLow b f)
/-- A predicate in a register-sized field (R23). -/
def predField (p : PredNo) : BitVec 6 := (0#3) ++ p
/-- A barrier, queue or tile number in field b. -/
def b4Field (b : BitVec 4) : BitVec 6 := (0#2) ++ b

/-- The word of an instruction. STG under a MOD hint is the word of STG (R45); an event has no word and gives 0. -/
def encode : Instr → Word
  | .nop g => encR g 0x00 0 0 0 0
  | .trap g c => encR g 0x00 0 (c.extractLsb' 6 6) (c.extractLsb' 0 6) 1
  | .rte g => encR g 0x00 0 0 0 2
  | .rteReg g a => encR g 0x00 0 a 1 2
  | .brk g => encR g 0x00 0 0 0 3
  | .yield g => encR g 0x00 0 0 0 4
  | .fend g => encR g 0x00 0 0 0 5
  | .chkerr g d => encR g 0x00 d 0 0 6
  | .nopre g => encR g 0x00 0 0 0 7
  | .preon g => encR g 0x00 0 0 0 8
  | .perfq g d a => encR g 0x00 d a 0 9
  | .livetile g m => encR g 0x00 0 ((0#4) ++ m.extractLsb' 6 2) (m.extractLsb' 0 6) 10
  | .errinj g a => encR g 0x00 0 a 0 11
  | .bra g o => layout g 0x01 (o.extractLsb' 16 6) (o.extractLsb' 10 6) (o.extractLsb' 0 10)
  | .call g s o => layout g 0x02 s (o.extractLsb' 10 6) (o.extractLsb' 0 10)
  | .jmpi g a => encR g 0x03 0 a 0 0
  | .calli g a s => encR g 0x03 0 a s 1
  | .ret g => encR g 0x03 0 0 0 2
  | .fork g d a i => layout g 0x04 d a i
  | .join g j => encR g 0x05 (j ++ (0#2)) 0 0 0
  | .waitj g j => encR g 0x05 (j ++ (0#2)) 0 0 1
  | .jclr g j => encR g 0x05 (j ++ (0#2)) 0 0 2
  | .loop g c a i => layout g 0x06 ((0#4) ++ c) a i
  | .ubr g i => layout g 0x07 0 0 i
  | .popd g d => encR g 0x08 d 0 0 0
  | .dpush g d a b => encR g 0x08 d a b 1
  | .dcnt g d a => encR g 0x08 d a 0 2
  | .iadd g d a b => encR g 0x09 d a b 0
  | .isub g d a b => encR g 0x09 d a b 1
  | .and g d a b => encR g 0x09 d a b 2
  | .or g d a b => encR g 0x09 d a b 3
  | .xor g d a b => encR g 0x09 d a b 4
  | .andn g d a b => encR g 0x09 d a b 5
  | .shl g d a b => encR g 0x09 d a b 6
  | .shr g d a b => encR g 0x09 d a b 7
  | .sar g d a b => encR g 0x09 d a b 8
  | .rotl g d a b => encR g 0x09 d a b 9
  | .imin g d a b => encR g 0x09 d a b 10
  | .imax g d a b => encR g 0x09 d a b 11
  | .umin g d a b => encR g 0x09 d a b 12
  | .umax g d a b => encR g 0x09 d a b 13
  | .iadds g d a b => encR g 0x09 d a b 14
  | .iabsd g d a b => encR g 0x09 d a b 15
  | .iaddi g d a i => layout g 0x0A d a i
  | .andi g d a i => layout g 0x0B d a i
  | .ori g d a i => layout g 0x0C d a i
  | .xori g d a i => layout g 0x0D d a i
  | .shfi g d a k n => layout g 0x0E d a (k.code ++ (0#3) ++ n)
  | .movi g d i => layout g 0x0F d (i.extractLsb' 10 6) (i.extractLsb' 0 10)
  | .movhi g d i => layout g 0x10 d (i.extractLsb' 10 6) (i.extractLsb' 0 10)
  | .imul g d a b => encR g 0x11 d a b 0
  | .imulhs g d a b => encR g 0x11 d a b 1
  | .imulhu g d a b => encR g 0x11 d a b 2
  | .imad g d a b => encR g 0x11 d a b 3
  | .idp4s g d a b => encR g 0x11 d a b 4
  | .idp4u g d a b => encR g 0x11 d a b 5
  | .popc g d a => encR g 0x12 d a 0 0
  | .clz g d a => encR g 0x12 d a 0 1
  | .brev g d a => encR g 0x12 d a 0 2
  | .bfe g d a b => encR g 0x12 d a b 3
  | .bfes g d a b => encR g 0x12 d a b 4
  | .bfi g d a b => encR g 0x12 d a b 5
  | .bpick g d a b => encR g 0x12 d a b 6
  | .iadd64 g d a b => encR g 0x13 d a b 0
  | .isub64 g d a b => encR g 0x13 d a b 1
  | .lea64s0 g d a b => encR g 0x13 d a b 2
  | .lea64s1 g d a b => encR g 0x13 d a b 3
  | .lea64s2 g d a b => encR g 0x13 d a b 4
  | .lea64s3 g d a b => encR g 0x13 d a b 5
  | .imulw g d a b => encR g 0x13 d a b 6
  | .shl64 g d a b => encR g 0x13 d a b 7
  | .shr64 g d a b => encR g 0x13 d a b 8
  | .mov g d a p => encR g 0x14 d a ((0#5) ++ bit1 p) 0
  | .movs g d a p => encR g 0x14 d a p.code 1
  | .movsr g d a p => encR g 0x14 d a ((0#4) ++ bit1 p ++ (0#1)) 2
  | .movsw g c a => encR g 0x14 ((0#5) ++ bit1 c) a 0 3
  | .movpw g d => encR g 0x14 d 0 0 4
  | .movwp g a => encR g 0x14 0 a 0 5
  | .sel g d a b n p => encR g 0x15 d a b (bit1 n ++ p)
  | .icmp g pd pe a b c => encR g 0x16 (pd ++ pe) a b c.code
  | .fcmp g pd pe a b c => encR g 0x17 (pd ++ pe) a b c.code
  | .plop g pd pe x y o => encR g 0x18 (pd ++ pe) (predField x) (predField y) o.code
  | .fadd g d a b t => encR g 0x19 d a b ((0#2) ++ t.code)
  | .fsub g d a b t => encR g 0x19 d a b ((1#2) ++ t.code)
  | .fmul g d a b t => encR g 0x1A d a b ((0#2) ++ t.code)
  | .fma g d a b t => encR g 0x1B d a b ((0#2) ++ t.code)
  | .fnma g d a b t => encR g 0x1B d a b ((1#2) ++ t.code)
  | .fms g d a b t => encR g 0x1B d a b ((2#2) ++ t.code)
  | .fnms g d a b t => encR g 0x1B d a b ((3#2) ++ t.code)
  | .fmin g d a b t => encR g 0x1C d a b ((0#2) ++ t.code)
  | .fmax g d a b t => encR g 0x1C d a b ((1#2) ++ t.code)
  | .fminn g d a b t => encR g 0x1C d a b ((2#2) ++ t.code)
  | .fmaxn g d a b t => encR g 0x1C d a b ((3#2) ++ t.code)
  | .cvt g d a o => layout g 0x1D d a o.code
  | .rcp g d a => encR g 0x1E d a 0 0
  | .rsq g d a => encR g 0x1E d a 0 1
  | .sqrt g d a => encR g 0x1E d a 0 2
  | .exp2 g d a => encR g 0x1E d a 0 3
  | .log2 g d a => encR g 0x1E d a 0 4
  | .sinpi g d a => encR g 0x1E d a 0 5
  | .cospi g d a => encR g 0x1E d a 0 6
  | .tanh g d a => encR g 0x1E d a 0 7
  | .fclass g d a => encR g 0x1E d a 0 8
  | .shfl g d a b m => encR g 0x1F d a b m.code
  | .voteAll g p q => encR g 0x20 (predField p) (predField q) 0 0
  | .voteAny g p q => encR g 0x20 (predField p) (predField q) 0 1
  | .voteBallot g d q h => encR g 0x20 d (predField q) ((0#5) ++ bit1 h) 2
  | .scan g d a o e => encR g 0x21 d a 0 (o.ty ++ bit1 e ++ o.fn)
  | .wred g d a o => encR g 0x22 d a 0 (o.ty ++ (0#1) ++ o.fn)
  | .dist g d a b t m => encR g 0x23 d a b (t.code ++ m.code)
  | .topk g d a b o => encR g 0x24 d a b ((0#3) ++ bit1 o)
  | .lds g d a o s w h => layout g 0x25 d a (mLow o.code s.code w.code h.code)
  | .sts g d a o s w h => layout g 0x26 d a (mLow o.code s.code w.code h.code)
  | .atoms g d a b o => encR g 0x27 d a b o.code
  | .bara g b => encR g 0x28 0 0 (b4Field b) 0
  | .barw g b => encR g 0x28 0 0 (b4Field b) 1
  | .bars g b => encR g 0x28 0 0 (b4Field b) 2
  | .barc g a b => encR g 0x28 0 a (b4Field b) 3
  | .ldg g d a o s w h => layout g 0x29 d a (mLow o.code s.code w.code h.code)
  | .stg g d a o s w h => layout g 0x2A d a (mLow o.code s.code w.code h.code)
  | .stgMsg g d a o s w h => layout g 0x2A d a (mLow o.code s.code w.code h.code)
  | .stgClrpoison g d a o s w h => layout g 0x2A d a (mLow o.code s.code w.code h.code)
  | .pref g a s w h => layout g 0x2B 0 a (mLow 0 s.code w.code h.code)
  | .atom g d a o s p => layout g 0x2C d a (aLow o.code s.code p.code)
  | .redm g d a o s p => layout g 0x2D d a (aLow o.code s.code p.code)
  | .waitc g d a o s c w => layout g 0x2E d a (aLow o.code s.code (c.code ++ (0#1) ++ bit1 w))
  | .scatb g a b => encR g 0x2F 0 a b 0
  | .scatf g d a => encR g 0x2F d a 0 1
  | .qpush g k a => encR g 0x30 0 a (b4Field k) 0
  | .qpop g d k => encR g 0x30 d 0 (b4Field k) 1
  | .qtry g d k => encR g 0x30 d 0 (b4Field k) 2
  | .qcnt g d k => encR g 0x30 d 0 (b4Field k) 3
  | .waitn g ld st cp tl =>
    layout g 0x31 (ld ++ st.extractLsb' 4 1) (st.extractLsb' 0 4 ++ cp.extractLsb' 3 2)
      (cp.extractLsb' 0 3 ++ tl ++ (0#2))
  | .sleept g a => encR g 0x32 0 a 0 0
  | .signset g c a b => encR g 0x33 (predField c) a b 0
  | .signclr g c => encR g 0x33 (predField c) 0 0 1
  | .mmq g c x a b t => encR g 0x34 (c ++ x) a b t.code
  | .accz g t => encR g 0x35 0 0 (predField t) 0
  | .accrd g d a t => encR g 0x35 d a (predField t) 1
  | .accwr g d a t => encR g 0x35 d a (predField t) 2
  | .acccv g a t => encR g 0x35 0 a (predField t) 3
  | .mdrain g a => encR g 0x36 0 a 0 0
  | .mrest g a => encR g 0x36 0 a 0 1
  | .mstat g d a => encR g 0x36 d a 0 2
  | .freeze g d a b => encR g 0x37 d a b 0
  | .thaw g d a => encR g 0x37 d a 0 1
  | .fquery g d a => encR g 0x37 d a 0 2
  | .tokw g => encR g 0x38 0 0 0 0
  | .tokp g => encR g 0x38 0 0 0 1
  | .stepp g d a b => encR g 0x39 d a b 0
  | .stepr g d a b => encR g 0x39 d a b 1
  | .stepq g d b => encR g 0x39 d 0 b 2
  | .ximm p => 0xF0#8 ++ p
  | .xop p => 0xF1#8 ++ p
  | .mod inv msg clr sat rm => 0xF2#8 ++ (0#17) ++ bit1 inv ++ bit1 msg ++ bit1 clr ++ bit1 sat ++ rm.code
  | .sched y u t => 0xF3#8 ++ (0#15) ++ bit1 y ++ u ++ t
  | .xoff p => 0xF4#8 ++ p
  | _ => 0

/-- Whether an instruction is an ordinary word or a hint word, and no event (spec/opcode_table.json rows 0 to 156). -/
def Instr.guard? : Instr → Option Guard
  | .nop g | .trap g _ | .rte g | .rteReg g _ | .brk g | .yield g | .fend g | .chkerr g _ | .nopre g | .preon g
  | .perfq g _ _ | .livetile g _ | .errinj g _ | .bra g _ | .call g _ _ | .jmpi g _ | .calli g _ _ | .ret g
  | .fork g _ _ _ | .join g _ | .waitj g _ | .jclr g _ | .loop g _ _ _ | .ubr g _ | .popd g _ | .dpush g _ _ _
  | .dcnt g _ _ | .iadd g _ _ _ | .isub g _ _ _ | .and g _ _ _ | .or g _ _ _ | .xor g _ _ _ | .andn g _ _ _
  | .shl g _ _ _ | .shr g _ _ _ | .sar g _ _ _ | .rotl g _ _ _ | .imin g _ _ _ | .imax g _ _ _ | .umin g _ _ _
  | .umax g _ _ _ | .iadds g _ _ _ | .iabsd g _ _ _ | .iaddi g _ _ _ | .andi g _ _ _ | .ori g _ _ _
  | .xori g _ _ _ | .shfi g _ _ _ _ | .movi g _ _ | .movhi g _ _ | .imul g _ _ _ | .imulhs g _ _ _
  | .imulhu g _ _ _ | .imad g _ _ _ | .idp4s g _ _ _ | .idp4u g _ _ _ | .popc g _ _ | .clz g _ _ | .brev g _ _
  | .bfe g _ _ _ | .bfes g _ _ _ | .bfi g _ _ _ | .bpick g _ _ _ | .iadd64 g _ _ _ | .isub64 g _ _ _
  | .lea64s0 g _ _ _ | .lea64s1 g _ _ _ | .lea64s2 g _ _ _ | .lea64s3 g _ _ _ | .imulw g _ _ _ | .shl64 g _ _ _
  | .shr64 g _ _ _ | .mov g _ _ _ | .movs g _ _ _ | .movsr g _ _ _ | .movsw g _ _ | .movpw g _ | .movwp g _
  | .sel g _ _ _ _ _ | .icmp g _ _ _ _ _ | .fcmp g _ _ _ _ _ | .plop g _ _ _ _ _ | .fadd g _ _ _ _
  | .fsub g _ _ _ _ | .fmul g _ _ _ _ | .fma g _ _ _ _ | .fnma g _ _ _ _ | .fms g _ _ _ _ | .fnms g _ _ _ _
  | .fmin g _ _ _ _ | .fmax g _ _ _ _ | .fminn g _ _ _ _ | .fmaxn g _ _ _ _ | .cvt g _ _ _ | .rcp g _ _
  | .rsq g _ _ | .sqrt g _ _ | .exp2 g _ _ | .log2 g _ _ | .sinpi g _ _ | .cospi g _ _ | .tanh g _ _
  | .fclass g _ _ | .shfl g _ _ _ _ | .voteAll g _ _ | .voteAny g _ _ | .voteBallot g _ _ _ | .scan g _ _ _ _
  | .wred g _ _ _ | .dist g _ _ _ _ _ | .topk g _ _ _ _ | .lds g _ _ _ _ _ _ | .sts g _ _ _ _ _ _
  | .atoms g _ _ _ _ | .bara g _ | .barw g _ | .bars g _ | .barc g _ _ | .ldg g _ _ _ _ _ _
  | .stg g _ _ _ _ _ _ | .stgMsg g _ _ _ _ _ _ | .stgClrpoison g _ _ _ _ _ _ | .pref g _ _ _ _
  | .atom g _ _ _ _ _ | .redm g _ _ _ _ _ | .waitc g _ _ _ _ _ _ | .scatb g _ _ | .scatf g _ _ | .qpush g _ _
  | .qpop g _ _ | .qtry g _ _ | .qcnt g _ _ | .waitn g _ _ _ _ | .sleept g _ | .signset g _ _ _ | .signclr g _
  | .mmq g _ _ _ _ _ | .accz g _ | .accrd g _ _ _ | .accwr g _ _ _ | .acccv g _ _ | .mdrain g _ | .mrest g _
  | .mstat g _ _ | .freeze g _ _ _ | .thaw g _ _ | .fquery g _ _ | .tokw g | .tokp g | .stepp g _ _ _
  | .stepr g _ _ _ | .stepq g _ _ => some g
  | _ => none

/-- A hint word (R25). -/
def Instr.isHint : Instr → Bool
  | .ximm _ | .xop _ | .mod .. | .sched .. | .xoff _ => true
  | _ => false

/-! ### What the scanner refuses (R24, R35) -/

/-- An even register field. -/
def evenReg (r : Reg) : Bool := !r.getLsbD 0

/-- Elements of a DIST register (R140). -/
def DistTy.perReg : DistTy → Nat
  | .f16 | .bf16 => 2 | .s8 | .b8p4 => 4

/-- Whether a data operand of a width may start at register d (R24). -/
def Width.fits (w : Width) (d : Reg) : Bool :=
  match w with
  | .b64 => evenReg d
  | .b128 => d.extractLsb' 0 2 == 0#2
  | _ => true

/-- Whether the data operand of ATOM and REDM may start at register d (R24, R238). -/
def AtomOp.fits (o : AtomOp) (d : Reg) : Bool :=
  match o with
  | .addD | .exchD => evenReg d
  | .casD => evenReg d && decide (d.toNat ≤ 60)
  | .cas => decide (d.toNat ≤ 62)
  | _ => true

/-- Reserved binary8 parameters (R33). -/
def CvtOp.parOk : CvtOp → Bool
  | .f32ToB8 p | .b8ToF32 p | .f16x2ToB8x2 p => p.p != 0#3
  | _ => true

/-- Field values that a form may hold (R35 reason 3; the reserved ops of REDM are reason 2, a MOD that mixes MSG or
CLRPOISON with another bit is reason 6). -/
def Instr.limits : Instr → Bool
  | .loop _ c _ imm => c != 3#2 && decide (1 ≤ imm.toNat ∧ imm.toNat ≤ 256)
  | .topk _ d _ _ _ => evenReg d
  | .plop _ _ _ _ y o => match o with | .not | .mov => y == 0#3 | _ => true
  | .movsr _ _ a p => !(p && a == 63#6)
  | .cvt _ _ _ o => o.parOk
  | .redm _ _ _ _ _ o => !o.returnsOnly
  | .mod inv msg clr sat rm => !((msg || clr) && (inv || sat || rm != .rne))
  | _ => true

/-- Whether every operand of several registers is aligned and ends at v63 or below, for a DIST of n dimensions (R24,
R140; R35 reason 4). -/
def Instr.pairsOk (n : Nat) : Instr → Bool
  | .iadd64 _ d a b | .isub64 _ d a b | .freeze _ d a b => evenReg d && evenReg a && evenReg b
  | .lea64s0 _ d a _ | .lea64s1 _ d a _ | .lea64s2 _ d a _ | .lea64s3 _ d a _ | .shl64 _ d a _ | .shr64 _ d a _ =>
    evenReg d && evenReg a
  | .imulw _ d _ _ | .thaw _ d _ | .qpop _ d _ | .qtry _ d _ | .stepq _ d _ => evenReg d
  | .mov _ d a p => !p || (evenReg d && evenReg a)
  | .movs _ d _ p => p != .pair || evenReg d
  | .movsr _ d _ p => !p || evenReg d
  | .lds _ d a _ _ w _ | .sts _ d a _ _ w _ | .ldg _ d a _ _ w _ | .stg _ d a _ _ w _ | .stgMsg _ d a _ _ w _
  | .stgClrpoison _ d a _ _ w _ => evenReg a && w.fits d
  | .pref _ a _ _ _ | .scatb _ a _ | .scatf _ _ a | .qpush _ _ a | .acccv _ a _ | .mdrain _ a | .mrest _ a
  | .fquery _ _ a | .stepp _ _ a _ | .stepr _ _ a _ => evenReg a
  | .atoms _ d a _ o => evenReg a && (o != .cas || decide (d.toNat ≤ 62))
  | .atom _ d a _ _ o | .redm _ d a _ _ o => evenReg a && o.fits d
  | .waitc _ d a _ _ _ w => evenReg a && (!w || evenReg d)
  | .mmq _ _ _ _ b _ => decide (b.toNat ≤ 52)
  | .dist _ _ a b t _ =>
    let r := (n + t.perReg - 1) / t.perReg
    decide (a.toNat + r ≤ 64 ∧ b.toNat + r ≤ 64)
  | _ => true

/-- A hint word: N = 1 and G = 7 (R19). -/
def isHintWord (w : Word) : Bool := guardOf w == 0xF#4
/-- Kind and payload of a hint word (R25). -/
def hintKind (w : Word) : Nat := (w.extractLsb' 24 4 : BitVec 4).toNat
def hintPay (w : Word) : Nat := (w.extractLsb' 0 24 : BitVec 24).toNat

/-- A func, cc or op value that no row of R32 to R34 lists (R35 reason 2). -/
def reservedOp (maj : Nat) (l : BitVec 10) : Bool :=
  let f := (fOf l).toNat
  let above := fun (n : Nat) => decide (n < f)
  match maj with
  | 0x00 => above 11 | 0x03 => above 2 | 0x05 => above 2 | 0x08 => above 2 | 0x11 => above 5 | 0x12 => above 6
  | 0x13 => above 8 | 0x14 => above 5 | 0x16 => above 9 | 0x17 => above 13 | 0x18 => above 6
  | 0x19 => f % 4 == 3 || above 7 | 0x1A => above 2 | 0x1B => f % 4 == 3 | 0x1C => f % 4 == 3
  | 0x1D => above 12 | 0x1E => above 8 | 0x1F => above 3 | 0x20 => above 2
  | 0x21 => f == 3 || f == 7 | 0x22 => f % 8 == 3 && decide (f < 8) || f / 4 % 2 == 1 | 0x24 => above 1
  | 0x27 => above 10 | 0x28 => above 3 | 0x2C => decide (22 ≤ (opOf l).toNat)
  | 0x2D => match AtomOp.ofCode (opOf l) with | some o => o.returnsOnly | none => true
  | 0x2F => above 1 | 0x30 => above 3 | 0x32 => above 0 | 0x33 => above 1 | 0x34 => above 3 | 0x35 => above 3
  | 0x36 => above 2 | 0x37 => above 2 | 0x38 => above 1 | 0x39 => above 2
  | _ => false

/-- The lowest reason code from 1 to 4 for which an ordinary word is refused, with the dimension count that holds for
a DIST (R35). -/
def wordReason (n : Nat) (w : Word) : Option Nat :=
  if 0x3A ≤ (majorOf w).toNat then some 1
  else if reservedOp (majorOf w).toNat (lowOf w) then some 2
  else match decode w with
    | none => some 3
    | some i => if !i.limits then some 3 else if !i.pairsOk n then some 4 else none

/-- Whether the words of a major take MOD with rm, SAT or INV (R27). -/
def takesMod (maj f : Nat) : Bool :=
  [0x19, 0x1A, 0x1B, 0x1D, 0x1E, 0x21, 0x22, 0x23].contains maj || (maj == 0x35 && (f == 1 || f == 3))

/-- Whether a hint word is legal before a word of major `maj` and function f (R26, R27). Kinds 5 to 15 are refused on
their own ground. -/
def hintFits (h : Word) (maj f : Nat) : Bool :=
  let p := hintPay h
  match hintKind h with
  | 0 => ([0x0A, 0x0B, 0x0C, 0x0D, 0x04, 0x07].contains maj && decide (p < 2 ^ 22))
      || (maj == 0x0F && decide (p < 2 ^ 16)) || maj == 0x2E
  | 1 => (maj == 0x1B && p % 2 ^ 18 == 0) || (maj == 0x23 && decide (0 < p ∧ p < 2 ^ 16))
      || (maj == 0x24 && [8, 16, 32, 64].contains p)
  | 2 => decide (p < 128 ∧ p % 8 < 5) && (takesMod maj f || maj == 0x2A)
      && (p % 16 == 0 && p < 64 || takesMod maj f) && (p / 16 % 4 == 0 || (maj == 0x2A && p % 16 == 0 && p < 64))
  | 3 => decide (p < 512)
  | 4 => [0x25, 0x26, 0x29, 0x2A, 0x2B, 0x2C, 0x2D, 0x2E].contains maj
  | _ => true

/-- Whether the words of a hint group are at most three and differ in kind, and fit the word that follows (R28). -/
def groupOk (hs : List Word) (w : Word) : Bool :=
  decide (hs.length ≤ 3) && (hs.map hintKind).eraseDups.length == hs.length
    && hs.all fun h => hintFits h (majorOf w).toNat (fOf (lowOf w)).toNat

/-- The dimension count that the hints of a group give a DIST; 32 without one (R29). -/
def groupDims (hs : List Word) : Nat :=
  match hs.find? (fun h => hintKind h == 1) with | some h => hintPay h % 2 ^ 16 | none => 32

/-- The offence of a run of hint words that begins at index i and that `next` follows, in its page (R35): reason 6 at
its first word (reason 5 where that word is itself of kind 5 to 15), or reason 5 at a word of kind 5 to 15. -/
def runOffence (run : List Word) (i : Nat) (next : Option Word) : Option (Nat × Nat) :=
  let bad := !run.isEmpty && (match next with | some w => !groupOk run w | none => true)
  if bad then some (if 5 ≤ hintKind (run.headD 0) then 5 else 6, i)
  else match run.findIdx? (fun h => decide (5 ≤ hintKind h)) with
    | some k => some (5, i + k)
    | none => none

/-- Reason and index of the first offending word of a page, from index i on, after a run of hint words. -/
def scanFrom (run : List Word) (i : Nat) : List Word → Option (Nat × Nat)
  | [] => runOffence run (i - run.length) none
  | w :: ws =>
    if isHintWord w then scanFrom (run ++ [w]) (i + 1) ws
    else match runOffence run (i - run.length) (some w) with
      | some o => some o
      | none => match wordReason (groupDims run) w with
        | some r => some (r, i)
        | none => scanFrom [] (i + 1) ws

/-- The scan of a page's words (R35). -/
def scanPage (ws : List Word) : Option (Nat × Nat) := scanFrom [] 0 ws

end Sys2Proof
end

