-- ==== Sys2Proof/Machine/State.lean ====
section
/-! DEFINITION. The state of the machine: every piece of state that spec/ names (INVENTORY.md lists each with
its rule and reset value), as plain data, the reasons a step can stop, and the state after reset. -/

namespace Sys2Proof.Machine

/-- Memory as (address, byte) pairs, addresses strictly rising, no entry equal to what an unlisted address reads as
(0x00: log 3). For global memory the address is the physical key of R261: the target dword plus the offset. -/
abbrev Memory := List Host.Cell

/-- Words by index, in the same canonical form (accumulator tiles: an unlisted element is 0, R159). -/
abbrev WordMap := List (Nat × Word)

/-! ### Fibres -/

/-- An active loop (R74): counter number, S and E. -/
structure LoopRec where
  n : BitVec 2
  s : Pc
  e : Pc
  deriving DecidableEq, Repr

/-- The record of a silent error: sr.esyn, sr.eunit, sr.etile (R316). -/
structure SilentErr where
  syn : Word
  unit : Word
  tile : Word
  deriving DecidableEq, Repr

/-- A WAITC of one fibre that is parked (R249). -/
structure Monitor where
  d : Reg
  va : DWord
  key : Nat
  cond : WCond
  w64 : Bool
  x : DWord
  ord : Ord4
  scp : Scope
  /-- Chip time at which the timeout expires, if there is one. -/
  deadline : Option Nat
  /-- It uses a monitor entry of the home slice; without one it reads the location every microsecond (R250). -/
  entry : Bool
  /-- Chip time of its next read without an entry. -/
  next : Nat
  /-- Chip time since which the location has held a satisfying value (R250). -/
  met : Option Nat
  /-- Names the wave instruction, and whether that has consumed poison already (R317). -/
  id : Nat
  psn : Bool
  deriving DecidableEq, Repr

/-- An atomic of one fibre that has left the core (R236). -/
structure AtomReq where
  d : Reg
  va : DWord
  key : Nat
  op : AtomOp
  x : DWord
  e : DWord
  ord : Ord4
  scp : Scope
  /-- Names the wave instruction, so that its one counter step is taken back once (R43). -/
  id : Nat
  /-- Its line was tracked when it left the core (R209). -/
  tracked : Bool
  deriving DecidableEq, Repr

/-- A STEPR of one fibre that is parked (R359). -/
structure StepWait where
  d : Reg
  ea : DWord
  pair : Nat
  n : Word
  deriving DecidableEq, Repr

/-- What a parked fibre waits on (R57, R83). -/
inductive Wait where
  /-- WAITJ on a rejoin mask (R72). -/
  | mask (j : BitVec 4)
  /-- BARW or BARS on a barrier until a generation completes (R80). -/
  | barrier (b : BitVec 4) (gen : Nat)
  /-- WAITC (R249). -/
  | monitor (m : Monitor)
  /-- SLEEPT until chip time reaches a promise (R202). -/
  | sleep (t : Word)
  /-- STEPR on an empty pair (R359). -/
  | steps (w : StepWait)
  /-- A fault record, by its handle (R268), with the address of the fibre's own access (R271). The bundle runs again at a
  replay. -/
  | record (h : Word) (va : DWord)
  /-- An atomic that has left the core (R236). -/
  | atomic (r : AtomReq)
  /-- FREEZE number k that has left the core (R273). -/
  | freeze (k : Nat)
  deriving DecidableEq, Repr

/-- A parked fibre: what it waits on, the index after its bundle, the index of the bundle's last word, and that
word. -/
structure Parked where
  why : Wait
  next : Pc
  last : Pc
  word : Word
  deriving DecidableEq, Repr

/-- Where a fibre stands in the matrix-state traps 0x11 and 0x12 (R183). -/
inductive MatrixTrap where
  | none | saving | saved | restoring
  deriving DecidableEq, Repr

/-- A fibre's part of a wave instruction that is still to complete: which counter holds the instruction's count, stores
(true) or loads, if one does (R42, R43), the name of the instruction, and whether it has consumed poison already (R317). -/
structure Share where
  counter : Option Bool
  id : Nat
  psn : Bool
  deriving DecidableEq, Repr

/-- One lane slot of a wave, or the Zenith thread (R53, R83, R311). -/
structure Fibre where
  live : Bool
  pc : Pc
  base : Nat
  /-- Lane registers, as many as the allotment (R84); none for the Zenith thread. -/
  regs : List Word
  /-- s0-s63 of the team, held by the Zenith thread's slot (R88). -/
  sregs : List DWord
  /-- p0-p6 (R91). -/
  preds : BitVec 7
  /-- lc0-lc2 (R74). -/
  lc : List Word
  /-- Active loops, most recently activated first (R74). -/
  loops : List LoopRec
  /-- Phase weight (R298); below 2^64 (R299). -/
  weight : Nat
  park : Option Parked
  intrap : Bool
  savedBase : Nat
  queued : Option SilentErr
  /-- sr.cause[5:0] (R312); Q is whether `queued` holds a record. -/
  cause : BitVec 6
  epc : Pc
  evalue : Word
  ureg : Byte
  /-- Traps to take before the next bundle (R324, R325): cause and sr.evalue. -/
  due : List (BitVec 6 × Word)
  mtrap : MatrixTrap
  /-- It has still to complete its part of a wave instruction, which faulted or left the core (R42, R43, R317). -/
  owed : Option Share
  deriving DecidableEq, Repr

/-- A place whose contents are uncorrectable (R315): lane register k of a fibre and s-register k of a team, both by
physical index and until they are written, or the stored state of a fibre, until it issues. -/
inductive BadPlace where
  | lane (wave slot k : Nat)
  | sreg (team k : Nat)
  | fibre (wave slot : Nat)
  deriving DecidableEq, Repr

/-! ### Waves and teams -/

/-- Where a wave is (R52, R252, R322, R323): `arriving` while its team has taken its place again, lane slots and
registers included, and its context is not back yet. -/
inductive WaveStat where
  | resident | halted | saved | swapped | ended | arriving
  deriving DecidableEq, Repr

/-- An output queue register k1-k3 (R185). -/
structure OutQueue where
  entries : List DWord
  lost : Bool
  deriving DecidableEq, Repr

/-- A pre-emption-disable window (R325): instructions left, and the chip time of the time bound. -/
structure NoPre where
  left : Nat
  until_ : Nat
  deriving DecidableEq, Repr

/-- A failed copy not yet reported at a WAITN (R200), with how many copies the context has accepted after it. -/
structure CopyFail where
  tag : Half
  status : Byte
  cause : BitVec 6
  younger : Nat
  deriving DecidableEq, Repr

/-- A wave (R52), or a Zenith context (`zen`), which has one slot. -/
structure Wave where
  team : Nat
  idx : Nat
  zen : Bool
  width : Nat
  allot : Nat
  core : Nat
  part : Nat
  /-- When its team was placed, among all placements: the lower is the older (R59). -/
  age : Nat
  stat : WaveStat
  fibres : List Fibre
  /-- Path rotation (R58), next to issue first, and how often the head has issued in a row. -/
  rot : List Pc
  streak : Nat
  /-- Issue opportunities that ready paths have let pass since they last issued or became ready (R60), and whether the
  wave's last bundle was a YIELD (R79). -/
  waits : List (Pc × Nat)
  yielded : Bool
  /-- Serial mode (R62, R63): the current fibre, and how many instructions it has issued. -/
  serial : Option Nat
  quota : Nat
  /-- The reading of its cluster's clock count since which it has had a path ready and issued nothing (R60). -/
  readySince : Nat
  /-- j0-j15 (R72). -/
  masks : List (BitVec 64)
  /-- Decision queue (R76), oldest first. -/
  decisions : List Word
  loads : Nat
  stores : Nat
  copies : Nat
  tiles : Nat
  k0 : List DWord
  k1 : OutQueue
  k2 : OutQueue
  k3 : OutQueue
  fails : List CopyFail
  /-- Released copies of system scope that no WAITN has required yet, each as how many copies the context has accepted
  after it (R204, R215). -/
  sysCopies : List Nat
  /-- sr.fpflags[5:0] and INVEN (R121). -/
  fpflags : BitVec 6
  inven : Bool
  /-- sr.chk (R317). -/
  pcnt : BitVec 16
  xq : Bool
  etr : Bool
  psn : Bool
  /-- sr.esyn, sr.eunit, sr.etile (R316). -/
  err : SilentErr
  /-- sr.prom (R203). -/
  prom : Word
  /-- The latest promise of a copy charged to the context, in chip time (R201). -/
  lastProm : Nat
  /-- sr.perf (R92). -/
  perf : Word
  nopre : Option NoPre
  /-- The generation of the wave's last arrival at each barrier (R80). -/
  arrived : List (Option Nat)
  /-- Lost-locality score and victim tags, space and line address, newest first (R64, R156). -/
  score : Nat
  victims : List (Nat × Nat)
  /-- The wave holds the Meridian token by TOKW (R296). -/
  held : Bool
  /-- The most recent LIVETILE mask (R184). -/
  liveTiles : BitVec 8
  deriving DecidableEq, Repr

/-! ### Matrix quads -/

/-- One signature of a convergence register (R158, R166): the latched header and B quarter. -/
structure Signature where
  off : DWord
  header : List Byte
  b : List Byte
  deriving DecidableEq, Repr

/-- A convergence register (R158, R164). -/
structure Conv where
  set : List Nat
  remaining : Nat
  signed : List (Option Signature)
  acc : BitVec 3
  ty : MmqTy
  deriving DecidableEq, Repr

/-- An issued MMQ with its pinned operands (R168): the A rows and scales of each partition, with the signatures. -/
structure Issued where
  acc : BitVec 3
  ty : MmqTy
  set : List Nat
  sigs : List Signature
  /-- Element and scale bytes of A, and the bytes of the B scale strip, per partition. -/
  a : List (List Byte)
  bs : List (List Byte)
  /-- Check mismatches that an injection forces: 0, 1 or 2 (R385 kinds 3 and 4). -/
  force : Nat
  deriving DecidableEq, Repr

/-- A failed slice and what trap 0x07 reports for it (R172). -/
structure FailedSlice where
  tile : Nat
  slice : Nat
  code : Byte
  row : Nat
  col : Nat
  inj : Bool
  deriving DecidableEq, Repr

/-- A matrix quad (R158). -/
structure Quad where
  acc : WordMap
  conv : List Conv
  failed : List FailedSlice
  frozen : Bool
  pipe : List Issued
  /-- Convergence registers whose sets are complete, in the order of their last signatures (R168). -/
  ready : List Nat
  owner : Option Nat
  /-- Positions whose state has left the quad while its owner is being pre-empted (R182, R183). -/
  out : List Nat
  /-- While the owner resumes: positions that wait for the MREST of their handlers of trap 0x12 (R183). -/
  resume : Option (List Nat)
  deriving DecidableEq, Repr

/-! ### Teams -/

/-- A named barrier (R80). -/
structure Barrier where
  expected : Nat
  arrivals : Nat
  gen : Nat
  deriving DecidableEq, Repr

/-- Phase weight carried by a message: the phase and the amount (R298). -/
structure Carried where
  phase : Nat
  amount : Nat
  deriving DecidableEq, Repr

/-- Where a message in flight goes. -/
inductive Target where
  | mailbox (m : Nat)
  | mapping (grid : Nat)
  | orrery (grid : Nat)
  | peer (p : Nat) (m : Nat)
  deriving DecidableEq, Repr

/-- A message on its way inside the device (R228, R200, R301). -/
structure Flight where
  target : Target
  words : List DWord
  weight : Option Carried
  /-- The team of a deterministic grid that sent it: its messages arrive in their order, and before the turn passes (R290). -/
  team : Option Nat
  /-- The STG.msg that sent it, as its wave and the name of its count: a store that has not completed until the message
  arrives (R225, R228). -/
  sender : Option (Nat × Nat)
  deriving DecidableEq, Repr

/-- One effect held in a team's Transit stage (R289). -/
inductive Staged where
  | store (key : Nat) (bytes : List Byte)
  /-- A REDM or SCATB of a lane, with the wave, until its instruction, by name, has consumed poison (R317); `lost` once a
  fault on the arrays of the bucket has been delivered (R256). -/
  | redm (key : Nat) (op : AtomOp) (x : DWord) (wave : Option Nat) (id : Nat)
  | scatb (asid : Nat) (key : Nat) (b : Word) (wave : Option Nat) (id : Nat) (lost : Bool)
  | message (f : Flight)
  | action (pair : Nat) (bytes : List Byte) (weight : Carried)
  | home (weight : Nat)
  /-- A staged STG.clrpoison clears the line's poison (R229). -/
  | clear (line : Nat)
  deriving DecidableEq, Repr

/-- Matrix state of one partition of a pre-empted team, saved by hardware (R183, R184): the slices, failed flags and
convergence records of position `pos` of the team, 8 for the odd core of its pair plus the partition. -/
structure SavedPart where
  pos : Nat
  acc : WordMap
  failed : List FailedSlice
  conv : List Conv
  ready : List Nat
  deriving DecidableEq, Repr

/-- A team (R52, R80, R148, R287, R295). -/
structure Team where
  grid : Nat
  idx : Nat
  tx : Nat
  ty : Nat
  tz : Nat
  /-- The core, or the even core of the pair. -/
  core : Nat
  pair : Bool
  waves : List Nat
  zen : Option Nat
  /-- s0-s63 (R88) of a team without a Zenith context; otherwise the Zenith slot holds them. -/
  sregs : List DWord
  bars : List Barrier
  /-- The allotment on the core, and on the odd core of a pair. -/
  scratch : Memory
  scratch2 : Memory
  cleared : Bool
  ended : Bool
  killed : Bool
  /-- On cores now; false while pre-empted as a whole. -/
  placed : Bool
  /-- Chosen to leave its cores (R327, R336). -/
  evict : Bool
  saved : List SavedPart
  stage : List Staged
  /-- The release of its stage waits on this fault record. -/
  drain : Option Word
  /-- The die whose Transit unit holds the team's stage (R287). -/
  stageDie : Nat
  /-- The stage has been released or discarded and the turn has passed (R288). -/
  passed : Bool
  token : Nat
  /-- Chip time of the latest retirement of any of its fibres (R294). -/
  lastRetire : Nat
  deriving DecidableEq, Repr

/-! ### Grids, phases, mailboxes -/

/-- State of a grid's completion status (R337), or not yet launched. -/
inductive GridStat where
  | pending | running | done | refused | killed
  deriving DecidableEq, Repr

/-- The earliest terminated wave of a grid (R337). -/
structure Terminated where
  team : Nat
  wave : Nat
  cause : BitVec 6
  nested : Bool
  epc : Pc
  deriving DecidableEq, Repr

/-- A launch and its grid (R332, R334, R337). -/
structure Grid where
  handle : Nat
  asid : Nat
  mbx : Nat
  prio : Nat
  priv : Bool
  stat : GridStat
  /-- Refusal code of R334. -/
  refusal : Nat
  /-- The eight dwords of the message that launched it (R333). -/
  msg : List DWord
  gx : Nat
  gy : Nat
  gz : Nat
  teamSize : Nat
  width : Nat
  allot : Nat
  split : BitVec 3
  scratch : Nat
  pair : Bool
  det : Bool
  checkreg : Bool
  fastswitch : Bool
  invtrap : Bool
  matrix : Bool
  param : DWord
  cmbx : Half
  cstat : DWord
  user : DWord
  codeBase : DWord
  entry : Pc
  zenEntry : Option Pc
  trapEntry : Option Pc
  trapwin : Nat
  /-- When the message that launched it arrived (R335). -/
  arrival : Nat
  /-- The next team to place (R335). -/
  next : Nat
  killed : List Nat
  root : Nat
  rootHome : Bool
  phase : Nat
  isRoot : Bool
  turn : Nat
  ow : Bool
  fixlost : Bool
  psn : Bool
  etr : Bool
  xq : Bool
  pcnt : Nat
  terms : Nat
  term : Option Terminated
  failedSlices : Nat
  failedSlice : Word
  copyFails : Nat
  copyFail : Word
  /-- The final completion-status write has been made (R337). -/
  final : Bool
  deriving DecidableEq, Repr

/-- A bucket that a phase has used (R257): the space, the descriptor's physical key, whether a privileged task used it,
and whether a fault on its arrays has been delivered. -/
structure BucketRef where
  asid : Nat
  key : Nat
  priv : Bool
  lost : Bool
  deriving DecidableEq, Repr

/-- A phase at its root home slice (R297). -/
structure Phase where
  expected : Nat
  returned : Nat
  grid : Nat
  buckets : List BucketRef
  /-- Making its buckets final waits on this fault record. -/
  record : Option Word
  ended : Bool
  deriving DecidableEq, Repr

/-- A 64-byte message that waits in a mailbox slot (R330). -/
structure Message where
  words : List DWord
  weight : Option Carried
  /-- When it arrived, among all messages (R335). -/
  seq : Nat
  deriving DecidableEq, Repr

/-- A bound mailbox (R329, R331). -/
structure Mailbox where
  num : Nat
  asid : Nat
  addr : DWord
  slots : Nat
  gridMode : Bool
  record : DWord
  prio : Nat
  priv : Bool
  status : DWord
  pending : List Message
  /-- How many of the pending messages have become launches (R330: a slot is freed when the last team is placed). -/
  launched : List Nat
  drops : BitVec 16
  deriving DecidableEq, Repr

/-! ### Tile operations, copies -/

/-- What an ACCCV, MDRAIN or MREST still has to do (R177 to R180). -/
inductive TileWork where
  | convert (writes : List (Nat × Byte))
  | drain (va : DWord)
  | restore (va : DWord)
  deriving DecidableEq, Repr

/-- An outstanding ACCCV, MDRAIN or MREST of a wave (R178). -/
structure TileOp where
  wave : Nat
  lanes : List Nat
  work : TileWork
  record : Option Word
  /-- The word of an MREST whose status block has still to be read and judged (R180, R268). -/
  unread : Option Word
  /-- A line that it has read was poisoned (R208). -/
  psn : Bool
  deriving DecidableEq, Repr

/-- How a copy ends that stops after some of its source (R200): its status, for a storage source the status code type and code,
the source bytes before the stop, and how many stored bytes are written or not as one. -/
structure CopyHalt where
  status : Byte
  sct : BitVec 3
  sc : Byte
  bytes : List Byte
  unit : Nat
  deriving DecidableEq, Repr

/-- A copy accepted and not released (R197, R198). -/
structure Copy where
  core : Nat
  issuer : Nat
  charged : Nat
  cw : List DWord
  promise : Word
  weight : Nat
  phase : Nat
  priv : Bool
  asid : Nat
  /-- Completed with this status and, for a storage source, status code type and code; not yet released. -/
  done : Option (Byte × BitVec 3 × Byte)
  /-- Chip time at which it completed. -/
  doneAt : Nat
  /-- Waits on this fault record (R268). -/
  record : Option Word
  /-- It has stopped, and what it still writes waits for room in its team's stage (R291). -/
  stop : Option CopyHalt
  deriving DecidableEq, Repr

/-! ### Memory system -/

/-- A line of an L1 (R156, R215): physical line, tag, holder, and for a self-invalidating line its bytes and the
offsets of the dirty ones. -/
structure L1Line where
  core : Nat
  line : Nat
  /-- The tag: the leader's space and line address (R156, R267). -/
  asid : Nat
  va : Nat
  selfinv : Bool
  /-- The wave whose LDG most recently allocated the line or hit it (R157). -/
  holder : Option Nat
  tagged : Bool
  /-- It is a replica: it was filled while its block was fixed, and the directory does not know it (R275). -/
  replica : Bool
  bytes : List Byte
  dirty : List Nat
  deriving DecidableEq, Repr

/-- A store instruction that has retired and not completed (R225): the wave whose counter it moves, and the bytes
that still have to reach their homes. -/
structure PendStore where
  wave : Nat
  /-- The wave instructions, by name, whose one count it holds (R43). -/
  ids : List Nat
  bytes : List (Nat × Byte)
  selfinv : List (Nat × Nat)
  /-- A release of its wave has come after it: a message that it sent arrives within that step (R215, R228). -/
  called : Bool
  deriving DecidableEq, Repr

/-- A tracked line whose only modified copy an agent holds, with the bytes that its home last had at the offsets
that the agent has written (R231). -/
structure Modified where
  agent : Agent
  line : Nat
  home : List (Nat × Byte)
  deriving DecidableEq, Repr

/-- The leader of a physical line (R267): whose page rules its protocol. -/
structure Leader where
  line : Nat
  asid : Nat
  va : Nat
  coh : BitVec 2
  deriving DecidableEq, Repr

/-- One element of a line in shadow state (R244): its index, FP32 shadow, and touched bit. -/
structure ShadowElt where
  idx : Nat
  val : Word
  touched : Bool
  deriving DecidableEq, Repr

/-- A shadow-pool entry (R244). -/
structure Shadow where
  line : Nat
  op : AtomOp
  elts : List ShadowElt
  deriving DecidableEq, Repr

/-! ### Address spaces, fixed-star regions -/

/-- An address space (R259, R263). -/
structure Space where
  asid : Nat
  mbx : Option Nat
  table : DWord
  deriving DecidableEq, Repr

/-- Page states (R276). -/
inductive PageSt where
  | owned | fixed | readDup | thawing
  deriving DecidableEq, Repr

/-- A page (R260, R261, R276). -/
structure Page where
  asid : Nat
  va : Nat
  sz : BitVec 2
  tgt : DWord
  rd : Bool
  wr : Bool
  x : Bool
  priv : Bool
  coh : BitVec 2
  st : PageSt
  /-- Devices that hold replicas (R277). -/
  reps : List Nat
  deriving DecidableEq, Repr

/-- A region identifier that has been taken at least once (R278, R283). -/
structure Region where
  id : Nat
  gen : BitVec 16
  st : BitVec 2
  asid : Nat
  blocks : List Nat
  withdrawn : List Nat
  /-- Pages (space, base) that a THAW has put into Thawing and that are not Owned yet (R280). -/
  thaw : List (Nat × Nat)
  deriving DecidableEq, Repr

/-- Fault record kinds (R269). -/
inductive FaultKind where
  | notMapped | noRd | noWr | noExec | priv | wFix
  deriving DecidableEq, Repr

/-- Access classes (R269). -/
inductive AccessClass where
  | load | store | atomic | fetch | copyRead | copyWrite | matrix | freeze | outside
  deriving DecidableEq, Repr

/-- An outstanding fault record (R268, R269). -/
structure FaultRec where
  die : Nat
  index : Nat
  seq : BitVec 16
  kind : FaultKind
  cls : AccessClass
  asid : Nat
  va : DWord
  page : Nat
  sz : BitVec 2
  merged : Nat
  count : Nat
  time : Nat
  region : Nat
  posted : Bool
  deriving DecidableEq, Repr

/-- A FREEZE that has left its core (R273). -/
structure FreezeReq where
  num : Nat
  wave : Nat
  d : Reg
  base : DWord
  size : DWord
  asid : Nat
  record : Option Word
  deriving DecidableEq, Repr

/-- A host, peer or Orrery request parked on a fault record (R268, R271). -/
structure ParkedReq where
  req : OutsideReq
  /-- None while it waits for a page to thaw or for a record to be free, and after a replay. -/
  record : Option Word
  deriving DecidableEq, Repr

/-- A command in a mapping queue (R262, R348). Queue 0 is the host's ring, queue 1 the Orrery port, queue g + 2 the
mapping port as grid g uses it. -/
structure Command where
  queue : Nat
  words : List DWord
  asid : Nat
  weight : Option Carried
  /-- The scan of an executable range is over: passed, or refused with a reason and a byte offset (R35). -/
  scan : Option (Option (Nat × Nat))
  /-- Executed, with this status and detail; its completion record is not yet written. -/
  done : Option (Word × DWord)
  deriving DecidableEq, Repr

/-! ### Partitions, pre-emption, tests -/

/-- A pre-emption in progress on a partition (R322, R323). -/
inductive HaltSt where
  | none | requested | halted | saved
  deriving DecidableEq, Repr

/-- What each partition holds beside its waves (R64, R309, R322, R326). -/
structure Part where
  limit : Nat
  cnt : BitVec 24
  led : BitVec 8
  halt : HaltSt
  /-- The request takes every wave of the partition, not only those of teams chosen to leave (R322, R336). -/
  whole : Bool
  inService : Bool
  testing : Bool
  bankTest : Option Nat
  /-- Model's own: chip time since which the next act of a pre-emption has been able to happen (R5, R322, R323), and the
  thousandths of clocks that its issued words still take, one clock a word at most and four words a clock at least (R369;
  log 55). -/
  since : Nat
  most : Nat
  least : Nat
  deriving DecidableEq, Repr

/-! ### Power -/

/-- A level change in progress (R370): target level, the chip time at which it began, the chip time at which the clock
switched, and whether the crossing has resynchronised. -/
structure Change where
  target : Nat
  start : Nat
  switched : Option Nat
  resynced : Bool
  deriving DecidableEq, Repr

/-- A cluster's clock, voltage and health (R366 to R374). -/
structure Cluster where
  level : Nat
  /-- Clock in MHz and supply voltage in mV (R366, R370). -/
  clock : Nat
  volt : Nat
  /-- Thousandths of clocks that have passed, each at the frequency of its moment (R60, R64, R370). -/
  clk : Nat
  target : Nat
  floor : Nat
  pr : Nat
  hr : Nat
  hold : Option Nat
  change : Option Change
  hot : Bool
  temp : BitVec 16
  stall : Nat
  mv : BitVec 16
  osc : BitVec 16
  /-- L and T as the last sample showed them in sr.vmon (R374). -/
  shown : Nat × Nat
  /-- A wave has been resident since the last sample; thousandths of the cluster's clocks since then, and of stalled partition
  clocks, the fewest and the most that the issued words allow (R369; log 55). -/
  busy : Bool
  span : Nat
  stalls : Nat × Nat
  /-- Thousandths of clocks that a whole-chip bubble still removes (R373). -/
  bubble : Nat
  /-- The temperature has reached 105 degrees C and not yet fallen below 100 (R372). -/
  heating : Bool
  /-- Chip time since which the temperature has stayed below 100 degrees C, or of the last fall of Hr. -/
  coolSince : Option Nat
  /-- Chip time at which the next sample is due (R369). -/
  nextSample : Nat
  deriving DecidableEq, Repr

/-! ### Host port -/

/-- What a watch watches and does, as fixed at its arming (R254). -/
structure Armed where
  va : DWord
  val : DWord
  dest : DWord
  cond : BitVec 3
  w : BitVec 2
  asid : BitVec 16
  vec : BitVec 11
  msi : Bool
  /-- The location that it waits on like a WAITC, whether it holds a monitor entry, its next read without one, and since
  when the location has held a satisfying value (R250). -/
  key : Nat
  entry : Bool
  next : Nat
  met : Option Nat
  deriving DecidableEq, Repr

/-- A host watch (R253). -/
structure Watch where
  waddr : DWord
  wval : DWord
  wdest : DWord
  en : Bool
  fired : Bool
  err : Bool
  vec : BitVec 11
  msi : Bool
  cond : BitVec 3
  w : BitVec 2
  wasid : BitVec 16
  seq : Word
  armed : Option Armed
  /-- Its read waits on this fault record. -/
  record : Option Word
  deriving DecidableEq, Repr

/-- The command ring registers (R340). -/
structure Ring where
  base : DWord
  lsize : BitVec 5
  tail : BitVec 16
  head : BitVec 16
  err : Bool
  en : Bool
  deriving DecidableEq, Repr

/-- A storage window (R340 SWBIND). -/
structure StoreWin where
  num : Nat
  depth : Nat
  va : DWord
  doorbell : DWord
  route : BitVec 16
  nsid : Word
  code : Nat
  cap : Nat
  deriving DecidableEq, Repr

/-- The device's own state (R342). -/
inductive DevSt where
  | running | inReset | gated | fatal
  deriving DecidableEq, Repr

/-- The image that firmware writes to reserved memory and sends to the host at a fatal error (R328): every resident and
saved context with its team and quads, the source, and chip time. -/
structure Image where
  source : FatalSource
  time : Nat
  waves : List Wave
  teams : List Team
  quads : List Quad
  deriving DecidableEq, Repr

/-- A firmware image: its SHA-384 hash, and the ECDSA P-384 signature over it that it comes with (R344). -/
structure Firmware where
  hash : BitVec 384
  sig : BitVec 768
  deriving DecidableEq, Repr

/-- What the device sends out (R254, R271, R327, R330, R339, R342 to R344, R372). -/
inductive Output where
  | msix (vec : Nat)
  | report (what : String) (a b : Nat)
  | toPeer (p m : Nat) (words : List DWord)
  | snoop (line : Nat) (held : Bool) (bytes : List Byte)
  | requestDone (ok : Bool) (bytes : List Byte)
  | attest (nonce : Nat) (certificates : List Byte) (measurements : List (BitVec 384)) (sig : BitVec 768)
  | dump (x : Image)
  | register (off : Nat) (v : DWord)
  deriving DecidableEq, Repr

/-! ### Orrery -/

/-- Episode states (R349). -/
inductive EpSt where
  | stopped | running | ended
  deriving DecidableEq, Repr

/-- A user-mode hart context (R345, R347, R349): the pc, x0 to x31, f0 to f31, v0 to v31 of 256 bits, and the CSRs that the
extensions F and V give a user-mode hart (log 34). -/
structure Hart where
  pc : DWord
  x : List DWord
  f : List DWord
  v : List (BitVec 256)
  fcsr : Word
  vl : DWord
  vtype : DWord
  vstart : DWord
  vcsr : DWord
  deriving DecidableEq, Repr

/-- An episode that is not FREE (R347 to R351, R362). -/
structure Episode where
  num : Nat
  st : EpSt
  asid : Nat
  va : DWord
  size : DWord
  entry : DWord
  budget : Nat
  /-- The budget that the running step clock uses (R348 EPBUDGET). -/
  active : Nat
  cause : Nat
  code : DWord
  hart : Hart
  onCore : Bool
  /-- In ECALL WAIT, with the limit's chip time if there is one (R350). -/
  waiting : Option (Option Nat)
  record : Option Word
  /-- The step clock (R362), and how long the episode has held its core (R351). -/
  clock : Nat
  ran : Nat
  deriving DecidableEq, Repr

/-- An observation in a pair's queue (R352, R353). -/
structure Obs where
  bytes : List Byte
  weight : Option Carried
  deriving DecidableEq, Repr

/-- A bound step mailbox pair (R352, R354). -/
structure StepPair where
  num : Nat
  ep : Nat
  slot : Nat
  asid : Nat
  /-- The 16 action slots. -/
  ring : List (List Byte)
  atail : Word
  ahead : Word
  /-- Weights of the unanswered actions, oldest first. -/
  weights : List Carried
  obs : List Obs
  sdrop : BitVec 16
  last : BitVec 2
  staging : List Byte
  deriving DecidableEq, Repr

/-! ### The whole machine -/

/-- Which path is issuing: wave and the index of the bundle's first word (the model's own). -/
structure Cur where
  wave : Nat
  pc : Pc
  deriving DecidableEq, Repr

/-- Who moves next, and the inputs that arrive from outside (the model's own: log 1). -/
inductive Turn where
  /-- The path of wave `w` whose fibres stand at `pc` issues. -/
  | issue (w : Nat) (pc : Pc)
  /-- An event of the opcode table happens. -/
  | event (i : Instr)
  /-- Chip time advances. -/
  | tick (n : Nat)
  /-- A line leaves a core's L1 (R215). -/
  | evict (core line : Nat)
  /-- A line leaves every cache, and its leadership lapses (R267). -/
  | lapse (line : Nat)
  /-- A shadow entry is flushed (R245). -/
  | flush (line : Nat)
  /-- Whether atomics from now on stay in flight until ATOMIC_COMPLETION. -/
  | defer (on : Bool)
  /-- The management controller sets the floor of a cluster, before the device runs (R367). -/
  | floor (cluster f : Nat)
  /-- An uncorrectable error strikes a register or the stored state of a fibre, or an accumulator element (R315). -/
  | spoil (p : BadPlace)
  | spoilTile (quad : Nat) (x : FailedSlice)
  /-- An instruction of a partition, or of the core's Zenith unit, mismatches in a lane, with its class; then what each
  re-execution finds, nothing where it agrees (R307). -/
  | mismatch (core part : Nat) (zen : Bool) (first : Nat × Nat) (again : List (Option (Nat × Nat)))
  /-- The error that the next FATAL_ERROR comes from (R328). -/
  | fails (x : FatalSource)
  /-- The host writes bytes at an offset of BAR0, or reads a register there (R339). -/
  | bar0Write (off : Nat) (bytes : List Byte)
  | bar0Read (off : Nat)
  /-- System software forms the Vohan Link domain: this device's number, and the peers in it (R343). -/
  | domain (num : Nat) (peers : BitVec 64)
  /-- A peer's own store reaches the peer's memory, where this device sees it (R343, R380), or the freeze count of a block of
  the peer becomes n: the mark of a FREEZE has reached this device, or its replicas have been collected (R274, R277). -/
  | peerStore (key : Nat) (bytes : List Byte)
  | peerCount (block n : Nat)
  /-- What the RISC-V instructions of an episode on a core, which the spec leaves to their own specifications, have left in
  its hart (R345; log 34). -/
  | hart (episode : Nat) (h : Hart)
  /-- An episode on a core executes a FENCE (R346), reads a CSR into an x register, or writes one (R345). -/
  | fence (episode : Nat)
  | csr (episode n rd : Nat)
  | csrWrite (episode n : Nat) (v : DWord)
  /-- The monitor, in machine mode, reads misa (R345). -/
  | misa
  /-- The management controller reports which form of the part is fitted (R1). -/
  | form
  /-- System software replaces the firmware that the next boot uses (R344). -/
  | flash (images : List Firmware)
  deriving DecidableEq, Repr

/-- The state of the machine. -/
structure State where
  waves : List Wave
  teams : List Team
  grids : List Grid
  phases : List Phase
  mailboxes : List Mailbox
  flights : List Flight
  /-- Pre-empted teams that wait to be placed again, front first (R336). -/
  requeue : List Nat
  /-- Launch serial (R337). -/
  serial : Nat
  quads : List Quad
  tileOps : List TileOp
  engine : List Copy
  /-- Paths whose QPUSH waits for engine slots, in the order in which they began to wait (R197). -/
  slotQueue : List Cur
  /-- Split n of each core (R146). -/
  splits : List (BitVec 3)
  mem : Memory
  poison : List Nat
  /-- Lines of all L1s; of the lines of one set the most recently used first. -/
  l1 : List L1Line
  pend : List PendStore
  /-- Weight that fibres of a wave return once its stores have reached their homes: wave and amount (R300). -/
  homing : List (Nat × Nat)
  /-- Bytes that the device itself writes to a page that is Thawing, by physical key (R276). -/
  late : List (Nat × Byte)
  modified : List Modified
  leaders : List Leader
  shadows : List Shadow
  spaces : List Space
  pages : List Page
  /-- Freeze counts above 0, by physical 64 KiB block (R272). -/
  frozen : WordMap
  regions : List Region
  records : List FaultRec
  recSeq : List (BitVec 16)
  freezes : List FreezeReq
  parkedReqs : List ParkedReq
  /-- Records that have been delivered while fibres of a deterministic team, parked on them at a SCATB or FREEZE, wait for the
  Meridian token, each with the cause (R271, R295). -/
  delivered : List (Word × BitVec 6)
  commands : List Command
  parts : List Part
  /-- CNT of each core's Zenith unit, and LED bit 6 of each core (R309). -/
  zenCnt : List (BitVec 24)
  zenLed : List Bool
  /-- Armed injection words (R321). -/
  injects : List Word
  /-- What is uncorrectable (R315). -/
  faulty : List BadPlace
  clusters : List Cluster
  /-- Whether the part is a CD-8260-M (R1, R372). -/
  isModule : Bool
  /-- Package power limit in watts, the last reading of the package's mean power over 1 ms, and chip time since which power
  has stayed 5 % below the limit (R372). -/
  limit : Nat
  watts : Nat
  lowSince : Option Nat
  /-- Chip time at which the next power check is due (R372). -/
  nextCheck : Nat
  /-- Thousandths of clocks that the caps would have removed since the last bubble while a DET grid is resident (R373). -/
  bubbles : Nat
  watches : List Watch
  ring : Ring
  windows : List StoreWin
  /-- Lines of host memory that the device holds modified (R342). -/
  hostMod : List Nat
  linkUp : Bool
  dev : DevSt
  /-- The error of the named kinds that has struck and not stopped the device yet (R328). -/
  failing : FatalSource
  /-- What a fatal error has left in reserved memory (R328). -/
  image : Option Image
  /-- The firmware that the security processor boots (R344). -/
  firmware : List Firmware
  devNum : Word
  peers : BitVec 64
  outputs : List Output
  episodes : List Episode
  pairs : List StepPair
  /-- Ready episodes that hold no core, oldest first (R351). -/
  ready : List Nat
  time : DWord
  /-- Model's own: whose turn (log 1). -/
  agenda : List Turn
  bundle : List Instr
  cur : Cur
  turn : Nat
  /-- Model's own: paths that had to wait when they were last chosen, since any other last issued (log 1). -/
  tried : List Cur
  defer : Bool
  /-- Placements of teams and arrivals of messages so far (R59, R335). -/
  placings : Nat
  arrivals : Nat
  /-- Model's own: how many free values have been drawn (log 2). -/
  freeCtr : Nat
  deriving DecidableEq, Repr

/-- Why the machine stops with a fault. -/
inductive Fault where
  /-- A page maps an access to HBM4 or CXL memory above what the package holds (R5, R261): raised by every global
  access after translation. Safe: the spec gives no such address. -/
  | memoryHole (key : Nat)
  deriving DecidableEq, Repr

/-- Why a step has no meaning. -/
inductive Refusal where
  /-- An arm of `exec` that has no meaning yet. Safe. -/
  | notModelled (mnemonic : String)
  /-- The word fetched is of a class that R35 refuses; R37 says it is never fetched. Raised by `step`. Safe. -/
  | undecodable (w : Word)
  /-- A hint group longer than three words, or followed by a word in another page (R28): never fetched (R37).
  Raised by `step`. Safe. -/
  | malformedGroup
  deriving DecidableEq, Repr

/-! ### How one bundle ends -/

/-- A trap that a fibre raises (R310): cause, sr.evalue, the marker's index for cause 0x02, and the error record for
cause 0x07. -/
structure TrapInfo where
  cause : BitVec 6
  evalue : Word
  ureg : Option Byte
  err : Option SilentErr
  deriving DecidableEq, Repr

/-- Where one fibre of a path stands before its bundle (R20, R38): outside the path, in it with a false guard, in it
and breaking a context rule, or executing. -/
inductive LaneKind where
  | out
  | skip
  | bad (t : TrapInfo)
  | exec
  deriving DecidableEq, Repr

/-- What a bundle does to one fibre. -/
inductive LaneEnd where
  /-- Nothing. -/
  | keep (f : Fibre)
  /-- The fibre goes on at the word after the bundle; flags that it raised (R121). -/
  | done (f : Fibre) (flags : BitVec 6)
  /-- A taken control transfer. -/
  | jump (f : Fibre) (t : Pc)
  /-- A trap; the bundle has no other effect on the fibre (R41). -/
  | trap (f : Fibre) (t : TrapInfo)
  /-- The fibre ends (R54). -/
  | fin (f : Fibre)
  /-- The fibre parks (R57). -/
  | park (f : Fibre) (why : Wait)
  deriving DecidableEq, Repr

/-- What a wave instruction does: it waits (`blocked` marks the switch points of R61), or it takes effect with a new
state and an end for each executing fibre. -/
inductive PathRes where
  | stall (blocked : Bool)
  /-- Waits as for an operand, in a state that remembers it. -/
  | hold (s : State)
  | fault (e : Fault)
  | go (s : State) (ends : Nat → Fibre → LaneEnd)

/-! ### Reset -/

/-- A lane slot that holds no fibre. -/
def Fibre.empty : Fibre :=
  { live := false, pc := 0, base := 0, regs := [], sregs := [], preds := 0, lc := [0, 0, 0], loops := [], weight := 0,
    park := none, intrap := false, savedBase := 0, queued := none, cause := 0, epc := 0, evalue := 0, ureg := 0,
    due := [], mtrap := .none, owed := none }

/-- A quad as R159 leaves it. -/
def Conv.clear : Conv := { set := [], remaining := 0, signed := [none, none, none, none], acc := 0, ty := .b8 }

/-- A quad with no owner (R159). -/
def Quad.clear : Quad :=
  { acc := [], conv := List.replicate 8 Conv.clear, failed := [], frozen := false, pipe := [], ready := [],
    owner := none, out := [], resume := none }

/-- A partition after reset (R64, R309). -/
def Part.clear : Part :=
  { limit := 32, cnt := 0, led := 0, halt := .none, whole := false, inService := true, testing := false, bankTest := none,
    since := 0, most := 0, least := 0 }

/-- A cluster after reset (R366, R372, R374). Floor, temperature, voltage and oscillator have no reset value in the
spec: DESIGN CHOICE, log 4. -/
def Cluster.clear : Cluster :=
  { level := 15, clock := 1750, volt := 950, clk := 0, target := 15, floor := 0, pr := 0, hr := 0, hold := none, change := none, hot := false, temp := 0,
    stall := 0, mv := 950, osc := 0, shown := (15, 15), busy := false, span := 0, stalls := (0, 0), bubble := 0, heating := false, coolSince := none, nextSample := 10000 }

/-- A host watch after reset (R253). -/
def Watch.clear : Watch :=
  { waddr := 0, wval := 0, wdest := 0, en := false, fired := false, err := false, vec := 0, msi := false, cond := 0,
    w := 0, wasid := 0, seq := 0, armed := none, record := none }

/-- The machine right after reset: no launch, no address space, nothing mapped, every cluster at level 15. Chip time,
core splits, the device number, the host link's and the peers' presence and the power limit have no reset value in
the spec: DESIGN CHOICE, log 4. -/
def State.reset : State :=
  { waves := [], teams := [], grids := [], phases := [], mailboxes := [], flights := [], requeue := [], serial := 0,
    quads := List.replicate 64 Quad.clear, tileOps := [], engine := [], slotQueue := [], splits := List.replicate 32 0,
    mem := [], poison := [], l1 := [], pend := [], late := [], homing := [], modified := [], leaders := [], shadows := [],
    spaces := [], pages := [], frozen := [], regions := [], records := [], recSeq := [0, 0], freezes := [],
    parkedReqs := [], delivered := [], commands := [], parts := List.replicate 256 Part.clear,
    zenCnt := List.replicate 32 0, zenLed := List.replicate 32 false, injects := [], faulty := [],
    clusters := List.replicate 8 Cluster.clear, isModule := true, limit := 2600, watts := 0, lowSince := none, nextCheck := 1000000, bubbles := 0,
    watches := List.replicate 256 Watch.clear,
    ring := { base := 0, lsize := 0, tail := 0, head := 0, err := false, en := false },
    windows := [], hostMod := [], linkUp := true, dev := .running, failing := .other, image := none, firmware := [], devNum := 0, peers := 0, outputs := [],
    episodes := [], pairs := [], ready := [], time := 0, agenda := [], bundle := [], cur := { wave := 0, pc := 0 },
    turn := 0, tried := [], defer := false, placings := 0, arrivals := 0,
    freeCtr := 0 }

end Sys2Proof.Machine
end

