-- ==== Sys2Proof/Machine/Ops.lean ====
section
/-! DEFINITION. Named operations over fibres, waves, teams and phase weight: register access, ends of fibres,
barriers, taking a trap (R311) and returning from one (R313). -/

namespace Sys2Proof.Machine

/-- The result type of every meaning. -/
abbrev Out := Host.Outcome State Fault Refusal

/-- Changes entry `i` of a list, if there is one. -/
def modAt {α : Type} (l : List α) (i : Nat) (f : α → α) : List α := l.modify i f

/-! ### Access to the parts of the state -/

def State.wave? (s : State) (w : Nat) : Option Wave := s.waves[w]?
def State.setWave (s : State) (w : Nat) (x : Wave) : State := { s with waves := s.waves.set w x }
def State.modWave (s : State) (w : Nat) (f : Wave → Wave) : State := { s with waves := modAt s.waves w f }
def State.modTeam (s : State) (t : Nat) (f : Team → Team) : State := { s with teams := modAt s.teams t f }
def State.modGrid (s : State) (g : Nat) (f : Grid → Grid) : State := { s with grids := modAt s.grids g f }
def State.modPhase (s : State) (p : Nat) (f : Phase → Phase) : State := { s with phases := modAt s.phases p f }
def State.modQuad (s : State) (q : Nat) (f : Quad → Quad) : State := { s with quads := modAt s.quads q f }
def State.modPart (s : State) (p : Nat) (f : Part → Part) : State := { s with parts := modAt s.parts p f }
def State.modCluster (s : State) (c : Nat) (f : Cluster → Cluster) : State :=
  { s with clusters := modAt s.clusters c f }
def State.emit (s : State) (o : Output) : State := { s with outputs := s.outputs ++ [o] }

/-- The team of a wave. -/
def State.teamOf (s : State) (w : Wave) : Option Team := s.teams[w.team]?
/-- The grid of a wave. -/
def State.gridOf (s : State) (w : Wave) : Option Grid := (s.teamOf w).bind fun t => s.grids[t.grid]?

/-- Device-wide partition index (R3). -/
def Wave.partIndex (w : Wave) : Nat := 8 * w.core + w.part
/-- Quad index: two quads a core (R3). -/
def Wave.quadIndex (w : Wave) : Nat := 2 * w.core + w.part / 4
/-- Position of the wave's partition in its quad (R160). -/
def Wave.quadPos (w : Wave) : Nat := w.part % 4
/-- Die and cluster of a core (R3). -/
def dieOf (core : Nat) : Nat := core / 16
def clusterOf (core : Nat) : Nat := core / 4

/-- Draws a fresh index for a free value (log 2). -/
def State.draw (s : State) : State × Nat := ({ s with freeCtr := s.freeCtr + 1 }, s.freeCtr)

/-- Chip time as a number. -/
def State.now (s : State) : Nat := s.time.toNat

/-! ### Registers (R85, R86, R88, R90) -/

/-- Physical index of a register field: base + k, modulo 64 in Zenith code (R76, R85). -/
def Fibre.phys (z : Bool) (f : Fibre) (k : Nat) : Nat := if z then (f.base + k) % 64 else f.base + k

/-- The s-register at a physical index. -/
def Fibre.sreg (f : Fibre) (i : Nat) : DWord := f.sregs.getD i 0

/-- Register field k as 32 bits: a lane register, or bits [31:0] of an s-register (R90). -/
def Fibre.get (z : Bool) (f : Fibre) (k : Nat) : Word :=
  if z then lo32 (f.sreg (f.phys z k)) else f.regs.getD (f.phys z k) 0

/-- Register field k in a pair role: an even pair, or one s-register (R86, R90). -/
def Fibre.getPair (z : Bool) (f : Fibre) (k : Nat) : DWord :=
  if z then f.sreg (f.phys z k) else pair64 (f.get z (k + 1)) (f.get z k)

/-- Writes a 32-bit integer result: sign-extended to 64 bits in Zenith code (R90). -/
def Fibre.set (z : Bool) (f : Fibre) (k : Nat) (v : Word) : Fibre :=
  if z then { f with sregs := f.sregs.set (f.phys z k) (v.signExtend 64) }
  else { f with regs := f.regs.set (f.phys z k) v }

/-- Writes a 32-bit result that Zenith code zero-extends (R90, R153, R242). -/
def Fibre.setZ (z : Bool) (f : Fibre) (k : Nat) (v : Word) : Fibre :=
  if z then { f with sregs := f.sregs.set (f.phys z k) (v.setWidth 64) }
  else { f with regs := f.regs.set (f.phys z k) v }

/-- Writes a 64-bit result to a pair field (R86, R90). -/
def Fibre.setPair (z : Bool) (f : Fibre) (k : Nat) (v : DWord) : Fibre :=
  if z then { f with sregs := f.sregs.set (f.phys z k) v }
  else
    let f1 := { f with regs := f.regs.set (f.phys z k) (lo32 v) }
    { f1 with regs := f1.regs.set (f.phys z (k + 1)) (hi32 v) }

/-! ### Predicates (R20, R91) -/

/-- Predicate p of a fibre; p7 reads 1. -/
def Fibre.pred (f : Fibre) (p : PredNo) : Bool := if p == 7#3 then true else f.preds.getLsbD p.toNat

/-- The predicate bits with bit n replaced. -/
def setBit7 (x : BitVec 7) (n : Nat) (b : Bool) : BitVec 7 :=
  let m : BitVec 7 := 1#7 <<< n
  if b then x ||| m else x &&& ~~~m

/-- Writes predicate p; a write to p7 is discarded (R20). -/
def Fibre.setPred (f : Fibre) (p : PredNo) (b : Bool) : Fibre :=
  if p == 7#3 then f else { f with preds := setBit7 f.preds p.toNat b }

/-- Whether a guard holds in a fibre (R20). -/
def Fibre.guardTrue (g : Guard) (f : Fibre) : Bool := f.pred g.pred != g.neg

/-! ### Loops (R74, R75) -/

def Fibre.lcOf (f : Fibre) (n : BitVec 2) : Word := f.lc.getD n.toNat 0

/-- End processing of the loops that end at word e, most recently activated first (R74). -/
def loopEndList (e : Pc) (f : Fibre) : List LoopRec → Fibre
  | [] => f
  | r :: rest =>
    if r.e == e then
      if 1 < (f.lcOf r.n).toNat then { f with lc := f.lc.set r.n.toNat (f.lcOf r.n - 1), pc := r.s }
      else
        loopEndList e
          { f with lc := f.lc.set r.n.toNat 0, loops := f.loops.filter (fun q => q.n != r.n) } rest
    else loopEndList e f rest

def Fibre.loopEnd (f : Fibre) (e : Pc) : Fibre := loopEndList e f f.loops

/-- Whether word index x lies in [s, e]. -/
def inBody (r : LoopRec) (x : Pc) : Bool := r.s.toNat ≤ x.toNat && x.toNat ≤ r.e.toNat

/-- A taken BRA, UBR, JMPI or RET from word `src` to `t` leaves the loops it branches out of (R75). -/
def Fibre.leaveLoops (f : Fibre) (src t : Pc) : Fibre :=
  { f with loops := f.loops.filter (fun r => !inBody r src || inBody r t) }

/-- A fibre that goes on after its bundle: the next word, and the end processing of loops that end at `last`. -/
def Fibre.advance (f : Fibre) (next last : Pc) : Fibre := { f with pc := next }.loopEnd last

/-- A parked fibre that is released goes on as its bundle would have. -/
def Fibre.resume (f : Fibre) : Fibre :=
  match f.park with
  | none => f
  | some p => { f with park := none }.advance p.next p.last

/-! ### Hints of the bundle in progress (R26) -/

def State.hintXimm (s : State) : Option (BitVec 24) :=
  s.bundle.findSome? fun i => match i with | .ximm p => some p | _ => none
def State.hintXop (s : State) : Option (BitVec 24) :=
  s.bundle.findSome? fun i => match i with | .xop p => some p | _ => none
def State.hintXoff (s : State) : DWord :=
  (s.bundle.findSome? fun i => match i with | .xoff p => some (p.signExtend 64) | _ => none).getD 0
def State.hintRnd (s : State) : Rnd :=
  (s.bundle.findSome? fun i => match i with | .mod _ _ _ _ r => some r | _ => none).getD .rne
def State.hintSat (s : State) : Bool := s.bundle.any fun i => match i with | .mod _ _ _ t _ => t | _ => false
def State.hintInv (s : State) : Bool := s.bundle.any fun i => match i with | .mod v _ _ _ _ => v | _ => false
def State.hintMsg (s : State) : Bool := s.bundle.any fun i => match i with | .mod _ m _ _ _ => m | _ => false
def State.hintClr (s : State) : Bool := s.bundle.any fun i => match i with | .mod _ _ c _ _ => c | _ => false
def State.hintYld (s : State) : Bool := s.bundle.any fun i => match i with | .sched y _ _ => y | _ => false

/-- Index of the bundle's ordinary word, and of the word after it (R28). -/
def State.lastPc (s : State) : Pc := s.cur.pc + BitVec.ofNat 24 s.bundle.length
def State.nextPc (s : State) : Pc := s.lastPc + 1

/-! ### Paths, rotation, serial mode (R57 to R63) -/

/-- Whether a fibre of a wave may issue at all: the wave is resident, or halted with the fibre in its handler of trap
0x11 (R183, R322). -/
def Wave.mayIssue (w : Wave) (f : Fibre) : Bool :=
  match w.stat with
  | .resident => true
  | .halted => f.mtrap == .saving
  | _ => false

/-- Whether the fibre in slot l belongs to the path that issues at pc. -/
def Wave.inPath (w : Wave) (pc : Pc) (l : Nat) (f : Fibre) : Bool :=
  f.live && f.park.isNone && f.pc == pc && w.mayIssue f &&
    (w.stat == .halted || (match w.serial with | none => true | some c => c == l))

/-- PCs of the fibres that can issue. -/
def Wave.readyPcs (w : Wave) : List Pc := (w.fibres.filter fun f => f.live && f.park.isNone).map (·.pc)

/-- Number of distinct PCs among the live fibres, parked ones included (R62). -/
def Wave.distinctPcs (w : Wave) : Nat := ((w.fibres.filter (·.live)).map (·.pc)).eraseDups.length

/-- The next ready fibre after slot c, in ascending lane order, wrapping (R63). -/
def Wave.nextReady (w : Wave) (c : Nat) : Option Nat :=
  let ready := fun l => match w.fibres[l]? with | some f => f.live && f.park.isNone | none => false
  let n := w.fibres.length
  ((List.range n).map fun k => (c + 1 + k) % n).find? ready

/-- A switch of serial mode (R63): leaves it at 6 or fewer distinct PCs, else takes the next ready fibre; without one
the switch is due, with the count of 32 used up, until one is ready (`Wave.settleSerial`). -/
def Wave.switch (w : Wave) : Wave :=
  match w.serial with
  | none => w
  | some c =>
    if w.distinctPcs ≤ 6 then { w with serial := none, quota := 0 }
    else match w.nextReady c with
      | some n => { w with serial := some n, quota := 0 }
      | none => { w with quota := 32 }

/-- Whether a parked fibre waits at a switch point of serial mode (R61). A fibre on a fault record, an atomic or a
FREEZE waits as for an operand. -/
def Wait.blocks : Wait → Bool
  | .mask _ | .barrier _ _ | .monitor _ | .sleep _ | .steps _ => true
  | .record _ _ | .atomic _ | .freeze _ => false

/-- Serial mode between bundles: a switch that is due, or a current fibre that has ended or is blocked, gives way as soon as a
fibre is ready (R63); one that waits as for an operand keeps its place until the bound of R60 would be missed (`late`). -/
def Wave.settleSerial (late : Bool) (w : Wave) : Wave :=
  match w.serial with
  | none => w
  | some c =>
    let gives := match w.fibres[c]? with
      | none => true
      | some f => late || !f.live || decide (32 ≤ w.quota) || (match f.park with | some p => p.why.blocks | none => false)
    if gives && (w.nextReady c).isSome then w.switch else w

/-- Opportunities that a ready path has let pass (R60). -/
def Wave.waitOf (w : Wave) (p : Pc) : Nat := (w.waits.lookup p).getD 0

/-- No ready path but that at pc has let 32 opportunities pass. While this does not hold, every path issues one bundle in
its turn, so that the up to seven paths before another, of up to four words each, keep it within its 64 (R60). -/
def Wave.calm (w : Wave) (pc : Pc) : Bool := w.rot.all fun p => p == pc || decide (w.waitOf p < 32)

/-- The rotation after a bundle of n words at `pc` has issued: the path's first continuation keeps its place for up to
eight issues while no other path has waited long (R60), unless it yields; paths that appear, and a path that gives way, join
the back, the latter last (R58, R79). -/
def Wave.rotate (w : Wave) (pc : Pc) (cont : Option Pc) (yld : Bool) (n : Nat) : Wave :=
  let pcs := w.readyPcs.eraseDups
  let old := w.rot.filter fun p => p != pc && pcs.contains p
  let w1 := { w with waits := old.map fun p => (p, w.waitOf p + n) }
  let stay := match cont with | some c => !yld && w.streak < 7 && pcs.contains c && w1.calm c | none => false
  let own := cont.toList.filter pcs.contains
  let rest := old ++ (pcs.filter fun p => !old.contains p && !own.contains p)
  { w1 with rot := ((if stay then own else []) ++ rest ++ own).eraseDups, streak := if stay then w.streak + 1 else 0 }

/-- Between steps: a path that is no longer there leaves the rotation, and one that has appeared since joins the back
(R58). -/
def Wave.settleRot (w : Wave) : Wave :=
  let pcs := w.readyPcs.eraseDups
  let old := w.rot.filter pcs.contains
  { w with rot := old ++ pcs.filter (fun p => !old.contains p), waits := w.waits.filter fun x => old.contains x.1 }

/-- A wave whose live fibres stand at nine or more PCs enters serial mode, with its lowest ready fibre (R62, R63). -/
def Wave.enterSerial (w : Wave) : Wave :=
  if !w.zen && w.serial.isNone && decide (9 ≤ w.distinctPcs) then
    { w with serial := some ((w.nextReady (w.fibres.length - 1)).getD 0), quota := 0 }
  else w

/-- What the scheduler does with a wave after one of its bundles, of n words, has retired (R58, R62, R63); `point` says that the
bundle's instruction is a switch point (R61). -/
def Wave.schedule (w : Wave) (pc : Pc) (cont : Option Pc) (yld point : Bool) (n : Nat) : Wave :=
  let w := { w.rotate pc cont yld n with yielded := yld }
  if w.zen then w
  else
    match w.serial with
    | none => w.enterSerial
    | some c =>
      let w := { w with quota := w.quota + 1 }
      let ended := match w.fibres[c]? with | some f => !f.live | none => true
      if yld || point || 32 ≤ w.quota || ended then w.switch else w

/-! ### Phase weight (R297 to R300) -/

/-- The protocol of a cached line, if it has a leader (R267). -/
def State.lineCoh (s : State) (line : Nat) : Option (BitVec 2) :=
  (s.leaders.find? fun x => x.line == line).map (·.coh)

/-- At system scope the device gives up the host's self-invalidating lines that its L2 holds modified (R215, R247). Their
shadows are flushed by `State.settleHost` within the same step (R245). -/
def State.releaseHost (s : State) : State :=
  { s with hostMod := s.hostMod.filter fun l => s.lineCoh l != some 1#2 }

/-- Weight that returns to the root home slice, as a release at system scope (R300). -/
def State.weightHome (s : State) (phase amount : Nat) : State :=
  (s.modPhase phase fun p => { p with returned := p.returned + amount }).releaseHost

/-- Whether team t of a DET grid has to stage its effects (R289): it does not hold the turn. -/
def State.staging (s : State) (t : Nat) : Bool :=
  match s.teams[t]? with
  | none => false
  | some team => match s.grids[team.grid]? with
    | none => false
    | some g => g.det && g.turn != team.idx

/-- Weight that team t returns: behind what the team has staged, if anything, or while it does not hold the turn (R290,
R300); a killed team's goes home at once (R301). -/
def State.weightFrom (s : State) (t amount : Nat) : State :=
  match s.teams[t]? with
  | none => s
  | some team =>
    if !team.killed && (s.staging t || !team.stage.isEmpty) then
      s.modTeam t fun x => { x with stage := x.stage ++ [.home amount] }
    else match s.grids[team.grid]? with
      | none => s
      | some g => s.weightHome g.phase amount

/-- Whether accesses of a wave have still to take effect: stores on their way to their homes (R225), and what its ACCCV,
MDRAIN and MREST move (R178). -/
def State.owes (s : State) (wid : Nat) : Bool :=
  (s.pend.any fun p => p.wave == wid && !(p.bytes.isEmpty && p.selfinv.isEmpty))
    || s.tileOps.any fun o => o.wave == wid

/-- Weight that a fibre of wave `wid`, of team t, returns at its end: after the accesses that its wave has issued (R300). -/
def State.returnWeight (s : State) (wid t amount : Nat) : State :=
  if amount = 0 then s
  else if s.owes wid then { s with homing := s.homing ++ [(wid, amount)] }
  else s.weightFrom t amount

/-- Weight whose wave has nothing more to bring home returns (R300). -/
def State.settleWeight (s : State) : State :=
  if s.homing = [] then s
  else
    let due := s.homing.filter fun h => !s.owes h.1
    due.foldl (fun s h => match s.waves[h.1]? with | some w => s.weightFrom w.team h.2 | none => s)
      { s with homing := s.homing.filter fun h => s.owes h.1 }

/-- A split of weight w (R298, R299): the issuer's rest, the child's share, and the refill that was drawn. -/
def splitWeight (w : Nat) : Nat × Nat × Nat :=
  if w ≤ 1 then
    let r := w + 2 ^ 32
    (r - r / 2, r / 2, 2 ^ 32)
  else (w - w / 2, w / 2, 0)

/-- Adds a refill to the weight expected (R299). -/
def State.refill (s : State) (phase amount : Nat) : State :=
  if amount = 0 then s else s.modPhase phase fun p => { p with expected := p.expected + amount }

/-! ### Poison, once for a wave instruction (R317) -/

/-- Whether wave instruction `id` has consumed poison already, by what its unfinished parts hold. -/
def Wave.drank (w : Wave) (id : Nat) : Bool :=
  w.fibres.any fun f => (f.owed.any fun p => p.id == id && p.psn) ||
    (match f.park with | some { why := .monitor m, .. } => m.id == id && m.psn | _ => false)

/-- The unfinished parts of wave instruction `id` hold that it has consumed poison. -/
def Fibre.drunk (id : Nat) (f : Fibre) : Fibre :=
  { f with
    owed := f.owed.map fun p => if p.id = id then { p with psn := true } else p
    park := f.park.map fun p => match p.why with
      | .monitor m => if m.id = id then { p with why := .monitor { m with psn := true } } else p
      | _ => p }
def Wave.drunk (id : Nat) (w : Wave) : Wave := { w with fibres := w.fibres.map (Fibre.drunk id) }

/-! ### Barriers (R80, R81) -/

/-- Waves of a team that have ended. -/
def State.endedWaves (s : State) (t : Team) : Nat :=
  (t.waves.filter fun w => match s.waves[w]? with | some x => x.stat == .ended | none => true).length

/-- Releases the fibres of a team that are parked on barrier b in generation `gen`. -/
def releaseBar (b gen : Nat) (f : Fibre) : Fibre :=
  match f.park with
  | some { why := .barrier b' g', .. } => if b'.toNat = b ∧ g' = gen then f.resume else f
  | _ => f

/-- Completes the open generation of barrier b of team t: the generation number advances, the parked fibres are
released, and arrivals restart at the number of ended waves (R80). -/
def State.completeBar (s : State) (t b : Nat) : State :=
  match s.teams[t]? with
  | none => s
  | some team => match team.bars[b]? with
    | none => s
    | some bar =>
      let s1 := s.modTeam t fun x =>
        { x with bars := x.bars.set b { bar with arrivals := s.endedWaves team, gen := bar.gen + 1 } }
      { s1 with waves := s1.waves.map fun w =>
          if w.team = t ∧ w.zen = false then { w with fibres := w.fibres.map (releaseBar b bar.gen) } else w }

/-- One arrival at barrier b of team t, and the completion it may cause (R80). -/
def State.arrive (s : State) (t b : Nat) : State :=
  match s.teams[t]? with
  | none => s
  | some team => match team.bars[b]? with
    | none => s
    | some bar =>
      let s1 := s.modTeam t fun x => { x with bars := x.bars.set b { bar with arrivals := bar.arrivals + 1 } }
      if bar.expected ≤ bar.arrivals + 1 then s1.completeBar t b else s1

/-! ### The Meridian token (R295, R296) -/

/-- A member rests when it has ended or every live fibre of it is parked on a barrier (R295). -/
def Wave.resting (w : Wave) : Bool :=
  w.stat == .ended || (w.fibres.filter (·.live)).all fun f =>
    match f.park with | some { why := .barrier _ _, .. } => true | _ => false

/-- The member at which the token waits, starting from `t.token`: the first that does not rest. Where every member rests it stays
where it is: DESIGN CHOICE, log 54, since R295 does not say. -/
def State.tokenAt (s : State) (t : Team) : Nat :=
  let n := t.waves.length
  let rests := fun m => match t.waves[m]? with
    | some w => match s.waves[w]? with | some x => x.resting && !x.held | none => true
    | none => true
  (((List.range n).map fun k => (t.token + k) % n).find? fun m => !rests m).getD t.token

/-- Passes the token of team t from member m to the next. -/
def State.passToken (s : State) (t m : Nat) : State :=
  s.modTeam t fun x => { x with token := (m + 1) % (max 1 x.waves.length) }

/-- The implicit TOKP of a holding wave (R296). -/
def State.dropToken (s : State) (wid : Nat) : State :=
  match s.waves[wid]? with
  | none => s
  | some w => if w.held then (s.modWave wid fun x => { x with held := false }).passToken w.team w.idx else s

/-! ### Matrix registers of a wave that ends (R165) -/

/-- Clears a convergence register: no remaining issues, no signatures. -/
def Conv.disarm (c : Conv) : Conv := { c with remaining := 0, signed := [none, none, none, none] }

/-- Signatures that a wave index has on a register. -/
def Conv.sigCount (c : Conv) (idx : Nat) : Nat :=
  ((c.set.zip c.signed).filter fun p => p.1 == idx && p.2.isSome).length

/-- SIGNCLR of register n of quad q: its signatures are discarded, and their waves' tiles counters fall (R165). -/
def State.signClear (s : State) (q n : Nat) : State :=
  match s.quads[q]? with
  | none => s
  | some quad => match quad.conv[n]? with
    | none => s
    | some c =>
      let s1 := s.modQuad q fun x =>
        { x with conv := x.conv.set n c.disarm, ready := x.ready.filter (· != n) }
      { s1 with waves := s1.waves.map fun w =>
          if some w.team = quad.owner ∧ w.zen = false ∧ w.quadIndex = q then
            { w with tiles := w.tiles - c.sigCount w.idx } else w }

/-! ### Ends (R54, R71, R81, R337) -/

/-- Whether every fibre of a mask is parked on it (R72). -/
def Wave.maskMet (w : Wave) (j : Nat) : Bool :=
  let m := w.masks.getD j 0
  (w.fibres.zipIdx).all fun p =>
    !m.getLsbD p.2 || (match p.1.park with | some { why := .mask k, .. } => k.toNat == j | _ => false)

def parkedOnMask (j : Nat) (f : Fibre) : Bool :=
  f.live && (match f.park with | some { why := .mask k, .. } => k.toNat == j | _ => false)

/-- Releases the fibres parked on mask j (R72). -/
def Wave.releaseMask (w : Wave) (j : Nat) : Wave :=
  { w with fibres := w.fibres.map fun f => if parkedOnMask j f then f.resume else f }

/-- Releases every mask that is satisfied and has a parked fibre. -/
def Wave.settleMasks (w : Wave) : Wave :=
  (List.range 16).foldl (fun w j => if w.fibres.any (parkedOnMask j) && w.maskMet j then w.releaseMask j else w) w

/-- Takes slot l out of every rejoin mask (R71). -/
def Wave.unmask (w : Wave) (l : Nat) : Wave :=
  { w with masks := w.masks.map fun m => m &&& ~~~(1#64 <<< l) }

/-- Whether a request of a fibre has left the core and not come back: an atomic (R236) or a FREEZE (R273). -/
def Fibre.inFlight (f : Fibre) : Bool :=
  match f.park with
  | some { why := .atomic _, .. } | some { why := .freeze _, .. } => true
  | _ => false

/-- A slot after its fibre has ended. A request in flight still completes: the slot keeps it, and the weight with it,
until it has (R236, R300). -/
def Fibre.close (f : Fibre) : Fibre :=
  if f.inFlight then { f with live := false, loops := [] }
  else { f with live := false, park := none, loops := [], weight := 0, owed := none }

/-- Whether a fibre's part of wave instruction `id` of its wave is still to complete. -/
def Fibre.counts (id : Nat) (f : Fibre) : Bool := f.owed.any fun p => p.id == id

/-- Whether some part of a wave instruction is still to complete, so that it holds its one count (R43). -/
def State.counting (s : State) (wid id : Nat) : Bool :=
  (match s.waves[wid]? with | some w => w.fibres.any (Fibre.counts id) | none => false) ||
    s.pend.any fun p => p.wave == wid && p.ids.contains id

/-- The count of a wave instruction is taken back once every part of it has completed (R42, R43). -/
def State.endCount (s : State) (wid : Nat) (store : Bool) (id : Nat) : State :=
  if s.counting wid id then s
  else s.modWave wid fun w => if store then { w with stores := w.stores - 1 } else { w with loads := w.loads - 1 }

/-- The count that a fibre held, after it has given it up. -/
def State.giveCount (s : State) (wid : Nat) (o : Option Share) : State :=
  match o with
  | some { counter := some store, id := id, .. } => s.endCount wid store id
  | _ => s

/-- The end of one fibre (R71, R75): its slot is free, its weight goes home, its bit leaves every mask. -/
def State.endFibre (s : State) (wid l : Nat) : State :=
  match s.waves[wid]? with
  | none => s
  | some w => match w.fibres[l]? with
    | none => s
    | some f =>
      let w1 := { w with fibres := w.fibres.set l f.close }
      ((s.setWave wid (w1.unmask l).settleMasks).giveCount wid (if f.inFlight then none else f.owed)).returnWeight wid w.team
        (if f.inFlight then 0 else f.weight)

/-- The slot of a fibre that had ended with a request in flight, once the request has completed. -/
def State.closeSlot (s : State) (wid l : Nat) : State :=
  match s.waves[wid]? with
  | none => s
  | some w => match w.fibres[l]? with
    | none => s
    | some f =>
      if f.live then s
      else (s.setWave wid { w with fibres := w.fibres.set l { f with park := none, weight := 0 } }).returnWeight wid w.team f.weight

/-- A wave's sr.chk and unreported copy failures, added to its grid's completion status (R317, R337). -/
def Grid.absorb (g : Grid) (w : Wave) : Grid :=
  let g := { g with psn := g.psn || w.psn, etr := g.etr || w.etr, xq := g.xq || w.xq,
                    pcnt := min (g.pcnt + w.pcnt.toNat) (2 ^ 32 - 1) }
  match w.fails with
  | [] => g
  | c :: _ =>
    { g with copyFails := g.copyFails + w.fails.length,
             copyFail := if g.copyFails = 0 then (0#8) ++ c.status ++ c.tag else g.copyFail }

/-- Quads that a team occupies (R158). -/
def State.teamQuads (s : State) (t : Team) : List Nat :=
  (t.waves.filterMap fun w => (s.waves[w]?).map Wave.quadIndex).eraseDups

/-- The matrix state of a team that ends is reported and freed (R159, R172). -/
def State.freeQuads (s : State) (tid : Nat) (t : Team) : State :=
  (s.teamQuads t).foldl (fun s q =>
    match s.quads[q]? with
    | none => s
    | some quad =>
      if quad.owner = some tid then
        let s1 := s.modGrid t.grid fun g =>
          match quad.failed with
          | [] => g
          | f :: _ =>
            { g with failedSlices := g.failedSlices + quad.failed.length,
                     failedSlice := if g.failedSlices = 0 then
                         BitVec.ofNat 32 ((q / 2) * 256 + (q % 2) * 128 + f.tile) else g.failedSlice }
        s1.modQuad q fun _ => Quad.clear
      else s) s

/-- A team ends when all its waves and its Zenith thread have ended (R54). -/
def State.checkTeamEnd (s : State) (tid : Nat) : State :=
  match s.teams[tid]? with
  | none => s
  | some t =>
    let gone := fun w => match s.waves[w]? with | some x => x.stat == .ended | none => true
    if !t.ended && t.waves.all gone && (match t.zen with | some z => gone z | none => true) then
      (s.freeQuads tid t).modTeam tid fun x =>
        { x with ended := true, placed := false, scratch := [], scratch2 := [], passed := x.passed }
    else s

/-- A wave ends when no slot holds a fibre and its four counters are 0 (R54): it counts as arrived at every barrier
(R81), passes the token, and disarms the convergence registers that name it (R165). -/
def State.checkWaveEnd (s : State) (wid : Nat) : State :=
  match s.waves[wid]? with
  | none => s
  | some w =>
    if w.stat != .ended && (w.fibres.all fun f => !f.live && f.park.isNone) && w.loads = 0 && w.stores = 0 && w.copies = 0
        && w.tiles = 0 then
      let s1 := s.dropToken wid
      let s2 := s1.modWave wid fun x => { x with stat := .ended }
      let s3 := match s2.teamOf w with
        | none => s2
        | some t => s2.modGrid t.grid fun g => g.absorb w
      let s4 := if w.zen then s3 else
        (List.range 16).foldl (fun s b =>
          match s.teams[w.team]? with
          | none => s
          | some t => match t.bars[b]? with
            | none => s
            | some bar => if w.arrived.getD b none = some bar.gen then s else s.arrive w.team b) s3
      let s5 := if w.zen then s4 else
        match s4.quads[w.quadIndex]? with
        | none => s4
        | some quad =>
          if quad.owner = some w.team then
            (List.range 8).foldl (fun s n =>
              match quad.conv[n]? with
              | some c => if 0 < c.remaining && c.set.contains w.idx then s.signClear w.quadIndex n else s
              | none => s) s4
          else s4
      s5.checkTeamEnd w.team
    else s

/-- Every live fibre of a wave ends where it stands (R320). -/
def State.endAll (s : State) (wid : Nat) : State :=
  match s.waves[wid]? with
  | none => s
  | some w => (List.range w.fibres.length).foldl (fun s l =>
      match (s.waves[wid]?).bind (fun w => w.fibres[l]?) with
      | some f => if f.live then s.endFibre wid l else s
      | none => s) s

/-- Weight that a staged effect carries. -/
def Staged.weight : Staged → Nat
  | .home w => w
  | .message f => match f.weight with | some c => c.amount | none => 0
  | .action _ _ c => c.amount
  | _ => 0

/-- A team is killed (R292, R341): the grid counts it, what it has staged is discarded, the weight of that and of its
fibres goes home (R301), and its waves end. -/
def State.killTeam (s : State) (tid : Nat) : State :=
  match s.teams[tid]? with
  | none => s
  | some t =>
    if t.ended || t.killed then s
    else
      let s1 := (s.modTeam tid fun x => { x with killed := true, stage := [] }).modGrid t.grid fun g =>
        { g with killed := g.killed ++ [t.idx] }
      let s2 := s1.weightFrom tid (t.stage.foldl (fun a e => a + e.weight) 0)
      let ws := t.waves ++ t.zen.toList
      ws.foldl (fun s w => s.checkWaveEnd w) (ws.foldl (fun s w => s.endAll w) s2)

/-- Termination of a wave (R320): every fibre ends, the grid records it; in a DET launch 0x0E ends the team (R292). -/
def State.terminate (s : State) (wid : Nat) (cause : BitVec 6) (nested : Bool) (epc : Pc) : State :=
  match s.waves[wid]? with
  | none => s
  | some w => match s.teamOf w with
    | none => s
    | some t =>
      let s1 := s.modGrid t.grid fun g =>
        { g with terms := g.terms + 1,
                 term := g.term <|> some { team := t.idx, wave := if w.zen then 0xFFFF else w.idx, cause := cause,
                                           nested := nested, epc := epc } }
      match s.grids[t.grid]? with
      | some g => if g.det && cause == 0x0E#6 then s1.killTeam w.team else (s1.endAll wid).checkWaveEnd wid
      | none => (s1.endAll wid).checkWaveEnd wid

/-! ### Taking a trap and returning from one (R311, R313, R319) -/

/-- The fibre part of trap entry (R311, R312). -/
def Fibre.enter (z : Bool) (f : Fibre) (t : TrapInfo) (epc entry : Pc) (trapwin : Nat) : Fibre :=
  { f with
    intrap := true
    savedBase := f.base
    base := if z then (f.base + trapwin) % 64 else f.base + trapwin
    cause := t.cause
    epc := epc
    evalue := t.evalue
    ureg := t.ureg.getD f.ureg
    pc := entry
    park := none }

/-- Fibre l of wave `wid` takes a trap whose bundle starts at `epc`. Where the wave is terminated instead, the fibre does
not enter, and its sr.epc, which the grid records, is that of its latest entry (R311, R320; log 52). -/
def State.takeTrap (s : State) (wid l : Nat) (t : TrapInfo) (epc : Pc) : State :=
  match s.waves[wid]? with
  | none => s
  | some w => match w.fibres[l]?, s.gridOf w with
    | some f, some g =>
      if !f.live then s
      else if f.intrap then
        if t.cause == 0x07#6 then
          match f.queued with
          | none => s.setWave wid { w with xq := true, fibres := w.fibres.set l { f with queued := t.err } }
          | some _ => s.terminate wid 0x0E#6 false f.epc
        else s.terminate wid t.cause true f.epc
      else match g.trapEntry with
        | none => s.terminate wid t.cause false f.epc
        | some entry =>
          let w1 := { w with fibres := w.fibres.set l (f.enter w.zen t epc entry g.trapwin) }
          s.setWave wid
            (if t.cause == 0x07#6 then { w1 with etr := true, err := t.err.getD w1.err } else w1)
    | _, _ => s

/-- Whether a silent error leaves its bundle behind when it is queued: one that the bundle's reads met, codes 1 to 5; one
in stored state, code 6, is met before the bundle. -/
def TrapInfo.passed (t : TrapInfo) : Bool := t.cause == 0x07#6 && t.err.any fun e => e.syn.setWidth 8 != 6#8

/-- RTE of one fibre to index t (R313): the base and the flag of before the trap; a queued silent error enters the
trap path at once with sr.epc = t. Answers the fibre, and the error that entered. -/
def Fibre.rte (z : Bool) (f : Fibre) (t entry : Pc) (trapwin : Nat) : Fibre × Option SilentErr :=
  let f1 := { f with base := f.savedBase, intrap := false, epc := t, pc := t }
  match f.queued with
  | none => (f1, none)
  | some e =>
    ({ f1 with queued := none }.enter z { cause := 0x07, evalue := 0, ureg := none, err := some e } t entry trapwin,
      some e)

/-! ### How a bundle retires -/

/-- The end of the bundle in the fibre of slot l. -/
def endOf (k : LaneKind) (ends : Nat → Fibre → LaneEnd) (l : Nat) (f : Fibre) : LaneEnd :=
  match k with
  | .out => .keep f
  | .skip => .done f 0
  | .bad t => .trap f t
  | .exec => ends l f

/-- The fibre after its bundle, before traps and ends are taken. Every fibre that retires the bundle ending at `last`
runs the end processing of the loops that end there, one that transfers control included (R74; log 29). A handler in which a
silent error is queued continues after the bundle, which has no other effect (R315, R319): DESIGN CHOICE, log 54. -/
def commitFibre (next last : Pc) (word : Word) : LaneEnd → Fibre
  | .keep f => f
  | .done f _ => f.advance next last
  | .jump f t => { f with pc := t }.loopEnd last
  | .trap f t => if f.intrap && f.queued.isNone && t.passed then f.advance next last else f
  | .fin f => f
  | .park f why => { f with park := some { why := why, next := next, last := last, word := word } }

def LaneEnd.flags : LaneEnd → BitVec 6
  | .done _ fl => fl
  | _ => 0

/-- Whether the bundle retires in this fibre. -/
def LaneEnd.retires : LaneEnd → Bool
  | .done _ _ | .jump _ _ | .fin _ | .park _ _ => true
  | _ => false

/-- Whether a bundle that parks has not retired yet: a fault record and a STEPR make it run again (R271, R359), and a
SLEEPT may still trap (R202). -/
def LaneEnd.waits : LaneEnd → Bool
  | .park _ (.record _ _) | .park _ (.sleep _) | .park _ (.steps _) => true
  | _ => false

/-- Ends of all fibres of the issuing wave. -/
def laneEnds (kinds : List LaneKind) (ends : Nat → Fibre → LaneEnd) (fs : List Fibre) : List LaneEnd :=
  fs.mapIdx fun l f => endOf (kinds.getD l .out) ends l f

/-- PC at which the path goes on, for the rotation: that of its lowest fibre that is still ready. -/
def continuation (es : List LaneEnd) (fs : List Fibre) : Option Pc :=
  ((es.zip fs).find? fun p => p.1.retires && p.2.live && p.2.park.isNone).map fun p => p.2.pc

/-- The issuing wave after a bundle of `n` words, before its traps and ends (R34, R42, R121, R325). -/
def Wave.commit (w : Wave) (es : List LaneEnd) (next last : Pc) (word : Word) (n : Nat) : Wave :=
  let ran := es.any fun e => e.retires && !e.waits
  { w with
    fibres := es.map (commitFibre next last word)
    fpflags := w.fpflags ||| (es.map LaneEnd.flags).foldl (· ||| ·) 0
    perf := if ran then w.perf + BitVec.ofNat 32 n else w.perf
    nopre := if ran then w.nopre.map (fun (p : NoPre) => { p with left := p.left - n }) else w.nopre }

/-- Words of the bundles at which fibres that satisfy p are parked, each bundle once. -/
def Wave.lateWords (w : Wave) (p : Fibre → Bool) : Nat :=
  ((w.fibres.filterMap fun f => if p f then f.park.map fun k => (f.pc, k.last) else none).eraseDups.map fun x =>
    (x.2 - x.1).toNat + 1).sum

/-- Bundles that had parked retire late, for the fibres that satisfy p (R92, R325). -/
def Wave.retireLate (w : Wave) (p : Fibre → Bool) : Wave :=
  { w with perf := w.perf + BitVec.ofNat 32 (w.lateWords p)
           nopre := w.nopre.map fun (x : NoPre) => { x with left := x.left - w.lateWords p } }

/-- Traps that the ends name, lowest lane first. -/
def trapsOf (es : List LaneEnd) : List (Nat × TrapInfo) :=
  es.zipIdx.filterMap fun p => match p.1 with | .trap _ t => some (p.2, t) | _ => none

/-- Slots whose fibres end. -/
def finsOf (es : List LaneEnd) : List Nat :=
  es.zipIdx.filterMap fun p => match p.1 with | .fin _ => some p.2 | _ => none

/-- Takes a list of traps of one bundle, one after another. -/
def State.takeTraps (s : State) (wid : Nat) (epc : Pc) : List (Nat × TrapInfo) → State
  | [] => s
  | (l, t) :: rest => (s.takeTrap wid l t epc).takeTraps wid epc rest

/-- Ends a list of fibres, and the wave with them if it ends (R54). -/
def State.endFibres (s : State) (wid : Nat) : List Nat → State
  | [] => s
  | l :: rest => ((s.endFibre wid l).endFibres wid rest)

/-- Every live fibre of a wave parked at WAITJ with no mask satisfied (R73). -/
def Wave.deadlocked (w : Wave) : Bool :=
  let live := w.fibres.filter (·.live)
  !live.isEmpty && live.all (fun f => match f.park with | some { why := .mask _, .. } => true | _ => false)
    && (List.range 16).all fun j => !(w.fibres.any (parkedOnMask j) && w.maskMet j)

/-- The scheduler's part of a retirement: what the wave at `s.cur` issues next is judged with the bundle's traps and
ends taken (R58, R62, R63). -/
def State.reschedule (s : State) (cont : Option Pc) (yld point : Bool) (n : Nat) : State :=
  s.modWave s.cur.wave fun w => w.schedule s.cur.pc cont yld point n

/-- The bundle of the current path retires with these ends (R30, R38, R41). -/
def State.retire (s : State) (word : Word) (kinds : List LaneKind) (ends : Nat → Fibre → LaneEnd) (yld point : Bool) :
    State :=
  match s.waves[s.cur.wave]? with
  | none => { s with bundle := [] }
  | some w =>
    let es := laneEnds kinds ends w.fibres
    let w1 := w.commit es s.nextPc s.lastPc word (s.bundle.length + 1)
    let cont := continuation es w1.fibres
    let s1 := { s.setWave s.cur.wave w1 with bundle := [] }
    let s2 := s1.takeTraps s.cur.wave s.cur.pc (trapsOf es)
    match finsOf es with
    | [] => s2.reschedule cont yld point (s.bundle.length + 1)
    | ls => ((s2.endFibres s.cur.wave ls).reschedule cont yld point (s.bundle.length + 1)).checkWaveEnd s.cur.wave

/-- Trap 0x01 in every fibre of a deadlocked wave, each with its own WAITJ word (R73). -/
def State.breakDeadlock (s : State) (wid : Nat) : State :=
  match s.waves[wid]? with
  | none => s
  | some w =>
    if w.deadlocked then
      (w.fibres.zipIdx).foldl (fun s p => match p.1.park with
        | some k => if p.1.live then
            s.takeTrap wid p.2 { cause := 0x01, evalue := k.word, ureg := none, err := none } p.1.pc else s
        | none => s) s
    else s

/-- The current path cannot go on yet: the bundle is given up and runs again later. At a switch point serial mode
switches (R61, R63). -/
def State.stall (s : State) (blocked : Bool) : State :=
  let s1 := { s with bundle := [], tried := s.tried.filter (· != s.cur) ++ [s.cur] }
  match s1.waves[s.cur.wave]? with
  | none => s1
  | some w =>
    s1.setWave s.cur.wave
      (if blocked then (w.rotate s.cur.pc none true 0).switch else w.rotate s.cur.pc none true 0)

end Sys2Proof.Machine
end

