-- ==== Sys2Proof/Machine/Operands.lean ====
section
/-! DEFINITION. Operand forms: which registers a word names (R24, R40), the context rules (R39, R332), special
registers (R92), and the one frame in which every wave instruction runs (R20, R38, R42). -/

namespace Sys2Proof

/-- Registers of a data operand of a width. -/
def Width.regs : Width → Nat
  | .b8 | .b16 | .b32 => 1 | .b64 => 2 | .b128 => 4
/-- Bytes of a width (R23). -/
def Width.bytes : Width → Nat
  | .b8 => 1 | .b16 => 2 | .b32 => 4 | .b64 => 8 | .b128 => 16

/-- Registers of the data operand of an atomic: the expected value of CAS lies in d+1, of CAS.d in d+2 (R24). -/
def AtomOp.regs : AtomOp → Nat
  | .addD | .exchD => 2 | .cas => 2 | .casD => 4 | _ => 1
end Sys2Proof

namespace Sys2Proof.Machine

/-! ### Registers that a word reads or writes (R40) -/

/-- Dimension count of a DIST (R26, R29), and the registers it reads (R140). -/
def State.distDims (s : State) : Nat :=
  match s.hintXop with | some p => (p.extractLsb' 0 16).toNat | none => 32
def State.distRegs (s : State) (t : DistTy) : Nat := (s.distDims + t.perReg - 1) / t.perReg

/-- Register fields of a word with the number of registers each occupies, in the operand order d, a, b. The query of
DIST and the list of TOPK are judged in their own meanings (R140, R142). The pair a of a QPUSH on k1 to k3, whose value
R188 ignores, is a register field of the word all the same, and judged: DESIGN CHOICE, log 53. -/
def regUses (s : State) : Instr → List (Nat × Nat)
  | .rteReg _ a | .errinj _ a | .jmpi _ a | .calli _ a _ | .movsw _ _ a | .movwp _ a | .sleept _ a
  | .barc _ a _ => [(a.toNat, 1)]
  | .chkerr _ d | .popd _ d | .movpw _ d | .qcnt _ d _ | .voteBallot _ d _ _ => [(d.toNat, 1)]
  | .loop _ _ a _ => [(a.toNat, 1)]
  | .ret _ => [(63, 1)]
  | .perfq _ d a | .fork _ d a _ | .dcnt _ d a | .popc _ d a | .clz _ d a | .brev _ d a | .cvt _ d a _ | .rcp _ d a
  | .rsq _ d a | .sqrt _ d a | .exp2 _ d a | .log2 _ d a | .sinpi _ d a | .cospi _ d a | .tanh _ d a
  | .fclass _ d a | .scan _ d a _ _ | .wred _ d a _ | .accrd _ d a _ | .accwr _ d a _ | .mstat _ d a =>
    [(d.toNat, 1), (a.toNat, 1)]
  | .iaddi _ d a _ | .andi _ d a _ | .ori _ d a _ | .xori _ d a _ | .shfi _ d a _ _ => [(d.toNat, 1), (a.toNat, 1)]
  | .movi _ d _ | .movhi _ d _ => [(d.toNat, 1)]
  | .dpush _ d a b | .iadd _ d a b | .isub _ d a b | .and _ d a b | .or _ d a b | .xor _ d a b | .andn _ d a b
  | .shl _ d a b | .shr _ d a b | .sar _ d a b | .rotl _ d a b | .imin _ d a b | .imax _ d a b | .umin _ d a b
  | .umax _ d a b | .iadds _ d a b | .iabsd _ d a b | .imul _ d a b | .imulhs _ d a b | .imulhu _ d a b
  | .imad _ d a b | .idp4s _ d a b | .idp4u _ d a b | .bfe _ d a b | .bfes _ d a b | .bfi _ d a b | .bpick _ d a b
  | .sel _ d a b _ _ | .fadd _ d a b _ | .fsub _ d a b _ | .fmul _ d a b _ | .fmin _ d a b _ | .fmax _ d a b _
  | .fminn _ d a b _ | .fmaxn _ d a b _ | .shfl _ d a b _ => [(d.toNat, 1), (a.toNat, 1), (b.toNat, 1)]
  | .fma _ d a b _ | .fnma _ d a b _ | .fms _ d a b _ | .fnms _ d a b _ =>
    [(d.toNat, 1), (a.toNat, 1), (b.toNat, 1)] ++
      (match s.hintXop with | some p => [((p.extractLsb' 18 6).toNat, 1)] | none => [])
  | .iadd64 _ d a b | .isub64 _ d a b => [(d.toNat, 2), (a.toNat, 2), (b.toNat, 2)]
  | .lea64s0 _ d a b | .lea64s1 _ d a b | .lea64s2 _ d a b | .lea64s3 _ d a b | .shl64 _ d a b | .shr64 _ d a b =>
    [(d.toNat, 2), (a.toNat, 2), (b.toNat, 1)]
  | .imulw _ d a b => [(d.toNat, 2), (a.toNat, 1), (b.toNat, 1)]
  | .mov _ d a p => let n := if p then 2 else 1; [(d.toNat, n), (a.toNat, n)]
  | .movs _ d _ p => [(d.toNat, if p = .pair then 2 else 1)]
  | .movsr _ d _ p => [(d.toNat, if p then 2 else 1)]
  | .icmp _ _ _ a b _ | .fcmp _ _ _ a b _ => [(a.toNat, 1), (b.toNat, 1)]
  | .dist _ d _ b t _ => [(d.toNat, 1), (b.toNat, s.distRegs t)]
  | .topk _ _ a b _ => [(a.toNat, 1), (b.toNat, 1)]
  | .lds _ d a _ _ w _ | .sts _ d a _ _ w _ | .ldg _ d a _ _ w _ | .stg _ d a _ _ w _ | .stgMsg _ d a _ _ w _
  | .stgClrpoison _ d a _ _ w _ => [(d.toNat, w.regs), (a.toNat, 2)]
  | .atoms _ d a b o => [(d.toNat, if o = .cas then 2 else 1), (a.toNat, 2), (b.toNat, 1)]
  | .pref _ a _ _ _ => [(a.toNat, 2)]
  | .atom _ d a _ _ o | .redm _ d a _ _ o => [(d.toNat, o.regs), (a.toNat, 2)]
  | .waitc _ d a _ _ _ w => [(d.toNat, if w then 2 else 1), (a.toNat, 2)]
  | .scatb _ a b => [(a.toNat, 2), (b.toNat, 1)]
  | .scatf _ d a => [(d.toNat, 1), (a.toNat, 2)]
  | .qpush _ _ a => [(a.toNat, 2)]
  | .qpop _ d _ | .qtry _ d _ => [(d.toNat, 2)]
  | .mmq _ _ _ _ b _ => [(b.toNat, 12)]
  | .acccv _ a _ | .mdrain _ a | .mrest _ a => [(a.toNat, 2)]
  | .freeze _ d a b => [(d.toNat, 2), (a.toNat, 2), (b.toNat, 2)]
  | .thaw _ d a => [(d.toNat, 2), (a.toNat, 1)]
  | .fquery _ d a => [(d.toNat, 1), (a.toNat, 2)]
  | .stepp _ d a b | .stepr _ d a b => [(d.toNat, 1), (a.toNat, 2), (b.toNat, 1)]
  | .stepq _ d b => [(d.toNat, 2), (b.toNat, 1)]
  | _ => []

/-- DCNT of wave code names no register a (R77). -/
def usesIn (s : State) (z : Bool) (i : Instr) : List (Nat × Nat) :=
  match i with
  | .dcnt _ d _ => if z then [] else [(d.toNat, 1)]
  | _ => if z then [] else regUses s i

/-- Whether a register field lies beyond the allotment (R40). -/
def beyond (base allot : Nat) (u : Nat × Nat) : Bool := allot < base + u.1 + u.2

/-! ### Context rules (R39) -/

/-- Row 1: legal only in a privileged handler task. -/
def privOnly (s : State) : Instr → Bool
  | .livetile _ _ | .errinj _ _ => true
  | _ => s.hintClr
/-- Row 2: legal only in Zenith code. -/
def zenOnly : Instr → Bool
  | .dpush .. | .signset .. | .signclr .. => true
  | _ => false
/-- Row 3: legal only in wave code. -/
def waveOnly : Instr → Bool
  | .fork .. | .join .. | .waitj .. | .jclr .. | .ubr .. | .popd .. | .movs .. | .shfl .. | .voteAll .. | .voteAny ..
  | .voteBallot .. | .scan .. | .wred .. | .dist .. | .topk .. | .mmq .. | .accz .. | .accrd .. | .accwr ..
  | .acccv .. | .mdrain .. | .mrest .. | .scatb .. | .scatf .. | .bara .. | .barw .. | .bars .. | .barc ..
  | .stepp .. | .stepr .. => true
  | _ => false
/-- Row 4: legal only in a trap path. -/
def trapOnly : Instr → Bool
  | .rte _ | .rteReg _ _ => true
  | _ => false
/-- Row 5: the queue register that a QOP names. -/
def queueOf : Instr → Option (BitVec 4)
  | .qpush _ k _ | .qpop _ _ k | .qtry _ _ k | .qcnt _ _ k => some k
  | _ => none
/-- Row 7: acq on a store. -/
def acqStore : Instr → Bool
  | .sts _ _ _ o _ _ _ | .stg _ _ _ o _ _ _ | .stgMsg _ _ _ o _ _ _ | .stgClrpoison _ _ _ o _ _ _
  | .redm _ _ _ o _ _ => o == .acq
  | _ => false
/-- The words that only a launch with MATRIX may execute (R158, R332). -/
def matrixWord : Instr → Bool
  | .signset .. | .signclr .. | .mmq .. | .accz .. | .accrd .. | .accwr .. | .acccv .. | .mdrain .. | .mrest ..
  | .mstat .. | .livetile .. => true
  | _ => false

/-- The first context rule that fibre f breaks, in the order of R39, with the rule of R332 after them. Row 8 is
judged with the convergence register, in the meaning of MMQ. -/
def contextCause (s : State) (i : Instr) (w : Wave) (g : Grid) (f : Fibre) : Option (BitVec 6) :=
  if privOnly s i && !g.priv then some 0x01
  else if zenOnly i && !w.zen then some 0x01
  else if waveOnly i && w.zen then some 0x01
  else if trapOnly i && !f.intrap then some 0x01
  else if (queueOf i).any (fun k => decide (4 ≤ k.toNat)) then some 0x0C
  else if (usesIn s w.zen i).any (beyond f.base w.allot) then some 0x01
  else if acqStore i then some 0x01
  else if matrixWord i && !g.matrix then some 0x01
  else none

/-- The trap of a context rule: sr.evalue holds the ordinary word (R38). -/
def contextTrap (i : Instr) (c : BitVec 6) : TrapInfo := { cause := c, evalue := encode i, ureg := none, err := none }

/-- A trap with a cause and a value. -/
def trapWith (c : BitVec 6) (v : Word) : TrapInfo := { cause := c, evalue := v, ureg := none, err := none }
/-- Trap 0x07 with its error record (R315). -/
def trapSilent (e : SilentErr) : TrapInfo := { cause := 0x07, evalue := 0, ureg := none, err := some e }

/-! ### Where each fibre stands before a bundle -/

/-- Words whose first register field is not a destination d: they have none, or only read it. -/
def readsFirst : Instr → Bool
  | .rteReg .. | .errinj .. | .jmpi .. | .calli .. | .movsw .. | .movwp .. | .sleept .. | .barc .. | .loop .. | .ret _
  | .icmp .. | .fcmp .. | .pref .. | .scatb .. | .qpush .. | .mmq .. | .acccv .. | .mdrain .. | .mrest .. | .sts ..
  | .stg .. | .stgMsg .. | .stgClrpoison .. | .redm .. | .accwr .. => true
  | _ => false

/-- Words that read their destination d as well as writing it; FMA and its kin only without an XOP hint (R29). -/
def readsDest (s : State) : Instr → Bool
  | .imad .. | .idp4s .. | .idp4u .. | .bfi .. | .bpick .. | .movhi .. | .atom .. | .waitc .. | .stepr .. => true
  | .fma .. | .fnma .. | .fms .. | .fnms .. => s.hintXop.isNone
  | .dist _ _ _ _ _ m => match m with | .l2 | .ip | .ham => true | _ => false
  | .atoms _ _ _ _ o => o == .cas
  | _ => false

/-- Register fields that a word reads, in the operand order a, b, XOP c, d (R385); SHFL, DIST and TOPK as of the fibre's
own registers. -/
def readUses (s : State) (z : Bool) (i : Instr) : List (Nat × Nat) :=
  match i with
  | .dcnt _ _ a => if z then [(a.toNat, 1)] else []
  | .dist _ _ a _ t _ => [(a.toNat, s.distRegs t)] ++ rest (regUses s i)
  | .topk _ d _ _ _ => regUses s i ++ [(d.toNat, 2)]
  | .signset _ _ a b => [(a.toNat, 1), (b.toNat, 1)]
  | .icmp .. | .fcmp .. | .scatb .. => regUses s i
  | _ => rest (regUses s i)
where
  rest : List (Nat × Nat) → List (Nat × Nat)
    | [] => []
    | d :: us => if readsFirst i then (if us.isEmpty then [d] else us ++ [d]) else us ++ (if readsDest s i then [d] else [])

/-- Register fields that a word writes. -/
def writeUses (s : State) (i : Instr) : List (Nat × Nat) :=
  match i with
  | .call .. | .calli .. => [(63, 1)]
  | .topk _ d _ _ _ => [(d.toNat, 2)]
  | _ => if readsFirst i then [] else (regUses s i).take 1

/-- Physical registers of a fibre's own file that field uses name: an s-register holds a pair (R90). -/
def physAll (z : Bool) (f : Fibre) (us : List (Nat × Nat)) : List Nat :=
  us.flatMap fun u => (List.range (if z then (u.2 + 1) / 2 else u.2)).map fun k => f.phys z (u.1 + k)

/-! ### Uncorrectable errors (R315, R316) -/

/-- sr.esyn and sr.eunit of an uncorrectable error in register `reg`, or in stored fibre state. -/
def errRecord (w : Wave) (inj : Bool) (code cls index reg : Nat) : SilentErr :=
  { syn := bit1 inj ++ (0#15) ++ BitVec.ofNat 8 reg ++ BitVec.ofNat 8 code
    unit := BitVec.ofNat 32 (cls * 65536 + w.core * 256 + index), tile := 0 }

/-- s-registers, by physical index, that a word reads. -/
def sregReads (s : State) (z : Bool) (i : Instr) (f : Fibre) : List Nat :=
  match i with
  | .movs _ _ a _ => [a.toNat]
  | .mmq _ _ _ sa _ _ => [sa.toNat]
  | _ => if z then physAll true f (readUses s true i) else []

/-- Lanes of the issuing path whose guard is true (R135, R142). -/
def guardLanes (w : Wave) (pc : Pc) (gd : Guard) : List Nat :=
  (List.range w.fibres.length).filter fun l =>
    w.inPath pc l (w.fibres.getD l Fibre.empty) && (w.fibres.getD l Fibre.empty).guardTrue gd

/-- The query lane of a DIST: the lowest executing fibre that takes no context trap, its query registers included (R135). -/
def State.queryLane (s : State) (i : Instr) (gd : Guard) (a : Reg) (n : Nat) (w : Wave) (g : Grid) : Option Nat :=
  (guardLanes w s.cur.pc gd).find? fun l =>
    let f := w.fibres.getD l Fibre.empty
    (contextCause s i w g f).isNone && !beyond f.base w.allot (a.toNat, n)

/-- The number of list slots of a TOPK (R29, R142). -/
def State.topkSlots (s : State) : Nat := match s.hintXop with | some p => (p.extractLsb' 0 16 : BitVec 16).toNat | none => 32

/-- Lane registers that a word reads in the fibre of slot l, as slot and physical register: every fibre of a DIST reads the
query lane's query (R135), and every one of a TOPK the list (R142). -/
def State.laneReads (s : State) (i : Instr) (w : Wave) (g : Grid) (l : Nat) (f : Fibre) : List (Nat × Nat) :=
  let own := fun (us : List (Nat × Nat)) => (physAll false f us).map fun k => (l, k)
  match i with
  | .dist gd _ a _ t _ =>
    let n := s.distRegs t
    (match s.queryLane i gd a n w g with
      | some q => (physAll false (w.fibres.getD q Fibre.empty) [(a.toNat, n)]).map fun k => (q, k)
      | none => []) ++ own ((readUses s false i).drop 1)
  | .topk gd d _ _ _ =>
    let p := (w.fibres.getD ((guardLanes w s.cur.pc gd).headD 0) Fibre.empty).base + d.toNat
    own (regUses s i) ++ (List.range s.topkSlots).flatMap fun k => [(k, p), (k, p + 1)]
  | _ => own (readUses s false i)

/-- The error that a fibre of the path meets at a bundle: in its stored state, whatever its guard, and, where it would
execute, in a register that the word reads. -/
def State.metError (s : State) (i : Instr) (w : Wave) (g : Grid) (l : Nat) (f : Fibre) (runs : Bool) : Option SilentErr :=
  if s.faulty = [] then none
  else if s.faulty.contains (.fibre s.cur.wave l) then some (errRecord w false 6 5 w.part 0)
  else if !runs then none
  else
    let lane := if w.zen then none
      else (s.laneReads i w g l f).find? fun k => s.faulty.contains (.lane s.cur.wave k.1 k.2)
    match lane, (sregReads s w.zen i f).find? fun k => s.faulty.contains (.sreg w.team k) with
    | some k, _ => some (errRecord w false 4 0 w.part k.2)
    | none, some k => some (errRecord w false 5 1 0 k)
    | none, none => none

/-- Places that have been written are sound again (R315). -/
def State.cure (s : State) (xs : List BadPlace) : State :=
  if s.faulty = [] then s else { s with faulty := s.faulty.filter fun x => !xs.contains x }

/-- The registers of the fibre in slot l of wave `wid` that field d of n registers names. -/
def State.places (_ : State) (wid : Nat) (w : Wave) (l : Nat) (f : Fibre) (d : Reg) (n : Nat) : List BadPlace :=
  (physAll w.zen f [(d.toNat, n)]).map fun k => if w.zen then .sreg w.team k else .lane wid l k

/-- A wave instruction writes registers in its lanes `ls`: what it writes is sound again, and so is stored state that has
been reported. A fibre that parks writes nothing yet. -/
def State.mend (s : State) (i : Instr) (w : Wave) (ls : List Nat) (ends : Nat → Fibre → LaneEnd) : State :=
  if s.faulty = [] then s
  else
    let after := fun (l : Nat) => match ends l (w.fibres.getD l Fibre.empty) with
      | .done f _ | .jump f _ | .fin f => some f
      | _ => none
    let wrote := ls.flatMap fun l => match after l with
      | some f => (physAll w.zen f (writeUses s i)).map fun k =>
          if w.zen then BadPlace.sreg w.team k else .lane s.cur.wave l k
      | none => []
    let met := (w.fibres.zipIdx.filter fun p => w.inPath s.cur.pc p.2 p.1).map fun p => BadPlace.fibre s.cur.wave p.2
    { s with faulty := s.faulty.filter fun x => !wrote.contains x && !met.contains x }

/-- The kind of one lane slot (R20, R38, R315). -/
def kindOf (s : State) (i : Instr) (gd : Guard) (w : Wave) (g : Grid) (l : Nat) (f : Fibre) : LaneKind :=
  if w.inPath s.cur.pc l f then
    match s.metError i w g l f (f.guardTrue gd && (contextCause s i w g f).isNone) with
    | some e => .bad (trapSilent e)
    | none =>
      if f.guardTrue gd then
        match contextCause s i w g f with
        | some c => .bad (contextTrap i c)
        | none => .exec
      else .skip
  else .out

def kindsOf (s : State) (i : Instr) (gd : Guard) (w : Wave) (g : Grid) : List LaneKind :=
  w.fibres.mapIdx (kindOf s i gd w g)

/-- Slots whose fibres execute, in lane order (R15). -/
def execLanes (ks : List LaneKind) : List Nat :=
  ks.zipIdx.filterMap fun p => if p.1 = .exec then some p.2 else none

/-! ### Injected reports that land on any instruction (R321, R385) -/

/-- The first register field that a word reads, in the order a, b, XOP c, d; none for a word that reads no register
of its own file (R385). -/
def firstRead (s : State) (z : Bool) (i : Instr) : Option Nat := (readUses s z i).head?.map (·.1)

/-- Fields of an injection word (R321). -/
def injKind (w : Word) : Nat := (w.extractLsb' 28 3).toNat
def injClass (w : Word) : Nat := (w.extractLsb' 16 3).toNat
def injCore (w : Word) : Nat := (w.extractLsb' 8 5).toNat
def injIndex (w : Word) : Nat := (w.extractLsb' 0 3).toNat

/-- Takes the first armed word of a kind, class, core and index. -/
def State.takeInject (s : State) (kind cls core index : Nat) : Option State :=
  let p := fun w => injKind w == kind && injClass w == cls && injCore w == core && injIndex w == index
  if s.injects.any p then some { s with injects := s.injects.eraseP p } else none

/-- The class of R308 an instruction belongs to. -/
def checkClass (z : Bool) (i : Instr) : Nat :=
  if z then 6 else match i with
  | .fadd .. | .fsub .. | .fmul .. | .fma .. | .fnma .. | .fms .. | .fnms .. | .fmin .. | .fmax .. | .fminn ..
  | .fmaxn .. | .fcmp .. | .cvt .. => 1
  | .rcp .. | .rsq .. | .sqrt .. | .exp2 .. | .log2 .. | .sinpi .. | .cospi .. | .tanh .. | .fclass .. => 2
  | .shfl .. | .voteAll .. | .voteAny .. | .voteBallot .. | .scan .. | .wred .. | .dist .. | .topk .. => 3
  | .lds .. | .sts .. | .atoms .. | .ldg .. | .stg .. | .stgMsg .. | .stgClrpoison .. | .pref .. | .atom .. | .redm ..
  | .waitc .. | .scatb .. | .scatf .. | .qpush .. | .qpop .. | .qtry .. | .qcnt .. | .freeze .. | .thaw ..
  | .fquery .. | .stepp .. | .stepr .. | .stepq .. => 4
  | .bra .. | .call .. | .jmpi .. | .calli .. | .ret .. | .fork .. | .join .. | .waitj .. | .jclr .. | .loop ..
  | .ubr .. | .popd .. | .dpush .. | .dcnt .. | .plop .. | .bara .. | .barw .. | .bars .. | .barc .. | .nop ..
  | .trap .. | .rte .. | .rteReg .. | .brk .. | .yield .. | .fend .. | .waitn .. | .sleept .. => 5
  | _ => 0

/-- Counts one transient event (R307, R309). -/
def State.countTransient (s : State) (zen : Bool) (core part : Nat) : State :=
  if zen then { s with zenCnt := modAt s.zenCnt core (· + 1) }
  else s.modPart (8 * core + part) fun p => { p with cnt := p.cnt + 1 }

/-- A lasting mismatch: the class enters checker-led mode (R307, R308). -/
def State.ledOn (s : State) (core part cls : Nat) : State :=
  if cls = 6 then { s with zenLed := s.zenLed.set core true }
  else s.modPart (8 * core + part) fun p => { p with led := p.led ||| (1#8 <<< cls) }

/-- What follows a mismatch in a lane, with its class (R307): `again` says what each re-execution finds. One that agrees
retires, with a transient event; one that disagrees in the same lane again leaves the checker's result and puts the class
into checker-led mode; one that disagrees only in another lane counts a transient event and begins again there. After
four executions without agreement every class that mismatched goes to checker-led mode. -/
def State.mismatched (s : State) (zen : Bool) (core part : Nat) (seen : List Nat) (n : Nat) (x : Nat × Nat) :
    List (Option (Nat × Nat)) → State
  | [] | none :: _ => s.countTransient zen core part
  | some y :: rest =>
    if y.1 = x.1 then s.ledOn core part x.2
    else if 3 ≤ n then (y.2 :: x.2 :: seen).eraseDups.foldl (fun s c => s.ledOn core part c) s
    else (s.countTransient zen core part).mismatched zen core part (x.2 :: seen) (n + 1) y rest

/-- An instruction of a partition, or of a core's Zenith unit, mismatches in lane and class x; the class of every Zenith
instruction is 6. -/
def State.mismatch (s : State) (core part : Nat) (zen : Bool) (x : Nat × Nat) (again : List (Option (Nat × Nat))) : State :=
  let cls := fun (y : Nat × Nat) => if zen then (y.1, 6) else (y.1, y.2 % 6)
  s.mismatched zen core (part % 8) [] 1 (cls x) (again.map (·.map cls))

/-- A register or the stored state of a fibre becomes uncorrectable (R315). -/
def State.spoil (s : State) (p : BadPlace) : State :=
  if s.faulty.contains p then s else { s with faulty := s.faulty ++ [p] }

/-- The injected reports that an instruction of wave `w` meets: mismatches counted (kinds 0 and 1), and the error
record of a register read (kind 2), with whether only the lowest executing fibre takes it. -/
def State.meetInjects (s : State) (i : Instr) (w : Wave) (low : Fibre) : State × Option (SilentErr × Bool) :=
  if s.injects = [] then (s, none)
  else
    let s1 := if w.zen then s else match s.takeInject 0 4 w.core w.part with
      | some s' => s'.countTransient false w.core w.part | none => s
    let s2 := if w.zen then s1 else match s1.takeInject 1 4 w.core w.part with
      | some s' => s'.ledOn w.core w.part (checkClass w.zen i) | none => s1
    match (if w.zen then none else s2.takeInject 2 5 w.core w.part) with
    | some s3 => (s3, some (errRecord w true 6 5 w.part 0, true))
    | none =>
    match (if w.zen || (firstRead s w.zen i).isNone then none else s2.takeInject 2 0 w.core w.part) with
    | some s3 => (s3, some (errRecord w true 4 0 w.part (low.base + (firstRead s w.zen i).getD 0), false))
    | none =>
      match (sregReads s w.zen i low).head?.bind fun r => (s2.takeInject 2 1 w.core 0).map fun s3 => (s3, r) with
      | some (s3, r) => (s3, some (errRecord w true 5 1 0 r, false))
      | none => (s2, none)

/-! ### The frame of every wave instruction -/

/-- YIELD moves its path to the back of the rotation (R58, R79). -/
def isYield : Instr → Bool
  | .yield _ => true
  | _ => false

/-- The switch points of serial mode (R61): the words that R61 lists without a condition switch whether or not they
have to wait; a WAITN that is not met, and a UBR or POPD on an empty queue, switch where they wait (`State.stall`). -/
def isPoint : Instr → Bool
  | .waitj .. | .waitc .. | .barw .. | .bars .. | .sleept .. | .stepr .. | .yield _ => true
  | _ => false

/-- A counter at 63 stalls further issue (R198). -/
def counterFull (n : Nat) : Bool := decide (63 ≤ n)

/-- Whether a word that some of the lanes `ls` begin finds its counter full. A replayed lane's instruction holds its count
already (R43). -/
def countFull (n : Nat) (w : Wave) (ls : List Nat) : Bool :=
  counterFull n && ls.any fun l => (w.fibres.getD l Fibre.empty).owed.isNone

/-- Whether a word of R42's table finds its counter full, so that it waits to issue whatever its guards (R42, R198). Its
counter rises at issue and falls at retirement, which are one step here. -/
def countWaits (i : Instr) (w : Wave) : Bool :=
  match i with
  | .ldg .. | .lds .. | .atom .. | .atoms .. => counterFull w.loads
  | .stg .. | .stgMsg .. | .stgClrpoison .. | .sts .. | .redm .. => counterFull w.stores
  | _ => false

/-- Resident waves of a partition, oldest placement first, then by wave index (R59, R64). -/
def State.residents (s : State) (core part : Nat) : List Nat :=
  ((s.waves.zipIdx.filter fun p =>
    !p.1.zen && p.1.core == core && p.1.part == part && (p.1.stat == .resident || p.1.stat == .halted)).insertionSort
      fun x y => x.1.age ≤ y.1.age).map (·.2)

/-- Whether a wave is outside the load-issue limit of its partition (R64). -/
def State.denied (s : State) (wid : Nat) (w : Wave) : Bool :=
  match s.parts[w.partIndex]? with
  | none => false
  | some p => !w.zen && !((s.residents w.core w.part).take p.limit).contains wid

/-- The clock count of a core's cluster (R366). -/
def State.clkOf (s : State) (core : Nat) : Nat := (s.clusters.getD (clusterOf core) Cluster.clear).clk

/-- Whole ticks of chip time that a wave with a ready path can still let pass without an issue: its bound is 1,024 clocks of
its partition, or 2,048 while that runs in checker-led mode (R60). -/
def State.ticksLeft (s : State) (w : Wave) : Nat :=
  let led := match s.parts[w.partIndex]? with | some p => p.led != 0 | none => false
  let c := s.clusters.getD (clusterOf w.core) Cluster.clear
  (w.readySince + (if led then 2048000 else 1024000) + c.bubble - c.clk) / max 1 c.clock

/-- Whether a wave would miss its bound if a tick more passed without an issue of it (R60). -/
def State.overdue (s : State) (w : Wave) : Bool := s.ticksLeft w == 0

/-- Whether a load of a wave has to wait for the limit: the bound of R60 overrides it (R64). -/
def State.loadWaits (s : State) (wid : Nat) (w : Wave) : Bool := s.denied wid w && !s.overdue w

/-- Words that the load-issue limit holds back (R64). -/
def limited : Instr → Bool
  | .ldg .. | .lds .. | .atom .. | .atoms .. => true
  | _ => false

/-- Runs a wave instruction over the path at `s.cur`: the guard decides per fibre who executes (R20), context rules
trap the fibres that break them (R38), a word that no fibre executes only retires (R42), a TOPK whose fibres all take such a
trap included, which leaves its list as it is (DESIGN CHOICE, log 54), and otherwise `op` is given
the executing lanes. A word that no fibre executes waits all the same for a free place in its counter and for the load-issue
limit (R42, R64, R198). An injected report is taken by a bundle that retires, not by one that waits (R385). -/
def runPath (i : Instr) (gd : Guard) (op : State → Wave → Grid → List Nat → PathRes) (s : State) : Out :=
  match s.waves[s.cur.wave]? with
  | none => .next { s with bundle := [] }
  | some w => match s.gridOf w with
    | none => .next { s with bundle := [] }
    | some g =>
      let ks := kindsOf s i gd w g
      match execLanes ks with
      | [] =>
        if (countWaits i w || (limited i && s.loadWaits s.cur.wave w)) && ks.all (fun k => k == .skip || k == .out) then
          .next (s.stall false)
        else .next ((s.mend i w [] (fun _ f => .keep f)).retire (encode i) ks (fun _ f => .keep f) false false)
      | l :: ls =>
        match s.meetInjects i w (w.fibres.getD l Fibre.empty) with
        | (s1, none) =>
          match op s1 w g (l :: ls) with
          | .stall b => .next (s.stall b)
          | .hold s2 => .next (s2.stall false)
          | .fault e => .fault e
          | .go s2 ends =>
            .next ((s2.mend i w (l :: ls) ends).retire (encode i) ks ends (isYield i || s.hintYld) (isPoint i))
        | (s1, some (e, lowest)) => match op s w g (l :: ls) with
          | .stall b => .next (s.stall b)
          | .hold s2 => .next (s2.stall false)
          | _ => .next ((s1.mend i w [] (fun _ f => .keep f)).retire (encode i) ks
            (fun k f => if lowest && k != l then .keep f else .trap f (trapSilent e)) false false)

/-- A wave instruction that acts on each executing fibre alone. -/
def runLanes (i : Instr) (gd : Guard) (op : Bool → Fibre → LaneEnd) (s : State) : Out :=
  runPath i gd (fun s w _ _ => .go s (fun _ f => op w.zen f)) s

/-- One that only writes registers or predicates and goes on. -/
def runPure (i : Instr) (gd : Guard) (op : Bool → Fibre → Fibre) (s : State) : Out :=
  runLanes i gd (fun z f => .done (op z f) 0) s

/-- The fibre of the lowest executing lane, as it stands before the instruction. -/
def lowFibre (w : Wave) (ls : List Nat) : Fibre := w.fibres.getD (ls.headD 0) Fibre.empty

/-! ### Special registers (R65, R92, R93, R303, R309, R317, R374) -/

/-- Entries of a Transit stage in use (R287, R289): one for each line with staged bytes, one for each eight REDM or
SCATB records of the team, one for each message or action (log 49). -/
def stageUsed (st : List Staged) : Nat :=
  let lines := (st.filterMap fun e => match e with
    | .store k bs => some ((List.range bs.length).map fun i => (k + i) / 128) | _ => none).flatten.eraseDups
  let ops := (st.filter fun e => match e with | .redm .. | .scatb .. => true | _ => false).length
  let msgs := (st.filter fun e => match e with | .message .. | .action .. => true | _ => false).length
  lines.length + (ops + 7) / 8 + msgs

/-- The word of sr.chk (R317). -/
def Wave.chkWord (w : Wave) : Word :=
  (0#8) ++ w.pcnt ++ (0#5) ++ bit1 w.xq ++ bit1 w.etr ++ bit1 w.psn

/-- The word of sr.fpflags (R121). -/
def Wave.fpWord (w : Wave) : Word := (0#23) ++ bit1 w.inven ++ (0#2) ++ w.fpflags

/-- The predicate word (R91). -/
def Fibre.predWord (f : Fibre) : Word := (0#24) ++ (1#1) ++ f.preds

/-- The word of sr.det (R303). -/
def detWord (w : Wave) (t : Team) (g : Grid) : Word :=
  if g.det then
    (1#1) ++ bit1 (w.held && !w.zen) ++ bit1 (g.turn == t.idx) ++ bit1 g.ow ++ (0#16)
      ++ BitVec.ofNat 12 (stageUsed t.stage)
  else 0

/-- A special register as wave `wid` or its fibre in slot l reads it; 36 to 63 read 0. -/
def specialReg (s : State) (wid : Nat) (w : Wave) (t : Team) (g : Grid) (l : Nat) (f : Fibre) (n : Nat) : Word :=
  let c := s.clusters.getD (clusterOf w.core) Cluster.clear
  match n with
  | 0 => if w.zen then 0 else BitVec.ofNat 32 l
  | 1 => if w.zen then 0xFFFFFFFF else BitVec.ofNat 32 w.idx
  | 2 => BitVec.ofNat 32 g.width
  | 3 => BitVec.ofNat 32 t.tx
  | 4 => BitVec.ofNat 32 t.ty
  | 5 => BitVec.ofNat 32 t.tz
  | 6 => BitVec.ofNat 32 g.gx
  | 7 => BitVec.ofNat 32 g.gy
  | 8 => BitVec.ofNat 32 g.gz
  | 9 => BitVec.ofNat 32 w.core
  | 10 => if w.zen then 0xFFFFFFFF else BitVec.ofNat 32 w.part
  | 11 => if w.zen then 0xFFFFFFFF else BitVec.ofNat 32 (w.part / 4)
  | 12 => lo32 s.time
  | 13 => hi32 s.time
  | 14 => w.fpWord
  | 15 => w.chkWord
  | 16 => w.err.syn
  | 17 => w.err.unit
  | 18 => w.err.tile
  | 19 => bit1 f.queued.isSome ++ (0#25) ++ f.cause
  | 20 => (0#8) ++ f.epc
  | 21 => f.evalue
  | 22 => (0#24) ++ f.ureg
  | 23 => w.prom
  | 24 => BitVec.ofNat 32 (f.weight % 2 ^ 32)
  | 25 => BitVec.ofNat 32 (f.weight / 2 ^ 32)
  | 26 => f.lcOf 0
  | 27 => f.lcOf 1
  | 28 => f.lcOf 2
  | 29 => detWord w t g
  | 30 => w.perf
  | 31 =>
    let led6 := s.zenLed.getD w.core false
    if w.zen then (0#1) ++ bit1 led6 ++ (0#6) ++ s.zenCnt.getD w.core 0
    else
      let p := s.parts.getD w.partIndex Part.clear
      p.led.extractLsb' 7 1 ++ bit1 led6 ++ p.led.extractLsb' 0 6 ++ p.cnt
  | 32 =>
    if w.zen then 0
    else
      let p := s.parts.getD w.partIndex Part.clear
      (0#6) ++ BitVec.ofNat 6 p.limit ++ (0#4) ++ BitVec.ofNat 8 w.score ++ (0#7) ++ bit1 (s.denied wid w)
  | 33 => bit1 c.hot ++ (0#15) ++ c.temp
  | 34 => BitVec.ofNat 4 c.shown.1 ++ BitVec.ofNat 4 c.shown.2 ++ BitVec.ofNat 8 (min c.stall 255) ++ c.mv
  | 35 => (0#12) ++ BitVec.ofNat 4 c.floor ++ c.osc
  | _ => 0

/-! ### The s-registers of a wave's team (R88) -/

/-- The Zenith slot that holds the team's s-registers; a team without a Zenith context has them in a slot of its own
that never issues. -/
def State.teamSregs (s : State) (t : Team) : List DWord :=
  match t.zen with
  | none => t.sregs
  | some z => match (s.waves[z]?).bind (fun w => w.fibres[0]?) with
    | some f => f.sregs
    | none => t.sregs

end Sys2Proof.Machine
end

