-- ==== Sys2Proof/Machine/Flags.lean ====
section
/-! DEFINITION. Flag and condition computations: the integer conditions of ICMP (R104), the predicate operations of
PLOP (R105), the relation conditions of FCMP (R132), and the floating-point flags (R120, R121). -/

namespace Sys2Proof.Machine

/-- The condition of ICMP on two values of the same width (R104): LT to GE signed, LTU to GEU unsigned. -/
def icond {n : Nat} (c : ICond) (x y : BitVec n) : Bool :=
  match c with
  | .eq => x == y
  | .ne => x != y
  | .lt => x.slt y
  | .le => x.sle y
  | .gt => y.slt x
  | .ge => y.sle x
  | .ltu => x.ult y
  | .leu => x.ule y
  | .gtu => y.ult x
  | .geu => y.ule x

/-- The result of PLOP (R105). -/
def plopVal (o : PlopOp) (x y : Bool) : Bool :=
  match o with
  | .and => x && y
  | .or => x || y
  | .xor => x != y
  | .andn => x && !y
  | .orn => x || !y
  | .not => !x
  | .mov => x

/-- Writes t to pd and then not t to pe (R104). -/
def Fibre.setPreds (f : Fibre) (pd pe : PredNo) (t : Bool) : Fibre := (f.setPred pd t).setPred pe (!t)

/-- The four relations of two floating-point values (R132). -/
inductive FRel where
  | lt | eq | gt | un
  deriving DecidableEq, Repr

/-- The condition of FCMP on a relation (R132). -/
def fcond (c : FCond) (r : FRel) : Bool :=
  match c with
  | .eq => r == .eq
  | .ne => r == .lt || r == .gt
  | .lt => r == .lt
  | .le => r == .lt || r == .eq
  | .gt => r == .gt
  | .ge => r == .gt || r == .eq
  | .uno => r == .un
  | .ord => r != .un
  | .equ => r == .eq || r == .un
  | .neu => r != .eq
  | .ltu => r == .lt || r == .un
  | .leu => r != .gt
  | .gtu => r == .gt || r == .un
  | .geu => r != .lt

/-- Conditions that raise NV on a quiet NaN too (R120, R132). -/
def fcondSignals : FCond → Bool
  | .lt | .le | .gt | .ge => true
  | _ => false

/-- The flag bits of sr.fpflags (R121). -/
def flNV : BitVec 6 := 1#6
def flDZ : BitVec 6 := 2#6
def flOF : BitVec 6 := 4#6
def flUF : BitVec 6 := 8#6
def flNX : BitVec 6 := 16#6
def flFZ : BitVec 6 := 32#6

end Sys2Proof.Machine
end

