-- ==== Sys2Proof/Machine/Alu.lean ====
section
/-! DEFINITION. Integer arithmetic, immediates, multiplies, bit operations, 64-bit arithmetic, moves, selects,
compares and predicate logic (03_registers_and_integers R94 to R105). -/

namespace Sys2Proof.Machine

/-! ### Values -/

/-- A shift count is the whole of y (R95). -/
def shlVal (x y : Word) : Word := if y.toNat < 32 then x <<< y.toNat else 0
def shrVal (x y : Word) : Word := if y.toNat < 32 then x >>> y.toNat else 0
def sarVal (x y : Word) : Word := x.sshiftRight (min y.toNat 31)
def rotlVal (x y : Word) : Word := x.rotateLeft (y.toNat % 32)
def iminVal (x y : Word) : Word := if y.slt x then y else x
def imaxVal (x y : Word) : Word := if x.slt y then y else x
def uminVal (x y : Word) : Word := if y.ult x then y else x
def umaxVal (x y : Word) : Word := if x.ult y then y else x
/-- Signed sum, clamped (R95 IADDS). -/
def iaddsVal (x y : Word) : Word :=
  let r := x.toInt + y.toInt
  if 2 ^ 31 - 1 < r then 0x7FFFFFFF else if r < -(2 ^ 31) then 0x80000000 else BitVec.ofInt 32 r
/-- Exact distance of two signed values (R95 IABSD). -/
def iabsdVal (x y : Word) : Word := BitVec.ofNat 32 (x.toInt - y.toInt).natAbs

def imulhsVal (x y : Word) : Word := BitVec.ofInt 32 (x.toInt * y.toInt / 2 ^ 32)
def imulhuVal (x y : Word) : Word := BitVec.ofNat 32 (x.toNat * y.toNat / 2 ^ 32)
/-- Byte i of a word (R108). -/
def byteOf (x : Word) (i : Nat) : Byte := x.extractLsb' (8 * i) 8
/-- Sum of the four products of bytes, sign- or zero-extended (R99). -/
def idp4Val (sx : Bool) (x y d : Word) : Word :=
  let e := fun (b : Byte) => if sx then b.signExtend 32 else b.setWidth 32
  d + e (byteOf x 0) * e (byteOf y 0) + e (byteOf x 1) * e (byteOf y 1) + e (byteOf x 2) * e (byteOf y 2)
    + e (byteOf x 3) * e (byteOf y 3)

/-- Number of 1 bits, and of leading 0 bits (R100). -/
def popcVal (x : Word) : Word := BitVec.ofNat 32 ((List.range 32).countP fun i => x.getLsbD i)
def clzVal (x : Word) : Word := BitVec.ofNat 32 (((List.range 32).find? fun i => x.getLsbD (31 - i)).getD 32)
/-- Position and reduced length of a bit field (R100). -/
def fieldPos (c : Word) : Nat := (c.extractLsb' 0 8).toNat
def fieldLen (c : Word) : Nat :=
  let len := (c.extractLsb' 8 8).toNat
  if fieldPos c < 32 then min len (32 - fieldPos c) else len
/-- 2^len - 1. -/
def lowMask (len : Nat) : Word := BitVec.ofNat 32 (2 ^ len - 1)
def bfeVal (x c : Word) : Word :=
  if fieldPos c < 32 ∧ fieldLen c ≠ 0 then (x >>> fieldPos c) &&& lowMask (fieldLen c) else 0
def bfesVal (x c : Word) : Word :=
  if fieldPos c < 32 ∧ fieldLen c ≠ 0 then
    let v := (x >>> fieldPos c) &&& lowMask (fieldLen c)
    if v.getLsbD (fieldLen c - 1) then v ||| ~~~(lowMask (fieldLen c)) else v
  else 0
def bfiVal (x c d : Word) : Word :=
  if fieldPos c < 32 ∧ fieldLen c ≠ 0 then
    let m := lowMask (fieldLen c)
    (d &&& ~~~(m <<< fieldPos c)) ||| ((x &&& m) <<< fieldPos c)
  else d
/-- The byte that one control byte of BPICK chooses from old d : a (R100). -/
def bpickByte (v : DWord) (c : Byte) : Byte :=
  let b : Byte := v.extractLsb' (8 * (c.extractLsb' 0 3).toNat) 8
  match (c.extractLsb' 3 2).toNat with
  | 0 => b
  | 1 => 0
  | 2 => if b.getLsbD 7 then 0xFF else 0
  | _ => if b.getLsbD 0 then 0xFF else 0
def bpickVal (x c d : Word) : Word :=
  let v := pair64 d x
  bpickByte v (byteOf c 3) ++ bpickByte v (byteOf c 2) ++ bpickByte v (byteOf c 1) ++ bpickByte v (byteOf c 0)

def shl64Val (x : DWord) (y : Word) : DWord := if y.toNat < 64 then x <<< y.toNat else 0
def shr64Val (x : DWord) (y : Word) : DWord := if y.toNat < 64 then x >>> y.toNat else 0
def lea64Val (k : Nat) (x : DWord) (y : Word) : DWord := x + (y.signExtend 64 <<< k)
def imulwVal (x y : Word) : DWord := x.setWidth 64 * y.setWidth 64

/-- The immediate of an I-format word: sign-extended, or completed by XIMM (R26, R29, R96). -/
def State.imm10 (s : State) (imm : BitVec 10) : Word :=
  match s.hintXimm with
  | some p => (p.extractLsb' 0 22 : BitVec 22) ++ imm
  | none => imm.signExtend 32
/-- The immediate of MOVI (R26, R98). -/
def State.imm16 (s : State) (imm : BitVec 16) : Word :=
  match s.hintXimm with
  | some p => (p.extractLsb' 0 16 : BitVec 16) ++ imm
  | none => imm.signExtend 32

/-! ### Operand forms -/

/-- d := op(a, b) on 32 bits (R95, R99, R100). -/
def alu3 (i : Instr) (g : Guard) (d a b : Reg) (op : Word → Word → Word) (s : State) : Out :=
  runPure i g (fun z f => f.set z d.toNat (op (f.get z a.toNat) (f.get z b.toNat))) s
/-- d := op(a, b, d) on 32 bits. -/
def alu4 (i : Instr) (g : Guard) (d a b : Reg) (op : Word → Word → Word → Word) (s : State) : Out :=
  runPure i g (fun z f => f.set z d.toNat (op (f.get z a.toNat) (f.get z b.toNat) (f.get z d.toNat))) s
/-- d := op(a). -/
def alu2 (i : Instr) (g : Guard) (d a : Reg) (op : Word → Word) (s : State) : Out :=
  runPure i g (fun z f => f.set z d.toNat (op (f.get z a.toNat))) s
/-- Pair d := op(pair a, pair b) (R101). -/
def alu64 (i : Instr) (g : Guard) (d a b : Reg) (op : DWord → DWord → DWord) (s : State) : Out :=
  runPure i g (fun z f => f.setPair z d.toNat (op (f.getPair z a.toNat) (f.getPair z b.toNat))) s
/-- Pair d := op(pair a, single b) (R101). -/
def alu64s (i : Instr) (g : Guard) (d a b : Reg) (op : DWord → Word → DWord) (s : State) : Out :=
  runPure i g (fun z f => f.setPair z d.toNat (op (f.getPair z a.toNat) (f.get z b.toNat))) s

/-! ### IALU (R95) -/

def execIadd (g : Guard) (d a b : Reg) (s : State) : Out := alu3 (.iadd g d a b) g d a b (· + ·) s
def execIsub (g : Guard) (d a b : Reg) (s : State) : Out := alu3 (.isub g d a b) g d a b (· - ·) s
def execAnd (g : Guard) (d a b : Reg) (s : State) : Out := alu3 (.and g d a b) g d a b (· &&& ·) s
def execOr (g : Guard) (d a b : Reg) (s : State) : Out := alu3 (.or g d a b) g d a b (· ||| ·) s
def execXor (g : Guard) (d a b : Reg) (s : State) : Out := alu3 (.xor g d a b) g d a b (· ^^^ ·) s
def execAndn (g : Guard) (d a b : Reg) (s : State) : Out := alu3 (.andn g d a b) g d a b (fun x y => x &&& ~~~y) s
def execShl (g : Guard) (d a b : Reg) (s : State) : Out := alu3 (.shl g d a b) g d a b shlVal s
def execShr (g : Guard) (d a b : Reg) (s : State) : Out := alu3 (.shr g d a b) g d a b shrVal s
def execSar (g : Guard) (d a b : Reg) (s : State) : Out := alu3 (.sar g d a b) g d a b sarVal s
def execRotl (g : Guard) (d a b : Reg) (s : State) : Out := alu3 (.rotl g d a b) g d a b rotlVal s
def execImin (g : Guard) (d a b : Reg) (s : State) : Out := alu3 (.imin g d a b) g d a b iminVal s
def execImax (g : Guard) (d a b : Reg) (s : State) : Out := alu3 (.imax g d a b) g d a b imaxVal s
def execUmin (g : Guard) (d a b : Reg) (s : State) : Out := alu3 (.umin g d a b) g d a b uminVal s
def execUmax (g : Guard) (d a b : Reg) (s : State) : Out := alu3 (.umax g d a b) g d a b umaxVal s
def execIadds (g : Guard) (d a b : Reg) (s : State) : Out := alu3 (.iadds g d a b) g d a b iaddsVal s
def execIabsd (g : Guard) (d a b : Reg) (s : State) : Out := alu3 (.iabsd g d a b) g d a b iabsdVal s

/-! ### Immediate forms (R96 to R98) -/

def execIaddi (g : Guard) (d a : Reg) (imm : BitVec 10) (s : State) : Out :=
  alu2 (.iaddi g d a imm) g d a (· + s.imm10 imm) s
def execAndi (g : Guard) (d a : Reg) (imm : BitVec 10) (s : State) : Out :=
  alu2 (.andi g d a imm) g d a (· &&& s.imm10 imm) s
def execOri (g : Guard) (d a : Reg) (imm : BitVec 10) (s : State) : Out :=
  alu2 (.ori g d a imm) g d a (· ||| s.imm10 imm) s
def execXori (g : Guard) (d a : Reg) (imm : BitVec 10) (s : State) : Out :=
  alu2 (.xori g d a imm) g d a (· ^^^ s.imm10 imm) s
/-- The operation of SHFI (R97). -/
def shfiVal (k : ShfKind) (x n : Word) : Word :=
  match k with | .shl => shlVal x n | .shr => shrVal x n | .sar => sarVal x n | .rotl => rotlVal x n
def execShfi (g : Guard) (d a : Reg) (k : ShfKind) (n : BitVec 5) (s : State) : Out :=
  alu2 (.shfi g d a k n) g d a (fun x => shfiVal k x (n.setWidth 32)) s
def execMovi (g : Guard) (d : Reg) (imm : BitVec 16) (s : State) : Out :=
  runPure (.movi g d imm) g (fun z f => f.set z d.toNat (s.imm16 imm)) s
/-- MOVHI writes bits [31:16] and keeps bits [15:0] (R98). -/
def movhiVal (imm : BitVec 16) (x : Word) : Word := imm ++ (x.extractLsb' 0 16 : BitVec 16)
def execMovhi (g : Guard) (d : Reg) (imm : BitVec 16) (s : State) : Out :=
  runPure (.movhi g d imm) g (fun z f => f.set z d.toNat (movhiVal imm (f.get z d.toNat))) s

/-! ### Multiplies, bits, 64-bit arithmetic (R99 to R101) -/

def execImul (g : Guard) (d a b : Reg) (s : State) : Out := alu3 (.imul g d a b) g d a b (· * ·) s
def execImulhs (g : Guard) (d a b : Reg) (s : State) : Out := alu3 (.imulhs g d a b) g d a b imulhsVal s
def execImulhu (g : Guard) (d a b : Reg) (s : State) : Out := alu3 (.imulhu g d a b) g d a b imulhuVal s
def execImad (g : Guard) (d a b : Reg) (s : State) : Out := alu4 (.imad g d a b) g d a b (fun x y z => x * y + z) s
def execIdp4s (g : Guard) (d a b : Reg) (s : State) : Out := alu4 (.idp4s g d a b) g d a b (idp4Val true) s
def execIdp4u (g : Guard) (d a b : Reg) (s : State) : Out := alu4 (.idp4u g d a b) g d a b (idp4Val false) s
def execPopc (g : Guard) (d a : Reg) (s : State) : Out := alu2 (.popc g d a) g d a popcVal s
def execClz (g : Guard) (d a : Reg) (s : State) : Out := alu2 (.clz g d a) g d a clzVal s
def execBrev (g : Guard) (d a : Reg) (s : State) : Out := alu2 (.brev g d a) g d a BitVec.reverse s
def execBfe (g : Guard) (d a b : Reg) (s : State) : Out := alu3 (.bfe g d a b) g d a b bfeVal s
def execBfes (g : Guard) (d a b : Reg) (s : State) : Out := alu3 (.bfes g d a b) g d a b bfesVal s
def execBfi (g : Guard) (d a b : Reg) (s : State) : Out := alu4 (.bfi g d a b) g d a b bfiVal s
def execBpick (g : Guard) (d a b : Reg) (s : State) : Out := alu4 (.bpick g d a b) g d a b bpickVal s
def execIadd64 (g : Guard) (d a b : Reg) (s : State) : Out := alu64 (.iadd64 g d a b) g d a b (· + ·) s
def execIsub64 (g : Guard) (d a b : Reg) (s : State) : Out := alu64 (.isub64 g d a b) g d a b (· - ·) s
def execLea64s0 (g : Guard) (d a b : Reg) (s : State) : Out := alu64s (.lea64s0 g d a b) g d a b (lea64Val 0) s
def execLea64s1 (g : Guard) (d a b : Reg) (s : State) : Out := alu64s (.lea64s1 g d a b) g d a b (lea64Val 1) s
def execLea64s2 (g : Guard) (d a b : Reg) (s : State) : Out := alu64s (.lea64s2 g d a b) g d a b (lea64Val 2) s
def execLea64s3 (g : Guard) (d a b : Reg) (s : State) : Out := alu64s (.lea64s3 g d a b) g d a b (lea64Val 3) s
def execImulw (g : Guard) (d a b : Reg) (s : State) : Out :=
  runPure (.imulw g d a b) g
    (fun z f => f.setPair z d.toNat (imulwVal (f.get z a.toNat) (f.get z b.toNat))) s
def execShl64 (g : Guard) (d a b : Reg) (s : State) : Out := alu64s (.shl64 g d a b) g d a b shl64Val s
def execShr64 (g : Guard) (d a b : Reg) (s : State) : Out := alu64s (.shr64 g d a b) g d a b shr64Val s

/-! ### Moves (R102) -/

/-- MOV copies a register or a pair; Zenith code copies all 64 bits in both forms (R90). -/
def movFibre (d a : Reg) (pair z : Bool) (f : Fibre) : Fibre :=
  if pair || z then f.setPair z d.toNat (f.getPair z a.toNat) else f.set z d.toNat (f.get z a.toNat)
def execMov (g : Guard) (d a : Reg) (pair : Bool) (s : State) : Out :=
  runPure (.mov g d a pair) g (movFibre d a pair) s

/-- MOVS reads the team's s-registers (R88, R89). -/
def movsFibre (d : Reg) (p : MovsPart) (v : DWord) (z : Bool) (f : Fibre) : Fibre :=
  match p with
  | .low => f.set z d.toNat (lo32 v)
  | .high => f.set z d.toNat (hi32 v)
  | .pair => f.setPair z d.toNat v
def execMovs (g : Guard) (d a : Reg) (p : MovsPart) (s : State) : Out :=
  runPath (.movs g d a p) g (fun s w _ _ =>
    match s.teamOf w with
    | none => .stall false
    | some t => .go s fun _ f => .done (movsFibre d p ((s.teamSregs t).getD a.toNat 0) w.zen f) 0) s

/-- MOVSR reads one or two special registers at one instant (R92, R102). It reads sr.perf before its own bundle is added:
DESIGN CHOICE, log 53. -/
def execMovsr (g : Guard) (d a : Reg) (pair : Bool) (s : State) : Out :=
  runPath (.movsr g d a pair) g (fun s w gr _ =>
    match s.teamOf w with
    | none => .stall false
    | some t => .go s fun l f =>
      let r := specialReg s s.cur.wave w t gr l f
      .done (if pair then f.setPair w.zen d.toNat (pair64 (r (a.toNat + 1)) (r a.toNat))
             else f.setZ w.zen d.toNat (r a.toNat)) 0) s

/-- MOVSW uses the value of the lowest executing fibre: it writes the flag bits of sr.fpflags, or clears sr.chk
(R102, R121, R317). -/
def execMovsw (g : Guard) (chk : Bool) (a : Reg) (s : State) : Out :=
  runPath (.movsw g chk a) g (fun s w _ ls =>
    let v := (lowFibre w ls).get w.zen a.toNat
    .go (s.modWave s.cur.wave fun x =>
        if chk then { x with pcnt := 0, xq := false, etr := false, psn := false }
        else { x with fpflags := v.extractLsb' 0 6 })
      fun _ f => .done f 0) s

def execMovpw (g : Guard) (d : Reg) (s : State) : Out :=
  runPure (.movpw g d) g (fun z f => f.set z d.toNat f.predWord) s
def execMovwp (g : Guard) (a : Reg) (s : State) : Out :=
  runPure (.movwp g a) g (fun z f => { f with preds := (f.get z a.toNat).extractLsb' 0 7 }) s

/-! ### Select, compare, predicate logic (R103 to R105) -/

/-- SEL copies a when p xor neg is 1, else b; all 64 bits in Zenith code (R90, R103). -/
def selFibre (d a b : Reg) (neg : Bool) (p : PredNo) (z : Bool) (f : Fibre) : Fibre :=
  let src := if f.pred p != neg then a else b
  if z then f.setPair z d.toNat (f.getPair z src.toNat) else f.set z d.toNat (f.get z src.toNat)
def execSel (g : Guard) (d a b : Reg) (neg : Bool) (p : PredNo) (s : State) : Out :=
  runPure (.sel g d a b neg p) g (selFibre d a b neg p) s

/-- ICMP compares 32 bits in wave code and 64 in Zenith code (R90, R104). -/
def icmpFibre (pd pe : PredNo) (a b : Reg) (cc : ICond) (z : Bool) (f : Fibre) : Fibre :=
  f.setPreds pd pe
    (if z then icond cc (f.getPair z a.toNat) (f.getPair z b.toNat)
     else icond cc (f.get z a.toNat) (f.get z b.toNat))
def execIcmp (g : Guard) (pd pe : PredNo) (a b : Reg) (cc : ICond) (s : State) : Out :=
  runPure (.icmp g pd pe a b cc) g (icmpFibre pd pe a b cc) s
def execPlop (g : Guard) (pd pe x y : PredNo) (op : PlopOp) (s : State) : Out :=
  runPure (.plop g pd pe x y op) g (fun _ f => f.setPreds pd pe (plopVal op (f.pred x) (f.pred y))) s

end Sys2Proof.Machine
end

