-- ==== Sys2Proof/Machine/Fp.lean ====
section
/-! DEFINITION. Floating-point values and rounding (04_number_formats R107 to R120): formats, decoding, exact
arithmetic on dyadic numbers, one rounding, NaN choice. Codes are natural numbers. -/

namespace Sys2Proof.Machine

/-- A decoded value; a finite one is (-1)^neg * m * 2^e. -/
inductive FVal where
  | nan (signalling : Bool)
  | inf (neg : Bool)
  | fin (neg : Bool) (m : Nat) (e : Int)
  deriving DecidableEq, Repr

/-- A destination grid (R112): precision, bias, the largest finite value maxN * 2^maxQ. -/
structure Fmt where
  p : Nat
  bias : Int
  maxN : Nat
  maxQ : Int
  deriving DecidableEq, Repr

/-- Exponent of the unit of the subnormals, and of the smallest normal value. -/
def Fmt.qmin (F : Fmt) : Int := 1 - F.bias - (F.p - 1 : Int)
def Fmt.emin (F : Fmt) : Int := 1 - F.bias

/-- Number of bits of a natural number. -/
def bitLen (m : Nat) : Nat := if m = 0 then 0 else Nat.log2 m + 1

/-- m * 2^k with k possibly negative, rounded down. -/
def scale (m : Nat) (k : Int) : Nat := if 0 ≤ k then m * 2 ^ k.toNat else m / 2 ^ (-k).toNat

/-- Whether a * 2^x < b * 2^y. -/
def ltDy (a : Nat) (x : Int) (b : Nat) (y : Int) : Bool :=
  let k := min x y
  decide (a * 2 ^ (x - k).toNat < b * 2 ^ (y - k).toNat)

/-- Rounds m * 2^e to a multiple n * 2^q of a power of two (R112); `odd n` is the parity that decides RNE ties.
Answers n and whether it is inexact. -/
def roundAt (rm : Rnd) (neg : Bool) (odd : Nat → Bool) (m : Nat) (e q : Int) : Nat × Bool :=
  if q ≤ e then (m * 2 ^ (e - q).toNat, false)
  else
    let k := (q - e).toNat
    let n := m / 2 ^ k
    let r := m % 2 ^ k
    let half := 2 ^ (k - 1)
    let up := match rm with
      | .rne => decide (half < r) || (r == half && odd n)
      | .rtz => false
      | .rdn => neg && r != 0
      | .rup => !neg && r != 0
      | .rna => decide (half ≤ r)
    (if up then n + 1 else n, r != 0)

/-- Parity of a grid point (R112): the last significand bit, or at P = 1 the exponent field of n * 2^q. -/
def Fmt.odd (F : Fmt) (q : Int) (n : Nat) : Bool :=
  if F.p = 1 then n == 1 && (q + F.bias) % 2 == 1 else n % 2 == 1

/-- A rounded magnitude n * 2^q with the flags of R113 and R115, before overflow is delivered. -/
structure Rounded where
  n : Nat
  q : Int
  inexact : Bool
  tiny : Bool
  big : Bool
  deriving DecidableEq, Repr

/-- Rounds a non-zero exact magnitude m * 2^e (R112, R113, R115). -/
def Fmt.round (F : Fmt) (rm : Rnd) (neg : Bool) (m : Nat) (e : Int) : Rounded :=
  let free := e + bitLen m - F.p
  let q := max F.qmin free
  let r := roundAt rm neg (F.odd q) m e q
  let u := roundAt rm neg (F.odd free) m e free
  { n := r.1, q := q, inexact := r.2, tiny := ltDy u.1 free 1 F.emin, big := ltDy F.maxN F.maxQ r.1 q }

/-- What an overflow delivers (R113): infinity or the largest finite value. -/
def overInf (rm : Rnd) (neg : Bool) : Bool :=
  match rm with
  | .rne | .rna => true
  | .rtz => false
  | .rdn => neg
  | .rup => !neg

/-- The magnitude code of n * 2^q on a format's grid. -/
def Fmt.code (F : Fmt) (n : Nat) (q : Int) : Nat :=
  if n < 2 ^ (F.p - 1) then n
  else
    let (n, q) := if n = 2 ^ F.p then (2 ^ (F.p - 1), q + 1) else (n, q)
    (q + F.p - 1 + F.bias).toNat * 2 ^ (F.p - 1) + (n - 2 ^ (F.p - 1))

/-! ### The IEEE-style formats (R107) -/

/-- FP32, FP16 and BF16. -/
inductive IFmt where
  | f32 | f16 | bf16
  deriving DecidableEq, Repr

def IFmt.fb : IFmt → Nat
  | .f32 => 23 | .f16 => 10 | .bf16 => 7
def IFmt.eb : IFmt → Nat
  | .f16 => 5 | _ => 8
def IFmt.bits (t : IFmt) : Nat := t.fb + t.eb + 1
def IFmt.signBit (t : IFmt) : Nat := 2 ^ (t.fb + t.eb)
def IFmt.infCode (t : IFmt) : Nat := (2 ^ t.eb - 1) * 2 ^ t.fb
def IFmt.quietBit (t : IFmt) : Nat := 2 ^ (t.fb - 1)
def IFmt.nanCode (t : IFmt) : Nat := t.infCode + t.quietBit
def IFmt.fmt (t : IFmt) : Fmt :=
  { p := t.fb + 1, bias := 2 ^ (t.eb - 1) - 1, maxN := 2 ^ (t.fb + 1) - 1,
    maxQ := (2 ^ t.eb - 2 : Int) - (2 ^ (t.eb - 1) - 1) - t.fb }

/-- Sign of a code. -/
def IFmt.neg (t : IFmt) (c : Nat) : Bool := decide (t.signBit ≤ c)

/-- Decodes a code of the format. -/
def IFmt.dec (t : IFmt) (c : Nat) : FVal :=
  let neg := t.neg c
  let m := c % t.signBit
  let E := m / 2 ^ t.fb
  let T := m % 2 ^ t.fb
  if E = 2 ^ t.eb - 1 then (if T = 0 then .inf neg else .nan (decide (T < t.quietBit)))
  else if E = 0 then .fin neg T t.fmt.qmin
  else .fin neg (T + 2 ^ t.fb) ((E : Int) - t.fmt.bias - t.fb)

/-- A code with a sign. -/
def IFmt.signed (t : IFmt) (neg : Bool) (mag : Nat) : Nat := if neg then t.signBit + mag else mag

/-- Quiets a NaN code (R118). -/
def IFmt.quiet (t : IFmt) (c : Nat) : Nat := c ||| t.quietBit

/-- A code and the flags raised with it (R121). -/
abbrev FRes := Nat × BitVec 6

/-- Delivers an exact finite value in a format (R112, R113, R115). `flush` is the rule for results of 16-bit
arithmetic (R116). -/
def IFmt.deliver (t : IFmt) (rm : Rnd) (sat flush : Bool) (neg : Bool) (m : Nat) (e : Int) : FRes :=
  if m = 0 then (t.signed neg 0, 0)
  else
    let r := t.fmt.round rm neg m e
    if r.big then
      (t.signed neg (if overInf rm neg && !sat then t.infCode else t.fmt.code t.fmt.maxN t.fmt.maxQ), flOF ||| flNX)
    else if flush && r.tiny then (t.signed neg 0, flUF ||| flNX ||| flFZ)
    else
      (t.signed neg (t.fmt.code r.n r.q),
        (if r.inexact then flNX else 0) ||| (if r.tiny && r.inexact then flUF else 0))

/-- Flushes a subnormal input of 16-bit arithmetic to zero of the same sign (R116). -/
def flushIn (t : IFmt) (on : Bool) (v : FVal) : FVal × BitVec 6 :=
  match v with
  | .fin neg m e => if on && m != 0 && decide (m < 2 ^ t.fb) then (.fin neg 0 e, flFZ) else (v, 0)
  | _ => (v, 0)

def FVal.isNan : FVal → Bool
  | .nan _ => true | _ => false
def FVal.isSnan : FVal → Bool
  | .nan s => s | _ => false
def FVal.negate : FVal → FVal
  | .fin n m e => .fin (!n) m e
  | .inf n => .inf (!n)
  | v => v

/-- NaN choice (R118): the first NaN code in operand order, quieted; NV for a signalling operand. -/
def IFmt.nanOf (t : IFmt) (ops : List Nat) : Option FRes :=
  match ops.find? (fun c => (t.dec c).isNan) with
  | none => none
  | some c => some (t.quiet c, if ops.any (fun c => (t.dec c).isSnan) then flNV else 0)

/-- An exact sum of finite values as sign, magnitude and exponent; an exact zero follows R130. -/
def addFin (rm : Rnd) (n1 : Bool) (m1 : Nat) (e1 : Int) (n2 : Bool) (m2 : Nat) (e2 : Int) : Bool × Nat × Int :=
  let e := min e1 e2
  let a := m1 * 2 ^ (e1 - e).toNat
  let b := m2 * 2 ^ (e2 - e).toNat
  if n1 = n2 then (n1, a + b, e)
  else if b < a then (n1, a - b, e)
  else if a < b then (n2, b - a, e)
  else (rm == .rdn, 0, e)

/-- The exact sum of two values that are not NaNs. -/
inductive Exact where
  | invalid
  | inf (neg : Bool)
  | fin (neg : Bool) (m : Nat) (e : Int)
  deriving DecidableEq, Repr

def addExact (rm : Rnd) (x y : FVal) : Exact :=
  match x, y with
  | .inf a, .inf b => if a = b then .inf a else .invalid
  | .inf a, _ => .inf a
  | _, .inf b => .inf b
  | .fin n1 m1 e1, .fin n2 m2 e2 =>
    let r := addFin rm n1 m1 e1 n2 m2 e2
    .fin r.1 r.2.1 r.2.2
  | _, _ => .invalid

def mulExact (x y : FVal) : Exact :=
  match x, y with
  | .inf a, .inf b => .inf (a != b)
  | .inf a, .fin b m _ => if m = 0 then .invalid else .inf (a != b)
  | .fin a m _, .inf b => if m = 0 then .invalid else .inf (a != b)
  | .fin n1 m1 e1, .fin n2 m2 e2 => .fin (n1 != n2) (m1 * m2) (e1 + e2)
  | _, _ => .invalid

/-- Delivers an exact outcome in a format: an infinity is exact, an invalid operation gives the canonical NaN. -/
def IFmt.finish (t : IFmt) (rm : Rnd) (sat flush : Bool) (x : Exact) : FRes :=
  match x with
  | .invalid => (t.nanCode, flNV)
  | .inf n => (t.signed n t.infCode, 0)
  | .fin n m e => t.deliver rm sat flush n m e

/-! ### Element operations (R130, R131) -/

/-- How an element operation rounds: mode, SAT, and whether the type flushes (R116). -/
structure FMode where
  rm : Rnd
  sat : Bool
  flush : Bool
  deriving DecidableEq, Repr

def fpAdd (t : IFmt) (k : FMode) (sub : Bool) (a b : Nat) : FRes :=
  match t.nanOf [a, b] with
  | some r =>
    let fz := (flushIn t k.flush (t.dec a)).2 ||| (flushIn t k.flush (t.dec b)).2
    (r.1, r.2 ||| fz)
  | none =>
    let x := flushIn t k.flush (t.dec a)
    let y := flushIn t k.flush (t.dec b)
    let r := t.finish k.rm k.sat k.flush (addExact k.rm x.1 (if sub then y.1.negate else y.1))
    (r.1, r.2 ||| x.2 ||| y.2)

def fpMul (t : IFmt) (k : FMode) (a b : Nat) : FRes :=
  match t.nanOf [a, b] with
  | some r =>
    let fz := (flushIn t k.flush (t.dec a)).2 ||| (flushIn t k.flush (t.dec b)).2
    (r.1, r.2 ||| fz)
  | none =>
    let x := flushIn t k.flush (t.dec a)
    let y := flushIn t k.flush (t.dec b)
    let r := t.finish k.rm k.sat k.flush (mulExact x.1 y.1)
    (r.1, r.2 ||| x.2 ||| y.2)

/-- round(±(a * b) ± c) with one rounding (R130); a product 0 × ∞ is invalid even when the addend is a NaN (R119). -/
def fpFma (t : IFmt) (k : FMode) (negP negC : Bool) (a b c : Nat) : FRes :=
  let x := flushIn t k.flush (t.dec a)
  let y := flushIn t k.flush (t.dec b)
  let z := flushIn t k.flush (t.dec c)
  let fz := x.2 ||| y.2 ||| z.2
  let prod := mulExact x.1 y.1
  match t.nanOf [a, b, c] with
  | some r =>
    let bad := !x.1.isNan && !y.1.isNan && decide (prod = .invalid)
    (r.1, r.2 ||| fz ||| (if bad then flNV else 0))
  | none =>
    let w := if negC then z.1.negate else z.1
    let e := match prod with
      | .invalid => .invalid
      | .inf n => addExact k.rm (.inf (n != negP)) w
      | .fin n m e => addExact k.rm (.fin (n != negP) m e) w
    let r := t.finish k.rm k.sat k.flush e
    (r.1, r.2 ||| fz)

/-- Comparison of two values that are not NaNs, with -0 below +0 when `signedZero`. -/
def fvalLt (signedZero : Bool) (x y : FVal) : Bool :=
  match x, y with
  | .inf a, .inf b => a && !b
  | .inf a, _ => a
  | _, .inf b => !b
  | .fin n1 m1 e1, .fin n2 m2 e2 =>
    if m1 = 0 ∧ m2 = 0 then signedZero && n1 && !n2
    else if n1 && !n2 then true
    else if !n1 && n2 then false
    else if n1 then ltDy m2 e2 m1 e1 else ltDy m1 e1 m2 e2
  | _, _ => false

/-- The code of a value that is one of the (flushed) inputs. -/
def flushCode (t : IFmt) (on : Bool) (c : Nat) : Nat :=
  match flushIn t on (t.dec c) with
  | (.fin neg 0 _, _) => t.signed neg 0
  | _ => c

/-- FMIN and FMAX, number-preferring or NaN-propagating (R131). -/
def fpMinMax (t : IFmt) (flush isMax prop : Bool) (a b : Nat) : FRes :=
  let x := flushIn t flush (t.dec a)
  let y := flushIn t flush (t.dec b)
  let fz := x.2 ||| y.2
  let nv := if x.1.isSnan || y.1.isSnan then flNV else 0
  let a' := flushCode t flush a
  let b' := flushCode t flush b
  if x.1.isNan && y.1.isNan || prop && (x.1.isNan || y.1.isNan) then
    (((t.nanOf [a, b]).getD (t.nanCode, 0)).1, nv ||| fz)
  else if x.1.isNan then (b', nv ||| fz)
  else if y.1.isNan then (a', nv ||| fz)
  else if isMax then (if fvalLt true x.1 y.1 then b' else a', fz)
  else (if fvalLt true y.1 x.1 then b' else a', fz)

/-- The relation of two FP32 codes (R132). -/
def fpRel (a b : Nat) : FRel :=
  let x := IFmt.f32.dec a
  let y := IFmt.f32.dec b
  if x.isNan || y.isNan then .un
  else if fvalLt false x y then .lt
  else if fvalLt false y x then .gt
  else .eq

/-! ### binary8 (R109 to R111, R114) -/

end Sys2Proof.Machine

namespace Sys2Proof
open Sys2Proof.Machine

/-- The parameters of a form: t trailing bits, bias, NaN code, infinities. -/
def B8Par.t (k : B8Par) : Nat := k.p.toNat - 1
def B8Par.bias (k : B8Par) : Nat := 2 ^ ((if k.uns then 9 - k.p.toNat else 8 - k.p.toNat) - 1)
def B8Par.nanCode (k : B8Par) : Nat := if k.uns then 0xFF else 0x80

/-- The magnitude of the E and T fields of a code. -/
def B8Par.mag (k : B8Par) (m : Nat) : Nat × Int :=
  let E := m / 2 ^ k.t
  let T := m % 2 ^ k.t
  if E = 0 then (T, 1 - (k.bias : Int) - k.t) else (T + 2 ^ k.t, (E : Int) - k.bias - k.t)

/-- Decodes a binary8 code (R109). -/
def B8Par.dec (k : B8Par) (c : Nat) : FVal :=
  if c = k.nanCode then .nan false
  else if !k.fin && k.uns && c == 0xFE then .inf false
  else if !k.fin && !k.uns && c == 0x7F then .inf false
  else if !k.fin && !k.uns && c == 0xFF then .inf true
  else
    let m := if k.uns then c else c % 128
    let r := k.mag m
    .fin (!k.uns && decide (128 ≤ c)) r.1 r.2

/-- The largest finite magnitude code (R110, R111). -/
def B8Par.maxCode (k : B8Par) : Nat :=
  if k.uns then (if k.fin then 0xFE else 0xFD) else (if k.fin then 0x7F else 0x7E)

def B8Par.fmt (k : B8Par) : Fmt :=
  { p := k.p.toNat, bias := k.bias, maxN := (k.mag k.maxCode).1, maxQ := (k.mag k.maxCode).2 }

/-- A binary8 code with a sign; a zero has none. -/
def B8Par.signed (k : B8Par) (neg : Bool) (mag : Nat) : Nat := if neg && mag != 0 && !k.uns then 128 + mag else mag

/-- The code of an infinite result (R113): NaN in the finite-only variants. -/
def B8Par.infCode (k : B8Par) (neg : Bool) : Nat :=
  if k.fin then k.nanCode else if k.uns then 0xFE else k.signed neg 0x7F

/-- Narrows an exact finite value to binary8 (R112 to R115). -/
def B8Par.deliver (k : B8Par) (rm : Rnd) (sat : Bool) (neg : Bool) (m : Nat) (e : Int) : FRes :=
  if m = 0 then (0, 0)
  else
    let r := k.fmt.round rm neg m e
    if k.uns && neg then
      if r.n = 0 then (0, (if r.tiny && r.inexact then flUF else 0) ||| flNX)
      else if sat then (0, flNX) else (0xFF, flNV)
    else if r.big then
      (if sat || !overInf rm neg then k.signed neg k.maxCode else k.infCode neg, flOF ||| flNX)
    else
      (k.signed neg (k.fmt.code r.n r.q),
        (if r.inexact then flNX else 0) ||| (if r.tiny && r.inexact then flUF else 0))

/-- Narrows a value to binary8: an infinity and a NaN follow R113, R114 and R118. An infinity that a form
delivers as ±max or as a NaN code is delivered inexactly (R115). -/
def B8Par.ofVal (k : B8Par) (rm : Rnd) (sat : Bool) (v : FVal) : FRes :=
  match v with
  | .nan s => (k.nanCode, if s then flNV else 0)
  | .inf neg =>
    if k.uns && neg then (if sat then (0, 0) else (0xFF, flNV))
    else if k.fin then (if sat then (k.signed neg k.maxCode, flNX) else (k.nanCode, flNX))
    else (k.infCode neg, 0)
  | .fin neg m e => k.deliver rm sat neg m e

/-- An exact FP32 code of a binary8 value (R111, R117). -/
def B8Par.toF32 (k : B8Par) (c : Nat) : Nat :=
  match k.dec c with
  | .nan _ => IFmt.f32.nanCode
  | .inf neg => IFmt.f32.signed neg IFmt.f32.infCode
  | .fin neg m e => (IFmt.f32.deliver .rne false false neg m e).1

end Sys2Proof

namespace Sys2Proof.Machine

/-! ### Conversions between the IEEE formats (R117, R118) -/

/-- Moves a NaN code between formats: sign and top fraction bits kept, quiet bit set. -/
def carryNan (src dst : IFmt) (c : Nat) : Nat :=
  let frac := c % 2 ^ src.fb
  let f := scale frac ((dst.fb : Int) - src.fb)
  dst.quiet (dst.signed (src.neg c) (dst.infCode + f))

/-- Converts a code of one IEEE format to another. -/
def fpConv (src dst : IFmt) (rm : Rnd) (sat : Bool) (c : Nat) : FRes :=
  match src.dec c with
  | .nan s => (carryNan src dst c, if s then flNV else 0)
  | .inf n => (dst.signed n dst.infCode, 0)
  | .fin n m e => dst.deliver rm sat false n m e

/-- A finite value rounded to an integer: sign, magnitude, whether inexact. -/
def fpToInt (rm : Rnd) (neg : Bool) (m : Nat) (e : Int) : Nat × Bool := roundAt rm neg (fun n => n % 2 == 1) m e 0

end Sys2Proof.Machine
end

