-- ==== Sys2Proof/Machine/Mem.lean ====
section
/-! DEFINITION. Byte memory in its canonical form (log 3), little-endian values (00_scope R9), and the bytes of
register operands (R24, R153). -/

namespace Sys2Proof.Machine

/-! ### One memory -/

/-- What an unlisted address reads as: DESIGN CHOICE (log 3); the spec gives no initial contents of global memory,
and zeros for a scratchpad allotment (R148). -/
def Memory.unlisted : Byte := 0

/-- The byte at an address. -/
def Memory.read (m : Memory) (a : Nat) : Byte :=
  match m with
  | [] => Memory.unlisted
  | (k, b) :: rest => if k = a then b else Memory.read rest a

/-- The memory without its entry at an address. -/
def Memory.drop (m : Memory) (a : Nat) : Memory := m.filter fun c => c.1 != a

/-- Lists a byte before the first greater address. -/
def Memory.insert (m : Memory) (a : Nat) (v : Byte) : Memory :=
  match m with
  | [] => [(a, v)]
  | c :: rest => if a < c.1 then (a, v) :: c :: rest else c :: Memory.insert rest a v

/-- Writes one byte, keeping addresses rising and listing no byte that equals the unlisted one. -/
def Memory.write (m : Memory) (a : Nat) (v : Byte) : Memory :=
  if v = Memory.unlisted then m.drop a else (m.drop a).insert a v

/-- The canonical form: addresses strictly rising, no entry equal to what an unlisted address reads as. -/
def Memory.wf (m : Memory) : Bool :=
  match m with
  | [] => true
  | (k, b) :: rest => b != Memory.unlisted && rest.all (fun c => decide (k < c.1)) && Memory.wf rest

/-- The n bytes from an address on. -/
def Memory.readN (m : Memory) (a n : Nat) : List Byte := (List.range n).map fun i => m.read (a + i)

/-- Writes bytes from an address on, in rising order. -/
def Memory.writeN (m : Memory) (a : Nat) (bs : List Byte) : Memory :=
  match bs with
  | [] => m
  | b :: rest => (m.write a b).writeN (a + 1) rest

/-! ### Little-endian values -/

/-- The number whose little-endian bytes these are. -/
def leNat (bs : List Byte) : Nat :=
  match bs with
  | [] => 0
  | b :: rest => b.toNat + 256 * leNat rest

/-- The n little-endian bytes of a number. -/
def leBytes (n x : Nat) : List Byte :=
  match n with
  | 0 => []
  | k + 1 => BitVec.ofNat 8 x :: leBytes k (x / 256)

def Memory.word (m : Memory) (a : Nat) : Word := BitVec.ofNat 32 (leNat (m.readN a 4))
def Memory.dword (m : Memory) (a : Nat) : DWord := BitVec.ofNat 64 (leNat (m.readN a 8))

/-- Bytes of the dwords of a message. -/
def dwordBytes (ws : List DWord) : List Byte := ws.flatMap fun w => leBytes 8 w.toNat
/-- The dwords of bytes. -/
def bytesDwords (bs : List Byte) : Nat → List DWord
  | 0 => []
  | n + 1 => BitVec.ofNat 64 (leNat (bs.take 8)) :: bytesDwords (bs.drop 8) n

/-! ### The bytes of register operands (R24, R153) -/

/-- The n bytes that a data operand at field d supplies, lowest bytes in d; Zenith code uses one s-register up to
b64 and two for b128. -/
def Fibre.getBytes (z : Bool) (f : Fibre) (d n : Nat) : List Byte :=
  if z then
    if n ≤ 8 then leBytes n (f.getPair true d).toNat
    else leBytes 8 (f.getPair true d).toNat ++ leBytes 8 (f.getPair true (d + 1)).toNat
  else if n ≤ 4 then leBytes n (f.get false d).toNat
  else (List.range (n / 4)).flatMap fun k => leBytes 4 (f.get false (d + k)).toNat

/-- Writes n loaded bytes to the operand at field d, zero-extended (R153, R227). -/
def Fibre.setBytes (z : Bool) (f : Fibre) (d : Nat) (bs : List Byte) : Fibre :=
  if z then
    if bs.length ≤ 8 then f.setPair true d (BitVec.ofNat 64 (leNat bs))
    else (f.setPair true d (BitVec.ofNat 64 (leNat (bs.take 8)))).setPair true (d + 1)
      (BitVec.ofNat 64 (leNat (bs.drop 8)))
  else if bs.length ≤ 4 then f.set false d (BitVec.ofNat 32 (leNat bs))
  else if bs.length ≤ 8 then f.setPair false d (BitVec.ofNat 64 (leNat bs))
  else (f.setPair false d (BitVec.ofNat 64 (leNat (bs.take 8)))).setPair false (d + 2)
    (BitVec.ofNat 64 (leNat (bs.drop 8)))

/-- The address of a memory operand: the pair a plus XOFF, wrapping (R26, R153, R226). -/
def State.ea (s : State) (z : Bool) (f : Fibre) (a : Reg) : DWord := f.getPair z a.toNat + s.hintXoff

/-! ### What a memory instruction does in one lane -/

/-- The answer for one lane: bytes for its destination (none for a store), a trap, a parked wait, a wait as for an
operand, or an access to memory that the package does not hold. -/
inductive LaneAns where
  | bytes (bs : List Byte)
  | trap (t : TrapInfo)
  | park (w : Wait)
  | stall
  | hole (key : Nat)
  deriving DecidableEq, Repr

/-- The end of a lane: its loaded bytes go to d. -/
def loadEnd (z : Bool) (d : Nat) (ans : List (Nat × LaneAns)) (l : Nat) (f : Fibre) : LaneEnd :=
  match ans.lookup l with
  | some (.bytes bs) => .done (f.setBytes z d bs) 0
  | some (.trap t) => .trap f t
  | some (.park w) => .park f w
  | _ => .done f 0

/-- The end of a lane of an instruction that writes no register. -/
def storeEnd (ans : List (Nat × LaneAns)) (l : Nat) (f : Fibre) : LaneEnd :=
  match ans.lookup l with
  | some (.trap t) => .trap f t
  | some (.park w) => .park f w
  | _ => .done f 0

/-- What the path does after its lanes have been judged: a lane that waits as for an operand makes the whole
instruction wait, with none of its effects. -/
def pathOf (s : State) (ans : List (Nat × LaneAns)) (ends : Nat → Fibre → LaneEnd) : PathRes :=
  match ans.findSome? (fun a => match a.2 with | .hole k => some k | _ => none) with
  | some k => .fault (.memoryHole k)
  | none => if ans.any (fun a => a.2 == .stall) then .stall false else .go s ends

/-- Runs `op` over lanes in lane order, threading the state. -/
def foldLanes (op : State → Nat → Fibre → State × LaneAns) (w : Wave) : State → List Nat →
    State × List (Nat × LaneAns)
  | s, [] => (s, [])
  | s, l :: ls =>
    let r := op s l (w.fibres.getD l Fibre.empty)
    let rs := foldLanes op w r.1 ls
    (rs.1, (l, r.2) :: rs.2)

end Sys2Proof.Machine
end

