-- ==== Sys2Proof/Machine/Space.lean ====
section
/-! DEFINITION. Address spaces, translation and fault records (11_address_space_and_fixed_stars R258 to R271), and
global memory: homes, shadows, L1 copies, pending stores, poison (09_lines_and_order R206 to R233; 10 R244, R245). -/

namespace Sys2Proof.Machine

/-! ### Words by index in canonical form -/

def WordMap.get (m : WordMap) (k : Nat) : Word := (m.lookup k).getD 0

/-- Lists a word before the first greater index. -/
def WordMap.insert (m : WordMap) (k : Nat) (v : Word) : WordMap :=
  match m with
  | [] => [(k, v)]
  | c :: rest => if k < c.1 then (k, v) :: c :: rest else c :: WordMap.insert rest k v

/-- Writes one entry; indices rise, and no entry is 0. -/
def WordMap.put (m : WordMap) (k : Nat) (v : Word) : WordMap :=
  let d := m.filter fun c => c.1 != k
  if v = 0 then d else WordMap.insert d k v

/-- The canonical form of a WordMap. -/
def WordMap.wf (m : WordMap) : Bool :=
  match m with
  | [] => true
  | (k, v) :: rest => v != 0 && rest.all (fun c => decide (k < c.1)) && WordMap.wf rest

/-! ### Pages and physical addresses (R260, R261) -/

def szBytes (sz : BitVec 2) : Nat := match sz.toNat with | 0 => 2 ^ 16 | 1 => 2 ^ 21 | _ => 2 ^ 30
def Page.size (p : Page) : Nat := szBytes p.sz
def Page.holds (p : Page) (asid va : Nat) : Bool := p.asid == asid && decide (p.va ≤ va ∧ va < p.va + p.size)
/-- The page that maps an address of a space. -/
def State.findPage (s : State) (asid va : Nat) : Option Page := s.pages.find? fun p => p.holds asid va
/-- The physical key behind an address of a page: target dword plus offset. -/
def Page.key (p : Page) (va : Nat) : Nat := p.tgt.toNat + (va - p.va)

/-- The location field of a physical key (R261); 15 is the region status table (R278), the model's own. -/
def keyLoc (key : Nat) : Nat := key / 2 ^ 60
/-- The line and the 64 KiB block of a physical key. -/
def lineOf (key : Nat) : Nat := key / 128
def blockOf (key : Nat) : Nat := key / 65536
/-- Whether the package holds the memory that a key names (R5). -/
def physExists (key : Nat) : Bool :=
  match keyLoc key with
  | 0 => decide (key % 2 ^ 52 < Config.hbmBytes)
  | 1 => decide (key % 2 ^ 52 < Config.cxlBytes)
  | _ => true
/-- The physical key of a host physical address. -/
def hostKey (a : Nat) : Nat := 3 * 2 ^ 60 + a % 2 ^ 52
/-- The physical key of the region status table. -/
def tableTarget : DWord := 0xF000000000000000#64

/-- The freeze count of the block of a key (R272). -/
def State.frozenAt (s : State) (key : Nat) : Nat := (s.frozen.get (blockOf key)).toNat

/-- Whether a page that holds the block of a key is Thawing (R276). -/
def State.thawingAt (s : State) (key : Nat) : Bool :=
  s.pages.any fun p => p.st == .thawing && decide (p.tgt.toNat ≤ key ∧ key < p.tgt.toNat + p.size)

/-- The status word of a region identifier (R278). -/
def Region.word (r : Region) : Word := r.gen ++ (0#14) ++ r.st
def State.regionWord (s : State) (id : Nat) : Word :=
  match s.regions.find? (fun r => r.id == id) with | some r => r.word | none => 0

/-- One byte at its home. -/
def State.homeByte (s : State) (key : Nat) : Byte :=
  if keyLoc key = 15 then byteOfNat (s.regionWord (key % 2 ^ 52 / 4)).toNat (key % 4)
  else if keyLoc key = 3 ∧ s.linkUp = false then 0
  else s.mem.read key
where
  byteOfNat (x i : Nat) : Byte := BitVec.ofNat 8 (x / 256 ^ i)

def State.homeRead (s : State) (key n : Nat) : List Byte := (List.range n).map fun i => s.homeByte (key + i)

/-- Writes bytes at their homes; a write to host memory behind a lost link is dropped (R342). -/
def State.homeWrite (s : State) (key : Nat) (bs : List Byte) : State :=
  if keyLoc key = 3 ∧ s.linkUp = false then s else { s with mem := s.mem.writeN key bs }

/-- Whether a read of a line consumes poison (R208, R342). -/
def State.poisoned (s : State) (key : Nat) : Bool :=
  s.poison.contains (lineOf key) || (keyLoc key == 3 && !s.linkUp)

/-! ### Translation (R258, R260) -/

/-- What an access needs of its page. -/
structure Need where
  rd : Bool
  wr : Bool
  x : Bool
  deriving DecidableEq, Repr

def needLoad : Need := { rd := true, wr := false, x := false }
def needStore : Need := { rd := true, wr := true, x := false }
def needFetch : Need := { rd := false, wr := false, x := true }

/-- Where an access stands after translation. -/
inductive Xlat where
  | ok (p : Page) (key : Nat)
  | far
  | fault (k : FaultKind) (page : Nat) (sz : BitVec 2) (key : Nat)
  | wait
  | hole (key : Nat)
  deriving DecidableEq, Repr

/-- Translates an address, with the tests in the order of R260. `frozen` says whether the freeze count is judged. Where no page
is mapped, the page of the fault record is the 64 KiB piece of the address with size code 0, and accesses merge by that piece:
DESIGN CHOICE, log 54, since R269 names the page alone. -/
def State.translate (s : State) (asid : Nat) (priv frozen : Bool) (need : Need) (va : DWord) : Xlat :=
  if va.toNat < 2 ^ 57 then
    match s.findPage asid va.toNat with
    | none => .fault .notMapped (va.toNat / 65536 * 65536) 0 0
    | some p =>
      let key := p.key va.toNat
      let bad := fun k => Xlat.fault k p.va p.sz key
      if p.priv && !priv then bad .priv
      else if need.x && !p.x then bad .noExec
      else if need.rd && !p.rd then bad .noRd
      else if need.wr && !p.wr then bad .noWr
      else if need.wr && frozen && decide (0 < s.frozenAt key) then bad .wFix
      else if need.wr && frozen && p.st == .thawing then .wait
      else if physExists key then .ok p key
      else .hole key
  else .far

/-! ### Fault records (R268 to R271) -/

/-- The cause that the deliver action gives (R271). -/
def FaultKind.cause : FaultKind → BitVec 6
  | .wFix => 0x05 | _ => 0x04

/-- The handle of a record (R269). -/
def FaultRec.handle (r : FaultRec) : Word := r.seq ++ (0#3) ++ BitVec.ofNat 1 r.die ++ BitVec.ofNat 12 r.index

/-- The lowest region identifier that counts a block, not withdrawn. -/
def State.regionOf (s : State) (block : Nat) : Nat :=
  ((s.regions.filter fun r => r.st == 1#2 && r.blocks.contains block && !r.withdrawn.contains block).foldl
    (fun (m : Option Nat) r => some (min r.id (m.getD r.id))) none).getD 0

/-- What becomes of a faulting access. -/
inductive FaultOut where
  | deliver (cause : BitVec 6)
  | parked (h : Word)
  | full
  deriving DecidableEq, Repr

/-- The first of n numbers from i on that satisfies p. -/
def firstFrom (p : Nat → Bool) : Nat → Nat → Option Nat
  | 0, _ => none
  | n + 1, i => if p i then some i else firstFrom p n (i + 1)

/-- The lowest record index of a die that is free. -/
def State.freeRecord (s : State) (die : Nat) : Option Nat :=
  firstFrom (fun i => !(s.records.any fun r => r.die == die && r.index == i)) 4096 0

/-- A fault joins the outstanding record of its page and kind on the die, or opens one; a space without a fault
mailbox delivers at once (R268, R270). -/
def State.raiseFault (s : State) (die : Nat) (cls : AccessClass) (asid : Nat) (va : DWord) (k : FaultKind)
    (page : Nat) (sz : BitVec 2) (key : Nat) : State × FaultOut :=
  match (s.spaces.find? fun x => x.asid == asid).bind (·.mbx) with
  | none => (s, .deliver k.cause)
  | some _ =>
    match s.records.find? fun r => r.die == die && r.asid == asid && r.page == page && r.kind == k with
    | some r =>
      ({ s with records := s.records.map fun x => if x = r then { x with count := x.count + 1 } else x },
        .parked r.handle)
    | none => match s.freeRecord die with
      | none => (s, .full)
      | some i =>
        let seq := s.recSeq.getD die 0
        let r : FaultRec :=
          { die := die, index := i, seq := seq, kind := k, cls := cls, asid := asid, va := va, page := page, sz := sz,
            merged := 0, count := 1, time := s.now,
            region := if k = .wFix then s.regionOf (blockOf key) else 0, posted := false }
        ({ s with records := s.records ++ [r], recSeq := s.recSeq.set die (seq + 1) }, .parked r.handle)

/-- The answer of a lane whose access faults. -/
def State.faultLane (s : State) (die : Nat) (cls : AccessClass) (asid : Nat) (va : DWord) (k : FaultKind)
    (page : Nat) (sz : BitVec 2) (key : Nat) : State × LaneAns :=
  match s.raiseFault die cls asid va k page sz key with
  | (s1, .deliver c) => (s1, .trap (trapWith c (lo32 va)))
  | (s1, .parked h) => (s1, .park (.record h va))
  | (_, .full) => (s, .stall)

/-- Translates the address of a lane of a wave; `op` runs on the page and key. -/
def State.onLane (s : State) (w : Wave) (g : Grid) (cls : AccessClass) (need : Need) (frozen : Bool) (va : DWord)
    (op : Page → Nat → State × LaneAns) : State × LaneAns :=
  match s.translate g.asid g.priv frozen need va with
  | .ok p key => op p key
  | .far => (s, .trap (trapWith 0x04 (lo32 va)))
  | .fault k page sz key => s.faultLane (dieOf w.core) cls g.asid va k page sz key
  | .wait => (s, .stall)
  | .hole key => (s, .hole key)

/-! ### Shadows (R244, R245) -/

/-- Bytes of an element of a narrow reduction. -/
def narrowSize : AtomOp → Nat
  | .faddBf16 => 2 | .faddB8p4 | .faddB8p5 => 1 | _ => 4

/-- binary8p5, signed, extended. -/
def b8p5 : B8Par := { p := 5, uns := false, fin := false }
def b8p4Sx : B8Par := { p := 4, uns := false, fin := false }

/-- An FP32 code rounded to the storage format of a narrow reduction, NaNs canonical (R240, R245). -/
def narrowCode (op : AtomOp) (c : Nat) : Nat :=
  match op with
  | .faddBf16 => if (IFmt.f32.dec c).isNan then IFmt.bf16.nanCode else (fpConv .f32 .bf16 .rne false c).1
  | .faddB8p4 => (b8p4Sx.ofVal .rne false (IFmt.f32.dec c)).1
  | _ => (b8p5.ofVal .rne false (IFmt.f32.dec c)).1

/-- A stored code of a narrow format as FP32, exactly (R117). -/
def widenCode (op : AtomOp) (c : Nat) : Nat :=
  match op with
  | .faddBf16 => c * 65536
  | .faddB8p4 => b8p4Sx.toF32 c
  | _ => b8p5.toF32 c

/-- Writes back the touched elements of a shadow entry (R245). -/
def State.flushShadow (s : State) (x : Shadow) : State :=
  x.elts.foldl (fun s e =>
    if e.touched then
      s.homeWrite (x.line * 128 + e.idx * narrowSize x.op) (leBytes (narrowSize x.op) (narrowCode x.op e.val.toNat))
    else s) s

/-- Flushes the shadow entry of a line, if it has one. -/
def State.flushLine (s : State) (line : Nat) : State :=
  match s.shadows.find? (fun x => x.line == line) with
  | none => s
  | some x => { s.flushShadow x with shadows := s.shadows.filter fun y => y.line != line }

/-- Between steps: before the L2 evicts a line of host memory, its shadow is flushed (R245), so a self-invalidating line that
the device has given up has none. -/
def State.settleHost (s : State) : State :=
  (s.shadows.filter fun x =>
    keyLoc (x.line * 128) == 3 && s.lineCoh x.line == some 1#2 && !s.hostMod.contains x.line).foldl
    (fun s x => s.flushLine x.line) s

/-! ### Modified copies of tracked lines (R231) -/

/-- Another agent's access brings the line home. -/
def State.share (s : State) (a : Option Agent) (line : Nat) : State :=
  { s with modified := s.modified.filter fun m => m.line != line || some m.agent == a }

/-- An agent takes a line modified, noting what its home held at the written offsets. -/
def State.claim (s : State) (a : Agent) (key n : Nat) : State :=
  let line := lineOf key
  let s1 := s.share (some a) line
  let old := (List.range n).map fun i => ((key + i) % 128, s.homeByte (key + i))
  match s1.modified.find? (fun m => m.line == line) with
  | none => { s1 with modified := s1.modified ++ [{ agent := a, line := line, home := old }] }
  | some m =>
    let m' := { m with home := m.home ++ old.filter fun o => (m.home.lookup o.1).isNone }
    { s1 with modified := s1.modified.map fun x => if x.line = line then m' else x }

/-! ### The L1 (R156, R157, R215)

`State.l1` lists the lines of all L1s, the most recently used line of a set first. A physical line is never cached under
two tags (R267), so a core's copy is found by its physical line; its tag is the leader's address and space. -/

def State.l1Find (s : State) (core line : Nat) : Option L1Line :=
  s.l1.find? fun x => x.core == core && x.line == line
/-- Replaces a copy where it stands. -/
def State.l1Set (s : State) (x : L1Line) : State :=
  { s with l1 := s.l1.map fun y => if y.core = x.core ∧ y.line = x.line then x else y }
def State.l1Drop (s : State) (core line : Nat) : State :=
  { s with l1 := s.l1.filter fun y => !(y.core == core && y.line == line) }

/-- Sets of a core's L1: one for each 2 KiB of its 2 MiB less 256 KiB for each unit of the split (R146, R156). -/
def State.l1Sets (s : State) (core : Nat) : Nat := 1024 - 128 * (s.splits.getD core 0).toNat
/-- The set of a virtual address: DESIGN CHOICE (log 11), the spec gives no index function. -/
def State.l1SetOf (s : State) (core va : Nat) : Nat := va / 128 % s.l1Sets core

/-- Writes the dirty bytes of an L1 line to their home. -/
def State.writeBack (s : State) (x : L1Line) : State :=
  x.dirty.foldl (fun s o => s.homeWrite (x.line * 128 + o) [x.bytes.getD o 0]) (s.flushLine x.line)

/-- Writes through a line of a core's L1; the copy stays, clean. -/
def State.throughLine (s : State) (core line : Nat) : State :=
  match s.l1Find core line with
  | none => s
  | some x => if x.dirty = [] then s else (s.writeBack x).l1Set { x with dirty := [] }

/-- Writes through every dirty self-invalidating byte of a core's L1 (R215). -/
def State.throughCore (s : State) (core : Nat) : State :=
  (s.l1.filter fun x => x.core == core).foldl (fun s x => s.throughLine core x.line) s

/-- An acquire at a scope wider than one core's team: write through, then drop (R215). -/
def State.acquireCore (s : State) (core : Nat) : State :=
  let s1 := s.throughCore core
  { s1 with l1 := s1.l1.filter fun x => !(x.core == core && x.selfinv) }

/-- A core no longer holds a line modified: its copy has gone home (R231). -/
def State.endModified (s : State) (core line : Nat) : State :=
  { s with modified := s.modified.filter fun m => !(m.agent == .core core && m.line == line) }

/-- A line leaves a core's L1: dirty bytes are written through, its home has the line again, and a tag that is to enter
does so in the victim list of a resident holder (R157, R215). -/
def State.evictLine (s : State) (core line : Nat) : State :=
  match s.l1Find core line with
  | none => s
  | some x =>
    let s1 := ((s.writeBack x).l1Drop core line).endModified core line
    match x.holder with
    | some wid =>
      if x.tagged then s1.modWave wid fun w =>
        if w.stat == .resident || w.stat == .halted then { w with victims := ((x.asid, x.va) :: w.victims).take 16 } else w
      else s1
    | none => s1

/-- A core's L1 is written back and invalidated (R146). -/
def State.emptyL1 (s : State) (core : Nat) : State :=
  let s1 := s.throughCore core
  { s1 with l1 := s1.l1.filter fun x => x.core != core
            modified := s1.modified.filter fun m => m.agent != .core core }

/-- A core's copy of a self-invalidating line goes home and is dropped. -/
def State.dropCopy (s : State) (core line : Nat) : State :=
  let s1 := s.throughLine core line
  { s1 with l1 := s1.l1.filter fun x => !(x.core == core && x.line == line && x.selfinv) }

/-- A line enters a core's L1: the last line of a full set leaves (R156). -/
def State.l1Fill (s : State) (x : L1Line) (front : Bool) : State :=
  let set := s.l1.filter fun y => y.core == x.core && s.l1SetOf x.core y.va == s.l1SetOf x.core x.va
  let s1 := match set.getLast? with
    | some y => if 16 ≤ set.length then s.evictLine y.core y.line else s
    | none => s
  { s1 with l1 := if front then x :: s1.l1 else s1.l1 ++ [x] }

/-- Where a hit with a cache hint puts its line in the order of use: normal first, last use last; a stream hit and a
hit with no L1 leave it where it is. DESIGN CHOICE (log 11): R156 gives the order at allocation alone. -/
def State.l1Move (s : State) (x : L1Line) (ch : CacheHint) : State :=
  let rest := s.l1.filter fun y => !(y.core == x.core && y.line == x.line)
  match ch with
  | .normal => { s with l1 := x :: rest }
  | .lastUse => { s with l1 := rest ++ [x] }
  | _ => s.l1Set x

/-- An access of core `core` to a line of a tracked or self-invalidating page whose leader is (asid, va): a hit moves
the line and takes its victim tag from the hint; one with no L1 leaves the tag as it is (DESIGN CHOICE, log 11). A miss
allocates, but for the hint no L1 and for a line of the host behind a lost link (R342); one of a fixed block makes a
replica (R275; log 11). `wid` is the wave of an LDG, which becomes the holder, and whose score a miss on one of its victim tags raises, once
for each lane that misses (R64, R157; the count by lane is a DESIGN CHOICE, log 11). -/
def State.l1Use (s : State) (wid : Option Nat) (core line asid va : Nat) (ch : CacheHint) (selfinv : Bool) : State :=
  match s.l1Find core line with
  | some x =>
    s.l1Move { x with holder := wid.or x.holder, tagged := if ch == .noL1 then x.tagged else ch != .lastUse } ch
  | none =>
    let s1 := match wid with
      | some k => s.modWave k fun w =>
          if w.victims.contains (asid, va) then { w with score := min 255 (w.score + 1) } else w
      | none => s
    if ch == .noL1 || (keyLoc (line * 128) == 3 && !s.linkUp) then s1
    else s1.l1Fill { core := core, line := line, asid := asid, va := va, selfinv := selfinv, holder := wid,
                     tagged := ch != .lastUse,
                     replica := decide (0 < s.frozenAt (line * 128)) && !s.thawingAt (line * 128),
                     bytes := if selfinv then s1.homeRead (line * 128) 128 else [],
                     dirty := [] } (ch == .normal)

/-! ### Pending stores (R219 to R221, R225) -/

/-- Replaces bytes of a list from an offset on. -/
def patch (bs : List Byte) (o : Nat) (xs : List Byte) : List Byte := bs.take o ++ xs ++ bs.drop (o + xs.length)

/-- A core's own copy of a self-invalidating line takes a byte that has reached its home, unless it holds a byte there
that has still to go home (R218). -/
def State.patchCopy (core : Nat) (s : State) (c : Nat × Byte) : State :=
  match s.l1Find core (lineOf c.1) with
  | some x =>
    if x.selfinv && !x.dirty.contains (c.1 % 128) then s.l1Set { x with bytes := patch x.bytes (c.1 % 128) [c.2] }
    else s
  | none => s

/-- A write to a line of host memory that the device caches makes it hold the line modified (R235, R342). -/
def State.noteHost (s : State) (key : Nat) : State :=
  if keyLoc key = 3 ∧ s.lineCoh (lineOf key) ≠ some 2#2 ∧ s.hostMod.contains (lineOf key) = false then
    { s with hostMod := s.hostMod ++ [lineOf key] }
  else s

/-- A byte of core `core` reaches its home. -/
def State.bringHome (core : Nat) (s : State) (c : Nat × Byte) : State :=
  State.patchCopy core (((s.flushLine (lineOf c.1)).noteHost c.1).homeWrite c.1 [c.2]) c

/-- The core on which a wave runs. -/
def State.coreOf (s : State) (wid : Nat) : Nat := match s.waves[wid]? with | some w => w.core | none => 0

/-- Brings home the pending bytes of a wave's stores: all of them, or those of one line. -/
def State.homePend (s : State) (wid : Nat) (line : Option Nat) : State :=
  let hit := fun (c : Nat × Byte) => match line with | none => true | some l => lineOf c.1 == l
  let mine := (s.pend.filter fun p => p.wave == wid).flatMap fun p => p.bytes.filter hit
  if mine.isEmpty then s
  else
    let s1 := mine.foldl (State.bringHome (s.coreOf wid)) s
    { s1 with pend := s1.pend.map fun p =>
        if p.wave = wid then { p with bytes := p.bytes.filter fun c => !hit c } else p }

/-- Every write to keys that satisfy p that has retired is carried to its home: pending bytes, dirty bytes of L1s, shadows;
their lines are modified nowhere else, and copies of self-invalidating lines are dropped. -/
def State.drainWhere (s : State) (p : Nat → Bool) : State :=
  let s1 := s.pend.foldl (fun s x =>
    (x.bytes.filter fun c => p c.1).foldl (State.bringHome (s.coreOf x.wave)) s) s
  let keep := fun (x : PendStore) => { x with bytes := x.bytes.filter fun c => !p c.1 }
  let s2 : State := { s1 with pend := s1.pend.map keep }
  let s3 := (s2.l1.filter fun x => p (x.line * 128)).foldl (fun s x => s.throughLine x.core x.line) s2
  let s4 := (s3.shadows.filter fun x => p (x.line * 128)).foldl (fun s x => s.flushLine x.line) s3
  { s4 with modified := s4.modified.filter fun m => !p (m.line * 128)
            l1 := s4.l1.filter fun x => !(x.selfinv && p (x.line * 128)) }

/-- Every modified host line is written back, and the device holds none (R342). -/
def State.returnHost (s : State) : State :=
  let s1 := s.drainWhere fun key => keyLoc key == 3
  { s1 with l1 := s1.l1.filter fun x => keyLoc (x.line * 128) != 3, hostMod := [] }

/-- Whether a scope acts on caches (R215). -/
def wideScope (scp : Scope) (pair : Bool) : Bool :=
  match scp with
  | .wave => false
  | .team => pair
  | _ => true

/-- A release of a wave calls for the stores that it has retired. -/
def State.callPend (s : State) (wid : Nat) : State :=
  { s with pend := s.pend.map fun p => if p.wave = wid then { p with called := true } else p }

/-- The actions of a release by a wave on its stores and caches (R215, R219, R228). -/
def State.releaseAct (s : State) (wid core : Nat) (wide : Bool) : State :=
  let s1 := (s.homePend wid none).callPend wid
  if wide then s1.throughCore core else s1

end Sys2Proof.Machine

namespace Sys2Proof
/-- Whether an annotation acquires, and whether it releases (R23, R223). -/
def Ord4.isAcq : Ord4 → Bool
  | .acq | .acqrel => true | _ => false
def Ord4.isRel : Ord4 → Bool
  | .rel | .acqrel => true | _ => false
end Sys2Proof

namespace Sys2Proof.Machine

/-- The host's part of an ordering action: at system scope alone (R215). -/
def State.hostAct (s : State) (on : Bool) (scp : Scope) : State := if on && scp == .system then s.releaseHost else s

/-- The cache actions of a release at a scope (R215, R219). -/
def State.releaseAt (s : State) (wid core : Nat) (pair : Bool) (scp : Scope) : State :=
  (s.releaseAct wid core (wideScope scp pair)).hostAct true scp

/-- The cache actions of an acquire at a scope (R215). -/
def State.acquireAt (s : State) (core : Nat) (pair : Bool) (scp : Scope) : State :=
  (if wideScope scp pair then s.acquireCore core else s).hostAct true scp

/-- The ordering actions before an annotated access of a wave: release first, then acquire (R215, R223). -/
def State.orderAct (s : State) (wid core : Nat) (pair : Bool) (ord : Ord4) (scp : Scope) : State :=
  let s1 := if ord.isRel then s.releaseAt wid core pair scp else s
  if ord.isAcq then s1.acquireAt core pair scp else s1

/-! ### Leaders (R267) -/

/-- The leader of a physical line, whose page decides its protocol; the first access that fetches it elects it. -/
def State.lead (s : State) (line asid va : Nat) (coh : BitVec 2) : State × Leader :=
  match s.leaders.find? (fun x => x.line == line) with
  | some x => (s, x)
  | none =>
    let x : Leader := { line := line, asid := asid, va := va, coh := coh }
    ({ s with leaders := s.leaders ++ [x] }, x)

/-- An access through a page fetches the line of a key. -/
def State.leadVia (s : State) (p : Page) (va key : Nat) : State := (s.lead (lineOf key) p.asid (va / 128 * 128) p.coh).1

/-! ### Loads and stores of waves -/

/-- The bytes that a team has staged over a range, laid over what memory holds (R289). -/
def overlay (st : List Staged) (key : Nat) (bs : List Byte) : List Byte :=
  bs.mapIdx fun i b =>
    (st.foldl (fun acc e => match e with
      | .store k xs => if k ≤ key + i ∧ key + i < k + xs.length then xs.getD (key + i - k) acc else acc
      | _ => acc) b)

/-- What a team has staged. -/
def State.stageOf (s : State) (w : Wave) : List Staged :=
  match s.teams[w.team]? with | some t => t.stage | none => []

/-- A load of n bytes by wave `wid`: the bytes, and whether poison was consumed. `ldg` says that a wave's LDG loads: the
Zenith thread and other words neither hold a line nor raise a score (R157). -/
def State.gload (s : State) (wid : Nat) (w : Wave) (p : Page) (va key n : Nat) (ch : CacheHint) (ldg : Bool) :
    State × List Byte × Bool :=
  let line := lineOf key
  let s1 := (s.flushLine line).homePend wid (some line)
  let r := s1.lead line p.asid (va / 128 * 128) p.coh
  let s2 := r.1
  let st := s2.stageOf w
  let by_ := if ldg && !w.zen then some wid else none
  match r.2.coh.toNat with
  | 0 =>
    let s3 := (s2.share (some (.core w.core)) line).l1Use by_ w.core line r.2.asid r.2.va ch false
    (s3, overlay st key (s3.homeRead key n), s3.poisoned key)
  | 1 =>
    let s3 := s2.l1Use by_ w.core line r.2.asid r.2.va ch true
    match s2.l1Find w.core line with
    | some x => (s3, overlay st key ((List.range n).map fun i => x.bytes.getD (key % 128 + i) 0), s3.poisoned key)
    | none => (s3, overlay st key (s3.homeRead key n), s3.poisoned key)
  | _ => (s2, overlay st key (s2.homeRead key n), s2.poisoned key)

/-- What a store still has to bring home: bytes, and L1 lines. -/
abbrev Owed := List (Nat × Byte) × List (Nat × Nat)

/-- Whether a monitor entry, of a fibre or of a host watch, watches a line: every write to the line is then performed at the
home (R250, R254). -/
def State.watched (s : State) (line : Nat) : Bool :=
  (s.waves.any fun w => w.fibres.any fun f => match f.park with
    | some { why := .monitor m, .. } => m.entry && lineOf m.key == line
    | _ => false)
    || s.watches.any fun x => x.armed.any fun a => a.entry && lineOf a.key == line

/-- How far a store is carried as part of its own instruction: not at all; to its home where its page's caches would
hold it (a release at a wide scope, R215); or home on every page kind (a store that later accesses follow, R223, and
STG.clrpoison). -/
inductive Carry where
  | no | wide | all
  deriving DecidableEq, Repr

/-- A store of bytes by wave `wid`, within one line. -/
def State.gstore (s : State) (wid : Nat) (w : Wave) (p : Page) (va key : Nat) (bs : List Byte) (ch : CacheHint)
    (carry : Carry) : State × Owed :=
  let line := lineOf key
  let s1 := (s.flushLine line).homePend wid (some line)
  let r := s1.lead line p.asid (va / 128 * 128) p.coh
  let s2 := r.1.noteHost key
  let bytes := bs.mapIdx fun i b => (key + i, b)
  let owe := if carry == .all then (bytes.foldl (State.bringHome w.core) s2, ([], [])) else (s2, (bytes, []))
  match r.2.coh.toNat with
  | 0 =>
    let s3 := s2.l1Use none w.core line r.2.asid r.2.va ch false
    let s4 := if (s3.l1Find w.core line).isSome && !s3.watched line then s3.claim (.core w.core) key bs.length
      else s3.share none line
    ({ s4.homeWrite key bs with l1 := s4.l1.filter fun x => x.line != line || x.core == w.core }, ([], []))
  | 1 =>
    let s2 := s2.l1Use none w.core line r.2.asid r.2.va ch true
    if carry != .no then
      let s3 := s2.homeWrite key bs
      (match s3.l1Find w.core line with
        | some x => s3.l1Set { x with bytes := patch x.bytes (key % 128) bs,
                                      dirty := x.dirty.filter fun o => !(key % 128 ≤ o && o < key % 128 + bs.length) }
        | none => s3, ([], []))
    else
      match s2.l1Find w.core line with
      | some x => (s2.l1Set { x with bytes := patch x.bytes (key % 128) bs,
                                     dirty := (x.dirty ++ (List.range bs.length).map (key % 128 + ·)).eraseDups },
          ([], [(w.core, line)]))
      | none => owe
  | _ => owe

/-! ### Reads and writes of engines and outside agents, at the home -/

/-- Brings a line home from wherever it is cached modified, before an access at the home. -/
def State.settleLine (s : State) (line : Nat) : State := (s.flushLine line).share none line

/-- Before a write at the home of a line: cached copies of a tracked line are invalidated with it, and the device holds a
host line modified that it caches (R235). -/
def State.takeLine (s : State) (key : Nat) : State :=
  let s1 := s.settleLine (lineOf key)
  let s2 : State := { s1 with l1 := s1.l1.filter fun x => x.line != lineOf key || x.selfinv }
  s2.noteHost key

/-- A read at the home by an engine. -/
def State.engineRead (s : State) (key n : Nat) : State × List Byte × Bool :=
  let s1 := s.settleLine (lineOf key)
  (s1, s1.homeRead key n, s1.poisoned key)

/-- A write at the home by an engine. -/
def State.engineWrite (s : State) (key : Nat) (bs : List Byte) : State :=
  (s.settleLine (lineOf key)).homeWrite key bs

/-- Whether a page that holds a key is executable: nothing writes it (R36). -/
def State.codeAt (s : State) (key : Nat) : Bool :=
  s.pages.any fun p => p.x && decide (p.tgt.toNat ≤ key ∧ key < p.tgt.toNat + p.size)

/-- A write of the device itself at a physical key: none to a fixed block (R272) or to an executable page (R36); one to a
page that is Thawing waits until it is Owned (R276). -/
def State.deviceWrite (s : State) (key : Nat) (b : Byte) : State :=
  if decide (0 < s.frozenAt key) || s.codeAt key then s
  else if s.thawingAt key then { s with late := s.late ++ [(key, b)] }
  else s.engineWrite key [b]

/-- The same for bytes at rising keys. -/
def State.deviceWrites (s : State) (key : Nat) (bs : List Byte) : State :=
  (bs.zipIdx).foldl (fun s b => s.deviceWrite (key + b.2) b.1) s

/-- Writes that waited for a page to thaw take effect (R280). -/
def State.settleLate (s : State) : State :=
  if s.late = [] then s
  else
    let due := s.late.filter fun c => !s.thawingAt c.1
    due.foldl (fun s c => if decide (0 < s.frozenAt c.1) || s.codeAt c.1 then s else s.engineWrite c.1 [c.2])
      { s with late := s.late.filter fun c => s.thawingAt c.1 }

/-- Writes bytes by virtual address of a space, byte by byte, as far as pages map them. The record of a privileged task reaches a
page that lacks RD or W, or is otherwise not permitted, all the same: DESIGN CHOICE, log 54, since R264 names no condition. -/
def State.writeVa (s : State) (asid : Nat) (va : DWord) (bs : List Byte) : State :=
  (bs.zipIdx).foldl (fun s b => match s.findPage asid (va.toNat + b.2) with
    | some p => let key := p.key (va.toNat + b.2); (s.leadVia p (va.toNat + b.2) key).deviceWrite key b.1
    | none => s) s

/-- Keys of the mapped bytes of a range, with their pages. -/
def State.vaKeys (s : State) (asid : Nat) (va : DWord) (n : Nat) : List (Page × Nat × Nat) :=
  (List.range n).filterMap fun i => (s.findPage asid (va.toNat + i)).map fun p => (p, va.toNat + i, p.key (va.toNat + i))

/-- Brings the lines of a range home before the device reads it: shadows are flushed and their entries freed (R245). -/
def State.settleVa (s : State) (asid : Nat) (va : DWord) (n : Nat) : State :=
  (s.vaKeys asid va n).foldl (fun s x => (s.leadVia x.1 x.2.1 x.2.2).settleLine (lineOf x.2.2)) s

/-- Reads bytes by virtual address of a space; none where a byte is unmapped or not readable. -/
def State.readVa (s : State) (asid : Nat) (va : DWord) (n : Nat) : Option (List Byte) :=
  (List.range n).mapM fun i => match s.findPage asid (va.toNat + i) with
    | some p => if p.rd then some ((s.flushLine (lineOf (p.key (va.toNat + i)))).homeByte (p.key (va.toNat + i))) else none
    | none => none

/-- Leads the line of a physical key for a space, by its page that maps the key (R267). -/
def State.leadKey (s : State) (asid key : Nat) : State :=
  match s.pages.find? fun p => p.asid == asid && decide (p.tgt.toNat ≤ key ∧ key < p.tgt.toNat + p.size) with
  | some p => s.leadVia p (p.va + (key - p.tgt.toNat)) key
  | none => s

/-- Poison consumed by an instruction of a wave (R208, R317); by one whose wave has ended, in its grid's status. -/
def State.consume (s : State) (wid : Nat) : State :=
  match s.waves[wid]? with
  | none => s
  | some w =>
    if w.stat == .ended then match s.teamOf w with
      | some t => s.modGrid t.grid fun g => { g with psn := true, pcnt := min (g.pcnt + 1) (2 ^ 32 - 1) }
      | none => s
    else s.modWave wid fun w => { w with psn := true, pcnt := if w.pcnt = 0xFFFF then w.pcnt else w.pcnt + 1 }

/-- Wave instructions of a wave consume poison, each once (R317). -/
def State.drink (s : State) (wid : Nat) (names : List Nat) : State :=
  names.foldl (fun s n => (s.consume wid).modWave wid (Wave.drunk n)) s

end Sys2Proof.Machine
end

