-- ==== Sys2Proof/Machine/Pairs.lean ====
section
/-! DEFINITION. Step mailbox pairs and the order of the episodes: how actions are posted and answered
(15_orrery_cluster R351 to R353, R356, R360). -/

namespace Sys2Proof.Machine

/-! ### A pair (R352, R353) -/

/-- Unanswered actions U. -/
def StepPair.unanswered (p : StepPair) : Nat := (p.atail - p.ahead).toNat
/-- Status and step of an observation. -/
def Obs.status (o : Obs) : Nat := (o.bytes.getD 12 0).toNat
def Obs.step (o : Obs) : Nat := leNat (o.bytes.take 4)
/-- SD and M. -/
def StepPair.sd (p : StepPair) : Nat := (p.obs.filter fun o => o.status == 1).length
def StepPair.m (p : StepPair) : Nat := (p.obs.filter fun o => o.status != 1).length
/-- The action with a sequence. -/
def StepPair.action (p : StepPair) (seq : Nat) : List Byte := p.ring.getD (seq % 16) (List.replicate 64 0)
/-- The step and version of a record, as its first eight bytes. -/
def stepVersion (bs : List Byte) : List Byte := bs.take 8
/-- Unanswered actions, oldest first. -/
def StepPair.open_ (p : StepPair) : List (List Byte) :=
  (List.range p.unanswered).map fun i => p.action (p.ahead.toNat + i)

/-- An action record as STEPP completes it. -/
def actionBytes (bs : List Byte) (pair seq now : Nat) : List Byte :=
  bs.take 10 ++ leBytes 2 pair ++ leBytes 4 seq ++ leBytes 8 now ++ (bs.drop 24).take 40

/-- Posts an action. -/
def StepPair.post (p : StepPair) (bs : List Byte) (c : Carried) (now : Nat) : StepPair :=
  { p with ring := p.ring.set (p.atail.toNat % 16) (actionBytes bs p.num p.atail.toNat now)
           atail := p.atail + 1, weights := p.weights ++ [c] }

/-- A record that Disol makes for an action. -/
def madeRecord (act : List Byte) (pair ep status now : Nat) : List Byte :=
  act.take 8 ++ leBytes 2 0 ++ leBytes 2 pair ++ leBytes 1 status ++ leBytes 1 0 ++ leBytes 2 ep ++ leBytes 8 now
    ++ List.replicate 40 0

/-- The oldest unanswered action is answered by a record, which takes its weight. -/
def StepPair.answer (p : StepPair) (bs : List Byte) : StepPair :=
  { p with ahead := p.ahead + 1, obs := p.obs ++ [{ bytes := bs, weight := p.weights.head? }], weights := p.weights.drop 1 }

/-- Every unanswered action is answered by a record that Disol makes (R360). -/
def StepPair.answerAll (p : StepPair) (ep status now : Nat) : Nat → StepPair
  | 0 => p
  | n + 1 => (p.answer (madeRecord (p.action p.ahead.toNat) p.num ep status now)).answerAll ep status now n

/-- The status that an end cause gives the answers (R353, R360). -/
def endStatus (cause : Nat) : Nat := match cause with | 0 => 4 | 1 => 3 | _ => 2

def State.modPair (s : State) (n : Nat) (f : StepPair → StepPair) : State :=
  { s with pairs := s.pairs.map fun p => if p.num = n then f p else p }
def State.pairOf (s : State) (n : Nat) : Option StepPair := s.pairs.find? fun p => p.num == n
def State.episodeOf (s : State) (n : Nat) : Option Episode := s.episodes.find? fun e => e.num == n
def State.modEpisode (s : State) (n : Nat) (f : Episode → Episode) : State :=
  { s with episodes := s.episodes.map fun e => if e.num = n then f e else e }

/-- Fibres parked in STEPR on a pair run it again (R359). -/
def State.wakeSteps (s : State) (pair : Nat) : State :=
  { s with waves := s.waves.map fun w => { w with fibres := w.fibres.map fun f => match f.park with
      | some { why := .steps x, .. } => if x.pair = pair then { f with park := none } else f
      | _ => f } }

/-! ### Harts (R345, R349) -/

/-- A hart with every register 0. The CSRs are as the RISC-V specifications that R345 names leave them at reset: vill set in
vtype, the others 0 (PRESUMED, log 34). -/
def Hart.clear : Hart :=
  { pc := 0, x := List.replicate 32 0, f := List.replicate 32 0, v := List.replicate 32 0, fcsr := 0, vl := 0,
    vtype := 0x8000000000000000, vstart := 0, vcsr := 0 }
/-- Integer register n: x0 reads 0. -/
def Hart.get (h : Hart) (n : Nat) : DWord := if n = 0 then 0 else h.x.getD n 0
/-- Writes integer register n; a write of x0 is discarded. -/
def Hart.set (h : Hart) (n : Nat) (v : DWord) : Hart := if n = 0 then h else { h with x := h.x.set n v }
/-- A hart of the right shape, with x0 reading 0. -/
def Hart.ok (h : Hart) : Bool := h.x.length == 32 && h.f.length == 32 && h.v.length == 32 && h.x.headD 0 == 0

/-- Register numbers of sp, a0, a1 and a7. -/
def xSp : Nat := 2
def xA0 : Nat := 10
def xA1 : Nat := 11
def xA7 : Nat := 17

/-- What `misa` reports: 64-bit, with I, M, A, F, D, C and V and no other extension (R345; the places of the letters are
those of the RISC-V specifications that R345 names: log 34). -/
def misa : DWord := 0x8000000000000000 + 0x201000 + 0x100 + 0x20 + 0x8 + 0x4 + 0x1

/-- What the `time` CSR reads: chip time. -/
def State.timeCsr (s : State) : DWord := s.time

/-- What an episode reads from a CSR, by its RISC-V number; none where the read is illegal in user mode, as that of `misa`
is, which only the monitor reads (the numbers and that rule are those of the RISC-V specifications: PRESUMED, log 34). -/
def State.csrValue (s : State) (h : Hart) (n : Nat) : Option DWord :=
  match n with
  | 0x001 => some ((h.fcsr.extractLsb' 0 5).setWidth 64)
  | 0x002 => some ((h.fcsr.extractLsb' 5 3).setWidth 64)
  | 0x003 => some (h.fcsr.setWidth 64)
  | 0x008 => some h.vstart
  | 0x009 => some (h.vcsr &&& 1)
  | 0x00A => some ((h.vcsr >>> 1) &&& 3)
  | 0x00F => some h.vcsr
  | 0xC01 => some s.timeCsr
  | 0xC20 => some h.vl
  | 0xC21 => some h.vtype
  | 0xC22 => some 32
  | _ => none

/-- A hart after a write of a CSR, by its number; none where the write is illegal in user mode (as `State.csrValue`). Of vstart
a VLEN of 256 leaves 8 bits. -/
def Hart.csrSet (h : Hart) (n : Nat) (v : DWord) : Option Hart :=
  match n with
  | 0x001 => some { h with fcsr := (h.fcsr &&& 0xE0) ||| (lo32 v &&& 0x1F) }
  | 0x002 => some { h with fcsr := (h.fcsr &&& 0x1F) ||| ((lo32 v &&& 0x7) <<< 5) }
  | 0x003 => some { h with fcsr := lo32 v &&& 0xFF }
  | 0x008 => some { h with vstart := v &&& 0xFF }
  | 0x009 => some { h with vcsr := (h.vcsr &&& 0x6) ||| (v &&& 0x1) }
  | 0x00A => some { h with vcsr := (h.vcsr &&& 0x1) ||| ((v &&& 0x3) <<< 1) }
  | 0x00F => some { h with vcsr := v &&& 0x7 }
  | _ => none

/-- The result of a call of the monitor. -/
def Episode.setA0 (v : DWord) (e : Episode) : Episode := { e with hart := e.hart.set xA0 v }
/-- The hart goes on after an instruction of four bytes. -/
def Episode.skip (e : Episode) : Episode := { e with hart := { e.hart with pc := e.hart.pc + 4 } }

/-! ### The order of the episodes (R350, R351) -/

/-- Ready episodes take free cores, oldest first. -/
def State.fillCores (s : State) : Nat → State
  | 0 => s
  | n + 1 => match s.ready with
    | [] => s
    | e :: rest =>
      if (s.episodes.filter (·.onCore)).length < 128 then
        (({ s with ready := rest }).modEpisode e fun x => { x with onCore := true, ran := 0 }).fillCores n
      else s

/-- An episode becomes ready: one that waits neither in WAIT nor on a fault record. -/
def State.makeReady (s : State) (e : Nat) : State :=
  match s.episodeOf e with
  | some x =>
    if x.waiting.isNone && x.record.isNone then ({ s with ready := s.ready ++ [e] }).fillCores (s.ready.length + 1) else s
  | none => s

/-- An episode leaves its core or the ready order. -/
def State.leaveCore (s : State) (e : Nat) : State :=
  (({ s with ready := s.ready.filter (· != e) }).modEpisode e fun x => { x with onCore := false }).fillCores
    (s.ready.length + 1)

/-- The lowest slot of an episode with an action pending. -/
def State.pendingSlot (s : State) (e : Nat) : Option Nat :=
  (s.pairs.filter fun p => p.ep == e && p.atail != p.ahead).foldl (fun m p =>
    some (match m with | some x => min x p.slot | none => p.slot)) none

/-- An episode in WAIT with an action pending returns from it. -/
def State.wakeEpisode (s : State) (e : Nat) : State :=
  match s.episodeOf e with
  | some x =>
    if x.waiting.isSome then match s.pendingSlot e with
      | some slot => (s.modEpisode e fun x => ({ x with waiting := none } : Episode).setA0 (BitVec.ofNat 64 slot)).makeReady e
      | none => s
    else s
  | none => s

/-- Posts an action to a pair; an ended episode answers it at once, and a pair that is no longer bound returns its
weight (log 23). -/
def State.postAction (s : State) (pair : Nat) (bs : List Byte) (c : Carried) : State :=
  match s.pairOf pair with
  | none => s.weightHome c.phase c.amount
  | some p =>
    let s1 := s.modPair pair fun p => p.post bs c s.now
    match s.episodeOf p.ep with
    | some e =>
      if e.st == .ended then
        (s1.modPair pair fun p => p.answerAll e.num (endStatus e.cause) s.now p.unanswered).wakeSteps pair
      else s1.wakeEpisode p.ep
    | none => s1

end Sys2Proof.Machine
end

