-- ==== Sys2Proof/Machine/Atomic.lean ====
section
/-! DEFINITION. Operations at the home slice: atomics, narrow reductions, bounded buckets, and the Transit stage that
holds a deterministic team's effects (10_atomics_and_monitors R234 to R257; 12_determinism R287 to R296). -/

namespace Sys2Proof.Machine

/-! ### One atomic on one location (R239, R240) -/

/-- Bytes of the location of an operation. -/
def atomSize : AtomOp → Nat
  | .addD | .exchD | .casD => 8
  | .faddBf16 => 2
  | .faddB8p4 | .faddB8p5 => 1
  | _ => 4

/-- Rounding of home-slice arithmetic: RNE, no saturation, no flushing (R240). -/
def homeMode : FMode := { rm := .rne, sat := false, flush := false }

/-- FP32 x added to a stored narrow code, the exact sum rounded once to the storage format (R240). -/
def narrowAdd (op : AtomOp) (old x : Nat) : Nat :=
  let dec := match op with
    | .faddBf16 => IFmt.bf16.dec old
    | .faddB8p4 => b8p4Sx.dec old
    | _ => b8p5.dec old
  let v : FVal :=
    if dec.isNan || (IFmt.f32.dec x).isNan then .nan false
    else match addExact .rne dec (IFmt.f32.dec x) with
      | .invalid => .nan false
      | .inf n => .inf n
      | .fin n m e => .fin n m e
  match op with
  | .faddBf16 => match v with
    | .nan _ => IFmt.bf16.nanCode
    | .inf n => IFmt.bf16.signed n IFmt.bf16.infCode
    | .fin n m e => (IFmt.bf16.deliver .rne false false n m e).1
  | .faddB8p4 => (b8p4Sx.ofVal .rne false v).1
  | _ => (b8p5.ofVal .rne false v).1

/-- new(old, x, e) of R239, as numbers of the location's width. -/
def atomNew (op : AtomOp) (old : Nat) (x e : DWord) : Nat :=
  let o := BitVec.ofNat 32 old
  let y := lo32 x
  match op with
  | .add => (o + y).toNat
  | .sub => (o - y).toNat
  | .minS => (iminVal o y).toNat
  | .maxS => (imaxVal o y).toNat
  | .minU => (uminVal o y).toNat
  | .maxU => (umaxVal o y).toNat
  | .and => (o &&& y).toNat
  | .or => (o ||| y).toNat
  | .xor => (o ^^^ y).toNat
  | .exch => y.toNat
  | .cas => if o = lo32 e then y.toNat else old
  | .incw => if y.ule o then 0 else (o + 1).toNat
  | .decw => if o = 0 ∨ y.ult o then y.toNat else (o - 1).toNat
  | .addD => (BitVec.ofNat 64 old + x).toNat
  | .exchD => x.toNat
  | .casD => if BitVec.ofNat 64 old = e then x.toNat else old
  | .faddF32 => (fpAdd .f32 homeMode false old y.toNat).1
  | .fminF32 => (fpMinMax .f32 false false false old y.toNat).1
  | .fmaxF32 => (fpMinMax .f32 false true false old y.toNat).1
  | .faddBf16 | .faddB8p4 | .faddB8p5 => narrowAdd op old y.toNat

/-- An atomic at the home: read, compute, write as one step (R234). Answers the old value. -/
def State.atomHome (s : State) (key : Nat) (op : AtomOp) (x e : DWord) : State × Nat :=
  let s1 := s.takeLine key
  let old := leNat (s1.homeRead key (atomSize op))
  (s1.homeWrite key (leBytes (atomSize op) (atomNew op old x e)), old)

/-- Whether a reduction accumulates in a shadow (R244). -/
def isNarrow : AtomOp → Bool
  | .faddBf16 | .faddB8p4 | .faddB8p5 => true
  | _ => false

/-- A line of a slice whose 4,096 shadow entries are all in use takes one: the entry of the slice that was used least
recently is flushed (R244). Entries are listed by their last use, oldest first. -/
def State.shadowRoom (s : State) (line : Nat) : State :=
  if s.shadows.length < 4096 then s
  else
    let mine := s.shadows.filter fun y => Config.homeSlice y.line == Config.homeSlice line
    match mine with
    | [] => s
    | y :: _ => if 4096 ≤ mine.length then s.flushLine y.line else s

/-- As `takeLine`, for an operation that leaves the line's shadow entry as it is. -/
def State.takeShadowed (s : State) (key : Nat) : State :=
  { (({ s with shadows := [] } : State).takeLine key) with shadows := s.shadows }

/-- A narrow REDM outside DET: the element's FP32 shadow takes x (R244). -/
def State.redmShadow (s : State) (key : Nat) (op : AtomOp) (x : DWord) : State :=
  let line := lineOf key
  let idx := key % 128 / narrowSize op
  let s1 := match s.shadows.find? (fun y => y.line == line) with
    | some y => if y.op = op then s else s.flushLine line
    | none => s
  let s2 := s1.takeShadowed key
  let stored := widenCode op (leNat (s2.homeRead key (narrowSize op)))
  let sum := fun (c : Nat) => BitVec.ofNat 32 (fpAdd .f32 homeMode false c (lo32 x).toNat).1
  match s2.shadows.find? (fun y => y.line == line) with
  | none =>
    let s3 := s2.shadowRoom line
    { s3 with shadows := s3.shadows ++
        [{ line := line, op := op, elts := [{ idx := idx, val := sum stored, touched := true }] }] }
  | some y =>
    let elts := match y.elts.find? (fun e => e.idx == idx) with
      | none => y.elts ++ [{ idx := idx, val := sum stored, touched := true }]
      | some _ => y.elts.map fun e => if e.idx = idx then { e with val := sum e.val.toNat, touched := true } else e
    { s2 with shadows := s2.shadows.filter (fun z => z.line != line) ++ [{ y with elts := elts }] }

/-- A REDM at the home (R241, R246). -/
def State.redmHome (s : State) (det : Bool) (key : Nat) (op : AtomOp) (x : DWord) : State :=
  if isNarrow op && !det then s.redmShadow key op x else (s.atomHome key op x 0).1

/-! ### Bounded buckets (R255 to R257) -/

/-- A bucket's descriptor. -/
structure Bucket where
  cap : Nat
  dcap : Nat
  ent : DWord
  drp : DWord
  count : Nat
  dropped : Nat
  st : Word
  late : Word
  rest : Bool
  deriving DecidableEq, Repr

def readBucket (bs : List Byte) : Bucket :=
  let n := fun (o k : Nat) => leNat ((bs.drop o).take k)
  { cap := n 0 4, dcap := n 4 4, ent := BitVec.ofNat 64 (n 8 8), drp := BitVec.ofNat 64 (n 16 8), count := n 24 4,
    dropped := n 28 4, st := BitVec.ofNat 32 (n 32 4), late := BitVec.ofNat 32 (n 36 4), rest := n 40 24 != 0 }

/-- The bytes of the fields from count to late. -/
def bucketTail (b : Bucket) : List Byte :=
  leBytes 4 b.count ++ leBytes 4 b.dropped ++ leBytes 4 b.st.toNat ++ leBytes 4 b.late.toNat

/-- What becomes of an access to a bucket's array: its keys, nothing for an access that can never succeed, a wait for a
page to thaw, or a fault that a record may resolve (R256). -/
inductive ArrayTry where
  | keys (ks : List Nat)
  | lost
  | wait
  | far (va : DWord)
  | fault (va : DWord) (k : FaultKind) (page : Nat) (sz : BitVec 2) (key : Nat)
  deriving DecidableEq, Repr

/-- How a fault on a bucket's array ends that no replay mends: a SCATF traps, as an atomic does (R257, R271, R282); the
other operations lose the access (R256), at once where no record can be opened, or, `lost`, once one has been delivered. -/
inductive ArrayMode where
  | traps | loses | lost
  deriving DecidableEq, Repr

/-- The array of n words at `base`. -/
def State.arrayTry (s : State) (asid : Nat) (priv : Bool) (mode : ArrayMode) (base : DWord) (n : Nat) : ArrayTry :=
  (List.range n).foldr (fun i (acc : ArrayTry) =>
    let va := base + BitVec.ofNat 64 (4 * i)
    match s.translate asid priv true needStore va with
    | .ok _ key => match acc with | .keys ks => .keys (key :: ks) | x => x
    | .fault k page sz key =>
      if mode != .traps && (mode == .lost || ((s.spaces.find? fun x => x.asid == asid).bind (·.mbx)).isNone) then .lost
      else .fault va k page sz key
    | .wait => if acc = .lost then .lost else .wait
    | .far => if mode = .traps then .far va else .lost
    | .hole _ => .lost) (.keys [])

/-- The words of an array of a space are fetched by the accessor: `own` brings home what it still holds of a line itself
(R218), each line gets its leader (R267), and modified copies and shadows come home (R245). -/
def State.fetchWords (s : State) (own : State → Nat → State) (asid : Nat) (base : DWord) (keys : List Nat) : State :=
  keys.zipIdx.foldl (fun s k =>
    let va := (base + BitVec.ofNat 64 (4 * k.2)).toNat
    match s.findPage asid va with
    | some p => (own (s.leadVia p va k.1) (lineOf k.1)).settleLine (lineOf k.1)
    | none => s) s

/-- The words of an array that has been fetched. -/
def State.readWords (s : State) (keys : List Nat) : List Nat := keys.map fun k => leNat (s.homeRead k 4)
/-- Writes words of an array that has been fetched, at their homes. -/
def State.writeWords (s : State) (kvs : List (Nat × Nat)) : State :=
  kvs.foldl (fun s kv => (s.takeLine kv.1).homeWrite kv.1 (leBytes 4 kv.2)) s

/-- Inserts x at a position of a list. -/
def insertAt (l : List Nat) (i x : Nat) : List Nat := l.take i ++ x :: l.drop i
/-- The greatest element. -/
def greatest (l : List Nat) : Nat := l.foldl max 0
/-- Sorts numbers ascending. -/
def sortNat (l : List Nat) : List Nat :=
  l.foldl (fun acc x => (acc.takeWhile (· ≤ x)) ++ x :: acc.dropWhile (· ≤ x)) []

/-- What becomes of an operation on a bucket: done, with the count and whether it read a poisoned line; a wait; or a
fault. -/
inductive BucketTry where
  | done (s : State) (count : Nat) (psn : Bool)
  | wait
  | far (va : DWord)
  | fault (va : DWord) (k : FaultKind) (page : Nat) (sz : BitVec 2) (key : Nat)
  deriving DecidableEq, Repr

/-- Writes the changing fields of a descriptor. -/
def State.putBucket (s : State) (key : Nat) (b : Bucket) : State := s.homeWrite (key + 24) (bucketTail b)

/-- Whether one of the lines of some keys is poisoned. -/
def State.anyPoison (s : State) (keys : List Nat) : Bool := keys.any s.poisoned

/-- The place of an index in a list of n entries of the bucket at `key`, whose order the spec leaves open (R256): a free value,
and in a deterministic launch the same on every run (R285). -/
def State.placeOf (s : State) (det : Bool) (key n i : Nat) : State × Nat :=
  if det then (s, Config.detPlace key n i) else let r := s.draw; (r.1, Config.freeNat r.2)

/-- Drops index i from the bucket at `key`: dropped rises, and the drop list keeps the dcap lowest (R256). Its order before
the bucket is final is open: the place is a free value. `pre` are the keys that the operation has read already. -/
def State.dropTry (s : State) (own : State → Nat → State) (asid : Nat) (priv det : Bool) (mode : ArrayMode) (key : Nat)
    (b : Bucket) (i : Nat) (pre : List Nat) : BucketTry :=
  let held := min b.dcap b.dropped
  let b1 := { b with dropped := b.dropped + 1 }
  match s.arrayTry asid priv mode b.drp (min b.dcap (held + 1)) with
  | .lost => .done (s.putBucket key { b1 with st := b.st ||| 2 }) b.count (s.anyPoison pre)
  | .wait => .wait
  | .far va => .far va
  | .fault va k page sz key => .fault va k page sz key
  | .keys keys =>
    let s1 := s.fetchWords own asid b.drp keys
    let old := s1.readWords (keys.take held)
    let r := s1.placeOf det key held i
    let place := fun (l : List Nat) => insertAt l (r.2 % (l.length + 1)) i
    let new := if held < b.dcap then place old
      else if i < greatest old then place (old.erase (greatest old)) else old
    .done ((r.1.writeWords (keys.zip new)).putBucket key b1) b.count (s.anyPoison (pre ++ keys.take held))

/-- SCATB of index i at a descriptor (R256): the arrays are judged only where the append reaches them. An append touches
every entry that the bucket holds, since its place among them is open: DESIGN CHOICE, log 54. `own` is as in
`State.fetchWords`. -/
def State.scatbTry (s : State) (own : State → Nat → State) (asid : Nat) (priv det : Bool) (mode : ArrayMode) (key i : Nat) : BucketTry :=
  let s1 := s.takeLine key
  let b := readBucket (s1.homeRead key 64)
  if b.st.getLsbD 0 then .done (s1.putBucket key { b with late := b.late + 1 }) b.count (s1.poisoned key)
  else if b.cap = 0 ∨ b.rest ∨ b.st.toNat / 4 ≠ 0 then
    .done (s1.putBucket key { b with st := b.st ||| 2, dropped := b.dropped + 1 }) b.count (s1.poisoned key)
  else
    match s1.arrayTry asid priv mode b.ent (min b.cap (b.count + 1)) with
    | .lost => s1.dropTry own asid priv det mode key { b with st := b.st ||| 2 } i [key]
    | .wait => .wait
    | .far va => .far va
    | .fault va k page sz key => .fault va k page sz key
    | .keys keys =>
      let s2 := s1.fetchWords own asid b.ent keys
      let old := s2.readWords (keys.take b.count)
      let pre := key :: keys.take b.count
      let r := s2.placeOf det key b.count i
      let place := fun (l : List Nat) => insertAt l (r.2 % (l.length + 1)) i
      if b.count < b.cap then
        .done ((r.1.writeWords (keys.zip (place old))).putBucket key { b with count := b.count + 1 }) (b.count + 1)
          (s2.anyPoison pre)
      else
        let h := greatest old
        if i < h then
          match r.1.dropTry own asid priv det mode key b h pre with
          | .done s3 n p => .done (s3.writeWords (keys.zip (place (old.erase h)))) n p
          | x => x
        else s2.dropTry own asid priv det mode key b i pre

/-- Makes a bucket final: entries and drop list sorted ascending, FINAL set (R257). -/
def State.finalTry (s : State) (own : State → Nat → State) (asid : Nat) (priv : Bool) (mode : ArrayMode) (key : Nat) : BucketTry :=
  let s1 := s.takeLine key
  let b := readBucket (s1.homeRead key 64)
  if b.st.getLsbD 0 then .done s1 b.count (s1.poisoned key)
  else
    match s1.arrayTry asid priv mode b.ent b.count, s1.arrayTry asid priv mode b.drp (min b.dcap b.dropped) with
    | .fault va k page sz key, _ | _, .fault va k page sz key => .fault va k page sz key
    | .far va, _ | _, .far va => .far va
    | .wait, _ | _, .wait => .wait
    | e, d =>
      let ks := fun (a : ArrayTry) => match a with | .keys l => l | _ => []
      let sortArr := fun (s : State) (l : List Nat) => s.writeWords (l.zip (sortNat (s.readWords l)))
      let s2 := (s1.fetchWords own asid b.ent (ks e)).fetchWords own asid b.drp (ks d)
      .done ((sortArr (sortArr s2 (ks e)) (ks d)).putBucket key
          { b with st := b.st ||| 1 ||| (if e = .lost ∨ d = .lost then 2 else 0) })
        b.count (s2.anyPoison (key :: ks e ++ ks d))

/-- Notes that a phase has used a bucket (R257). -/
def State.noteBucket (s : State) (phase asid : Nat) (priv : Bool) (key : Nat) : State :=
  s.modPhase phase fun p =>
    if p.buckets.any fun b => b.asid == asid && b.key == key then
      { p with buckets := p.buckets.map fun b =>
          if b.asid = asid ∧ b.key = key then { b with priv := b.priv || priv } else b }
    else { p with buckets := p.buckets ++ [{ asid := asid, key := key, priv := priv, lost := false }] }

/-! ### The Transit stage (R289 to R293) -/

/-- Cores of a team. -/
def Team.cores (t : Team) : List Nat := if t.pair then [t.core, t.core + 1] else [t.core]

/-- Poison that a staged effect consumes, once for the wave instruction `id` that it comes from (R317). -/
def State.consumeFor (s : State) (wave : Option Nat) (id : Nat) (on : Bool) : State :=
  match wave with
  | some w => if on then s.drink w [id] else s
  | none => s

/-- A staged effect of the same instruction as one that has consumed poison. -/
def Staged.mute (n : Nat) : Staged → Staged
  | .redm k o x w id => .redm k o x (if id = n then none else w) id
  | .scatb a k b w id l => .scatb a k b (if id = n then none else w) id l
  | e => e

/-- Drops a line's self-invalidating copies on a team's cores before an operation at its home. -/
def State.dropCopies (s : State) (cores : List Nat) (line : Nat) : State := cores.foldl (fun s c => s.dropCopy c line) s

/-- Opens a record for a fault that a team's release meets, and waits on it; without a fault mailbox none can come here. -/
def State.drainFault (s : State) (tid : Nat) (t : Team) (asid : Nat) (va : DWord) (k : FaultKind) (page : Nat)
    (sz : BitVec 2) (key : Nat) : State :=
  match s.raiseFault (dieOf t.core) .atomic asid va k page sz key with
  | (s1, .parked h) => s1.modTeam tid fun x => { x with drain := some h }
  | _ => s

/-- A staged effect is on a block of a page that is Thawing, and waits until that is Owned (R276). -/
def State.stagedWaits (s : State) (e : Staged) : Bool :=
  match e with
  | .store key _ | .redm key _ _ _ _ | .scatb _ key _ _ _ _ => s.frozenAt key == 0 && s.thawingAt key
  | _ => false

/-- Applies one staged effect at its home, in the team's order; none where it has to wait. A write whose block has become
fixed is discarded, and the grid's status reports FIXLOST (R293). The answer names an instruction that has consumed poison. -/
def State.applyStaged (s : State) (tid : Nat) (t : Team) (g : Grid) (e : Staged) : State × Bool × Option Nat :=
  let lost := fun (s : State) => (s.modGrid t.grid fun g => { g with fixlost := true }, true, none)
  if s.stagedWaits e then (s, false, none)
  else match e with
  | .store key bs =>
    if 0 < s.frozenAt key then lost s
    else
      let s1 := ((s.leadKey g.asid key).takeLine key).homeWrite key bs
      (t.cores.foldl (fun s c => (bs.mapIdx fun i b => (key + i, b)).foldl (State.patchCopy c) s) s1, true, none)
  | .redm key op x w id =>
    if 0 < s.frozenAt key then lost s
    else
      let s1 := ((s.leadKey g.asid key).dropCopies t.cores (lineOf key)).redmHome true key op x
      (s1.consumeFor w id (s1.poisoned key), true, if s1.poisoned key then some id else none)
  | .scatb asid key b w id gone =>
    if 0 < s.frozenAt key then lost s
    else match ((s.leadKey asid key).dropCopies t.cores (lineOf key)).scatbTry (·.dropCopies t.cores) asid g.priv true (if gone then .lost else .loses) key
        b.toNat with
      | .done s1 _ p => ((s1.consumeFor w id p).noteBucket g.phase asid g.priv key, true, if p then some id else none)
      | .wait | .far _ => (s, false, none)
      | .fault va k page sz key => (s.drainFault tid t asid va k page sz key, false, none)
  | .message f => ({ s with flights := s.flights ++ [f] }, true, none)
  | .action p bs c => (s.postAction p bs c, true, none)
  | .home w => (s.weightHome g.phase w, true, none)
  | .clear line =>
    (if 0 < s.frozenAt (line * 128) then s else { s with poison := s.poison.filter (· != line) }, true, none)

/-- Applies staged effects one after another, up to one that has to wait. -/
def State.drainList (s : State) (tid : Nat) (t : Team) (g : Grid) : Nat → List Staged → State
  | 0, es => s.modTeam tid fun x => { x with stage := es ++ x.stage }
  | _, [] => s
  | n + 1, e :: es => match s.applyStaged tid t g e with
    | (s1, true, some id) => s1.drainList tid t g n (es.map (Staged.mute id))
    | (s1, true, none) => s1.drainList tid t g n es
    | (s1, false, _) => s1.modTeam tid fun x => { x with stage := e :: es ++ x.stage }

/-- Releases the contents of a team's stage (R290), unless its release waits on a fault record. -/
def State.drainStage (s : State) (tid : Nat) : State :=
  match s.teams[tid]? with
  | none => s
  | some t => match s.grids[t.grid]? with
    | none => s
    | some g =>
      if t.stage.isEmpty || t.drain.isSome then s
      else (s.modTeam tid fun x => { x with stage := [] }).drainList tid t g t.stage.length t.stage

/-- Puts an effect into a team's stage; none when an entry is needed and none of the 2,048 is free (R287, R291). -/
def State.stageIn (s : State) (tid : Nat) (e : Staged) : Option State :=
  match s.teams[tid]? with
  | none => none
  | some t =>
    if 2048 < stageUsed (t.stage ++ [e]) then none
    else some (s.modTeam tid fun x => { x with stage := x.stage ++ [e] })

/-! ### Who may go: the turn and the Meridian token (R288, R289, R295, R296) -/

/-- Whether the token is at a wave of a DET team; the Zenith thread is no member. -/
def State.tokenHere (s : State) (w : Wave) (g : Grid) : Bool :=
  !g.det || w.zen || w.held || (match s.teams[w.team]? with | some t => s.tokenAt t == w.idx | none => true)

/-- The token passes on when a member's global atomic retires, unless the wave keeps it by TOKW. -/
def State.tokenUsed (s : State) (w : Wave) (g : Grid) : State :=
  if g.det && !w.zen && !w.held then s.passToken w.team w.idx else s

/-- The holder of the turn drains its stage before an effect of its own; any other team is told to stage, and so is a
holder whose release has to wait (R289). -/
def State.turnReady (s : State) (w : Wave) (g : Grid) : State × Bool :=
  if !g.det then (s, true)
  else if s.staging w.team then (s, false)
  else
    let s1 := s.drainStage w.team
    (s1, match s1.teams[w.team]? with | some t => t.stage.isEmpty | none => true)

end Sys2Proof.Machine
end

