-- ==== Sys2Proof/Machine/Control.lean ====
section
/-! DEFINITION. Control: branches, calls, FORK and FEND, rejoin masks, loops, decision queues, barriers
(02_issue_and_fibres R66 to R82). -/

namespace Sys2Proof.Machine

/-- What follows a bundle on the next state, if there is one. -/
def andThen (o : Out) (f : State → State) : Out :=
  match o with
  | .next s => .next (f s)
  | .fault e => .fault e
  | .refused r => .refused r

/-! ### Branches, calls and returns (R67 to R69) -/

/-- A taken transfer to t. -/
def takeTo (src t : Pc) (f : Fibre) : LaneEnd := .jump (f.leaveLoops src t) t

def execBra (g : Guard) (off : BitVec 22) (s : State) : Out :=
  runLanes (.bra g off) g (fun _ f => takeTo s.lastPc (s.lastPc + off.signExtend 24) f) s

def execJmpi (g : Guard) (a : Reg) (s : State) : Out :=
  runLanes (.jmpi g a) g (fun z f => takeTo s.lastPc ((f.get z a.toNat).extractLsb' 0 24) f) s

/-- CALL and CALLI of one fibre from word `src` to t (R68). -/
def callFibre (i : Instr) (w : Wave) (src t : Pc) (sh : BitVec 6) (f : Fibre) : LaneEnd :=
  let nb := if w.zen then (f.base + sh.toNat) % 64 else f.base + sh.toNat
  if src = 0xFFFFFF#24 then .trap f (trapWith 0x01 (encode i))
  else if !w.zen && decide (w.allot ≤ nb + 63) then .trap f (trapWith 0x01 (encode i))
  else
    let link : Word := (src + 1) ++ sh ++ (0#2)
    .jump (({ f with base := nb } : Fibre).setZ w.zen 63 link) t

def execCall (g : Guard) (sh : BitVec 6) (off : BitVec 16) (s : State) : Out :=
  runPath (.call g sh off) g (fun s w _ _ =>
    .go s fun _ f => callFibre (.call g sh off) w s.lastPc (s.lastPc + off.signExtend 24) sh f) s

def execCalli (g : Guard) (a : Reg) (sh : BitVec 6) (s : State) : Out :=
  runPath (.calli g a sh) g (fun s w _ _ =>
    .go s fun _ f =>
      callFibre (.calli g a sh) w s.lastPc ((f.get w.zen a.toNat).extractLsb' 0 24) sh f) s

/-- RET of one fibre (R69). -/
def retFibre (i : Instr) (z : Bool) (src : Pc) (f : Fibre) : LaneEnd :=
  let link := f.get z 63
  let t : Pc := link.extractLsb' 8 24
  let sh := (link.extractLsb' 2 6 : BitVec 6).toNat
  if t = 0 then .fin f
  else if z then
    let f1 := f.leaveLoops src t
    .jump { f1 with base := (f1.base + 64 - sh) % 64 } t
  else if f.base < sh then .trap f (trapWith 0x01 (encode i))
  else
    let f1 := f.leaveLoops src t
    .jump { f1 with base := f1.base - sh } t

def execRet (g : Guard) (s : State) : Out :=
  andThen (runLanes (.ret g) g (fun z f => retFibre (.ret g) z s.lastPc f) s) (·.breakDeadlock s.cur.wave)

/-! ### FORK and FEND (R70, R71) -/

/-- The lowest lane slot of a wave that holds no fibre, and no request in flight of one that has ended (R236). -/
def Wave.freeSlot (w : Wave) : Option Nat := w.fibres.findIdx? (fun f => !f.live && f.park.isNone)

/-- The marker of a physical register (R106). -/
def marker (k : Nat) : Word := 0x7F800100#32 + BitVec.ofNat 32 k

/-- The fibre that a FORK starts in a slot whose last fibre is `old` (R70). -/
def childOf (g : Grid) (old : Fibre) (pc : Pc) (v0 : Word) (weight : Nat) : Fibre :=
  let regs := if g.checkreg then (List.range old.regs.length).map marker else old.regs
  let regs := regs.set 0 v0
  let regs := if 64 ≤ g.allot then regs.set 63 0 else regs
  { Fibre.empty with live := true, pc := pc, regs := regs, weight := weight }

/-- What a FORK writes in the slot of its child (R70): the stored state, v0, and v63 or, with CHECKREG, every register. -/
def childPlaces (g : Grid) (wid slot : Nat) : List BadPlace :=
  .fibre wid slot :: (if g.checkreg then List.range g.allot else 0 :: if 64 ≤ g.allot then [63] else []).map
    fun k => .lane wid slot k

/-- FORK of the fibre in lane l: the state, and the slot it gets. -/
def forkLane (g : Grid) (wid : Nat) (a : Reg) (t : Pc) (s : State) (l : Nat) : State × Option Nat :=
  match s.waves[wid]? with
  | none => (s, none)
  | some w => match w.freeSlot, w.fibres[l]? with
    | some slot, some f =>
      let (rest, child, fill) := splitWeight f.weight
      let n := childOf g (w.fibres.getD slot Fibre.empty) t (f.get false a.toNat) child
      ((s.setWave wid { w with fibres := (w.fibres.set slot n).set l { f with weight := rest } }).refill g.phase fill,
        some slot)
    | _, _ => (s, none)

/-- FORK of the executing lanes in lane order: the state, and the slot of each lane. -/
def forkLanes (g : Grid) (wid : Nat) (a : Reg) (t : Pc) : State → List Nat → State × List (Nat × Option Nat)
  | s, [] => (s, [])
  | s, l :: ls =>
    let (s1, r) := forkLane g wid a t s l
    let (s2, rs) := forkLanes g wid a t s1 ls
    (s2, (l, r) :: rs)

def execFork (g : Guard) (d a : Reg) (imm : BitVec 10) (s : State) : Out :=
  runPath (.fork g d a imm) g (fun s _ gr ls =>
    let t : Pc := s.lastPc + (s.imm10 imm).extractLsb' 0 24
    let (s2, rs) := forkLanes gr s.cur.wave a t s ls
    .go (s2.cure (rs.flatMap fun r => match r.2 with | some k => childPlaces gr s.cur.wave k | none => [])) fun l f =>
      .done (f.set false d.toNat (match rs.lookup l with
        | some (some k) => BitVec.ofNat 32 k
        | _ => 0xFFFFFFFF#32)) 0) s

def execFend (g : Guard) (s : State) : Out :=
  andThen (runLanes (.fend g) g (fun _ f => .fin f) s) (·.breakDeadlock s.cur.wave)

/-! ### Rejoin masks (R72, R73) -/

/-- Replaces rejoin mask j. -/
def Wave.setMask (w : Wave) (j : Nat) (m : BitVec 64) : Wave := { w with masks := w.masks.set j m }

/-- The mask of a list of lanes. -/
def lanesMask (ls : List Nat) : BitVec 64 := ls.foldl (fun m l => m ||| (1#64 <<< l)) 0

def execJoin (g : Guard) (j : BitVec 4) (s : State) : Out :=
  runPath (.join g j) g (fun s w _ ls =>
    .go (s.setWave s.cur.wave (w.setMask j.toNat (w.masks.getD j.toNat 0 ||| lanesMask ls)))
      fun _ f => .done f 0) s

/-- Whether mask j is satisfied once the fibres of `ls` wait on it too (R72). -/
def Wave.maskMetWith (w : Wave) (j : BitVec 4) (ls : List Nat) : Bool :=
  (w.fibres.zipIdx).all fun p =>
    !(w.masks.getD j.toNat 0).getLsbD p.2 || ls.contains p.2 || parkedOnMask j.toNat p.1

/-- WAITJ: a mask that it completes releases its parked fibres, and the executing ones go on; else they park, and the
wave may be deadlocked (R72, R73). -/
def execWaitj (g : Guard) (j : BitVec 4) (s : State) : Out :=
  andThen (runPath (.waitj g j) g (fun s w _ ls =>
    if w.maskMetWith j ls then .go (s.setWave s.cur.wave (w.releaseMask j.toNat)) fun _ f => .done f 0
    else .go s fun _ f => .park f (.mask j)) s) (·.breakDeadlock s.cur.wave)

def execJclr (g : Guard) (j : BitVec 4) (s : State) : Out :=
  runPath (.jclr g j) g (fun s w _ _ =>
    .go (s.setWave s.cur.wave (w.setMask j.toNat 0).settleMasks) fun _ f => .done f 0) s

/-! ### Loops (R74) -/

/-- LOOP of one fibre: counter n, body [st, e], count c. An active loop on the counter ends even at a count of 0
(R75). -/
def loopFibre (n : BitVec 2) (st e : Pc) (c : Word) (f : Fibre) : LaneEnd :=
  let rest := f.loops.filter fun r => r.n != n
  if c = 0 then .jump { f with loops := rest } (e + 1)
  else .jump { f with lc := f.lc.set n.toNat c, loops := { n := n, s := st, e := e } :: rest } st

def execLoop (g : Guard) (c : BitVec 2) (a : Reg) (imm : BitVec 10) (s : State) : Out :=
  runLanes (.loop g c a imm) g
    (fun z f => loopFibre c s.nextPc (s.lastPc + imm.setWidth 24) (f.get z a.toNat) f) s

/-! ### Decision queues (R76 to R78) -/

/-- Whether the team's Zenith thread still runs. -/
def State.zenLive (s : State) (t : Team) : Bool :=
  match t.zen with
  | none => false
  | some z => match (s.waves[z]?).bind (fun w => w.fibres[0]?) with
    | some f => f.live
    | none => false

/-- Pops one decision for the path: wait on an empty queue, trap 0x01 once no Zenith thread can push (R78). -/
def popDecision (i : Instr) (s : State) (w : Wave) (k : State → Word → PathRes) : PathRes :=
  match w.decisions with
  | x :: rest => k (s.setWave s.cur.wave { w with decisions := rest }) x
  | [] => match s.teamOf w with
    | some t => if s.zenLive t then .stall true else .go s fun _ f => .trap f (trapWith 0x01 (encode i))
    | none => .stall true

def execUbr (g : Guard) (imm : BitVec 10) (s : State) : Out :=
  runPath (.ubr g imm) g (fun s w _ _ => popDecision (.ubr g imm) s w fun s1 x =>
    .go s1 fun _ f =>
      if x = 0 then .done f 0 else takeTo s.lastPc (s.lastPc + (s.imm10 imm).extractLsb' 0 24) f) s

def execPopd (g : Guard) (d : Reg) (s : State) : Out :=
  runPath (.popd g d) g (fun s w _ _ => popDecision (.popd g d) s w fun s1 x =>
    .go s1 fun _ f => .done (f.set w.zen d.toNat x) 0) s

/-- The live wave of a team with an index. -/
def State.liveWave (s : State) (t : Team) (idx : Nat) : Option Nat :=
  match t.waves[idx]? with
  | some w => match s.waves[w]? with
    | some x => if x.stat == .ended then none else some w
    | none => none
  | none => none

/-- DPUSH waits while the queue is full, and answers −1 when a names no live wave (R77). -/
def execDpush (g : Guard) (d a b : Reg) (s : State) : Out :=
  runPath (.dpush g d a b) g (fun s w _ ls =>
    let f0 := lowFibre w ls
    match (s.teamOf w).bind (fun t => s.liveWave t (f0.getPair w.zen a.toNat).toNat) with
    | none => .go s fun _ f => .done (f.set w.zen d.toNat 0xFFFFFFFF#32) 0
    | some wid => match s.waves[wid]? with
      | none => .go s fun _ f => .done (f.set w.zen d.toNat 0xFFFFFFFF#32) 0
      | some x =>
        if 32 ≤ x.decisions.length then .stall false
        else
          .go (s.setWave wid { x with decisions := x.decisions ++ [f0.get w.zen b.toNat] })
            fun _ f => .done (f.set w.zen d.toNat (BitVec.ofNat 32 (x.decisions.length + 1))) 0) s

def execDcnt (g : Guard) (d a : Reg) (s : State) : Out :=
  runPath (.dcnt g d a) g (fun s w _ ls =>
    let n : Word :=
      if w.zen then
        match (s.teamOf w).bind (fun t => s.liveWave t ((lowFibre w ls).getPair w.zen a.toNat).toNat) with
        | some wid => match s.waves[wid]? with
          | some x => BitVec.ofNat 32 x.decisions.length
          | none => 0xFFFFFFFF#32
        | none => 0xFFFFFFFF#32
      else BitVec.ofNat 32 w.decisions.length
    .go s fun _ f => .done (f.set w.zen d.toNat n) 0) s

/-! ### Barriers (R80 to R82) -/

/-- Generation that is open at barrier b of the wave's team. -/
def State.barGen (s : State) (w : Wave) (b : Nat) : Nat :=
  match s.teamOf w with
  | some t => match t.bars[b]? with | some x => x.gen | none => 0
  | none => 0

/-- BARA of a wave: it drops a held token (R296), and arrives unless it has arrived in the current generation. The
arrival is a team-scope release (R82): the wave's stores come home, and a pair team's core writes through. -/
def State.barArrive (s : State) (wid b : Nat) : State :=
  let s0 := s.dropToken wid
  match s0.waves[wid]? with
  | none => s0
  | some w =>
    let gen := s0.barGen w b
    if w.arrived.getD b none = some gen then s0
    else
      let s1 := s0.releaseAct wid w.core (match s0.teamOf w with | some t => t.pair | none => false)
      (s1.modWave wid fun w => { w with arrived := w.arrived.set b (some gen) }).arrive w.team b

/-- Generations of a team's barriers. -/
def Team.gens (t : Team) : List Nat := t.bars.map (·.gen)

/-- A generation completed in team `tid` since state `before`: on a core pair, the released fibres' acquire drops the
self-invalidating lines of both cores (R82, R215). On one core the L1 is shared and nothing has to be dropped. -/
def State.pairSyncTeam (before : State) (s : State) (tid : Nat) : State :=
  match before.teams[tid]?, s.teams[tid]? with
  | some t0, some t1 =>
    if t1.pair && t0.gens != t1.gens then (s.acquireCore t1.core).acquireCore (t1.core + 1) else s
  | _, _ => s

/-- The acquires of every barrier generation that completed since state `before`; `step` applies it. -/
def State.pairSync (before s : State) : State :=
  (List.range s.teams.length).foldl (fun s t => before.pairSyncTeam s t) s

/-- BARW of a fibre: it parks until the generation of its wave's last arrival has completed. -/
def barWait (s : State) (wid : Nat) (b : BitVec 4) (f : Fibre) : LaneEnd :=
  match s.waves[wid]? with
  | none => .done f 0
  | some w =>
    let open_ := s.barGen w b.toNat
    match w.arrived.getD b.toNat none with
    | some gen => if gen < open_ then .done f 0 else .park f (.barrier b gen)
    | none => .park f (.barrier b open_)

/-- Whether the arrival of a wave has to wait: it has issued an access that has not been performed yet, an atomic in flight
or a part that waits on a fault record, and has not arrived in the current generation (R82). -/
def State.arrivalWaits (s : State) (w : Wave) (b : Nat) : Bool :=
  w.arrived.getD b none != some (s.barGen w b) && w.fibres.any fun f => f.owed.isSome || f.inFlight

def execBara (g : Guard) (b : BitVec 4) (s : State) : Out :=
  runPath (.bara g b) g (fun s w _ _ => if s.arrivalWaits w b.toNat then .stall false else .go (s.barArrive s.cur.wave b.toNat) fun _ f => .done f 0) s
def execBarw (g : Guard) (b : BitVec 4) (s : State) : Out :=
  runPath (.barw g b) g (fun s _ _ _ => .go s fun _ f => barWait s s.cur.wave b f) s
def execBars (g : Guard) (b : BitVec 4) (s : State) : Out :=
  runPath (.bars g b) g (fun s w _ _ =>
    if s.arrivalWaits w b.toNat then .stall true else
    let s1 := s.barArrive s.cur.wave b.toNat
    .go s1 fun _ f => barWait s1 s.cur.wave b f) s

/-- BARC: the expected count, from 1 to the team's wave count; a count already met completes the generation. DESIGN CHOICE,
log 54: a generation that opened with arrivals at or above its count, and then meets a BARC that raises the count above
them, stays open: R80 both completes it at the next BARC and completes at a BARC only for a count at or below them. -/
def execBarc (g : Guard) (a : Reg) (b : BitVec 4) (s : State) : Out :=
  runPath (.barc g a b) g (fun s w _ ls =>
    let n := ((lowFibre w ls).get w.zen a.toNat).toNat
    match s.teamOf w with
    | none => .stall false
    | some t =>
      if n = 0 ∨ t.waves.length < n then .go s fun _ f => .trap f (trapWith 0x01 (encode (.barc g a b)))
      else match t.bars[b.toNat]? with
        | none => .stall false
        | some bar =>
          let s1 := s.modTeam w.team fun x => { x with bars := x.bars.set b.toNat { bar with expected := n } }
          .go (if n ≤ bar.arrivals then s1.completeBar w.team b.toNat else s1) fun _ f => .done f 0) s

end Sys2Proof.Machine
end

