-- ==== Sys2Proof/Machine/Float.lean ====
section
/-! DEFINITION. Element-wise floating point: FADD, FMUL, FMA, FMNX, FCMP, CVT (05_vector_datapath R129 to R133), with
the marker check (R123) and the invalid trap (R122). -/

namespace Sys2Proof.Machine

/-! ### Markers and the invalid trap (R122, R123) -/

/-- Whether a word is a marker. -/
def isMarker (w : Word) : Bool := (w.extractLsb' 8 24 : BitVec 24) == 0x7F8001#24

/-- Trap 0x02 of the first marked operand. -/
def markerTrap (g : Grid) (ops : List Word) : Option TrapInfo :=
  if g.checkreg then
    match ops.find? isMarker with
    | some m => some { cause := 0x02, evalue := 0, ureg := some (m.extractLsb' 0 8), err := none }
    | none => none
  else none

/-- Whether trap 0x03 is enabled for the bundle. -/
def State.invOn (s : State) (w : Wave) : Bool := w.inven || s.hintInv

/-- The end of a fibre that computed elements with these flags: trap 0x03 with the lowest element that raised NV when
it is enabled, else the result and the flags of every element. -/
def fpEnd (inv : Bool) (f : Fibre) (fls : List (BitVec 6)) (res : Fibre) : LaneEnd :=
  match fls.findIdx? (fun x => x.getLsbD 0) with
  | some k => if inv then .trap f (trapWith 0x03 (BitVec.ofNat 32 k)) else .done res (fls.foldl (· ||| ·) 0)
  | none => .done res (fls.foldl (· ||| ·) 0)

/-- A floating-point instruction on each executing fibre: the operands read as floating-point values, and the
computation. -/
def runFp (i : Instr) (gd : Guard) (ops : Bool → Fibre → List Word)
    (op : Bool → Fibre → List (BitVec 6) × Fibre) (s : State) : Out :=
  runPath i gd (fun s w g _ => .go s fun _ f =>
    match markerTrap g (ops w.zen f) with
    | some t => .trap f t
    | none => let r := op w.zen f; fpEnd (s.invOn w) f r.1 r.2) s

/-! ### Packed elements (R108, R130) -/

end Sys2Proof.Machine

namespace Sys2Proof
open Sys2Proof.Machine
/-- Format of the elements of a type. -/
def FTy.fmt : FTy → IFmt
  | .f32 => .f32 | .f16x2 => .f16 | .bf16x2 => .bf16
/-- Elements of a register. -/
def FTy.elems (t : FTy) (w : Word) : List Nat :=
  match t with
  | .f32 => [w.toNat]
  | _ => [w.toNat % 65536, w.toNat / 65536]
/-- The register of a list of elements. -/
def FTy.pack (t : FTy) (es : List Nat) : Word :=
  match t with
  | .f32 => BitVec.ofNat 32 (es.getD 0 0)
  | _ => BitVec.ofNat 32 (es.getD 0 0 + 65536 * es.getD 1 0)
end Sys2Proof

namespace Sys2Proof.Machine

/-- Rounding, saturation and flushing of element arithmetic of a type (R112, R113, R116). -/
def State.fmode (s : State) (t : FTy) : FMode := { rm := s.hintRnd, sat := s.hintSat, flush := t != .f32 }

/-- Applies an element operation of two registers. -/
def elems2 (t : FTy) (op : Nat → Nat → FRes) (x y : Word) : List (BitVec 6) × Word :=
  let rs := List.zipWith op (t.elems x) (t.elems y)
  (rs.map (·.2), t.pack (rs.map (·.1)))

/-- d := op(a, b) per element (R129, R130). -/
def fp2 (i : Instr) (g : Guard) (d a b : Reg) (t : FTy) (op : FMode → Nat → Nat → FRes) (s : State) : Out :=
  runFp i g (fun z f => [f.get z a.toNat, f.get z b.toNat]) (fun z f =>
    let r := elems2 t (op (s.fmode t)) (f.get z a.toNat) (f.get z b.toNat)
    (r.1, f.setZ z d.toNat r.2)) s

def execFadd (g : Guard) (d a b : Reg) (t : FTy) (s : State) : Out :=
  fp2 (.fadd g d a b t) g d a b t (fun k => fpAdd t.fmt k false) s
def execFsub (g : Guard) (d a b : Reg) (t : FTy) (s : State) : Out :=
  fp2 (.fsub g d a b t) g d a b t (fun k => fpAdd t.fmt k true) s
def execFmul (g : Guard) (d a b : Reg) (t : FTy) (s : State) : Out :=
  fp2 (.fmul g d a b t) g d a b t (fun k => fpMul t.fmt k) s

/-- The addend register: d, or c of an XOP hint (R29, R119). -/
def State.addend (s : State) (d : Reg) : Nat :=
  match s.hintXop with | some p => (p.extractLsb' 18 6 : BitVec 6).toNat | none => d.toNat

/-- d := round(±(a × b) ± e) per element (R130). -/
def fp3 (i : Instr) (g : Guard) (d a b : Reg) (t : FTy) (negP negC : Bool) (s : State) : Out :=
  runFp i g (fun z f => [f.get z a.toNat, f.get z b.toNat, f.get z (s.addend d)]) (fun z f =>
    let rs := (List.zip (t.elems (f.get z a.toNat)) (List.zip (t.elems (f.get z b.toNat))
      (t.elems (f.get z (s.addend d))))).map fun x => fpFma t.fmt (s.fmode t) negP negC x.1 x.2.1 x.2.2
    (rs.map (·.2), f.setZ z d.toNat (t.pack (rs.map (·.1))))) s

def execFma (g : Guard) (d a b : Reg) (t : FTy) (s : State) : Out := fp3 (.fma g d a b t) g d a b t false false s
def execFnma (g : Guard) (d a b : Reg) (t : FTy) (s : State) : Out := fp3 (.fnma g d a b t) g d a b t true false s
def execFms (g : Guard) (d a b : Reg) (t : FTy) (s : State) : Out := fp3 (.fms g d a b t) g d a b t false true s
def execFnms (g : Guard) (d a b : Reg) (t : FTy) (s : State) : Out := fp3 (.fnms g d a b t) g d a b t true true s

/-! ### FMNX (R131) -/

def fpMnx (i : Instr) (g : Guard) (d a b : Reg) (t : FTy) (isMax prop : Bool) (s : State) : Out :=
  fp2 i g d a b t (fun k => fpMinMax t.fmt k.flush isMax prop) s
def execFmin (g : Guard) (d a b : Reg) (t : FTy) (s : State) : Out := fpMnx (.fmin g d a b t) g d a b t false false s
def execFmax (g : Guard) (d a b : Reg) (t : FTy) (s : State) : Out := fpMnx (.fmax g d a b t) g d a b t true false s
def execFminn (g : Guard) (d a b : Reg) (t : FTy) (s : State) : Out := fpMnx (.fminn g d a b t) g d a b t false true s
def execFmaxn (g : Guard) (d a b : Reg) (t : FTy) (s : State) : Out := fpMnx (.fmaxn g d a b t) g d a b t true true s

/-! ### FCMP (R132) -/

/-- NV of FCMP: a signalling NaN, or any NaN under an ordered condition (R120, R132). -/
def fcmpFlags (cc : FCond) (a b : Nat) : BitVec 6 :=
  let x := IFmt.f32.dec a
  let y := IFmt.f32.dec b
  if x.isSnan || y.isSnan || fcondSignals cc && (x.isNan || y.isNan) then flNV else 0

def execFcmp (g : Guard) (pd pe : PredNo) (a b : Reg) (cc : FCond) (s : State) : Out :=
  runFp (.fcmp g pd pe a b cc) g (fun z f => [f.get z a.toNat, f.get z b.toNat]) (fun z f =>
    let x := (f.get z a.toNat).toNat
    let y := (f.get z b.toNat).toNat
    ([fcmpFlags cc x y], f.setPreds pd pe (fcond cc (fpRel x y)))) s

/-! ### CVT (R133) -/

/-- An FP32 code to an integer of [lo, hi]: what is delivered below, above and for a NaN, and the flags there. -/
def cvtInt (rm : Rnd) (lo hi : Int) (outFlag : BitVec 6) (c : Nat) : Int × BitVec 6 :=
  match IFmt.f32.dec c with
  | .nan _ => (0, flNV)
  | .inf n => (if n then lo else hi, outFlag)
  | .fin n m e =>
    let r := fpToInt rm n m e
    let v : Int := if n then -r.1 else r.1
    if v < lo then (lo, outFlag) else if hi < v then (hi, outFlag) else (v, if r.2 then flNX else 0)

/-- An integer to FP32 (R112). -/
def cvtToF32 (rm : Rnd) (v : Int) : FRes := IFmt.f32.deliver rm false false (decide (v < 0)) v.natAbs 0

/-- FRND: an FP32 code rounded to an integral value, sign of zero kept, never NX. -/
def frndVal (rm : Rnd) (c : Nat) : FRes :=
  match IFmt.f32.dec c with
  | .nan s => (IFmt.f32.quiet c, if s then flNV else 0)
  | .inf _ => (c, 0)
  | .fin n m e => ((IFmt.f32.deliver .rne false false n (fpToInt rm n m e).1 0).1, 0)

/-- The conversions of R133, on the whole source register. -/
def cvtVal (op : CvtOp) (rm : Rnd) (sat : Bool) (x : Word) : List (BitVec 6) × Word :=
  let one := fun (r : FRes) => ([r.2], BitVec.ofNat 32 r.1)
  let int := fun (r : Int × BitVec 6) => ([r.2], BitVec.ofInt 32 r.1)
  let lo := x.toNat % 65536
  match op with
  | .f32ToF16 => one (fpConv .f32 .f16 rm sat x.toNat)
  | .f32ToBf16 => one (fpConv .f32 .bf16 rm sat x.toNat)
  | .f16ToF32 => one (fpConv .f16 .f32 rm sat lo)
  | .bf16ToF32 => one (fpConv .bf16 .f32 rm sat lo)
  | .f32ToB8 k => one (k.ofVal rm sat (IFmt.f32.dec x.toNat))
  | .b8ToF32 k => ([0], BitVec.ofNat 32 (k.toF32 (x.toNat % 256)))
  | .f32ToS32 => int (cvtInt rm (-(2 ^ 31)) (2 ^ 31 - 1) flNV x.toNat)
  | .f32ToU32 => int (cvtInt rm 0 (2 ^ 32 - 1) flNV x.toNat)
  | .s32ToF32 => one (cvtToF32 rm x.toInt)
  | .u32ToF32 => one (cvtToF32 rm x.toNat)
  | .f32ToS8 => int (cvtInt rm (-128) 127 flNX x.toNat)
  | .f16x2ToB8x2 k =>
    let r0 := k.ofVal rm sat (IFmt.f16.dec lo)
    let r1 := k.ofVal rm sat (IFmt.f16.dec (x.toNat / 65536))
    ([r0.2, r1.2], BitVec.ofNat 32 (r0.1 + 256 * r1.1))
  | .frnd => one (frndVal rm x.toNat)

/-- Whether the source of a conversion is read as a floating-point value (R123). -/
def cvtFloat : CvtOp → Bool
  | .s32ToF32 | .u32ToF32 => false
  | _ => true

def execCvt (g : Guard) (d a : Reg) (op : CvtOp) (s : State) : Out :=
  runFp (.cvt g d a op) g (fun z f => if cvtFloat op then [f.get z a.toNat] else []) (fun z f =>
    let r := cvtVal op s.hintRnd s.hintSat (f.get z a.toNat)
    (r.1, f.setZ z d.toNat r.2)) s

end Sys2Proof.Machine
end

