-- ==== Sys2Proof/Machine/Global.lean ====
section
/-! DEFINITION. Global memory instructions: LDG, STG, STG.msg, STG.clrpoison, PREF (09_lines_and_order R226 to R230). -/

namespace Sys2Proof.Machine

/-- Whether the team of a wave runs on a core pair. -/
def State.pairTeam (s : State) (w : Wave) : Bool := match s.teamOf w with | some t => t.pair | none => false

/-- An armed poison injection lands on an LDG, ATOM or WAITC of the partition that completes (R385). -/
def State.injectPoison (s : State) (w : Wave) : State × Bool :=
  if w.zen then (s, false)
  else match s.takeInject 6 0 w.core w.part with
    | some s1 => (s1, true)
    | none => (s, false)

/-- Poison is consumed once for the wave instruction (R317). -/
def State.consumeIf (s : State) (wid : Nat) (on : Bool) : State := if on then s.consume wid else s

/-! ### The counters of an instruction some of whose lanes are still to complete (R42, R43) -/

/-- Whether a lane's part of its instruction is still to complete: on a fault record, or in flight. -/
def unfinished (ans : List (Nat × LaneAns)) (l : Nat) : Bool :=
  match ans.lookup l with
  | some (.park (.record _ _)) | some (.park (.atomic _)) => true
  | _ => false

/-- The name of the instruction whose count a fibre holds, or `id`. -/
def Fibre.countName (f : Fibre) (id : Nat) : Nat := match f.owed with | some p => p.id | none => id

/-- The fibre of slot l after the instruction `id` has run in the lanes of `ans`: an unfinished lane holds the count of the
instruction it belongs to, which a replay keeps. -/
def holdCount (counter : Option Bool) (id : Nat) (ans : List (Nat × LaneAns)) (l : Nat) (f : Fibre) : Fibre :=
  match ans.lookup l with
  | none => f
  | some _ =>
    if unfinished ans l then
      { f with owed := some (f.owed.getD { counter := counter, id := id, psn := false }) }
    else { f with owed := none }

/-- The names of the instructions whose counts the lanes of `ans` hold: those of replayed lanes, and `id` for the others. -/
def countNames (w : Wave) (id : Nat) (ls : List Nat) : List Nat :=
  (ls.map fun l => (w.fibres.getD l Fibre.empty).countName id).eraseDups

/-- Moves a wave's counter for a wave instruction `id` that has run in the lanes of `ans` (R43): it rises by one if the
instruction is counted for the first time and some part of it is still to complete, and falls by one for each earlier
instruction whose last part this was. -/
def State.recount (s : State) (wid : Nat) (w : Wave) (counter : Option Bool) (id : Nat) (ans : List (Nat × LaneAns)) : State :=
  let s1 := s.modWave wid fun x => { x with fibres := x.fibres.mapIdx (holdCount counter id ans) }
  let names := countNames w id (ans.map (·.1))
  let up := if names.contains id && s1.counting wid id then 1 else 0
  let down := (names.filter fun n => n != id && !s1.counting wid n).length
  match counter with
  | some true => s1.modWave wid fun x => { x with stores := x.stores + up - down }
  | some false => s1.modWave wid fun x => { x with loads := x.loads + up - down }
  | none => s1

/-- Whether an instruction has an unfinished lane, or a lane that was one. -/
def replays (w : Wave) (ans : List (Nat × LaneAns)) : Bool :=
  ans.any fun a => unfinished ans a.1 || (w.fibres.getD a.1 Fibre.empty).owed.isSome

/-- Lanes that have completed. -/
def doneLanes (ans : List (Nat × LaneAns)) : List Nat :=
  ans.filterMap fun a => match a.2 with | .bytes _ => some a.1 | _ => none

/-- The lanes `psn` of wave instruction `id`, and of those of which replayed lanes are parts, have consumed poison: each
instruction that had not done so before, when the wave was `w`, does so once (R317). -/
def State.drinkBy (s : State) (wid : Nat) (w : Wave) (id : Nat) (psn : List Nat) : State :=
  s.drink wid ((countNames w id psn).filter fun n => !w.drank n)

/-- The same for a load, with an injected report, which lands on its first lane that has completed (R385). -/
def State.drinkLoad (s : State) (wid : Nat) (w : Wave) (id : Nat) (ans : List (Nat × LaneAns)) (psn : List Nat) : State :=
  let r := if (doneLanes ans).isEmpty then (s, false) else s.injectPoison w
  r.1.drinkBy wid w id (if r.2 then psn ++ (doneLanes ans).take 1 else psn)

/-- The counters after instruction `id`: one that rises and falls within the step stands, unless a lane waits (R42). -/
def State.recountIf (s : State) (wid : Nat) (w : Wave) (counter : Option Bool) (id : Nat) (ans : List (Nat × LaneAns)) :
    State :=
  if replays w ans then s.recount wid w counter id ans else s

/-- The loads counter after a load, and the poison that its lanes `psn` have met. -/
def State.countLoad (s : State) (wid : Nat) (w : Wave) (ans : List (Nat × LaneAns)) (psn : List Nat) : State :=
  let d := if replays w ans then s.draw else (s, s.freeCtr)
  (d.1.recountIf wid w (some false) d.2 ans).drinkLoad wid w d.2 ans psn

/-- Whether an address is aligned to n bytes. -/
def aligned (va : DWord) (n : Nat) : Bool := va.toNat % n == 0

/-- Whether any lane loaded. -/
def anyBytes (ans : List (Nat × LaneAns)) : Bool := ans.any fun a => match a.2 with | .bytes _ => true | _ => false

/-! ### LDG (R227) -/

/-- One lane of LDG; the poison flag is threaded beside the state. -/
def ldgLane (wid : Nat) (w : Wave) (g : Grid) (xo : DWord) (a : Reg) (n : Nat) (ch : CacheHint)
    (acc : State × Bool) (f : Fibre) : (State × Bool) × LaneAns :=
  let va := f.getPair w.zen a.toNat + xo
  if aligned va n then
    match acc.1.translate g.asid g.priv false needLoad va with
    | .ok p key =>
      let r := acc.1.gload wid w p va.toNat key n ch true
      ((r.1, acc.2 || r.2.2), .bytes r.2.1)
    | .far => (acc, .trap (trapWith 0x04 (lo32 va)))
    | .fault k page sz key =>
      let r := acc.1.faultLane (dieOf w.core) .load g.asid va k page sz key
      ((r.1, acc.2), r.2)
    | .wait => (acc, .stall)
    | .hole key => (acc, .hole key)
  else (acc, .trap (trapWith 0x08 (lo32 va)))

/-- Runs `op` over lanes in lane order, threading the state; beside it, the lanes that it flags. -/
def foldLanes2 (op : State × Bool → Fibre → (State × Bool) × LaneAns) (w : Wave) : State × List Nat → List Nat →
    (State × List Nat) × List (Nat × LaneAns)
  | s, [] => (s, [])
  | s, l :: ls =>
    let r := op (s.1, false) (w.fibres.getD l Fibre.empty)
    let rs := foldLanes2 op w (r.1.1, if r.1.2 then s.2 ++ [l] else s.2) ls
    (rs.1, (l, r.2) :: rs.2)

def execLdg (g : Guard) (d a : Reg) (ord : Ord4) (scp : Scope) (wd : Width) (ch : CacheHint) (s : State) : Out :=
  runPath (.ldg g d a ord scp wd ch) g (fun s w gr ls =>
    if countFull w.loads w ls || s.loadWaits s.cur.wave w then .stall false
    else
      let s0 := s.orderAct s.cur.wave w.core (s.pairTeam w) ord scp
      let r := foldLanes2 (ldgLane s.cur.wave w gr s.hintXoff a wd.bytes ch) w (s0, []) ls
      pathOf (r.1.1.countLoad s.cur.wave w r.2 r.1.2) r.2
        (loadEnd w.zen d.toNat r.2)) s

/-! ### STG (R227) -/

/-- Store `id` of a wave has retired: its counter rises, and the store is owed to memory until STORE_COMPLETION. -/
def State.oweStore (s : State) (wid id : Nat) (o : Owed) : State :=
  { s with waves := modAt s.waves wid fun w => { w with stores := w.stores + 1 },
           pend := s.pend ++ [{ wave := wid, ids := [id], bytes := o.1, selfinv := o.2, called := false }] }

/-- Store `id` that has run in the lanes of `ans` is owed to memory by the lanes that have completed; its counter moves once
for the wave instruction, replays included (R43). -/
def State.countStore (s : State) (wid : Nat) (w : Wave) (id : Nat) (o : Owed) (ans : List (Nat × LaneAns)) : State :=
  if replays w ans then
    let done := doneLanes ans
    let s1 : State := if done.isEmpty then s
      else { s with pend := s.pend ++
          [{ wave := wid, ids := countNames w id done, bytes := o.1, selfinv := o.2, called := false }] }
    s1.recount wid w (some true) id ans
  else if anyBytes ans then s.oweStore wid id o
  else s

/-- One lane of STG: what it owes is threaded beside the state. A team without the turn stages the bytes (R289). -/
def stgLane (wid : Nat) (w : Wave) (g : Grid) (xo : DWord) (d a : Reg) (n : Nat) (ch : CacheHint) (carry : Carry)
    (now : Bool) (acc : State × Owed) (f : Fibre) : (State × Owed) × LaneAns :=
  let va := f.getPair w.zen a.toNat + xo
  if aligned va n then
    match acc.1.translate g.asid g.priv true needStore va with
    | .ok p key =>
      let bs := f.getBytes w.zen d.toNat n
      if now then
        let r := acc.1.gstore wid w p va.toNat key bs ch carry
        ((r.1, acc.2.1 ++ r.2.1, acc.2.2 ++ r.2.2), .bytes [])
      else match (acc.1.leadVia p va.toNat key).stageIn w.team (.store key bs) with
        | some s1 => ((s1, acc.2), .bytes [])
        | none => (acc, .stall)
    | .far => (acc, .trap (trapWith 0x04 (lo32 va)))
    | .fault k page sz key =>
      let r := acc.1.faultLane (dieOf w.core) .store g.asid va k page sz key
      ((r.1, acc.2), r.2)
    | .wait => (acc, .stall)
    | .hole key => (acc, .hole key)
  else (acc, .trap (trapWith 0x08 (lo32 va)))

/-- Runs a store over lanes in lane order. -/
def foldStores (op : State × Owed → Fibre → (State × Owed) × LaneAns) (w : Wave) : State × Owed → List Nat →
    (State × Owed) × List (Nat × LaneAns)
  | s, [] => (s, [])
  | s, l :: ls =>
    let r := op s (w.fibres.getD l Fibre.empty)
    let rs := foldStores op w r.1 ls
    (rs.1, (l, r.2) :: rs.2)

/-- How far an annotation carries a store as part of its instruction: acqrel before every later access, rel at a wide
scope with the bytes before it (R215, R223). -/
def carryOf (ord : Ord4) (wide : Bool) : Carry :=
  match ord with
  | .acqrel => .all
  | .rel => if wide then .wide else .no
  | _ => .no

/-- A store of the executing lanes of a path. -/
def storePath (d a : Reg) (n : Nat) (ord : Ord4) (scp : Scope) (ch : CacheHint) (carry : Carry) (s : State) (w : Wave)
    (gr : Grid) (ls : List Nat) : PathRes :=
  if countFull w.stores w ls then .stall false
  else
    let t := (s.orderAct s.cur.wave w.core (s.pairTeam w) ord scp).turnReady w gr
    let r := foldStores (stgLane s.cur.wave w gr s.hintXoff d a n ch carry t.2) w (t.1, ([], [])) ls
    let dr := r.1.1.draw
    pathOf (dr.1.countStore s.cur.wave w dr.2 r.1.2 r.2) r.2 (storeEnd r.2)

def execStg (g : Guard) (d a : Reg) (ord : Ord4) (scp : Scope) (wd : Width) (ch : CacheHint) (s : State) : Out :=
  runPath (.stg g d a ord scp wd ch) g (fun s w gr ls =>
    storePath d a wd.bytes ord scp ch (carryOf ord (wideScope scp (s.pairTeam w))) s w gr ls) s

/-! ### STG.clrpoison (R229) -/

/-- The misaligned lanes of an instruction whose lanes act together take trap 0x08; the others go on without them, as a
bundle of their own (R227). -/
def misalignedTrap (w : Wave) (xo : DWord) (a : Reg) (n : Nat) (s : State) : PathRes :=
  .go s fun _ f =>
    let va := f.getPair w.zen a.toNat + xo
    if aligned va n then .keep f else .trap f (trapWith 0x08 (lo32 va))

/-- Whether the bytes of the executing lanes cover exactly one aligned line. -/
def coversLine (eas : List Nat) (n : Nat) : Bool :=
  match eas with
  | [] => false
  | e :: _ =>
    eas.all (fun x => x / 128 == e / 128) &&
      (List.range 128).all fun o => eas.any fun x => decide (x ≤ e / 128 * 128 + o ∧ e / 128 * 128 + o < x + n)

/-- The whole line is written at its home as the poison is cleared, on every kind of page: the store's one place in the
order. -/
def execStgClrpoison (g : Guard) (d a : Reg) (ord : Ord4) (scp : Scope) (wd : Width) (ch : CacheHint) (s : State) :
    Out :=
  runPath (.stgClrpoison g d a ord scp wd ch) g (fun s w gr ls =>
    let eas := ls.map fun l => ((w.fibres.getD l Fibre.empty).getPair w.zen a.toNat + s.hintXoff).toNat
    if eas.any (fun x => x % wd.bytes != 0) then misalignedTrap w s.hintXoff a wd.bytes s
    else if !coversLine eas wd.bytes then
      .go s fun _ f => .trap f (trapWith 0x01 (encode (.stgClrpoison g d a ord scp wd ch)))
    else match storePath d a wd.bytes ord scp ch .all s w gr ls with
      | .go s1 ends =>
        match s.translate gr.asid gr.priv true needStore (BitVec.ofNat 64 (eas.headD 0)) with
        | .ok _ key =>
          if !(s.turnReady w gr).2 then
            match s1.stageIn w.team (.clear (lineOf key)) with
            | some s2 => .go s2 ends
            | none => .stall false
          else .go { s1 with poison := s1.poison.filter (· != lineOf key) } ends
        | _ => .go s1 ends
      | r => r) s

/-! ### STG.msg (R228) -/

/-- The addresses of the mapping port and of the Orrery control port (R262). -/
def mappingPort : Nat := 0x01FFFFFFFFFF0000
def orreryPort : Nat := 0x01FFFFFFFFFF0040

/-- A 64-byte message block with the bytes of the executing lanes, the rest 0x00. -/
def messageBytes (parts : List (Nat × List Byte)) (base : Nat) : List Byte :=
  parts.foldl (fun m p => patch m (p.1 - base) p.2) (List.replicate 64 0)

/-- The mailbox whose message address lies at a physical block. -/
def State.mailboxAt (s : State) (key : Nat) : Option Nat :=
  (s.mailboxes.find? fun m => match s.findPage m.asid m.addr.toNat with
    | some p => p.key m.addr.toNat / 64 == key / 64
    | none => false).map (·.num)

/-- Splits the weight of a fibre of wave `wid` to a message. -/
def State.splitFrom (s : State) (wid l phase : Nat) : State × Carried :=
  match (s.waves[wid]?).bind (fun w => w.fibres[l]?) with
  | none => (s, { phase := phase, amount := 0 })
  | some f =>
    let r := splitWeight f.weight
    ((s.modWave wid fun w => { w with fibres := w.fibres.set l { f with weight := r.1 } }).refill phase r.2.2,
      { phase := phase, amount := r.2.1 })

/-- A message leaves for its target, through the stage of a team without the turn. -/
def State.sendFrom (s : State) (w : Wave) (now : Bool) (f : Flight) : Option State :=
  if now then some { s with flights := s.flights ++ [f] } else s.stageIn w.team (.message f)

def execStgMsg (g : Guard) (d a : Reg) (ord : Ord4) (scp : Scope) (wd : Width) (ch : CacheHint) (s : State) : Out :=
  runPath (.stgMsg g d a ord scp wd ch) g (fun s w gr ls =>
    let i := Instr.stgMsg g d a ord scp wd ch
    let n := wd.bytes
    let fs := ls.map fun l => w.fibres.getD l Fibre.empty
    let parts := fs.map fun f => ((f.getPair w.zen a.toNat + s.hintXoff).toNat, f.getBytes w.zen d.toNat n)
    let all01 : PathRes := .go s fun _ f => .trap f (trapWith 0x01 (encode i))
    if countFull w.stores w ls then .stall false
    else if parts.any (fun p => p.1 % n != 0) then
      misalignedTrap w s.hintXoff a n s
    else
      let base := (parts.headD (0, [])).1 / 64 * 64
      if parts.any (fun p => p.1 / 64 * 64 != base) then all01
      else
        let words := bytesDwords (messageBytes parts base) 8
        let t := (s.orderAct s.cur.wave w.core (s.pairTeam w) ord scp).turnReady w gr
        let counted := fun (s1 : State) (ans : List (Nat × LaneAns)) =>
          let d := s1.draw
          d.1.countStore s.cur.wave w d.2 ([], []) ans
        let send := fun (tgt : Target) =>
          let c := t.1.splitFrom s.cur.wave (ls.headD 0) gr.phase
          let tag := if gr.det then some w.team else none
          match c.1.sendFrom w t.2 { target := tgt, words := words, weight := some c.2, team := tag,
                                              sender := some (s.cur.wave, (lowFibre w ls).countName c.1.freeCtr) } with
          | some s1 => PathRes.go (counted s1 (ls.map fun l => (l, .bytes []))) fun _ f => .done f 0
          | none => .stall false
        let team := match s.teams[w.team]? with | some x => x.grid | none => 0
        if base = mappingPort then (if gr.priv then send (.mapping team) else all01)
        else if base = orreryPort then (if gr.priv then send (.orrery team) else all01)
        else match t.1.translate gr.asid gr.priv false needStore (BitVec.ofNat 64 base) with
          | .ok p key =>
            match t.1.mailboxAt key with
            | some m => send (.mailbox m)
            | none =>
              -- a peer's mailbox area is the peer's: the message crosses the link (R343)
              if keyLoc key = 2 then send (.peer (p.tgt.toNat / 2 ^ 52 % 64) key) else all01
          | .far => .go s fun _ f =>
              .trap f (trapWith 0x04 (lo32 (f.getPair w.zen a.toNat + s.hintXoff)))
          | .fault k page sz key =>
            match t.1.raiseFault (dieOf w.core) .store gr.asid (BitVec.ofNat 64 (parts.headD (0, [])).1) k page sz key with
            | (s1, .deliver c) =>
              .go (counted s1 (ls.map fun l => (l, .stall))) fun _ f =>
                .trap f (trapWith c (lo32 (f.getPair w.zen a.toNat + s.hintXoff)))
            | (s1, .parked h) =>
              let park := fun (f : Fibre) => Wait.record h (f.getPair w.zen a.toNat + s.hintXoff)
              .go (counted s1 (ls.map fun l => (l, .park (park (w.fibres.getD l Fibre.empty)))))
                fun _ f => .park f (park f)
            | (_, .full) => .stall false
          | .wait => .stall false
          | .hole key => .fault (.memoryHole key)) s

/-! ### PREF (R230) -/

/-- What one lane of PREF fetches: the line of a page that it may read, into the L1 but for the hint no L1; a prefetch that
would fault is dropped, an uncached page has none, and a line whose home has a shadow entry, which a fetch would flush
(R245), is left alone. -/
def prefLane (w : Wave) (g : Grid) (va : DWord) (ch : CacheHint) (s : State) : State :=
  match s.translate g.asid g.priv false needLoad va with
  | .ok p key =>
    let r := s.lead (lineOf key) p.asid (va.toNat / 128 * 128) p.coh
    if r.2.coh = 2#2 ∨ ch = .noL1 ∨ s.shadows.any (·.line == lineOf key) then s
    else
      let s1 := if r.2.coh = 0#2 then r.1.share (some (.core w.core)) (lineOf key) else r.1
      s1.l1Use none w.core (lineOf key) r.2.asid r.2.va ch (r.2.coh == 1#2)
  | _ => s

/-- A prefetch changes which lines are cached and nothing else. -/
def execPref (g : Guard) (a : Reg) (scp : Scope) (wd : Width) (ch : CacheHint) (s : State) : Out :=
  runPath (.pref g a scp wd ch) g (fun s w gr ls =>
    .go (ls.foldl (fun s' l => prefLane w gr ((w.fibres.getD l Fibre.empty).getPair w.zen a.toNat + s.hintXoff) ch s') s)
      fun _ f => .done f 0) s

/-! ### STORE_COMPLETION (R225) -/

/-- Whether a retired store has sent a message that has not arrived (R228). -/
def State.storeFlies (s : State) (p : PendStore) : Bool :=
  s.flights.any fun f => f.sender.any fun x => x.1 == p.wave && p.ids.contains x.2

/-- The k-th retired store reaches memory: its bytes and lines go home, and its wave's counter falls by one for each
instruction whose last part this was (R43). A message has to have arrived. -/
def State.completeStore (s : State) (k : Nat) : State :=
  match s.pend[k]? with
  | none => s
  | some p =>
    if s.storeFlies p then s
    else
    let s1 := p.bytes.foldl (State.bringHome (s.coreOf p.wave)) s
    let s2 := p.selfinv.foldl (fun s x => s.throughLine x.1 x.2) s1
    (p.ids.foldl (fun (s : State) id => s.endCount p.wave true id) { s2 with pend := s2.pend.eraseIdx k }).checkWaveEnd
      p.wave

end Sys2Proof.Machine
end

