-- ==== Sys2Proof/Machine/Scratch.lean ====
section
/-! DEFINITION. The scratchpad: offsets, LDS, STS, ATOMS (06_local_sram R148 to R154), and the ordering of global
accesses at a barrier (02_issue_and_fibres R82). -/

namespace Sys2Proof

/-- LDS and STS narrow every scope wider than the team to the team (R152). -/
def Scope.narrow : Scope → Scope
  | .wave => .wave
  | _ => .team

end Sys2Proof

namespace Sys2Proof.Machine

/-! ### Offsets (R149) -/

/-- Where n bytes at an offset lie, for an issuer on `core`: whether on the odd core's allotment, and the byte offset
there; none outside the allotment. -/
def Team.inside (t : Team) (size core off n : Nat) : Option (Bool × Nat) :=
  let odd := t.pair && core != t.core
  if off + n ≤ size then some (odd, off)
  else if t.pair && decide (0x100000 ≤ off ∧ off + n ≤ 0x100000 + size) then some (!odd, off - 0x100000)
  else none

/-- The allotment on the even core, or on the odd one. -/
def Team.scr (t : Team) (odd : Bool) : Memory := if odd then t.scratch2 else t.scratch
def Team.setScr (t : Team) (odd : Bool) (m : Memory) : Team :=
  if odd then { t with scratch2 := m } else { t with scratch := m }

/-- Reads n bytes of a team's scratchpad; nothing outside the allotment. -/
def Team.scrRead (t : Team) (size core off n : Nat) : Option (List Byte) :=
  (t.inside size core off n).map fun p => (t.scr p.1).readN p.2 n

/-- Writes bytes of a team's scratchpad, as far as they lie inside the allotment. -/
def Team.scrWrite (t : Team) (size core off : Nat) (bs : List Byte) : Team :=
  match t.inside size core off bs.length with
  | some p => t.setScr p.1 ((t.scr p.1).writeN p.2 bs)
  | none => t

/-- The trap of an access of n bytes at an offset, if it takes one: alignment, then bounds (R153). -/
def scrTrap (t : Team) (size core n : Nat) (off : DWord) : Option TrapInfo :=
  if aligned off n then
    match t.inside size core off.toNat n with
    | some _ => none
    | none => some (trapWith 0x09 (lo32 off))
  else some (trapWith 0x08 (lo32 off))

/-! ### LDS (R153) -/

/-- LDS of one fibre. -/
def ldsFibre (t : Team) (g : Grid) (w : Wave) (xo : DWord) (d a : Reg) (n : Nat) (f : Fibre) : LaneEnd :=
  let off := f.getPair w.zen a.toNat + xo
  match scrTrap t g.scratch w.core n off with
  | some e => .trap f e
  | none => .done (f.setBytes w.zen d.toNat ((t.scrRead g.scratch w.core off.toNat n).getD [])) 0

def execLds (g : Guard) (d a : Reg) (ord : Ord4) (scp : Scope) (wd : Width) (ch : CacheHint) (s : State) : Out :=
  runPath (.lds g d a ord scp wd ch) g (fun s w gr _ =>
    match s.teams[w.team]? with
    | none => .stall false
    | some t =>
      if counterFull w.loads || s.loadWaits s.cur.wave w then .stall false
      else .go (s.orderAct s.cur.wave w.core t.pair ord scp.narrow)
        fun _ f => ldsFibre t gr w s.hintXoff d a wd.bytes f) s

/-! ### STS (R153) -/

/-- The bytes that one executing fibre stores, laid into the team's allotments. -/
def stsLane (g : Grid) (w : Wave) (xo : DWord) (d a : Reg) (n : Nat) (t : Team) (f : Fibre) : Team :=
  let off := f.getPair w.zen a.toNat + xo
  match scrTrap t g.scratch w.core n off with
  | some _ => t
  | none => t.scrWrite g.scratch w.core off.toNat (f.getBytes w.zen d.toNat n)

/-- STS of the executing lanes, in lane order: where lanes overlap the higher lane's bytes remain (R151). -/
def stsLanes (g : Grid) (w : Wave) (xo : DWord) (d a : Reg) (n : Nat) (t : Team) (ls : List Nat) : Team :=
  ls.foldl (fun t l => stsLane g w xo d a n t (w.fibres.getD l Fibre.empty)) t

/-- The end of an STS in one fibre. -/
def stsFibre (t : Team) (g : Grid) (w : Wave) (xo : DWord) (a : Reg) (n : Nat) (f : Fibre) : LaneEnd :=
  match scrTrap t g.scratch w.core n (f.getPair w.zen a.toNat + xo) with
  | some e => .trap f e
  | none => .done f 0

/-- STS takes effect as it retires, so its counter rises and falls within the step (R42, R151, R153). -/
def execSts (g : Guard) (d a : Reg) (ord : Ord4) (scp : Scope) (wd : Width) (ch : CacheHint) (s : State) : Out :=
  runPath (.sts g d a ord scp wd ch) g (fun s w gr ls =>
    match s.teams[w.team]? with
    | none => .stall false
    | some t =>
      if counterFull w.stores then .stall false
      else
        let s0 := s.orderAct s.cur.wave w.core t.pair ord scp.narrow
        let t1 := stsLanes gr w s.hintXoff d a wd.bytes t ls
        .go (s0.modTeam w.team fun x => { x with scratch := t1.scratch, scratch2 := t1.scratch2 })
          fun _ f => stsFibre t gr w s.hintXoff a wd.bytes f) s

/-! ### ATOMS (R154) -/

/-- new of R154. -/
def atomsNew (op : AtomsOp) (old x e : Word) : Word :=
  match op with
  | .add => old + x
  | .min => iminVal old x
  | .max => imaxVal old x
  | .umin => uminVal old x
  | .umax => umaxVal old x
  | .and => old &&& x
  | .or => old ||| x
  | .xor => old ^^^ x
  | .exch => x
  | .cas => if old = e then x else old
  | .fadd => BitVec.ofNat 32 (fpAdd .f32 homeMode false old.toNat x.toNat).1

/-- One lane of ATOMS: the team after it, and the lane's old value or trap. -/
def atomsLane (g : Grid) (w : Wave) (d a b : Reg) (op : AtomsOp) (t : Team) (f : Fibre) : Team × LaneAns :=
  let off := f.getPair w.zen a.toNat
  match scrTrap t g.scratch w.core 4 off with
  | some e => (t, .trap e)
  | none =>
    let bs := (t.scrRead g.scratch w.core off.toNat 4).getD []
    let new := atomsNew op (BitVec.ofNat 32 (leNat bs)) (f.get w.zen b.toNat) (f.get w.zen (d.toNat + 1))
    (t.scrWrite g.scratch w.core off.toNat (leBytes 4 new.toNat), .bytes bs)

/-- ATOMS of the executing lanes, in lane order. -/
def atomsLanes (g : Grid) (w : Wave) (d a b : Reg) (op : AtomsOp) : Team → List Nat → Team × List (Nat × LaneAns)
  | t, [] => (t, [])
  | t, l :: ls =>
    let r := atomsLane g w d a b op t (w.fibres.getD l Fibre.empty)
    let rs := atomsLanes g w d a b op r.1 ls
    (rs.1, (l, r.2) :: rs.2)

def execAtoms (g : Guard) (d a b : Reg) (op : AtomsOp) (s : State) : Out :=
  runPath (.atoms g d a b op) g (fun s w gr ls =>
    match s.teams[w.team]? with
    | none => .stall false
    | some t =>
      if counterFull w.loads || s.loadWaits s.cur.wave w then .stall false
      else
        let s0 := s.orderAct s.cur.wave w.core t.pair .acqrel .team
        let r := atomsLanes gr w d a b op t ls
        .go (s0.modTeam w.team fun x => { x with scratch := r.1.scratch, scratch2 := r.1.scratch2 })
          (loadEnd w.zen d.toNat r.2)) s

end Sys2Proof.Machine
end

