-- ==== Sys2Proof/Machine/System.lean ====
section
/-! DEFINITION. System instructions: NOP, TRAP, BRK, RTE, YIELD, CHKERR, NOPRE, PREON, LIVETILE, ERRINJ
(02 R79; 07 R184; 13_checking_errors_traps R313, R314, R318, R321, R325, R385). -/

namespace Sys2Proof.Machine

def execNop (g : Guard) (s : State) : Out := runPure (.nop g) g (fun _ f => f) s
def execYield (g : Guard) (s : State) : Out := runPure (.yield g) g (fun _ f => f) s

/-! ### Traps (R313, R314) -/

def execTrap (g : Guard) (code : BitVec 12) (s : State) : Out :=
  runLanes (.trap g code) g (fun _ f => .trap f (trapWith 0x0A (code.setWidth 32))) s
def execBrk (g : Guard) (s : State) : Out :=
  runLanes (.brk g) g (fun _ f => .trap f (trapWith 0x0B 0)) s

/-- What RTE makes of the matrix-state traps (R183): the handler of 0x11 halts where it was, that of 0x12 is done. -/
def MatrixTrap.afterRte : MatrixTrap → MatrixTrap
  | .saving => .saved
  | .restoring => .none
  | m => m

/-- RTE of one fibre to index t. -/
def rteFibre (gr : Grid) (z : Bool) (t : Pc) (f : Fibre) : Fibre × Option SilentErr :=
  let r := f.rte z t (gr.trapEntry.getD 0) gr.trapwin
  match r.2 with
  | none => ({ r.1 with mtrap := f.mtrap.afterRte }, none)
  | some _ => r

/-- RTE of the executing lanes: a queued error that enters is written to the wave's error registers (R313, R316). -/
def rteRun (gr : Grid) (tgt : Bool → Fibre → Pc) (s : State) (w : Wave) (ls : List Nat) : PathRes :=
  let errs := ls.filterMap fun l => match w.fibres[l]? with
    | some f => (rteFibre gr w.zen (tgt w.zen f) f).2
    | none => none
  let s1 := match errs.getLast? with
    | none => s
    | some e => s.setWave s.cur.wave { w with etr := true, err := e }
  .go s1 fun _ f =>
    let f1 := (rteFibre gr w.zen (tgt w.zen f) f).1
    .jump f1 f1.pc

def execRte (g : Guard) (s : State) : Out :=
  runPath (.rte g) g (fun s w gr ls => rteRun gr (fun _ f => f.epc) s w ls) s
def execRteReg (g : Guard) (a : Reg) (s : State) : Out :=
  runPath (.rteReg g a) g
    (fun s w gr ls => rteRun gr (fun z f => (f.get z a.toNat).extractLsb' 0 24) s w ls) s

/-! ### CHKERR, NOPRE, PREON, LIVETILE -/

/-- sr.chk cleared (R317). -/
def Wave.clearChk (w : Wave) : Wave := { w with pcnt := 0, xq := false, etr := false, psn := false }

def execChkerr (g : Guard) (d : Reg) (s : State) : Out :=
  runPath (.chkerr g d) g (fun s w _ _ =>
    .go (s.setWave s.cur.wave w.clearChk) fun _ f => .done (f.setZ w.zen d.toNat w.chkWord) 0) s

/-- Opens a pre-emption-disable window unless one is open. The instruction bound does not count the NOPRE itself,
which the retirement of this bundle takes off again (R325). -/
def openWindow (s : State) (w : Wave) : Wave :=
  match w.nopre with
  | some _ => w
  | none => { w with nopre := some { left := 4096 + (s.bundle.length + 1), until_ := s.now + 20000 } }

def execNopre (g : Guard) (s : State) : Out :=
  runPath (.nopre g) g (fun s w _ _ =>
    .go (if w.zen then s else s.setWave s.cur.wave (openWindow s w)) fun _ f => .done f 0) s

def execPreon (g : Guard) (s : State) : Out :=
  runPath (.preon g) g (fun s w _ _ =>
    .go (if w.zen then s else s.setWave s.cur.wave { w with nopre := none }) fun _ f => .done f 0) s

/-- LIVETILE has an effect only in a FASTSWITCH launch (R184). -/
def execLivetile (g : Guard) (m : BitVec 8) (s : State) : Out :=
  runPath (.livetile g m) g (fun s w gr _ =>
    .go (if gr.fastswitch then s.setWave s.cur.wave { w with liveTiles := m } else s) fun _ f => .done f 0) s

/-! ### Error injection (R321, R385) -/

/-- Whether a word is one that ERRINJ and INJECT take. -/
def injValid (w : Word) : Bool :=
  let rz := (w.extractLsb' 19 9 : BitVec 9) == 0 && (w.extractLsb' 13 3 : BitVec 3) == 0
    && (w.extractLsb' 3 5 : BitVec 5) == 0
  rz && (match injKind w, injClass w with
    | 0, 4 | 1, 4 | 2, 0 | 2, 5 | 6, 0 => true
    | 2, 1 | 6, 3 => injIndex w == 0
    | 3, 2 | 4, 2 | 5, 2 => decide (injIndex w ≤ 1)
    | _, _ => false)

/-- Arms or disarms one bit of an injection mask. -/
def State.armInject (s : State) (w : Word) : State :=
  let key := w &&& 0x7FFFFFFF#32
  let rest := s.injects.filter (· != key)
  { s with injects := if w.getLsbD 31 then rest ++ [key] else rest }

def execErrinj (g : Guard) (a : Reg) (s : State) : Out :=
  runPath (.errinj g a) g (fun s w _ ls =>
    let v := (lowFibre w ls).get w.zen a.toNat
    if injValid v then .go (s.armInject v) fun _ f => .done f 0
    else .go s fun _ f => .trap f (trapWith 0x01 v)) s

/-! ### Fatal errors (R328) -/

/-- A fatal error: modified host lines are written back, the image goes to reserved memory and to the host, and the
device halts until reset. The image lies outside every mapping. -/
def State.fatalStop (s : State) (x : FatalSource) : State :=
  let s1 := s.returnHost
  let im : Image := { source := x, time := s.now, waves := s.waves.filter fun w => w.stat != .ended, teams := s.teams,
                      quads := s.quads }
  { s1 with dev := .fatal, failing := .other, image := some im, bundle := [], outputs := s1.outputs ++ [.dump im] }

/-- Whether an error is fatal: one of the banks of a partition that holds no wave, or of the restore of a partition where
none is under way, is not. -/
def State.isFatal (s : State) (x : FatalSource) : Bool :=
  match x with
  | .banks p => s.waves.any fun w => !w.zen && w.partIndex == p && (w.stat == .resident || w.stat == .halted)
  | .restore p => (match s.parts[p]? with | some y => y.halt == .saved | none => false)
      || s.waves.any fun w => !w.zen && w.partIndex == p && (w.stat == .saved || w.stat == .arriving)
  | _ => true

/-- An event of a running device: it happens when `p` allows it, and otherwise nothing happens. -/
def onRun (p : State → Bool) (f : State → State) (s : State) : Out :=
  .next (if s.dev == .running && p s then f s else s)

def execFatalError (s : State) : Out := onRun (fun s => s.isFatal s.failing) (fun s => s.fatalStop s.failing) s

end Sys2Proof.Machine
end

