-- ==== Sys2Proof/Machine/Matrix.lean ====
section
/-! DEFINITION. Matrix quads: SIGNSET, SIGNCLR, MMQ, its issue and commit, ACC, MDRAIN, MREST, MSTAT
(07_matrix_quads R158 to R183, 13 R321, R385). -/

namespace Sys2Proof

/-- K of a type, the header's fmt, and the element size (R160, R163). -/
def MmqTy.k : MmqTy → Nat
  | .b8 | .s8 => 64 | .bf16 | .f16 => 32
def MmqTy.fmt : MmqTy → Nat
  | .b8 => 0 | .bf16 => 1 | .f16 => 2 | .s8 => 3
def MmqTy.size : MmqTy → Nat
  | .b8 | .s8 => 1 | .bf16 | .f16 => 2

end Sys2Proof

namespace Sys2Proof.Machine

/-! ### Tiles (R158) -/

/-- Index of an element of an accumulator tile. -/
def accIdx (tile row col : Nat) : Nat := tile * 6144 + row * 96 + col

/-- Replaces a range of a WordMap, in canonical form. -/
def WordMap.setRange (m : WordMap) (lo : Nat) (vs : List Word) : WordMap :=
  (m.filter fun c => decide (c.1 < lo))
    ++ ((vs.mapIdx fun i v => (lo + i, v)).filter fun c => c.2 != 0)
    ++ m.filter fun c => decide (lo + vs.length ≤ c.1)

/-- n elements from an index on. -/
def WordMap.getN (m : WordMap) (lo n : Nat) : List Word := (List.range n).map fun i => m.get (lo + i)

/-- The 1,536 elements of slice k of a tile (R158). -/
def Quad.slice (q : Quad) (tile k : Nat) : List Word := q.acc.getN (accIdx tile (16 * k) 0) 1536
def Quad.setSlice (q : Quad) (tile k : Nat) (vs : List Word) : Quad :=
  { q with acc := q.acc.setRange (accIdx tile (16 * k) 0) vs }

/-- Whether slice k of a tile is failed, and the record of it (R172). -/
def Quad.failOf (q : Quad) (tile k : Nat) : Option FailedSlice := q.failed.find? fun f => f.tile == tile && f.slice == k
/-- Marks a slice failed, with what trap 0x07 reports. -/
def Quad.fail (q : Quad) (x : FailedSlice) : Quad :=
  { q with failed := q.failed.filter (fun f => !(f.tile == x.tile && f.slice == x.slice)) ++ [x] }
def Quad.unfail (q : Quad) (tile k : Nat) : Quad :=
  { q with failed := q.failed.filter fun f => !(f.tile == tile && f.slice == k) }

/-- The error record of a failed slice of quad index qi (R172, R316). -/
def failRecord (qi : Nat) (x : FailedSlice) : SilentErr :=
  { syn := bit1 x.inj ++ (0#23) ++ x.code
    unit := BitVec.ofNat 32 (2 * 65536 + qi / 2 * 256 + qi % 2)
    tile := BitVec.ofNat 32 (qi % 2 * 2 ^ 27 + x.tile * 2 ^ 24 + x.row * 65536 + x.col) }

/-- The residue of a stored element fails: its slice is failed, and what the element holds is unknown (R172). -/
def State.spoilTile (s : State) (qi : Nat) (x : FailedSlice) : State :=
  let d := s.draw
  d.1.modQuad qi fun q =>
    let q1 := q.fail x
    if x.code = 3 then { q1 with acc := q1.acc.put (accIdx x.tile (x.row % 64) (x.col % 96)) (Config.freeWord d.2) } else q1

/-- An armed residue injection is found at an element of a tile that an instruction of the quad reads (R385 kind 5). -/
def State.meetResidue (s : State) (qi tile row col : Nat) : State :=
  match s.takeInject 5 2 (qi / 2) (qi % 2) with
  | none => s
  | some s1 => s1.modQuad qi fun q =>
      q.fail { tile := tile, slice := row / 16, code := 3, row := row, col := col, inj := true }

/-- Whether an MREST is outstanding on a quad (R180). -/
def State.restoring (s : State) (qi : Nat) : Bool :=
  s.tileOps.any fun o => match o.work with
    | .restore _ => (match s.waves[o.wave]? with | some w => w.quadIndex == qi | none => false)
    | _ => false

/-- Whether a handler of trap 0x12 of the quad still runs, is due, or will be once its wave is back (R183). -/
def State.handlers12 (s : State) (qi : Nat) : Bool :=
  match s.quads[qi]? with
  | none => false
  | some q => s.waves.any fun w => !w.zen && w.quadIndex == qi && w.stat != .ended && some w.team == q.owner &&
      w.fibres.any fun f => f.live && (f.mtrap == .restoring || (f.mtrap == .saved && q.resume.isSome))

/-- Whether signing waits on a quad (R180, R183). -/
def State.signWait (s : State) (qi : Nat) : Bool := s.restoring qi || s.handlers12 qi
/-- Whether an ACC instruction on a tile waits (R169, R174, R182). -/
def State.accWait (s : State) (qi tile : Nat) : Bool :=
  match s.quads[qi]? with
  | none => true
  | some q => q.frozen || s.restoring qi || q.pipe.any fun i => i.acc.toNat == tile

/-! ### SIGNSET and SIGNCLR (R164, R165) -/

/-- The four waves that a SIGNSET names, by partition of one quad: the quad, if they fit (R164). -/
def State.signQuad (s : State) (t : Team) (ids : List Nat) : Option Nat :=
  match ids.map (fun i => (s.liveWave t i).bind fun w => s.waves[w]?) with
  | [some w0, some w1, some w2, some w3] =>
    let q := w0.quadIndex
    if w0.quadPos == 0 && w1.quadPos == 1 && w2.quadPos == 2 && w3.quadPos == 3
        && w1.quadIndex == q && w2.quadIndex == q && w3.quadIndex == q then some q else none
  | _ => none

/-- Arms a convergence register, or adds to its count (R164). -/
def Conv.arm (c : Conv) (ids : List Nat) (m : Nat) : Conv :=
  if 0 < c.remaining then { c with remaining := min (c.remaining + m) 65535 }
  else { c with set := ids, remaining := m }

/-- SIGNSET (R164). While the named quad holds the matrix state of no team or of another one, the own team's being
swapped out, it waits as a blocked SIGNSET does: DESIGN CHOICE, log 48. -/
def execSignset (g : Guard) (c : BitVec 3) (a b : Reg) (s : State) : Out :=
  runPath (.signset g c a b) g (fun s w gr ls =>
    let f0 := lowFibre w ls
    let sa := (f0.getPair w.zen a.toNat).toNat
    let m := (f0.getPair w.zen b.toNat).toNat % 65536
    let ids := [sa % 256, sa / 256 % 256, sa / 65536 % 256, sa / 2 ^ 24 % 256]
    let bad : PathRes := .go s fun _ f => .trap f (contextTrap (.signset g c a b) 0x01)
    if gr.width = 16 ∨ m = 0 then bad
    else match (s.teamOf w).bind fun t => s.signQuad t ids with
      | none => bad
      | some q => match (s.quads[q]?).bind fun x => x.conv[c.toNat]? with
        | none => bad
        | some cv =>
          if (s.quads[q]?).bind (·.owner) ≠ some w.team ∨ (0 < cv.remaining ∧ cv.set ≠ ids) then .stall true
          else .go (s.modQuad q fun x => { x with conv := x.conv.set c.toNat (cv.arm ids m) })
            fun _ f => .done f 0) s

/-- Quads whose matrix state a team owns; one that has been swapped out is not among them, so that SIGNCLR leaves the
saved registers as they are: DESIGN CHOICE, log 48. -/
def State.ownedQuads (s : State) (tid : Nat) : List Nat :=
  (s.quads.zipIdx.filter fun q => q.1.owner == some tid).map (·.2)

def execSignclr (g : Guard) (c : BitVec 3) (s : State) : Out :=
  runPath (.signclr g c) g (fun s w _ _ =>
    .go ((s.ownedQuads w.team).foldl (fun s q => s.signClear q c.toNat) s) fun _ f => .done f 0) s

/-! ### MMQ: signing (R166, R167) -/

/-- A header byte, half or word. -/
def hdrNat (h : List Byte) (o n : Nat) : Nat := leNat ((h.drop o).take n)

/-- binary8 parameters as a byte, laid out as the CVT b field (R33). -/
def b8Par (x : Nat) : B8Par := { p := BitVec.ofNat 3 x, uns := x.testBit 3, fin := x.testBit 4 }
def b8ParOk (x : Nat) : Bool := decide (1 ≤ x % 8 ∧ x < 32)

/-- Element size of a header's fmt; a reserved fmt counts one byte (log 20). -/
def hdrSize (fmt : Nat) : Nat := match fmt with | 1 | 2 => 2 | 4 => 4 | _ => 1

def zeros (h : List Byte) (o n : Nat) : Bool := ((h.drop o).take n).all (· == 0)

/-- Whether a latched header satisfies R167 for a type. -/
def mmqHeaderOk (h : List Byte) (t : MmqTy) : Bool :=
  let par := fun (x : Nat) => if hdrNat h 0 1 = 0 then b8ParOk x else x == 0
  hdrNat h 0 1 == t.fmt && hdrNat h 2 2 == 64 && hdrNat h 4 2 == t.k && par (hdrNat h 1 1) && par (hdrNat h 7 1)
    && decide (hdrNat h 6 1 ≤ 1) && decide (hdrNat h 8 1 ≤ 1)
    && (t != .s8 || (hdrNat h 6 1 == 0 && hdrNat h 8 1 == 0))
    && zeros h 9 3 && zeros h 16 48

/-- Whether the tile of a header at off, with its strips, lies in the own core's allotment (R166). -/
def mmqInside (size off : Nat) (h : List Byte) (t : MmqTy) : Bool :=
  let rows := hdrNat h 2 2
  let cols := hdrNat h 4 2
  let elts := off + 64 + rows * cols * hdrSize (hdrNat h 0 1)
  decide (elts ≤ size) &&
    (hdrNat h 6 1 != 1 || decide (elts + rows * ((cols + 31) / 32) ≤ size)) &&
    (hdrNat h 8 1 != 1 || decide (hdrNat h 12 4 + 96 * (t.k / 32) ≤ size))

/-- The bytes of a B quarter: byte b of register vb + j in lane l at 128 j + 4 l + b (R161, R181). -/
def bQuarter (w : Wave) (vb : Reg) : List Byte :=
  (List.range 12).flatMap fun j => (List.range 32).flatMap fun l =>
    leBytes 4 ((w.fibres.getD l Fibre.empty).get false (vb.toNat + j)).toNat

/-- The check that an MMQ of a wave fails, in the order of R166; the header when all pass. -/
def mmqCheck (i : Instr) (w : Wave) (g : Grid) (t : Team) (q : Quad) (c : Conv) (ls : List Nat)
    (acc : BitVec 3) (ty : MmqTy) (off : Nat) : TrapInfo ⊕ List Byte :=
  let k := w.quadPos
  let m := t.scr (t.pair && w.core != t.core)
  let h := m.readN off 64
  if g.width = 16 ∨ !((List.range 32).all ls.contains) then .inl (contextTrap i 0x01)
  else if c.remaining = 0 ∨ c.set[k]? ≠ some w.idx then .inl (contextTrap i 0x01)
  else if (c.signed.getD k none).isSome then .inl (contextTrap i 0x01)
  else if (c.signed.any (·.isSome)) && (c.acc != acc || c.ty != ty) then .inl (contextTrap i 0x01)
  else if off % 64 ≠ 0 then .inl (trapWith 0x08 (BitVec.ofNat 32 off))
  else if g.scratch < off + 64 ∨ !mmqInside g.scratch off h ty then .inl (trapWith 0x09 (BitVec.ofNat 32 off))
  else if !mmqHeaderOk h ty then .inl (trapWith 0x10 (BitVec.ofNat 32 (hdrNat h 0 4)))
  else match q.failOf acc.toNat k with
    | some x => .inl (trapSilent (failRecord w.quadIndex x))
    | none => .inr h

/-- Records a signature; the set is ready when all four are there. -/
def Quad.sign (q : Quad) (n k : Nat) (acc : BitVec 3) (ty : MmqTy) (x : Signature) : Quad :=
  match q.conv[n]? with
  | none => q
  | some c =>
    let c1 := { c with signed := c.signed.set k (some x), acc := acc, ty := ty }
    { q with conv := q.conv.set n c1, ready := if c1.signed.all (·.isSome) then q.ready ++ [n] else q.ready }

def execMmq (g : Guard) (c acc : BitVec 3) (sa vb : Reg) (ty : MmqTy) (s : State) : Out :=
  runPath (.mmq g c acc sa vb ty) g (fun s w gr ls =>
    match s.teams[w.team]?, s.quads[w.quadIndex]? with
    | some t, some q =>
      if counterFull w.tiles || s.signWait w.quadIndex then .stall false
      else
        let off := ((s.teamSregs t).getD sa.toNat 0).toNat
        let cv := q.conv.getD c.toNat Conv.clear
        match mmqCheck (.mmq g c acc sa vb ty) w gr t q cv ls acc ty off with
        | .inl e => .go s fun _ f => .trap f e
        | .inr h =>
          let x : Signature := { off := BitVec.ofNat 64 off, header := h, b := bQuarter w vb }
          .go ((s.modQuad w.quadIndex fun q => q.sign c.toNat w.quadPos acc ty x).modWave s.cur.wave
              fun w => { w with tiles := w.tiles + 1 })
            fun _ f => .done f 0
    | _, _ => .stall false) s

/-! ### Issue (R168) -/

/-- What partition k reads at issue: the bytes of its A rows and scales, and of its B scale strip. -/
def pinA (t : Team) (core : Nat) (ty : MmqTy) (k : Nat) (x : Signature) : List Byte × List Byte :=
  let m := t.scr (t.pair && core != t.core)
  let row := ty.k * ty.size
  let sb := ty.k / 32
  let off := x.off.toNat
  let rows := m.readN (off + 64 + 16 * k * row) (16 * row)
  let scales := if hdrNat x.header 6 1 = 1 then m.readN (off + 64 + 64 * row + 16 * k * sb) (16 * sb) else []
  let bs := if hdrNat x.header 8 1 = 1 then m.readN (hdrNat x.header 12 4) (96 * sb) else []
  (rows ++ scales, bs)

/-- Mismatches that armed injections force on the MMQ that issues (R385). -/
def State.forceOf (s : State) (qi : Nat) : State × Nat :=
  let a := match s.takeInject 3 2 (qi / 2) (qi % 2) with | some x => (x, 1) | none => (s, 0)
  match a.1.takeInject 4 2 (qi / 2) (qi % 2) with | some x => (x, 2) | none => a

/-- Whether quad qi can issue: a complete set waits and the quad is not frozen. -/
def State.canIssue (s : State) (qi : Nat) : Bool :=
  match s.quads[qi]? with
  | some q => !q.ready.isEmpty && !q.frozen && !s.signWait qi && q.owner.isSome
  | none => false

/-- The next ready MMQ of a quad issues. -/
def State.mmqIssue (s : State) (qi : Nat) : State :=
  match s.quads[qi]? with
  | none => s
  | some q => match q.ready, q.owner.bind fun t => s.teams[t]? with
    | n :: rest, some t =>
      let c := q.conv.getD n Conv.clear
      let sigs := c.signed.filterMap id
      let pins := sigs.mapIdx fun k x => pinA t (qi / 2) c.ty k x
      let r := (s.meetResidue qi c.acc.toNat 0 0).forceOf qi
      let x : Issued := { acc := c.acc, ty := c.ty, set := c.set, sigs := sigs, a := pins.map (·.1),
                          bs := pins.map (·.2), force := r.2 }
      r.1.modQuad qi fun q =>
        { q with
          conv := q.conv.set n { c with remaining := c.remaining - 1, signed := [none, none, none, none] }
          ready := rest
          pipe := q.pipe ++ [x] }
    | _, _ => s

def execMmqIssue (q : Nat) (s : State) : Out := onRun (fun s => s.canIssue q) (fun s => s.mmqIssue q) s

/-! ### Arithmetic (R161, R163, R170) -/

/-- The value of an element code of a type with binary8 parameters. -/
def mmqVal (t : MmqTy) (par code : Nat) : FVal :=
  match t with
  | .b8 => (b8Par par).dec code
  | .bf16 => IFmt.bf16.dec code
  | .f16 => IFmt.f16.dec code
  | .s8 => .fin (decide (128 ≤ code)) (if code < 128 then code else 256 - code) 0

/-- A value scaled by an E8 code (R124). -/
def e8Scale (code : Option Nat) (v : FVal) : FVal :=
  match code, v with
  | none, v => v
  | some 255, _ => .nan false
  | some e, .fin n m x => .fin n m (x + (e : Int) - 127)
  | some _, v => v

/-- Element (r, kk) of A, r within the partition's 16 rows. -/
def mmqA (i : Issued) (k r kk : Nat) : FVal :=
  let sz := i.ty.size
  let h := ((i.sigs[k]?).map (·.header)).getD []
  let bs := i.a.getD k []
  let row := i.ty.k * sz
  let code := hdrNat bs (r * row + kk * sz) sz
  let scl := if hdrNat h 6 1 = 1 then some (hdrNat bs (16 * row + r * (i.ty.k / 32) + kk / 32) 1) else none
  e8Scale scl (mmqVal i.ty (hdrNat h 1 1) code)

/-- The code of B[kk][n] (R161). -/
def mmqBCode (i : Issued) (kk n : Nat) : Nat :=
  let b := ((i.sigs[n / 24]?).map (·.b)).getD []
  let m := n % 24
  if i.ty.size = 1 then hdrNat b (128 * (6 * (kk % 2) + m / 4) + 4 * (kk / 2) + m % 4) 1
  else hdrNat b (128 * (m / 2) + 4 * kk + 2 * (m % 2)) 2

/-- Element B[kk][n] as partition k uses it: with its own header's parameters and B scales. -/
def mmqB (i : Issued) (k kk n : Nat) : FVal :=
  let h := ((i.sigs[k]?).map (·.header)).getD []
  let scl := if hdrNat h 8 1 = 1 then some (hdrNat (i.bs.getD k []) (n * (i.ty.k / 32) + kk / 32) 1) else none
  e8Scale scl (mmqVal i.ty (hdrNat h 7 1) (mmqBCode i kk n))

/-- An exact dyadic number: n * 2^e. -/
abbrev Dyadic := Int × Int
/-- The exact sum of two. -/
def Dyadic.add (x y : Dyadic) : Dyadic :=
  if x.2 ≤ y.2 then (x.1 + y.1 * 2 ^ (y.2 - x.2).toNat, x.2) else (x.1 * 2 ^ (x.2 - y.2).toNat + y.1, y.2)
def signedInt (n : Bool) (m : Nat) : Int := if n then -m else m

/-- What the terms of one element come to: an exact sum, with the infinities and NaNs seen. -/
structure DotAcc where
  sum : Dyadic
  pinf : Bool
  ninf : Bool
  nan : Bool
  deriving DecidableEq, Repr

/-- Adds one value. -/
def DotAcc.put (d : DotAcc) (v : FVal) : DotAcc :=
  match v with
  | .nan _ => { d with nan := true }
  | .inf n => if n then { d with ninf := true } else { d with pinf := true }
  | .fin n m e => { d with sum := d.sum.add (signedInt n m, e) }

/-- The product of two values, a NaN for zero times infinity. -/
def mulVal (x y : FVal) : FVal :=
  match x, y with
  | .nan _, _ | _, .nan _ => .nan false
  | .inf n, .inf k => .inf (n != k)
  | .inf n, .fin k m _ => if m = 0 then .nan false else .inf (n != k)
  | .fin n m _, .inf k => if m = 0 then .nan false else .inf (n != k)
  | .fin n m e, .fin k m' e' => .fin (n != k) (m * m') (e + e')

/-- The new code of a floating-point element (R170). -/
def dotFinish (old : Nat) (d : DotAcc) : Nat :=
  let o := IFmt.f32.dec old
  let opinf := o == .inf false
  let oninf := o == .inf true
  if o.isNan || d.nan || ((opinf || d.pinf) && (oninf || d.ninf)) then 0x7FC00000
  else if opinf || d.pinf then IFmt.f32.infCode
  else if oninf || d.ninf then IFmt.f32.signed true IFmt.f32.infCode
  else if d.sum.1 = 0 then old
  else match o with
    | .fin n m e =>
      let t := d.sum.add (signedInt n m, e)
      if t.1 = 0 then 0 else (IFmt.f32.deliver .rne false false (decide (t.1 < 0)) t.1.natAbs t.2).1
    | _ => old

/-- The new value of element (row, col) of the tile, from its old value. -/
def mmqElt (i : Issued) (row col : Nat) (old : Word) : Word :=
  let k := row / 16
  let terms := (List.range i.ty.k).map fun kk => mulVal (mmqA i k (row % 16) kk) (mmqB i k kk col)
  let d := terms.foldl DotAcc.put { sum := (0, 0), pinf := false, ninf := false, nan := false }
  match i.ty with
  | .s8 => old + BitVec.ofInt 32 d.sum.1
  | _ => BitVec.ofNat 32 (dotFinish old.toNat d)

/-- The tile after the MMQ. -/
def Quad.multiply (q : Quad) (i : Issued) : Quad :=
  let lo := accIdx i.acc.toNat 0 0
  { q with acc := q.acc.setRange lo ((q.acc.getN lo 6144).mapIdx fun x old => mmqElt i (x / 96) (x % 96) old) }

/-! ### Commit (R171, R172) -/

/-- What the checks come to: whether the increment commits, whether a replay was needed, and the record of a failure. -/
def checkOut (i : Issued) (c : MmqCheck) : Bool × Bool × Option (Byte × Nat × Nat × Bool) :=
  match i.force with
  | 2 => (false, true, some (1, 127, 0, true))
  | 1 => (true, true, none)
  | _ => match c with
    | .agree => (true, false, none)
    | .replayAgrees => (true, true, none)
    | .columnFails col => (false, true, some (1, 127, col % 96, false))
    | .residueFails row col => (false, true, some (2, row % 64, col % 96, false))

/-- One transient event in each partition of a quad. -/
def State.quadTransient (s : State) (qi : Nat) : State :=
  (List.range 4).foldl (fun s k => s.modPart (4 * qi + k) fun p => { p with cnt := p.cnt + 1 }) s

/-- The tiles counters of the waves of a set fall by one. -/
def State.tilesFall (s : State) (tid : Nat) (set : List Nat) : State :=
  match s.teams[tid]? with
  | none => s
  | some t => set.foldl (fun s idx => match t.waves[idx]? with
      | some w => (s.modWave w fun x => { x with tiles := x.tiles - 1 }).checkWaveEnd w
      | none => s) s

/-- The oldest issued MMQ of a quad commits, or is discarded. -/
def State.mmqCommit (s : State) (qi : Nat) (c : MmqCheck) : State :=
  match s.quads[qi]? with
  | none => s
  | some q => match q.pipe with
    | [] => s
    | i :: rest =>
      let r := checkOut i c
      let q1 := { q with pipe := rest }
      let q2 := if r.1 then q1.multiply i
        else match r.2.2 with
          | some (code, row, col, inj) => (List.range 4).foldl (fun q k =>
              q.fail { tile := i.acc.toNat, slice := k, code := code, row := row, col := col, inj := inj }) q1
          | none => q1
      let s1 := s.modQuad qi fun _ => q2
      let s2 := if r.1 && r.2.1 then s1.quadTransient qi else s1
      match q.owner with
      | some t => s2.tilesFall t i.set
      | none => s2

def execMmqCommit (q : Nat) (c : MmqCheck) (s : State) : Out :=
  onRun (fun s => match s.quads[q]? with | some x => !x.pipe.isEmpty | none => false) (fun s => s.mmqCommit q c) s

/-! ### ACCZ, ACCRD, ACCWR (R175, R176) -/

def execAccz (g : Guard) (t : BitVec 3) (s : State) : Out :=
  runPath (.accz g t) g (fun s w _ _ =>
    if s.accWait w.quadIndex t.toNat then .stall false
    else .go (s.modQuad w.quadIndex fun q =>
        (q.setSlice t.toNat w.quadPos (List.replicate 1536 0)).unfail t.toNat w.quadPos)
      fun _ f => .done f 0) s

/-- Fields of an ACCRD or ACCWR descriptor. -/
def accRow (x : Word) : Nat := x.toNat % 16
def accCol (x : Word) : Nat := x.toNat / 256 % 128
def accCv (x : Word) : Nat := x.toNat / 65536 % 8
def accPar (x : Word) : B8Par := { p := x.extractLsb' 19 3, uns := x.getLsbD 22, fin := x.getLsbD 23 }
/-- Elements that a descriptor reads. -/
def accCount (cv : Nat) : Nat := match cv with | 0 => 1 | 3 => 4 | _ => 2

/-- Whether a descriptor is bad (R176). -/
def accBad (wr : Bool) (x : Word) : Bool :=
  (x &&& 0xFF0080F0#32) != 0 || decide (4 ≤ accCv x) || (accCv x == 3 && (accPar x).p == 0)
    || (wr && accCv x != 0) || decide (96 < accCol x + accCount (accCv x))

/-- What a descriptor reads of a slice: flags per element, and the word. -/
def accRead (rm : Rnd) (sat : Bool) (slice : List Word) (x : Word) : List (BitVec 6) × Word :=
  let e := fun i => (slice.getD (accRow x * 96 + accCol x + i) 0)
  let n := accCount (accCv x)
  let conv := fun (v : Word) => match accCv x with
    | 1 => fpConv .f32 .f16 rm sat v.toNat
    | 2 => fpConv .f32 .bf16 rm sat v.toNat
    | _ => (accPar x).ofVal rm sat (IFmt.f32.dec v.toNat)
  if accCv x = 0 then ([0], e 0)
  else
    let rs := (List.range n).map fun i => conv (e i)
    (rs.map (·.2), BitVec.ofNat 32 (rs.reverse.foldl (fun v r => v * 2 ^ (32 / n) + r.1) 0))

/-- The least row and column that the executing fibres' good descriptors name. -/
def lowElt (xs : List Word) : Option Nat :=
  (xs.filter fun x => !accBad false x).foldl (fun m x =>
    let v := accRow x * 96 + accCol x
    some (match m with | some y => min y v | none => v)) none

/-- ACCRD. sr.evalue of trap 0x03 is the index of the element in its register, 0 to 3 for a binary8 quad: DESIGN CHOICE, log
54, since R122 speaks of two elements. -/
def execAccrd (g : Guard) (d a : Reg) (t : BitVec 3) (s : State) : Out :=
  runPath (.accrd g d a t) g (fun s w _ ls =>
    if s.accWait w.quadIndex t.toNat then .stall false
    else
      let qi := w.quadIndex
      let desc := fun (f : Fibre) => f.get false a.toNat
      match lowElt (ls.map fun l => desc (w.fibres.getD l Fibre.empty)) with
      | none => .go s fun _ f => .trap f (trapWith 0x01 (desc f))
      | some v =>
        let s1 := s.meetResidue qi t.toNat (16 * w.quadPos + v / 96) (v % 96)
        let q := s1.quads.getD qi Quad.clear
        let slice := q.slice t.toNat w.quadPos
        let fl := q.failOf t.toNat w.quadPos
        .go s1 fun _ f =>
          if accBad false (desc f) then .trap f (trapWith 0x01 (desc f))
          else match fl with
            | some x => .trap f (trapSilent (failRecord qi x))
            | none =>
              let r := accRead s.hintRnd s.hintSat slice (desc f)
              fpEnd (s.invOn w) f r.1 (f.set false d.toNat r.2)) s

/-- ACCWR of the executing lanes, in lane order. -/
def accWrites (gr : Grid) (w : Wave) (d a : Reg) (tile : Nat) (q : Quad) (ls : List Nat) : Quad :=
  ls.foldl (fun q l =>
    let f := w.fibres.getD l Fibre.empty
    let x := f.get false a.toNat
    let v := f.get false d.toNat
    if accBad true x || (markerTrap gr [v]).isSome then q
    else { q with acc := q.acc.put (accIdx tile (16 * w.quadPos + accRow x) (accCol x)) v }) q

def execAccwr (g : Guard) (d a : Reg) (t : BitVec 3) (s : State) : Out :=
  runPath (.accwr g d a t) g (fun s w gr ls =>
    if s.accWait w.quadIndex t.toNat then .stall false
    else .go (s.modQuad w.quadIndex fun q => accWrites gr w d a t.toNat q ls)
      fun _ f =>
        if accBad true (f.get false a.toNat) then .trap f (trapWith 0x01 (f.get false a.toNat))
        else match markerTrap gr [f.get false d.toNat] with
          | some e => .trap f e
          | none => .done f 0) s

/-! ### ACCCV (R177) -/

/-- Whether a header satisfies R177. -/
def acccvHeaderOk (h : List Byte) : Bool :=
  let fmt := hdrNat h 0 1
  decide (fmt ≤ 4) && hdrNat h 2 2 == 64 && hdrNat h 4 2 == 96 && hdrNat h 6 1 == 0 && hdrNat h 8 1 == 0
    && (fmt != 0 || b8ParOk (hdrNat h 1 1)) && zeros h 9 3 && zeros h 16 48

/-- One element converted for a tile of format fmt: code and flags. -/
def acccvElt (fmt par : Nat) (rm : Rnd) (sat : Bool) (v : Word) : FRes :=
  match fmt with
  | 0 => (b8Par par).ofVal rm sat (IFmt.f32.dec v.toNat)
  | 1 => fpConv .f32 .bf16 rm sat v.toNat
  | 2 => fpConv .f32 .f16 rm sat v.toNat
  | 3 => let r := cvtInt rm (-128) 127 flNX v.toNat; ((r.1 % 256).toNat, r.2)
  | _ => (v.toNat, 0)

/-- ACCCV (R177). A header that itself lies outside the allotment can not be judged, and traps 0x09 although R172 puts
0x10 first: DESIGN CHOICE, log 48. -/
def execAcccv (g : Guard) (a : Reg) (t : BitVec 3) (s : State) : Out :=
  runPath (.acccv g a t) g (fun s w gr ls =>
    match s.teams[w.team]? with
    | none => .stall false
    | some tm =>
      if counterFull w.tiles || s.accWait w.quadIndex t.toNat then .stall false
      else
        let qi := w.quadIndex
        let off := ((lowFibre w ls).getPair false a.toNat).toNat
        let h := (tm.scr (tm.pair && w.core != tm.core)).readN off 64
        let fmt := hdrNat h 0 1
        let e := hdrSize fmt
        let all := fun (s : State) (x : TrapInfo) => PathRes.go s fun _ f => .trap f x
        if off % 64 ≠ 0 then all s (trapWith 0x08 (BitVec.ofNat 32 off))
        else if gr.scratch < off + 64 then all s (trapWith 0x09 (BitVec.ofNat 32 off))
        else if !acccvHeaderOk h then all s (trapWith 0x10 (BitVec.ofNat 32 (hdrNat h 0 4)))
        else if gr.scratch < off + 64 + 6144 * e then all s (trapWith 0x09 (BitVec.ofNat 32 off))
        else
          let s1 := s.meetResidue qi t.toNat (16 * w.quadPos) 0
          let q := s1.quads.getD qi Quad.clear
          match q.failOf t.toNat w.quadPos with
          | some x => all s1 (trapSilent (failRecord qi x))
          | none =>
            let rs := (q.slice t.toNat w.quadPos).map (acccvElt fmt (hdrNat h 1 1) s.hintRnd s.hintSat)
            match (if s.invOn w then rs.findIdx? (fun r => r.2.getLsbD 0) else none) with
            | some k => all s1 (trapWith 0x03 (BitVec.ofNat 32 k))
            | none =>
              let base := off + 64 + 1536 * w.quadPos * e
              let bytes := (rs.flatMap fun r => leBytes e r.1).mapIdx fun i b => (base + i, b)
              let fl := (rs.map (·.2)).foldl (· ||| ·) 0
              .go ({ s1.modWave s.cur.wave (fun w => { w with tiles := w.tiles + 1 }) with
                    tileOps := s1.tileOps ++ [{ wave := s.cur.wave, lanes := ls, work := .convert bytes, record := none, unread := none, psn := false }] })
                fun _ f => .done f fl) s

/-! ### MDRAIN, MREST, MSTAT (R179 to R181) -/

/-- Bytes of a save area. -/
def saveSize : Nat := 62528

/-- The record of convergence register c for position k (R181). One with no signature of its wave holds the register's acc and
type, and 0 for the offset: DESIGN CHOICE, log 54. -/
def convBytes (c : Conv) (k : Nat) : List Byte :=
  let setWord := (c.set.zipIdx.map fun p => p.1 % 256 * 256 ^ p.2).sum
  match c.signed.getD k none with
  | some x => leBytes 4 c.remaining ++ leBytes 4 setWord ++ leBytes 4 (1 + 2 * c.acc.toNat + 16 * c.ty.fmt)
      ++ leBytes 4 0 ++ leBytes 8 x.off.toNat ++ List.replicate 40 0 ++ x.header ++ x.b
  | none => leBytes 4 c.remaining ++ leBytes 4 setWord ++ leBytes 4 (2 * c.acc.toNat + 16 * c.ty.fmt)
      ++ leBytes 4 0 ++ leBytes 8 0 ++ List.replicate 40 0 ++ List.replicate 1600 0

/-- The save area of position k of a quad, for wave index idx (R181). The type code of a record is that of R160's f. -/
def Quad.saveBytes (q : Quad) (idx k : Nat) : List Byte :=
  let flags := ((List.range 8).map fun m => if (q.failOf m k).isSome then 2 ^ m else 0).sum
  ((List.range 8).flatMap fun m => (q.slice m k).flatMap fun v => leBytes 4 v.toNat)
    ++ leBytes 4 1 ++ leBytes 4 (idx % 256 + 256 * k) ++ leBytes 4 flags ++ List.replicate 52 0
    ++ q.conv.flatMap fun c => convBytes c k

/-- A convergence register as a record restores it at position k. -/
def convFrom (c : Conv) (k : Nat) (bs : List Byte) : Conv :=
  let w := hdrNat bs 8 4
  let ty : MmqTy := match w / 16 % 4 with | 0 => .b8 | 1 => .bf16 | 2 => .f16 | _ => .s8
  let setW := hdrNat bs 4 4
  let sig : Option Signature := if w % 2 = 1 then
      some { off := BitVec.ofNat 64 (hdrNat bs 16 8), header := (bs.drop 64).take 64, b := (bs.drop 128).take 1536 }
    else none
  { c with
    set := [setW % 256, setW / 256 % 256, setW / 65536 % 256, setW / 2 ^ 24 % 256]
    remaining := hdrNat bs 0 4
    signed := c.signed.set k sig
    acc := if sig.isSome then BitVec.ofNat 3 (w / 2) else c.acc
    ty := if sig.isSome then ty else c.ty }

/-- A failed slice whose details a save area does not keep: what trap 0x07 reports for it is open (log 21). -/
def failFree (n tile k : Nat) : FailedSlice :=
  let code := Config.freeNat n % 3 + 1
  { tile := tile, slice := k, code := BitVec.ofNat 8 code,
    row := if code = 1 then 127 else 16 * k + Config.freeNat (n + 1) % 16, col := Config.freeNat (n + 2) % 96,
    inj := Config.freeBool n }

/-- Position k of a quad restored from a save area (R180): a set that the record leaves incomplete is no longer ready, and
sets that it makes complete follow in ascending register number: DESIGN CHOICE, log 54. -/
def Quad.restore (q : Quad) (k ctr : Nat) (bs : List Byte) : Quad :=
  let q1 := (List.range 8).foldl (fun q m =>
    let vs := (List.range 1536).map fun i => BitVec.ofNat 32 (hdrNat bs (6144 * m + 4 * i) 4)
    (q.setSlice m k vs).unfail m k) q
  let flags := hdrNat bs 0xC008 4
  let q2 := (List.range 8).foldl (fun q m => if flags.testBit m then q.fail (failFree (ctr + 3 * m) m k) else q) q1
  let cs := q2.conv.mapIdx fun n c => convFrom c k ((bs.drop (0xC040 + 0x680 * n)).take 0x680)
  let full := fun (n : Nat) => match cs[n]? with | some c => c.signed.all (·.isSome) | none => false
  let old := q2.ready.filter full
  { q2 with conv := cs, ready := old ++ (List.range 8).filter fun n => !old.contains n && full n
            resume := q2.resume.map fun ks => ks.filter (· != k) }

/-- The lane that MDRAIN and MREST take their address from is the lowest executing one (log 22). -/
def execMdrain (g : Guard) (a : Reg) (s : State) : Out :=
  runPath (.mdrain g a) g (fun s w _ ls =>
    if counterFull w.tiles then .stall false
    else
      let va := (lowFibre w ls).getPair false a.toNat
      if va.toNat % 256 ≠ 0 then .go s fun _ f => .trap f (trapWith 0x08 (lo32 va))
      else
        let s1 := (s.meetResidue w.quadIndex 0 (16 * w.quadPos) 0).releaseAct s.cur.wave w.core true
        .go ({ s1.modWave s.cur.wave (fun w => { w with tiles := w.tiles + 1 }) with
              tileOps := s1.tileOps ++
                [{ wave := s.cur.wave, lanes := ls, work := .drain va, record := none, unread := none, psn := false }] })
          fun _ f => .done f 0) s

/-- The trap of an MREST whose status block is not that of its wave's partition (R180). -/
def Wave.saveRefused (w : Wave) (i : Word) (st : List Byte) : Option TrapInfo :=
  if hdrNat st 0 4 ≠ 1 then some (trapWith 0x10 (BitVec.ofNat 32 (hdrNat st 0 4)))
  else if hdrNat st 4 1 ≠ w.idx % 256 ∨ hdrNat st 5 1 % 4 ≠ w.quadPos then some (trapWith 0x01 i)
  else none

/-- What the engine of a wave's quad reads of n bytes, the team's own staged bytes first (R289), and whether the line
is poisoned. -/
def State.quadRead (s : State) (tid : Nat) (key n : Nat) : State × List Byte × Bool :=
  let r := s.engineRead key n
  (r.1, overlay (match s.teams[tid]? with | some t => t.stage | none => []) key r.2.1, r.2.2)

/-- MREST reads its status block as it issues; where that faults, it waits at its quad on the record and reads the block at
its completion (R268). One MREST at a time on a quad: DESIGN CHOICE, log 54, since R180 names signing, issue and ACC
instructions alone. -/
def execMrest (g : Guard) (a : Reg) (s : State) : Out :=
  runPath (.mrest g a) g (fun s w gr ls =>
    if counterFull w.tiles || s.restoring w.quadIndex then .stall false
    else
      let va := (lowFibre w ls).getPair false a.toNat
      let all := fun (s : State) (x : TrapInfo) => PathRes.go s fun _ f => .trap f x
      let start := fun (s1 : State) (rec_ unread : Option Word) (psn : Bool) =>
        PathRes.go ({ s1.modWave s.cur.wave (fun w => { w with tiles := w.tiles + 1 }) with
              tileOps := s1.tileOps ++
                [{ wave := s.cur.wave, lanes := ls, work := .restore va, record := rec_, unread := unread, psn := psn }] })
          fun _ f => .done f 0
      if va.toNat % 256 ≠ 0 then all s (trapWith 0x08 (lo32 va))
      else match s.translate gr.asid gr.priv false needLoad (va + 0xC000) with
        | .ok p key =>
          let r := ((s.leadVia p (va + 0xC000).toNat key).releaseAct s.cur.wave w.core true).quadRead w.team key 8
          match w.saveRefused (encode (.mrest g a)) r.2.1 with
          | some t => all r.1 t
          | none => start (r.1.consumeIf s.cur.wave r.2.2) none none r.2.2
        | .far => all s (trapWith 0x04 (lo32 (va + 0xC000)))
        | .fault k page sz key =>
          match s.raiseFault (dieOf w.core) .matrix gr.asid (va + 0xC000) k page sz key with
          | (s1, .deliver c) => all s1 (trapWith c (lo32 (va + 0xC000)))
          | (s1, .parked h) => start (s1.releaseAct s.cur.wave w.core true) (some h) (some (encode (.mrest g a))) false
          | (_, .full) => .stall false
        | .wait => .stall false
        | .hole key => .fault (.memoryHole key)) s

/-- The status word of a wave for MSTAT (R179); 0 for a wave whose matrix state is not in its quad: DESIGN CHOICE,
log 48. -/
def State.mstatWord (s : State) (w : Wave) : Word :=
  let qi := w.quadIndex
  let q := s.quads.getD qi Quad.clear
  if q.owner ≠ some w.team then 0
  else
    let k := w.quadPos
    let bits := fun (p : Nat → Bool) => ((List.range 8).map fun n => if p n then 2 ^ n else 0).sum
    let sig := bits fun n => match q.conv[n]? with
      | some c => c.set[k]? == some w.idx && (c.signed.getD k none).isSome | none => false
    let arm := bits fun n => match q.conv[n]? with | some c => decide (0 < c.remaining) | none => false
    let fl := bits fun m => (q.failOf m k).isSome
    bit1 (s.restoring qi) ++ bit1 q.frozen ++ (0#6) ++ BitVec.ofNat 8 sig ++ BitVec.ofNat 8 arm ++ BitVec.ofNat 8 fl

def execMstat (g : Guard) (d a : Reg) (s : State) : Out :=
  runPath (.mstat g d a) g (fun s w _ _ =>
    .go s fun _ f =>
      let idx := ((f.get w.zen a.toNat).extractLsb' 0 8 : BitVec 8).toNat
      let v := match (s.teamOf w).bind fun t => (s.liveWave t idx).bind fun x => s.waves[x]? with
        | some x => s.mstatWord x
        | none => 0xFFFFFFFF#32
      .done (f.setZ w.zen d.toNat v) 0) s

end Sys2Proof.Machine
end

