-- ==== Sys2Proof/Machine/Copy.lean ====
section
/-! DEFINITION. The copy engine, queue registers, WAITN and SLEEPT (08_copy_engine R185 to R205; 04 R125, R126), and
the engines' accesses that fault (11 R268, R271). -/

namespace Sys2Proof.Machine

/-! ### Accesses of engines (R268, R289) -/

/-- Why an engine's access cannot go on. -/
inductive Block where
  | fault (va : DWord) (k : FaultKind) (page : Nat) (sz : BitVec 2) (key : Nat)
  | far (va : DWord)
  | wait
  | hole (key : Nat)
  deriving DecidableEq, Repr

/-- A range cut at line boundaries. -/
def cutLines (va n : Nat) : List (Nat × Nat) :=
  (List.range (n / 128 + 2)).filterMap fun i =>
    let lo := max va ((va / 128 + i) * 128)
    let hi := min (va + n) ((va / 128 + i) * 128 + 128)
    if lo < hi then some (lo, hi - lo) else none

/-- Translates pieces in order: the physical pieces before the first that cannot be reached, and what stops it. -/
def State.reach (s : State) (asid : Nat) (priv : Bool) (need : Need) : List (Nat × Nat) →
    List (Nat × Nat) × Option Block
  | [] => ([], none)
  | (va, n) :: rest =>
    let a := BitVec.ofNat 64 va
    match s.translate asid priv true need a with
    | .ok _ key => let r := s.reach asid priv need rest; ((key, n) :: r.1, r.2)
    | .far => ([], some (.far a))
    | .fault k page sz key => ([], some (.fault a k page sz key))
    | .wait => ([], some .wait)
    | .hole key => ([], some (.hole key))

/-- An engine fetches the lines of ranges of a space (R267). -/
def State.leadPieces (s : State) (asid : Nat) (ps : List (Nat × Nat)) : State :=
  ps.foldl (fun s p => match s.findPage asid p.1 with
    | some pg => s.leadVia pg p.1 (pg.key p.1)
    | none => s) s

/-- Reads physical pieces for team tid: the bytes, and whether a line was poisoned. -/
def State.readPieces (s : State) (tid : Nat) : List (Nat × Nat) → State × List Byte × Bool
  | [] => (s, [], false)
  | (key, n) :: rest =>
    let r := s.quadRead tid key n
    let q := r.1.readPieces tid rest
    (q.1, r.2.1 ++ q.2.1, r.2.2 || q.2.2)

/-- Whether team tid is a killed team of a deterministic grid, whose later effects are discarded (R292). -/
def State.discards (s : State) (tid : Nat) : Bool :=
  match s.teams[tid]? with
  | some t => t.killed && (match s.grids[t.grid]? with | some g => g.det | none => false)
  | none => false

/-- Whether an effect of team tid goes into its stage: the team does not hold the turn, or its release has to wait (R289,
R290). -/
def State.stages (s : State) (tid : Nat) : Bool :=
  s.staging tid || (match s.teams[tid]? with | some t => !t.stage.isEmpty | none => false)

/-- A write of an engine for team tid: staged while the team does not hold the turn (R289). The team's own caches follow it
(R204, R218). None when the stage is full (R291). -/
def State.engineStore (s : State) (tid key : Nat) (bs : List Byte) : Option State :=
  if s.discards tid then some s
  else
    let s1 := if s.staging tid then s else s.drainStage tid
    if s1.stages tid then s1.stageIn tid (.store key bs)
    else
      let s2 := match s1.teams[tid]? with | some t => s1.dropCopies t.cores (lineOf key) | none => s1
      some ((s2.takeLine key).homeWrite key bs)

/-- Writes bytes over physical pieces, in order. -/
def State.writePieces (s : State) (tid : Nat) : List (Nat × Nat) → List Byte → Option State
  | [], _ => some s
  | (key, n) :: rest, bs =>
    match s.engineStore tid key (bs.take n) with
    | some s1 => s1.writePieces tid rest (bs.drop n)
    | none => none

/-! ### Copy commands (R191 to R193) -/

structure CopyCmd where
  tag : Half
  ob : Bool
  obw : Nat
  scp : Nat
  mbx : Nat
  mb : Bool
  note : Bool
  scl : Bool
  sparam : Nat
  sfmt : Nat
  x : Bool
  dkind : Nat
  skind : Nat
  w1 : Nat
  w2 : Nat
  w3 : Nat
  deriving DecidableEq, Repr

/-- Bits [lo + n - 1 : lo] of a number. -/
def bits (x lo n : Nat) : Nat := x / 2 ^ lo % 2 ^ n

/-- The fields of four command words. -/
def readCmd (cw : List DWord) : CopyCmd :=
  let a := (cw.getD 0 0).toNat
  { tag := BitVec.ofNat 16 (bits a 48 16), ob := a.testBit 46, obw := bits a 38 8, scp := bits a 35 3,
    mbx := bits a 23 12, mb := a.testBit 22, note := a.testBit 21, scl := a.testBit 20, sparam := bits a 12 8,
    sfmt := bits a 7 5, x := a.testBit 6, dkind := bits a 3 3, skind := bits a 0 3,
    w1 := (cw.getD 1 0).toNat, w2 := (cw.getD 2 0).toNat, w3 := (cw.getD 3 0).toNat }

def CopyCmd.cols (c : CopyCmd) : Nat := bits c.w3 0 16
def CopyCmd.rows (c : CopyCmd) : Nat := bits c.w3 16 16
/-- Stored row length L. -/
def CopyCmd.rowLen (c : CopyCmd) : Nat :=
  if c.x then match c.sfmt with
    | 2 | 3 => 2 * c.cols | 4 => 4 * c.cols | 6 => c.cols / 2 | 7 => 3 * c.cols / 4 | 8 => c.cols / 5 | _ => c.cols
  else c.cols
/-- S: gstride, or L. -/
def CopyCmd.stride (c : CopyCmd) : Nat := if bits c.w3 32 32 = 0 then c.rowLen else bits c.w3 32 32
/-- Canonical fmt of a storage format, and the tile's element size. -/
def CopyCmd.fmt (c : CopyCmd) : Nat := match c.sfmt with | 1 => 0 | 2 => 2 | 3 => 1 | 4 => 4 | _ => 3
def CopyCmd.elt (c : CopyCmd) : Nat := hdrSize c.fmt
def CopyCmd.ap (c : CopyCmd) : Nat := if c.sfmt = 1 then c.sparam else 0
/-- Scale bytes of the whole tile. -/
def CopyCmd.scales (c : CopyCmd) : Nat := if c.scl then c.rows * ((c.cols + 31) / 32) else 0
def CopyCmd.tileSize (c : CopyCmd) : Nat := 64 + c.rows * c.cols * c.elt + c.scales
def CopyCmd.va1 (c : CopyCmd) : Nat := bits c.w1 0 57
def CopyCmd.off1 (c : CopyCmd) : Nat := bits c.w1 0 21
def CopyCmd.va2 (c : CopyCmd) : Nat := bits c.w2 0 57
def CopyCmd.off2 (c : CopyCmd) : Nat := bits c.w2 0 21
def CopyCmd.list (c : CopyCmd) : Nat := bits c.w2 32 21
def CopyCmd.window (c : CopyCmd) : Nat := bits c.w1 48 12
def CopyCmd.block (c : CopyCmd) : Nat := bits c.w1 0 48
/-- Expand and pack (R193). -/
def CopyCmd.pack (c : CopyCmd) : Bool := c.x && c.skind == 1

/-- The acceptance conditions of R194, but for OB. -/
def CopyCmd.ok (c : CopyCmd) (cw0 : DWord) : Bool :=
  !cw0.getLsbD 47 && (c.ob || c.obw == 0) && (c.mb || c.mbx == 0)
  && decide (c.scp ≤ 5) && decide (c.dkind ≤ 1) && decide (c.skind ≤ 3) && decide (c.sfmt ≤ 8)
  && (match c.sfmt with
      | 1 => b8ParOk c.sparam
      | 6 | 7 => decide (c.sparam ≤ 1)
      | _ => c.sparam == 0)
  && (match c.sfmt with
      | 6 => c.cols % 2 == 0 | 7 => c.cols % 4 == 0 | 8 => c.cols % 5 == 0 | _ => true)
  && (if c.x then
        c.sfmt != 0 && ((c.dkind == 1 && c.skind != 1) || (c.skind == 1 && c.dkind == 0))
        && decide (c.rows ≤ 4096) && decide (c.cols ≤ 4096)
        && (if c.pack then c.off1 % 64 == 0 else c.off2 % 64 == 0)
      else c.sfmt == 0 && !c.scl)
  && (c.skind != 3 || (c.dkind == 1 && !c.scl && c.list % 4 == 0))
  && c.rows != 0 && c.cols != 0
  && (match c.skind with
      | 1 => c.w1 == c.off1
      | 2 => bits c.w1 60 4 == 0 && bits c.w3 32 32 == 0
      | _ => c.w1 == c.va1)
  && (if c.dkind = 1 then bits c.w2 21 11 == 0 && bits c.w2 53 11 == 0 && (c.skind == 3 || c.list == 0)
      else c.w2 == c.va2)

/-- The scratchpad extents of a command (R194). -/
def CopyCmd.extents (c : CopyCmd) : List (Nat × Nat) :=
  (if c.skind = 1 then [(c.off1, if c.x then c.tileSize else c.rows * c.cols)] else [])
  ++ (if c.dkind = 1 then [(c.off2, if c.x then c.tileSize else c.rows * c.cols)] else [])
  ++ (if c.skind = 3 then [(c.list, 4 * c.rows)] else [])

/-! ### Storage windows (R196) -/

def State.windowOf (s : State) (n : Nat) : Option StoreWin := s.windows.find? fun w => w.num == n
def StoreWin.blockSize (w : StoreWin) : Nat := 512 * 2 ^ w.code
/-- Bytes that a storage source supplies: element rows, and the scale bytes that SCL = 1 puts after them (R195). DESIGN
CHOICE, log 54: R196 says of the stream only that its first rows x L bytes are used. -/
def CopyCmd.streamLen (c : CopyCmd) : Nat := c.rows * c.rowLen + c.scales
/-- Whether the blocks of a command lie within the namespace. -/
def CopyCmd.inNamespace (c : CopyCmd) (w : StoreWin) : Bool :=
  decide (c.block + (c.streamLen + w.blockSize - 1) / w.blockSize ≤ w.cap)

/-! ### Statuses (R200) -/

def stDone : Byte := 0
def stBadcode : Byte := 1
def stBadcmd : Byte := 2
def stBounds : Byte := 3
def stFault : Byte := 4
def stNowin : Byte := 5
def stIoerr : Byte := 6
def stFixed : Byte := 7
def stPoison : Byte := 8

/-- The cause at a WAITN of a failed copy with NOTE = 0. -/
def copyCause (st : Byte) : Option (BitVec 6) :=
  match st.toNat with
  | 1 | 2 => some 0x10
  | 3 => some 0x09
  | 4 | 5 | 6 => some 0x04
  | 7 => some 0x05
  | _ => none

/-! ### Completion, in acceptance order (R198, R200) -/

/-- Posts an entry to an output queue; a full one loses its oldest (R185). -/
def OutQueue.post (q : OutQueue) (x : DWord) : OutQueue :=
  if q.entries.length < 64 then { q with entries := q.entries ++ [x] }
  else { entries := q.entries.drop 1 ++ [x], lost := true }

/-- The entry layouts of R186. -/
def promiseEntry (tag : Half) (p : Word) : DWord := (0#16) ++ tag ++ p
def noticeEntry (time : Word) (st : Byte) (tag : Half) : DWord := time ++ (0#8) ++ st ++ tag
def storageEntry (sct : BitVec 3) (sc : Byte) (window : Nat) (tag : Half) : DWord :=
  (0#21) ++ sct ++ sc ++ (0#4) ++ BitVec.ofNat 12 window ++ tag

/-- The completion message of a copy (R338). -/
def copyMessage (tag : Half) (st : Byte) (now : DWord) (core : Nat) (wave : Nat) : List DWord :=
  [(0#32) ++ tag ++ st ++ (0x40#8), now, BitVec.ofNat 64 (core + 65536 * wave), 0, 0, 0, 0, 0]

/-- The team of a context. -/
def State.teamId (s : State) (wid : Nat) : Nat := match s.waves[wid]? with | some w => w.team | none => 0

/-- Copies of a charged context that are not released, oldest first. -/
def State.charged (s : State) (wid : Nat) : List Copy := s.engine.filter fun c => c.charged == wid

/-- Whether a team is of a deterministic grid. -/
def State.detTeam (s : State) (tid : Nat) : Bool :=
  match s.teams[tid]? with
  | some t => match s.grids[t.grid]? with | some g => g.det | none => false
  | none => false

/-- A message of team tid leaves for its target: through the stage where effects of the team are staged; a killed team's
goes nowhere, and its weight home (R292). None when the stage is full (R291). -/
def State.teamSend (s : State) (tid : Nat) (f : Flight) : Option State :=
  if s.discards tid then some (match f.weight with | some c => s.weightHome c.phase c.amount | none => s)
  else
    let s1 := if s.staging tid then s else s.drainStage tid
    if s1.stages tid then s1.stageIn tid (.message f) else some { s1 with flights := s1.flights ++ [f] }

/-- Whether a context is in the machine: what a copy gives while its issuer is saved, swapped out or not yet restored is held
back (R205). -/
def State.takes (s : State) (wid : Nat) : Bool :=
  match s.waves[wid]? with
  | some w => w.stat == .resident || w.stat == .halted || w.stat == .ended
  | none => true

/-- Releases one completed copy, in the contexts that it posts to and charges, saved or not: notice, storage status, pending failure, poison, message or weight, counter. None while its
message finds the team's stage full. -/
def State.releaseCopy (s : State) (c : Copy) (st : Byte) (sct : BitVec 3) (sc : Byte) : Option State :=
  let cmd := readCmd c.cw
  let s1 := { s with engine := s.engine.erase c }
  let s2 := if cmd.note then
      s1.modWave c.issuer fun w => { w with k2 := w.k2.post (noticeEntry (BitVec.ofNat 32 c.doneAt) st cmd.tag) }
    else match copyCause st with
      | some cause =>
        let n := (s1.charged c.charged).length
        s1.modWave c.charged fun w =>
          { w with fails := w.fails ++ [{ tag := cmd.tag, status := st, cause := cause, younger := n }] }
      | none => s1
  let s2 := if cmd.scp = 5 then
      let n := (s1.charged c.charged).length
      s2.modWave c.charged fun w => { w with sysCopies := w.sysCopies ++ [n] } else s2
  let s3 := if cmd.skind = 2 then
      s2.modWave c.issuer fun w => { w with k3 := w.k3.post (storageEntry sct sc cmd.window cmd.tag) } else s2
  let s4 := if st == stPoison then s3.consume c.charged else s3
  let tid := s.teamId c.charged
  let s5 := if cmd.mb then
      let idx := match s.waves[c.charged]? with | some w => if w.zen then 0xFFFF else w.idx | none => 0
      s4.teamSend tid { target := .mailbox cmd.mbx, words := copyMessage cmd.tag st (BitVec.ofNat 64 c.doneAt) c.core idx,
                        weight := some { phase := c.phase, amount := c.weight },
                        team := if s.detTeam tid then some tid else none, sender := none }
    else some (s4.weightFrom tid c.weight)
  s5.map fun s5 => (s5.modWave c.charged fun w => { w with copies := w.copies - 1 }).checkWaveEnd c.charged

/-- Releases the completed copies of a context, oldest first, up to the first that is still running or is held back. -/
def State.releaseCopies (s : State) (wid : Nat) : Nat → State
  | 0 => s
  | n + 1 => match s.charged wid with
    | c :: _ => match c.done with
      | some (st, sct, sc) =>
        if s.takes c.issuer then match s.releaseCopy c st sct sc with
          | some s1 => s1.releaseCopies wid n
          | none => s
        else s
      | none => s
    | [] => s

/-- Between steps: what was held back for a context appears when it is restored (R205). -/
def State.settleCopies (s : State) : State :=
  if s.engine.any fun c => c.done.isSome then
    ((s.engine.map (·.charged)).eraseDups).foldl (fun s w => s.releaseCopies w (s.engine.length + 1)) s
  else s

/-- An injected report is taken by the next copy that the engine of a core completes (R385). One that completes otherwise than
DONE takes it too, and keeps its status: DESIGN CHOICE, log 54. -/
def State.copyInject (s : State) (core : Nat) (st : Byte) : State × Byte :=
  match s.takeInject 6 3 core 0 with
  | some s1 => (s1, if st == stDone then stPoison else st)
  | none => (s, st)

/-- A copy completes with a status; what its order allows is released. -/
def State.finishCopy (s : State) (k : Nat) (st : Byte) (sct : BitVec 3) (sc : Byte) : State :=
  match s.engine[k]? with
  | none => s
  | some c =>
    let i := s.copyInject c.core st
    let c1 := { c with done := some (i.2, sct, sc), doneAt := s.now, record := none, stop := none }
    let s1 : State := { i.1 with engine := s.engine.set k c1 }
    s1.releaseCopies c.charged (s.engine.length + 1)

/-- Whether a copy reads or writes the scratchpad, its index list included (R155). -/
def Copy.usesScratch (c : Copy) : Bool :=
  let m := readCmd c.cw
  m.dkind == 1 || m.skind == 1 || m.skind == 3

/-! ### Acceptance (R194, R197, R201, R204) -/

/-- The context that a command charges (R197). -/
def State.chargedTo (s : State) (wid : Nat) (w : Wave) (c : CopyCmd) : Nat :=
  if c.ob && w.zen then ((s.teamOf w).bind fun t => s.liveWave t c.obw).getD wid else wid

/-- The status that a command completes with at acceptance, if it moves no data. The status code type and code of a storage
copy that fails without a status of its device are 0: DESIGN CHOICE, log 54. -/
def State.acceptStatus (s : State) (w : Wave) (t : Team) (g : Grid) (c : CopyCmd) (cw0 : DWord) :
    Option (Byte × BitVec 3 × Byte) :=
  if !c.ok cw0 || (c.ob && (!w.zen || (s.liveWave t c.obw).isNone)) then some (stBadcmd, 0, 0)
  else if c.extents.any fun e => (t.inside g.scratch w.core e.1 e.2).isNone then some (stBounds, 0, 0)
  else if c.skind = 2 then
    match s.windowOf c.window with
    | none => some (stNowin, 0, 0)
    | some win => if c.inNamespace win then none else some (stIoerr, 0, 0x80)
  else none

/-- The engine accepts a command whose last word came from the fibre in lane l. -/
def State.acceptCopy (s : State) (wid l : Nat) (cw : List DWord) : State :=
  match s.waves[wid]? with
  | none => s
  | some w => match s.teams[w.team]?, s.gridOf w with
    | some t, some g =>
      let c := readCmd cw
      let ctx := s.chargedTo wid w c
      let s1 := (s.releaseAct wid w.core true).hostAct (c.scp == 5) .system
      let r := s1.splitFrom wid l g.phase
      let dr := r.1.draw
      let last := match dr.1.waves[ctx]? with | some x => x.lastProm | none => 0
      let ahead := (s.engine.filter fun x => x.core == w.core).map (·.cw)
      let far := if g.det then Config.detPromise cw ahead else Config.freePromise dr.2
      let p := max (s.now + far.toNat) last
      let s2 := dr.1.modWave ctx fun x =>
        { x with copies := x.copies + 1, lastProm := p,
                 fails := x.fails.map fun (f : CopyFail) => { f with younger := f.younger + 1 }
                 sysCopies := x.sysCopies.map (· + 1) }
      let s3 := s2.modWave wid fun x => { x with k1 := x.k1.post (promiseEntry c.tag (BitVec.ofNat 32 p)) }
      let copy : Copy :=
        { core := w.core, issuer := wid, charged := ctx, cw := cw, promise := BitVec.ofNat 32 p, weight := r.2.amount,
          phase := g.phase, priv := g.priv, asid := g.asid, done := s.acceptStatus w t g c (cw.getD 0 0),
          doneAt := s.now, record := none, stop := none }
      let s4 := match copy.done with | some d => (s3.copyInject w.core d.1).1 | none => s3
      ({ s4 with engine := s3.engine ++ [copy] }).releaseCopies ctx (s3.engine.length + 1)
    | _, _ => s

/-- Appends one command word to k0, and accepts the command that it completes (R188). -/
def State.pushWord (s : State) (wid l : Nat) (x : DWord) : State :=
  match s.waves[wid]? with
  | none => s
  | some w =>
    let k0 := w.k0 ++ [x]
    if k0.length < 4 then s.setWave wid { w with k0 := k0 }
    else (s.setWave wid { w with k0 := [] }).acceptCopy wid l k0

/-- The words that the executing fibres push, with their lanes. -/
def pushWords (w : Wave) (a : Reg) (ls : List Nat) : List (Nat × DWord) :=
  ls.map fun l => (l, (w.fibres.getD l Fibre.empty).getPair w.zen a.toNat)

/-- Groups of four words. -/
def groups4 (xs : List DWord) : Nat → List (List DWord)
  | 0 => []
  | n + 1 => xs.take 4 :: groups4 (xs.drop 4) n

/-- Whether the commands that a push completes find room in the counters they charge (R188, R198). -/
def State.pushRoom (s : State) (wid : Nat) (w : Wave) (xs : List DWord) : Bool :=
  let all := w.k0 ++ xs
  let ctxs := (groups4 all (all.length / 4)).map fun cw => s.chargedTo wid w (readCmd cw)
  ctxs.all fun c => match s.waves[c]? with
    | some x => decide (x.copies + (ctxs.filter (· == c)).length ≤ 63)
    | none => true

/-- Whether a path that waits for slots still stands at its QPUSH. One whose wave is halted, pre-empted or swapped out loses its
place and begins to wait anew: DESIGN CHOICE, log 54, since R197 says nothing of it. -/
def State.stillPushes (s : State) (c : Cur) : Bool :=
  match s.waves[c.wave]? with
  | some w => w.stat == .resident && w.fibres.any fun f => f.live && f.park.isNone && f.pc == c.pc
  | none => false

/-- Whether the engine of the core has the slots, which copies give back as they complete, for the commands that a push completes, and no QPUSH has waited longer for
slots there (R188, R197). -/
def State.pushSlots (s : State) (w : Wave) (xs : List DWord) : Bool :=
  let n := (w.k0 ++ xs).length / 4
  let used := (s.engine.filter fun c => c.core == w.core && c.done.isNone).length
  let first := (s.slotQueue.filter fun c => s.stillPushes c && s.coreOf c.wave == w.core).head?
  n == 0 || (decide (used + n ≤ 1024) && (match first with | some c => c == s.cur | none => true))

/-- Changes output queue register k of a wave. -/
def Wave.modQueue (w : Wave) (k : BitVec 4) (f : OutQueue → OutQueue) : Wave :=
  match k.toNat with
  | 1 => { w with k1 := f w.k1 }
  | 2 => { w with k2 := f w.k2 }
  | _ => { w with k3 := f w.k3 }
def Wave.queue (w : Wave) (k : BitVec 4) : OutQueue :=
  match k.toNat with | 1 => w.k1 | 2 => w.k2 | _ => w.k3

/-! ### QPUSH, QPOP, QTRY, QCNT (R188 to R190) -/

def execQpush (g : Guard) (k : BitVec 4) (a : Reg) (s : State) : Out :=
  runPath (.qpush g k a) g (fun s w _ ls =>
    if k = 0 then
      let xs := pushWords w a ls
      let rest := s.slotQueue.filter fun c => c != s.cur && s.stillPushes c
      if !s.pushRoom s.cur.wave w (xs.map (·.2)) then .stall false
      else if s.pushSlots w (xs.map (·.2)) then
        .go (xs.foldl (fun s x => s.pushWord s.cur.wave x.1 x.2)
          (if s.slotQueue = [] then s else { s with slotQueue := rest })) fun _ f => .done f 0
      else .hold (if s.slotQueue.contains s.cur then s else { s with slotQueue := s.slotQueue ++ [s.cur] })
    else
      .go (s.setWave s.cur.wave (w.modQueue k fun _ => { entries := [], lost := false })) fun _ f => .done f 0) s

/-- What an empty queue gives. -/
def noEntry : DWord := 0xFFFFFFFFFFFFFFFF#64

/-- Pops one entry for each executing fibre, in lane order; on k0 the partial command is discarded. -/
def popQueue (k : BitVec 4) (d : Reg) (s : State) (w : Wave) (ls : List Nat) : PathRes :=
  if k = 0 then
    let n := BitVec.ofNat 64 w.k0.length
    .go (s.setWave s.cur.wave { w with k0 := [] }) fun _ f => .done (f.setPair w.zen d.toNat n) 0
  else
    let es := (w.queue k).entries
    let tbl := ls.zip es
    .go (s.setWave s.cur.wave (w.modQueue k fun q => { q with entries := q.entries.drop ls.length }))
      fun l f => .done (f.setPair w.zen d.toNat ((tbl.lookup l).getD noEntry)) 0

/-- Whether a command that the context issued can still post to a queue (R189). -/
def State.posting (s : State) (wid : Nat) (k : BitVec 4) : Bool :=
  s.engine.any fun c => c.issuer == wid &&
    (match k.toNat with
      | 2 => (readCmd c.cw).note
      | 3 => (readCmd c.cw).skind == 2
      | _ => false)

def execQpop (g : Guard) (d : Reg) (k : BitVec 4) (s : State) : Out :=
  runPath (.qpop g d k) g (fun s w _ ls =>
    if k ≠ 0 ∧ (w.queue k).entries.length < ls.length ∧ s.posting s.cur.wave k then .stall false
    else popQueue k d s w ls) s

def execQtry (g : Guard) (d : Reg) (k : BitVec 4) (s : State) : Out :=
  runPath (.qtry g d k) g (fun s w _ ls => popQueue k d s w ls) s

def execQcnt (g : Guard) (d : Reg) (k : BitVec 4) (s : State) : Out :=
  runPath (.qcnt g d k) g (fun s w _ _ =>
    if k = 0 then .go s fun _ f => .done (f.setZ w.zen d.toNat (BitVec.ofNat 32 w.k0.length)) 0
    else
      let q := w.queue k
      let v : Word := bit1 q.lost ++ BitVec.ofNat 31 q.entries.length
      .go (s.setWave s.cur.wave (w.modQueue k fun q => { q with lost := false }))
        fun _ f => .done (f.setZ w.zen d.toNat v) 0) s

/-! ### WAITN (R199, R200, R204) -/

/-- Whether a counter meets a threshold; 31 asks nothing. -/
def under (t : BitVec 5) (n : Nat) : Bool := t == 31#5 || decide (n ≤ t.toNat)

/-- A WAITN that requires copies or tile operations is an acquire: at device scope, and at system scope where it requires a
copy of that scope (R204, R215). -/
def State.waitnAct (s : State) (wid : Nat) (w : Wave) (cp tl : BitVec 5) : State :=
  let sys := fun (n : Nat) => cp != 31#5 && decide (cp.toNat ≤ n)
  let s1 := if cp = 31#5 ∧ tl = 31#5 then s else s.acquireCore w.core
  if w.sysCopies.any sys then
    s1.releaseHost.modWave wid fun x => { x with sysCopies := x.sysCopies.filter fun n => !sys n }
  else s1

def execWaitn (g : Guard) (ld st cp tl : BitVec 5) (s : State) : Out :=
  runPath (.waitn g ld st cp tl) g (fun s w _ _ =>
    if under ld w.loads && under st w.stores && under cp w.copies && under tl w.tiles then
      match (if cp = 31#5 then none else w.fails.find? fun f => decide (cp.toNat ≤ f.younger)) with
      | some x =>
        .go (s.setWave s.cur.wave { w with fails := w.fails.erase x })
          fun _ f => .trap f (trapWith x.cause ((0#8) ++ x.status ++ x.tag))
      | none =>
        .go (s.waitnAct s.cur.wave w cp tl) fun _ f => .done f 0
    else .stall true) s

/-! ### SLEEPT (R202, R203) -/

/-- Whether chip time has reached a promise (R201). -/
def reached (now p : Word) : Bool := decide ((now - p).toNat < 2 ^ 31)

/-- The oldest copy charged to a context that has missed its promise. -/
def State.missed (s : State) (wid : Nat) : Option Copy :=
  (s.charged wid).find? fun c => reached (lo32 s.time) c.promise

/-- sr.prom of a missed copy. -/
def promWord (c : Copy) : Word := (1#1) ++ (0#15) ++ (readCmd c.cw).tag

def execSleept (g : Guard) (a : Reg) (s : State) : Out :=
  runPath (.sleept g a) g (fun s w _ ls =>
    let t := (lowFibre w ls).get w.zen a.toNat
    if reached (lo32 s.time) t then
      match s.missed s.cur.wave with
      | some c => .go (s.setWave s.cur.wave { w with prom := promWord c }) fun _ f => .trap f (trapWith 0x06 c.promise)
      | none => .go s fun _ f => .done f 0
    else .go s fun _ f => .park f (.sleep t)) s

/-- Whether a fibre sleeps on a time that has come. -/
def Fibre.wakes (now : Word) (f : Fibre) : Bool :=
  f.live && (match f.park with | some { why := .sleep t, .. } => reached now t | _ => false)

/-- Chip time has come for fibres of a wave that sleep: they trap if a promise was missed, else go on. -/
def State.wakeSleep (s : State) (wid : Nat) : State :=
  match s.waves[wid]? with
  | none => s
  | some w =>
    let now := lo32 s.time
    match s.missed wid with
    | none =>
      s.setWave wid { w.retireLate (·.wakes now) with
        fibres := w.fibres.map fun f => if f.wakes now then f.resume else f }
    | some c =>
      (w.fibres.zipIdx.filter fun p => p.1.wakes now).foldl
        (fun s p => s.takeTrap wid p.2 (trapWith 0x06 c.promise) p.1.pc) (s.setWave wid { w with prom := promWord c })

def execSleeptWake (w : Nat) (s : State) : Out :=
  onRun (fun s => match s.waves[w]? with
    | some x => x.stat == .resident && x.fibres.any (·.wakes (lo32 s.time)) | none => false)
    (fun s => s.wakeSleep w) s

/-! ### Elements (R125, R126) -/

/-- A signed or unsigned field of n bits as an s8 code. -/
def widenField (n x : Nat) (uns : Bool) : Byte :=
  if !uns && decide (2 ^ (n - 1) ≤ x) then BitVec.ofNat 8 (256 + x - 2 ^ n) else BitVec.ofNat 8 x

/-- Stored bytes as the tile's bytes, as many as they fill; true where a reserved ternary byte stops it. -/
def widen (sfmt : Nat) (uns : Bool) (bs : List Byte) : List Byte × Bool :=
  match sfmt with
  | 6 => (bs.flatMap fun b => [widenField 4 (b.toNat % 16) uns, widenField 4 (b.toNat / 16) uns], false)
  | 7 =>
    ((List.range (bs.length * 8 / 6)).map fun j =>
      widenField 6 (bits (leNat ((bs.drop (3 * (j / 4))).take 3)) (6 * (j % 4)) 6) uns, false)
  | 8 =>
    let good := bs.takeWhile fun b => decide (b.toNat ≤ 242)
    (good.flatMap fun b => (List.range 5).map fun j => BitVec.ofInt 8 ((b.toNat / 3 ^ j % 3 : Int) - 1),
      decide (good.length < bs.length))
  | _ => (bs, false)

/-- The digit of an s8 value's sign. -/
def ternDigit (b : Byte) : Nat := if b = 0 then 1 else if b.msb then 0 else 2

/-- The tile's bytes as stored bytes. -/
def narrow (sfmt : Nat) (bs : List Byte) : List Byte :=
  let at_ := fun i => (bs.getD i 0)
  match sfmt with
  | 6 => (List.range (bs.length / 2)).map fun i =>
      BitVec.ofNat 8 ((at_ (2 * i)).toNat % 16 + 16 * ((at_ (2 * i + 1)).toNat % 16))
  | 7 => (List.range (bs.length / 4)).flatMap fun i =>
      leBytes 3 (((List.range 4).map fun j => (at_ (4 * i + j)).toNat % 64 * 64 ^ j).sum)
  | 8 => (List.range (bs.length / 5)).map fun i =>
      BitVec.ofNat 8 (((List.range 5).map fun j => ternDigit (at_ (5 * i + j)) * 3 ^ j).sum)
  | _ => bs

/-! ### Moving the data (R195, R196) -/

/-- The header that an expand writes (R195). -/
def CopyCmd.header (c : CopyCmd) : List Byte :=
  leBytes 1 c.fmt ++ leBytes 1 c.ap ++ leBytes 2 c.rows ++ leBytes 2 c.cols ++ leBytes 1 (if c.scl then 1 else 0)
    ++ List.replicate 57 0

/-- Global pieces of a command's rows and scales from a base. -/
def CopyCmd.rowPieces (c : CopyCmd) (base : Nat) : List (Nat × Nat) :=
  ((List.range c.rows).flatMap fun r => cutLines (base + r * c.stride) c.rowLen)
    ++ (if c.scl then cutLines (base + c.rows * c.stride) c.scales else [])

/-- The context's allotment on its own core or beyond the pair window. -/
def State.copyScr (s : State) (tid core off n : Nat) : List Byte :=
  match s.teams[tid]? with
  | some t => match s.grids[t.grid]? with
    | some g => (t.scrRead g.scratch core off n).getD []
    | none => []
  | none => []

/-- Source pieces on the global side: rows in order, or in the order of the index list (R195). -/
def State.sourcePieces (s : State) (tid core : Nat) (c : CopyCmd) : List (Nat × Nat) :=
  if c.skind = 3 then
    let idx := s.copyScr tid core c.list (4 * c.rows)
    (List.range c.rows).flatMap fun r =>
      cutLines (c.va1 + leNat ((idx.drop (4 * r)).take 4) * c.stride) c.rowLen
  else c.rowPieces c.va1

/-- Bytes that the NVMe device supplies (R196): the outside world's. A deterministic launch finds the same ones on every run,
since they are an input of it (R285). -/
def State.streamBytes (s : State) (tid : Nat) (m : CopyCmd) : State × List Byte :=
  let n := m.streamLen
  if s.detTeam tid then
    let win := s.windowOf m.window
    let at_ := m.block * ((win.map (·.blockSize)).getD 512)
    (s, (List.range n).map fun i => Config.detByte ((win.map (·.nsid)).getD 0) (at_ + i))
  else ({ s with freeCtr := s.freeCtr + n }, (List.range n).map fun i => Config.freeByte (s.freeCtr + i))

/-- The stored bytes of a command in copy order, as far as they can be read, what stops it, and poison. A pack yields
the narrowed tile. -/
def State.copySource (s : State) (tid : Nat) (c : Copy) : State × List Byte × Option Block × Bool :=
  let m := readCmd c.cw
  match m.skind with
  | 1 =>
    if m.x then
      let n := m.rows * m.cols * m.elt
      let bs := s.copyScr tid c.core (m.off1 + 64) (n + m.scales)
      (s, narrow m.sfmt (bs.take n) ++ bs.drop n, none, false)
    else (s, s.copyScr tid c.core m.off1 (m.rows * m.cols), none, false)
  | 2 => let r := s.streamBytes tid m; (r.1, r.2, none, false)
  | _ =>
    let p := s.reach c.asid c.priv needLoad (s.sourcePieces tid c.core m)
    let r := s.readPieces tid p.1
    (r.1, r.2.1, p.2, r.2.2)

/-- Whether the header of a pack's source tile matches the command. -/
def State.packHeaderOk (s : State) (tid : Nat) (c : Copy) : Bool :=
  let m := readCmd c.cw
  !m.pack ||
    (let h := s.copyScr tid c.core m.off1 64
     hdrNat h 0 1 == m.fmt && hdrNat h 1 1 == m.ap && hdrNat h 2 2 == m.rows && hdrNat h 4 2 == m.cols
      && hdrNat h 6 1 == (if m.scl then 1 else 0))

/-- Destination pieces of a global destination, and what stops them. -/
def State.destPieces (s : State) (c : Copy) : List (Nat × Nat) × Option Block :=
  let m := readCmd c.cw
  if m.dkind = 0 then s.reach c.asid c.priv needStore (m.rowPieces m.va2) else ([], none)

/-- Writes bytes at a scratchpad offset of the context. -/
def State.copyPut (s : State) (tid core off : Nat) (bs : List Byte) : State :=
  match s.teams[tid]? with
  | some t => match s.grids[t.grid]? with
    | some g => s.modTeam tid fun _ => t.scrWrite g.scratch core off bs
    | none => s
  | none => s

/-- Where the bytes of a copy go, for stored bytes in copy order: scratchpad offset and bytes, and whether a reserved
code stopped it. For a global destination, the bytes follow the pieces. -/
def CopyCmd.delivered (m : CopyCmd) (bs : List Byte) : List Byte × Bool :=
  if m.x && m.dkind == 1 then
    let n := m.rows * m.rowLen
    let r := widen m.sfmt (m.sparam % 2 == 1) (bs.take n)
    if r.2 then (r.1, true) else (r.1 ++ bs.drop n, false)
  else (bs, false)

/-- A copy moves its data, up to a reserved byte: the state, and its status. None when a stage has no room. One that meets a
reserved byte ends BADCODE and consumes no poison, whatever it has read: DESIGN CHOICE, log 54. -/
def State.moveCopy (s : State) (tid : Nat) (c : Copy) (bs : List Byte) (poison : Bool) : Option (State × Byte) :=
  let m := readCmd c.cw
  let ok := if poison then stPoison else stDone
  if !s.packHeaderOk tid c then some (s, stBadcmd)
  else if m.dkind = 1 then
    let r := m.delivered bs
    if m.x then
      let s1 := s.copyPut tid c.core (m.off2 + 64) r.1
      if r.2 then some (s1, stBadcode) else some (s1.copyPut tid c.core m.off2 m.header, ok)
    else some (s.copyPut tid c.core m.off2 r.1, ok)
  else (s.writePieces tid (s.destPieces c).1 bs).map fun s1 => (s1, ok)

/-- The stored bytes, by place in copy order, that byte j of the tile, or of a raw destination, is made from (R125): a scale
byte from itself. -/
def CopyCmd.madeFrom (m : CopyCmd) (j : Nat) : List Nat :=
  let n := m.rows * m.cols * m.elt
  if m.x then if n ≤ j then [m.rows * m.rowLen + (j - n)] else match m.sfmt with
    | 6 => [j / 2]
    | 7 => [3 * (j / 4) + 6 * (j % 4) / 8, 3 * (j / 4) + (6 * (j % 4) + 5) / 8]
    | 8 => [j / 5]
    | _ => [j]
  else [j]

/-- A copy that stops after some of its source: any subset of the bytes that precede the stop is written, which the
free values choose, and in a deterministic launch a function of the command (R200, R285). A unit of `unit` stored bytes is
written or not as one. None while a stage has no room (R291). -/
def State.movePart (s : State) (tid : Nat) (c : Copy) (bs : List Byte) (unit : Nat) : Option State :=
  let m := readCmd c.cw
  let keep := fun (i : Nat) =>
    if s.detTeam tid then Config.detBool c.cw (i / max 1 unit) else Config.freeBool (s.freeCtr + i / max 1 unit)
  let s0 := { s with freeCtr := s.freeCtr + bs.length + 1 }
  if m.dkind = 1 then
    let out := m.delivered bs
    let base := if m.x then m.off2 + 64 else m.off2
    some ((out.1.zipIdx.filter fun p => (m.madeFrom p.2).all keep).foldl (fun s p =>
      s.copyPut tid c.core (base + p.2) [p.1]) s0)
  else
    let keys := (s.destPieces c).1.flatMap fun p => (List.range p.2).map fun i => p.1 + i
    ((keys.zip bs).zipIdx.filter fun p => keep p.2).foldlM (fun s p => s.engineStore tid p.1.1 [p.1.2]) s0

/-- What a copy comes to before it moves: a status that does not depend on how far its accesses reach (a pack whose header
does not match, R195; a reserved byte before any fault in copy order, R126), or what stops its source, then its
destination; `src` says that it is the source. -/
inductive CopyStop where
  | status
  | block (b : Block) (src : Bool)
  | none
  deriving DecidableEq, Repr

/-- What stops a copy whose source yields the bytes `bs` before the block `b`. -/
def State.copyStop (s : State) (tid : Nat) (c : Copy) (bs : List Byte) (b : Option Block) : CopyStop :=
  if !s.packHeaderOk tid c || ((readCmd c.cw).delivered bs).2 then .status
  else match b, (s.destPieces c).2 with
    | some x, _ => .block x true
    | _, some x => .block x false
    | _, _ => .none

/-- Ranges of a space that a copy's accesses reach. -/
def State.copyRanges (s : State) (tid : Nat) (c : Copy) : List (Nat × Nat) :=
  let m := readCmd c.cw
  (if m.skind = 1 ∨ m.skind = 2 then [] else s.sourcePieces tid c.core m)
    ++ (if m.dkind = 0 then m.rowPieces m.va2 else [])

/-- Copy k ends with some of the bytes before its stop written, or waits for its team's turn while its stage has no room. -/
def State.stopCopy (s : State) (k : Nat) (h : CopyHalt) : State :=
  match s.engine[k]? with
  | none => s
  | some c => match s.movePart (s.teamId c.issuer) c h.bytes h.unit with
    | some s1 => s1.finishCopy k h.status h.sct h.sc
    | none => { s with engine := s.engine.set k { c with record := none, stop := some h } }

/-- COPY_COMPLETION of copy k: it moves its data and completes; a fault leaves it to ASYNCHRONOUS_ENGINE_FAULT, a
thawing page makes it wait (R276). One whose device reports an error ends IOERR, whatever reserved byte it has read before: the
spec does not rank BADCODE against IOERR (DESIGN CHOICE, log 54). -/
def State.completeCopy (s : State) (k : Nat) (inp : CopyInput) : Out :=
  match s.engine[k]? with
  | none => .next s
  | some c =>
    let tid := s.teamId c.issuer
    let m := readCmd c.cw
    let src := fun (_ : Unit) => (s.leadPieces c.asid (s.copyRanges tid c)).copySource tid c
    if c.done.isSome || c.record.isSome then .next s
    else match c.stop, inp with
      | some h, _ => .next (s.stopCopy k h)
      | none, .ioError sct sc n =>
        if m.skind = 2 then
          let unit := match s.windowOf m.window with | some w => w.blockSize | none => 512
          let r := src ()
          .next (r.1.stopCopy k { status := stIoerr, sct := sct, sc := sc, bytes := r.2.1.take (n * unit), unit := unit })
        else .next s
      | none, .moved =>
        let r := src ()
        match s.copyStop tid c r.2.1 r.2.2.1 with
        | .status | .none => match r.1.moveCopy tid c r.2.1 r.2.2.2 with
          | some (s1, st) => .next (s1.finishCopy k st 0 0)
          | none => .next s
        | .block (.far _) _ => .next (r.1.stopCopy k { status := stFault, sct := 0, sc := 0, bytes := r.2.1, unit := 1 })
        | .block (.hole key) _ => .fault (.memoryHole key)
        | .block _ _ => .next s

def execCopyCompletion (k : Nat) (inp : CopyInput) (s : State) : Out :=
  if s.dev == .running then s.completeCopy k inp else .next s

/-! ### TILES_OPERATION_COMPLETE (R178, R180) -/

/-- The range that an MDRAIN or MREST moves, with its wave's space. -/
def State.tileRange (s : State) (o : TileOp) : Option (Nat × List (Nat × Nat)) :=
  match (s.waves[o.wave]?).bind s.gridOf, o.work with
  | some g, .drain va | some g, .restore va => some (g.asid, cutLines va.toNat saveSize)
  | _, _ => none

/-- The lines that an MDRAIN or MREST moves are fetched (R267). -/
def State.leadTiles (s : State) (o : TileOp) : State :=
  match s.tileRange o with
  | some (asid, ps) => s.leadPieces asid ps
  | none => s

/-- What stops an MDRAIN or MREST. -/
def State.tileReach (s : State) (o : TileOp) : List (Nat × Nat) × Option Block :=
  match s.waves[o.wave]? with
  | none => ([], none)
  | some w => match s.gridOf w with
    | none => ([], none)
    | some g => match o.work with
      | .convert _ => ([], none)
      | .drain va => s.reach g.asid g.priv needStore (cutLines va.toNat saveSize)
      | .restore va => s.reach g.asid g.priv needLoad (cutLines va.toNat saveSize)

/-- The operation is over: its wave's tiles counter falls. -/
def State.dropTileOp (s : State) (k : Nat) (o : TileOp) : State :=
  (({ s with tileOps := s.tileOps.eraseIdx k }).modWave o.wave fun w => { w with tiles := w.tiles - 1 }).checkWaveEnd
    o.wave

/-- A trap that a fibre takes before its next bundle. -/
def Fibre.owe (f : Fibre) (c : BitVec 6) (v : Word) : Fibre := if f.live then { f with due := f.due ++ [(c, v)] } else f

/-- An MDRAIN or MREST that is over with a trap in the fibres that issued it. -/
def State.trapTiles (s : State) (k : Nat) (t : TrapInfo) : State :=
  match s.tileOps[k]? with
  | none => s
  | some o =>
    (s.modWave o.wave fun w =>
      { w with fibres := w.fibres.mapIdx fun l f => if o.lanes.contains l then f.owe t.cause t.evalue else f }).dropTileOp k o

def State.completeTiles (s : State) (k : Nat) : Out :=
  match s.tileOps[k]? with
  | none => .next s
  | some o => match s.waves[o.wave]?, o.record with
    | some w, none =>
      let qi := w.quadIndex
      let q := s.quads.getD qi Quad.clear
      let r := s.tileReach o
      match o.work, r.2 with
      | .convert ws, _ =>
        let s1 := match ws with
          | [] => s
          | (off, _) :: _ => s.copyPut w.team w.core off (ws.map Prod.snd)
        .next (s1.dropTileOp k o)
      | _, some (.hole key) => .fault (.memoryHole key)
      | _, some _ => .next s
      | .drain _, none =>
        if q.pipe.isEmpty then
          match (s.leadTiles o).writePieces w.team r.1 (q.saveBytes w.idx w.quadPos) with
          | some s1 => .next (s1.dropTileOp k o)
          | none => .next s
        else .next s
      | .restore _, none =>
        let x := (s.leadTiles o).readPieces w.team r.1
        match o.unread.bind fun i => w.saveRefused i (x.2.1.drop 0xC000) with
        | some t => .next (x.1.trapTiles k t)
        | none =>
        let s1 := (x.1.consumeIf o.wave (x.2.2 && !o.psn)).modQuad qi fun q => q.restore w.quadPos s.freeCtr x.2.1
        .next (({ s1 with freeCtr := s1.freeCtr + 24 } : State).dropTileOp k o)
    | _, _ => .next s

def execTilesOperationComplete (k : Nat) (s : State) : Out :=
  if s.dev == .running then s.completeTiles k else .next s

/-! ### ASYNCHRONOUS_ENGINE_FAULT (R268, R271) -/

/-- The deliver action on an MDRAIN or MREST: the cause in the issuing wave's fibres. -/
def State.deliverTiles (s : State) (k : Nat) (c : BitVec 6) (va : DWord) : State := s.trapTiles k (trapWith c (lo32 va))

/-- The deliver action on a copy: it completes FAULT, or FIXED, with some of the bytes before the fault written. -/
def State.deliverCopy (s : State) (k : Nat) (c : BitVec 6) : State :=
  match s.engine[k]? with
  | none => s
  | some x =>
    let tid := s.teamId x.issuer
    let r := (s.leadPieces x.asid (s.copyRanges tid x)).copySource tid x
    r.1.stopCopy k { status := if c == 0x05#6 then stFixed else stFault, sct := 0, sc := 0, bytes := r.2.1, unit := 1 }

/-- An engine's access meets a fault: it parks on a record, or the deliver action happens at once. -/
def State.engineFault (s : State) (o : EngineOp) : State :=
  match o with
  | .copy k => match s.engine[k]? with
    | none => s
    | some c =>
      if c.done.isSome || c.record.isSome || c.stop.isSome then s
      else
        let tid := s.teamId c.issuer
        let r := s.copySource tid c
        match s.copyStop tid c r.2.1 r.2.2.1 with
        | .block (.fault va kd page sz key) src =>
          match s.raiseFault (dieOf c.core) (if src then .copyRead else .copyWrite) c.asid va kd page sz key with
          | (s1, .parked h) => { s1 with engine := s1.engine.set k { c with record := some h } }
          | (s1, .deliver cause) => s1.deliverCopy k cause
          | (_, .full) => s
        | _ => s
  | .tiles k => match s.tileOps[k]? with
    | none => s
    | some op => match s.waves[op.wave]?, op.record, (s.tileReach op).2 with
      | some w, none, some (.fault va kd page sz key) =>
        match s.gridOf w with
        | none => s
        | some g => match s.raiseFault (dieOf w.core) .matrix g.asid va kd page sz key with
          | (s1, .parked h) => { s1 with tileOps := s1.tileOps.set k { op with record := some h } }
          | (s1, .deliver cause) => s1.deliverTiles k cause va
          | (_, .full) => s
      | some _, none, some (.far va) => s.deliverTiles k 0x04 va
      | _, _, _ => s

def execAsynchronousEngineFault (o : EngineOp) (s : State) : Out :=
  onRun (fun _ => true) (fun s => s.engineFault o) s

end Sys2Proof.Machine
end

