-- ==== Sys2Proof/Machine/Monitors.lean ====
section
/-! DEFINITION. ATOM, REDM, WAITC, SCATB, SCATF and what completes them (10_atomics_and_monitors R236 to R257). -/

namespace Sys2Proof.Machine

/-- Before an operation of wave `wid` at a home: its own earlier stores to the line reach the home, and its core's copy
of a self-invalidating line is dropped (R218, R234). -/
def State.ownLine (s : State) (wid : Nat) (w : Wave) (line : Nat) : State :=
  (s.homePend wid (some line)).dropCopy w.core line

/-! ### ATOM (R236 to R243) -/

/-- The data and expected values of an atomic in a fibre (R238, R242). -/
def atomData (z : Bool) (f : Fibre) (d : Reg) (op : AtomOp) : DWord × DWord :=
  match op with
  | .addD | .exchD => (f.getPair z d.toNat, 0)
  | .casD => (f.getPair z d.toNat, f.getPair z (d.toNat + 2))
  | .cas => ((f.get z d.toNat).setWidth 64, (f.get z (d.toNat + 1)).setWidth 64)
  | _ => ((f.get z d.toNat).setWidth 64, 0)

/-- Bytes that ATOM returns: the old value, zero-extended to 32 bits. -/
def atomOld (op : AtomOp) (old : Nat) : List Byte := leBytes (if atomSize op = 8 then 8 else 4) old

/-- One lane of ATOM. `defer` names the instruction when its requests stay in flight until ATOMIC_COMPLETION. -/
def atomLane (wid : Nat) (w : Wave) (g : Grid) (xo : DWord) (d a : Reg) (ord : Ord4) (scp : Scope) (op : AtomOp)
    (defer : Option Nat) (acc : State × Bool) (f : Fibre) : (State × Bool) × LaneAns :=
  let va := f.getPair w.zen a.toNat + xo
  let x := atomData w.zen f d op
  if aligned va (atomSize op) then
    match acc.1.translate g.asid g.priv true needStore va with
    | .ok p key =>
      let ld := acc.1.lead (lineOf key) p.asid (va.toNat / 128 * 128) p.coh
      let s1 := ld.1
      match defer with
      | some id =>
        ((s1, acc.2), .park (.atomic { d := d, va := va, key := key, op := op, x := x.1, e := x.2, ord := ord, scp := scp,
                                       id := f.countName id, tracked := ld.2.coh == 0#2 }))
      | none =>
        let r := (s1.ownLine wid w (lineOf key)).atomHome key op x.1 x.2
        ((r.1, acc.2 || r.1.poisoned key), .bytes (atomOld op r.2))
    | .far => (acc, .trap (trapWith 0x04 (lo32 va)))
    | .fault k page sz key =>
      let r := acc.1.faultLane (dieOf w.core) .atomic g.asid va k page sz key
      ((r.1, acc.2), r.2)
    | .wait => (acc, .stall)
    | .hole key => (acc, .hole key)
  else (acc, .trap (trapWith 0x08 (lo32 va)))

/-- Whether any lane's request is in flight. -/
def anyFlight (ans : List (Nat × LaneAns)) : Bool :=
  ans.any fun a => match a.2 with | .park (.atomic _) => true | _ => false

/-- Outside a deterministic grid, whose atomics reach their homes in the token's order (R295), the agenda may keep the
requests in flight. -/
def execAtom (g : Guard) (d a : Reg) (ord : Ord4) (scp : Scope) (op : AtomOp) (s : State) : Out :=
  runPath (.atom g d a ord scp op) g (fun s w gr ls =>
    if countFull w.loads w ls || s.loadWaits s.cur.wave w || !s.tokenHere w gr then .stall false
    else
      let t := (s.orderAct s.cur.wave w.core (s.pairTeam w) ord scp).turnReady w gr
      if !t.2 then .stall false
      else
        let dr := t.1.draw
        let out := s.defer && !gr.det
        let r := foldLanes2 (atomLane s.cur.wave w gr s.hintXoff d a ord scp op (if out then some dr.2 else none)) w
          (dr.1, []) ls
        let s2 := (r.1.1.recountIf s.cur.wave w (some false) dr.2 r.2).drinkLoad s.cur.wave w dr.2 r.2 r.1.2
        let s3 := if anyBytes r.2 || anyFlight r.2 then s2.tokenUsed w gr else s2
        pathOf s3 r.2 (loadEnd w.zen d.toNat r.2)) s

/-- The line of a request in flight is fetched again where its leadership has lapsed (R267). -/
def State.leadRequest (s : State) (w : Wave) (r : AtomReq) : State :=
  match s.gridOf w with
  | none => s
  | some g => match s.findPage g.asid r.va.toNat with
    | some p => s.leadVia p r.va.toNat r.key
    | none => s

/-- The request of a lane is performed at its home, and the value returned enters the context, saved or not (R236); the
slot of a fibre that has ended meanwhile is free. Answers whether the line was poisoned. -/
def State.landAtomic (s : State) (wid l : Nat) : State × Bool :=
  match s.waves[wid]? with
  | none => (s, false)
  | some w => match w.fibres[l]? with
    | none => (s, false)
    | some f => match f.park with
      | some { why := .atomic r, .. } =>
        let t := ((s.leadRequest w r).ownLine wid w (lineOf r.key)).atomHome r.key r.op r.x r.e
        let f1 := { f.setBytes w.zen r.d.toNat (atomOld r.op t.2) with owed := none }
        let s1 := (t.1.modWave wid fun w => { w with fibres := w.fibres.set l (if f.live then f1.resume else f1) }).cure
          (s.places wid w l f r.d (if w.zen then 1 else (atomOld r.op 0).length / 4))
        (s1.closeSlot wid l, t.1.poisoned r.key)
      | _ => (s, false)

/-- The request in flight of a fibre. -/
def Fibre.request (f : Fibre) : Option AtomReq :=
  match f.park with
  | some { why := .atomic r, .. } => some r
  | _ => none

/-- The lanes of a wave whose requests are performed together with request r: those of its instruction to its line (R234),
and with one to a line that was tracked when it left those to every such line, since they have one timestamp (R209). -/
def Wave.together (w : Wave) (r : AtomReq) : List Nat :=
  (w.fibres.zipIdx.filter fun p => match p.1.request with
    | some q => q.id == r.id && (lineOf q.key == lineOf r.key || (q.tracked && r.tracked))
    | none => false).map (·.2)

/-- Whether one of some lanes' requests is on a block of a page that is Thawing, and waits until that is Owned (R276). -/
def State.requestWaits (s : State) (w : Wave) (ls : List Nat) : Bool :=
  ls.any fun l => match (w.fibres.getD l Fibre.empty).request with
    | some q => s.frozenAt q.key == 0 && s.thawingAt q.key
    | none => false

/-- Whether the request of a fibre that is in flight can be performed now. -/
def State.canLand (s : State) (wid l : Nat) : Bool :=
  match s.waves[wid]? with
  | none => false
  | some w => match (w.fibres[l]?).bind Fibre.request with
    | some r => !s.requestWaits w (w.together r)
    | none => false

/-- ATOMIC_COMPLETION for lane l: the requests that are performed together are so in ascending lane order (R234), unless one
of them has to wait; the acquire of the instruction applies as they take effect (R215); poison is consumed once (R317). -/
def State.completeAtomic (s : State) (wid l : Nat) : State :=
  match s.waves[wid]? with
  | none => s
  | some w => match (w.fibres[l]?).bind Fibre.request with
    | none => s
    | some r =>
      let ls := w.together r
      if s.requestWaits w ls then s
      else
      let s0 := if r.ord.isAcq then s.acquireAt w.core (s.pairTeam w) r.scp else s
      let t := ls.foldl (fun (acc : State × Bool) k => let x := acc.1.landAtomic wid k; (x.1, acc.2 || x.2)) (s0, false)
      let i := if w.drank r.id then (t.1, false) else t.1.injectPoison w
      let s1 := i.1.drink wid (if !w.drank r.id && (t.2 || i.2) then [r.id] else [])
      (s1.endCount wid false r.id).checkWaveEnd wid

/-! ### REDM (R241, R244) -/

def redmLane (wid : Nat) (w : Wave) (g : Grid) (xo : DWord) (d a : Reg) (op : AtomOp) (now : Bool)
    (id : Nat) (acc : State × Bool) (f : Fibre) : (State × Bool) × LaneAns :=
  let va := f.getPair w.zen a.toNat + xo
  if aligned va (atomSize op) then
    match acc.1.translate g.asid g.priv true needStore va with
    | .ok p key =>
      let x := (atomData w.zen f d op).1
      let s0 := acc.1.leadVia p va.toNat key
      if now then
        let s1 := (s0.ownLine wid w (lineOf key)).redmHome g.det key op x
        ((s1, acc.2 || s1.poisoned key), .bytes [])
      else match s0.stageIn w.team (.redm key op x (if w.drank (f.countName id) then none else some wid) (f.countName id)) with
        | some s1 => ((s1, acc.2), .bytes [])
        | none => (acc, .stall)
    | .far => (acc, .trap (trapWith 0x04 (lo32 va)))
    | .fault k page sz key =>
      let r := acc.1.faultLane (dieOf w.core) .atomic g.asid va k page sz key
      ((r.1, acc.2), r.2)
    | .wait => (acc, .stall)
    | .hole key => (acc, .hole key)
  else (acc, .trap (trapWith 0x08 (lo32 va)))

def execRedm (g : Guard) (d a : Reg) (ord : Ord4) (scp : Scope) (op : AtomOp) (s : State) : Out :=
  runPath (.redm g d a ord scp op) g (fun s w gr ls =>
    if countFull w.stores w ls || !s.tokenHere w gr then .stall false
    else
      let t := (s.orderAct s.cur.wave w.core (s.pairTeam w) ord scp).turnReady w gr
      let dr := t.1.draw
      let r := foldLanes2 (redmLane s.cur.wave w gr s.hintXoff d a op t.2 dr.2) w (dr.1, []) ls
      let s1 := (r.1.1.countStore s.cur.wave w dr.2 ([], []) r.2).drinkBy s.cur.wave w dr.2 r.1.2
      pathOf (if anyBytes r.2 then s1.tokenUsed w gr else s1) r.2 (storeEnd r.2)) s

/-! ### WAITC (R248 to R252) -/

/-- Whether a condition holds for the location's value m and the operand x. -/
def wcond {n : Nat} (c : WCond) (m x : BitVec n) : Bool :=
  match c with
  | .eq => m == x
  | .ne => m != x
  | .geu => x.ule m
  | .ltu => m.ult x
  | .ges => x.sle m
  | .lts => m.slt x
  | .anyset => (m &&& x) != 0
  | .allclr => (m &&& x) == 0

/-- The condition at a width, on little-endian bytes. -/
def wcondBytes (c : WCond) (w64 : Bool) (bs : List Byte) (x : DWord) : Bool :=
  if w64 then wcond c (BitVec.ofNat 64 (leNat bs)) x else wcond c (BitVec.ofNat 32 (leNat bs)) (lo32 x)

/-- Reads a location at its home for wave `wid`, the team's staged bytes first (R289). -/
def State.homeLoad (s : State) (wid : Nat) (w : Wave) (key n : Nat) : State × List Byte × Bool :=
  let s1 := (s.ownLine wid w (lineOf key)).settleLine (lineOf key)
  let st := match s1.teams[w.team]? with | some t => t.stage | none => []
  (s1, overlay st key (s1.homeRead key n), s1.poisoned key)

/-- One lane of WAITC: a match completes at once, else the fibre parks on the location. `m0` holds what the lanes share; a
replayed lane is still part of its own instruction. -/
def waitcLane (wid : Nat) (w : Wave) (g : Grid) (xo : DWord) (a : Reg) (m0 : Monitor) (acc : State × Bool) (f : Fibre) :
    (State × Bool) × LaneAns :=
  let va := f.getPair w.zen a.toNat + xo
  let n := if m0.w64 then 8 else 4
  if aligned va n then
    match acc.1.translate g.asid g.priv false needLoad va with
    | .ok p key =>
      let r := (acc.1.leadVia p va.toNat key).homeLoad wid w key n
      let x := if m0.w64 then f.getPair w.zen m0.d.toNat else (f.get w.zen m0.d.toNat).setWidth 64
      if wcondBytes m0.cond m0.w64 r.2.1 x then ((r.1, acc.2 || r.2.2), .bytes r.2.1)
      else ((r.1, acc.2), .park (.monitor { m0 with va := va, key := key, x := x, id := f.countName m0.id }))
    | .far => (acc, .trap (trapWith 0x04 (lo32 va)))
    | .fault k page sz key =>
      let r := acc.1.faultLane (dieOf w.core) .load g.asid va k page sz key
      ((r.1, acc.2), r.2)
    | .wait => (acc, .stall)
    | .hole key => (acc, .hole key)
  else (acc, .trap (trapWith 0x08 (lo32 va)))

/-- Condition code of a WCTL (R253). -/
def watchCond (c : BitVec 3) : WCond :=
  match c.toNat with
  | 0 => .eq | 1 => .ne | 2 => .geu | 3 => .ltu | 4 => .ges | 5 => .lts | 6 => .anyset | _ => .allclr

/-- An armed watch as the WAITC that it acts as: acq at system scope, with no timeout (R254). -/
def Armed.mon (a : Armed) : Monitor :=
  { d := 0, va := a.va, key := a.key, cond := watchCond a.cond, w64 := a.w == 1,
    x := if a.w == 1 then a.val else (lo32 a.val).setWidth 64, ord := .acq, scp := .system, deadline := none,
    entry := a.entry, next := a.next, met := a.met, id := 0, psn := false }

/-- Monitors that hold an entry of their slice: those of fibres, and those of armed watches. -/
def State.entries (s : State) : List Monitor :=
  (s.waves.flatMap fun w => w.fibres.filterMap fun f => match f.park with
    | some { why := .monitor m, .. } => if m.entry then some m else none
    | _ => none) ++ s.watches.filterMap fun x => match x.armed with
    | some a => if a.entry then some a.mon else none
    | none => none

/-- When a waiter acts by the clock: with an entry, once its location has held a satisfying value for 1 microsecond, well
within the 2 that R250 allows (DESIGN CHOICE, log 55); without one, at its next read. -/
def Monitor.due (m : Monitor) : Option Nat := if m.entry then m.met.map (· + 1000) else some m.next

/-- Waiters that share one entry: one location, condition, width and operand (R250). -/
def Monitor.same (m n : Monitor) : Bool := m.key == n.key && m.cond == n.cond && m.w64 == n.w64 && m.x == n.x

/-- Whether a new waiter takes a monitor entry beside `held`: one that it can share, or one of the 256 of its slice that is
free (R250). -/
def takesEntry (held : List Monitor) (m : Monitor) : Bool :=
  let slice := fun (x : Monitor) => Config.homeSlice (lineOf x.key)
  let mine := held.filter fun x => slice x == slice m
  let distinct := mine.foldl (fun (acc : List Monitor) x => if acc.any x.same then acc else x :: acc) []
  mine.any m.same || decide (distinct.length < 256)

/-- Gives the lanes that park on a monitor their entries, in lane order; `psn` names the instructions that have consumed
poison. -/
def armLanes (psn : Nat → Bool) (held : List Monitor) : List (Nat × LaneAns) → List (Nat × LaneAns)
  | [] => []
  | (l, .park (.monitor m)) :: rest =>
    let m1 := { m with entry := takesEntry held m, psn := psn m.id }
    (l, .park (.monitor m1)) :: armLanes psn (if m1.entry then m1 :: held else held) rest
  | a :: rest => a :: armLanes psn held rest

/-- The deadline of a WAITC: its XIMM payload in microseconds of chip time from issue; 0 or none is no bound (R248). -/
def State.waitcDeadline (s : State) : Option Nat :=
  match s.hintXimm with
  | some p => if p = 0 then none else some (s.now + p.toNat * 1000)
  | none => none

def execWaitc (g : Guard) (d a : Reg) (ord : Ord4) (scp : Scope) (c : WCond) (w64 : Bool) (s : State) : Out :=
  runPath (.waitc g d a ord scp c w64) g (fun s w gr ls =>
    let s0 := if ord.isRel then s.releaseAt s.cur.wave w.core (s.pairTeam w) scp else s
    let dr := s0.draw
    let m0 : Monitor := { d := d, va := 0, key := 0, cond := c, w64 := w64, x := 0, ord := ord, scp := scp,
                          deadline := s.waitcDeadline, entry := false, next := s.now + 1000, met := none, id := dr.2,
                          psn := false }
    let r := foldLanes2 (waitcLane s.cur.wave w gr s.hintXoff a m0) w (dr.1, []) ls
    let i := if anyBytes r.2 then r.1.1.injectPoison w else (r.1.1, false)
    let psn := if i.2 then r.1.2 ++ (doneLanes r.2).take 1 else r.1.2
    let s1 := (i.1.recountIf s.cur.wave w none dr.2 r.2).drinkBy s.cur.wave w dr.2 psn
    let s2 := if anyBytes r.2 && ord.isAcq then s1.acquireAt w.core (s.pairTeam w) scp else s1
    let ans := armLanes (fun n => w.drank n || (countNames w dr.2 psn).contains n) s.entries r.2
    pathOf s2 ans (loadEnd w.zen d.toNat ans)) s

/-- Releases a fibre parked on a monitor with the bytes read, the acquire applying at this read (R251); poison is consumed
once for the instruction (R317). -/
def State.releaseMonitor (s : State) (wid l : Nat) (w : Wave) (m : Monitor) (r : State × List Byte × Bool) : State :=
  let i := if w.drank m.id then (r.1, false) else r.1.injectPoison w
  let s1 := i.1.drink wid (if !w.drank m.id && (r.2.2 || i.2) then [m.id] else [])
  let s2 := if m.ord.isAcq then s1.acquireAt w.core (s.pairTeam w) m.scp else s1
  (s2.modWave wid fun w => match w.fibres[l]? with
    | some f => { w with fibres := w.fibres.set l (f.setBytes w.zen m.d.toNat r.2.1).resume }
    | none => w).cure (s.places wid w l (w.fibres.getD l Fibre.empty) m.d (if m.w64 && !w.zen then 2 else 1))

/-- The monitor that a fibre is parked on, with its location's value read at the home now. -/
def State.monitorRead (s : State) (wid l : Nat) : Option (Wave × Monitor × (State × List Byte × Bool)) :=
  match s.waves[wid]? with
  | none => none
  | some w => match (w.fibres[l]?).bind (·.park), s.gridOf w with
    | some { why := .monitor m, .. }, some g =>
      match s.translate g.asid g.priv false needLoad m.va with
      | .ok p key => some (w, m, (s.leadVia p m.va.toNat key).homeLoad wid w key (if m.w64 then 8 else 4))
      | _ => none
    | _, _ => none

/-- A read of the location at the home: a satisfying value releases the fibre (R250); in any case the line's shadow has been
flushed (R245). -/
def State.tryRelease (s : State) (wid l : Nat) : State :=
  match s.monitorRead wid l with
  | some (w, m, r) => if wcondBytes m.cond m.w64 r.2.1 m.x then s.releaseMonitor wid l w m r else r.1
  | none => s

/-- The fibres of waves that are resident again read their locations (R252). -/
def State.rereadWaits (s : State) (ws : List Nat) : State :=
  ws.foldl (fun s i => (List.range ((s.waves[i]?.map (·.fibres.length)).getD 0)).foldl (fun s l => s.tryRelease i l) s) s

/-- A waiter without an entry reads its location once every microsecond of chip time (R250). -/
def State.pollMonitor (s : State) (wid l : Nat) : State :=
  let again := fun (f : Fibre) => match f.park with
    | some p => match p.why with
      | .monitor m => { f with park := some { p with why := .monitor { m with next := s.now + 1000 } } }
      | _ => f
    | none => f
  (s.modWave wid fun w => { w with fibres := w.fibres.modify l again }).tryRelease wid l

/-- The monitor that a fibre is parked on. -/
def State.monitorAt (s : State) (wid l : Nat) : Option Monitor :=
  match ((s.waves[wid]?).bind (fun w => w.fibres[l]?)).bind (·.park) with
  | some { why := .monitor m, .. } => some m
  | _ => none

/-- A fibre whose location can no longer be read runs its WAITC again, so that the fault is taken there (R265, R268). -/
def State.rerunMonitor (s : State) (wid l : Nat) : State :=
  s.modWave wid fun w => { w with fibres := w.fibres.modify l fun f => { f with park := none } }

/-- Notes since when a waiter's location has satisfied its condition. -/
def State.noteMet (s : State) (wid l : Nat) : State :=
  match s.monitorRead wid l with
  | none => s.rerunMonitor wid l
  | some (_, m, r) =>
    let met := if m.entry && wcondBytes m.cond m.w64 r.2.1 m.x then some (m.met.getD s.now) else none
    if met = m.met then s
    else s.modWave wid fun w => { w with fibres := w.fibres.modify l fun f => match f.park with
      | some p => { f with park := some { p with why := .monitor { m with met := met } } }
      | none => f }

/-- At expiry, which chip time does not pass, the fibre is released with the value read then. -/
def State.expireMonitor (s : State) (wid l : Nat) : State :=
  match s.waves[wid]? with
  | none => s
  | some w => match (w.fibres[l]?).bind (·.park) with
    | some { why := .monitor m, .. } =>
      match m.deadline with
      | some t =>
        if t ≤ s.now then
          match s.monitorRead wid l with
          | some (w, m, r) => s.releaseMonitor wid l w m r
          | none => s.rerunMonitor wid l
        else s
      | none => s
    | _ => s

/-! ### SCATB and SCATF (R255 to R257) -/

def scatbLane (wid : Nat) (w : Wave) (g : Grid) (a b : Reg) (now : Bool) (id : Nat) (acc : State × Bool) (f : Fibre) :
    (State × Bool) × LaneAns :=
  let va := f.getPair w.zen a.toNat
  let i := (f.get w.zen b.toNat).toNat
  if aligned va 64 then
    match acc.1.translate g.asid g.priv true needStore va with
    | .ok p key =>
      let s0 := acc.1.leadVia p va.toNat key
      if now then
        match (s0.ownLine wid w (lineOf key)).scatbTry (·.ownLine wid w) g.asid g.priv g.det .loses key i with
        | .done s1 _ psn => ((s1.noteBucket g.phase g.asid g.priv key, acc.2 || psn), .bytes [])
        | .wait | .far _ => (acc, .stall)
        | .fault va' k page sz key' =>
          let r := acc.1.faultLane (dieOf w.core) .atomic g.asid va' k page sz key'
          ((r.1, acc.2), r.2)
      else match s0.stageIn w.team (.scatb g.asid key (BitVec.ofNat 32 i)
          (if w.drank (f.countName id) then none else some wid) (f.countName id) false) with
        | some s1 => ((s1, acc.2), .bytes [])
        | none => (acc, .stall)
    | .far => (acc, .trap (trapWith 0x04 (lo32 va)))
    | .fault k page sz key =>
      let r := acc.1.faultLane (dieOf w.core) .atomic g.asid va k page sz key
      ((r.1, acc.2), r.2)
    | .wait => (acc, .stall)
    | .hole key => (acc, .hole key)
  else (acc, .trap (trapWith 0x08 (lo32 va)))

def execScatb (g : Guard) (a b : Reg) (s : State) : Out :=
  runPath (.scatb g a b) g (fun s w gr ls =>
    if !s.tokenHere w gr then .stall false
    else
      let t := s.turnReady w gr
      let dr := t.1.draw
      let r := foldLanes2 (scatbLane s.cur.wave w gr a b t.2 dr.2) w (dr.1, []) ls
      let s1 := (r.1.1.recountIf s.cur.wave w none dr.2 r.2).drinkBy s.cur.wave w dr.2 r.1.2
      pathOf (if anyBytes r.2 then s1.tokenUsed w gr else s1) r.2 (storeEnd r.2)) s

/-- SCATF is performed once, by the lowest executing fibre, as an acqrel atomic at device scope; what stops it stops
every executing fibre (R257). -/
def execScatf (g : Guard) (d a : Reg) (s : State) : Out :=
  runPath (.scatf g d a) g (fun s w gr ls =>
    let va := (lowFibre w ls).getPair w.zen a.toNat
    let all := fun (s : State) (t : TrapInfo) => PathRes.go s fun _ f => .trap f t
    if !s.tokenHere w gr then .stall false
    else
      let t := (s.orderAct s.cur.wave w.core (s.pairTeam w) .acqrel .device).turnReady w gr
      let stop := fun (va : DWord) (k : FaultKind) (page : Nat) (sz : BitVec 2) (key : Nat) =>
        match t.1.raiseFault (dieOf w.core) .atomic gr.asid va k page sz key with
        | (s1, .deliver c) => all s1 (trapWith c (lo32 va))
        | (s1, .parked h) => PathRes.go s1 fun _ f => .park f (.record h va)
        | (_, .full) => .stall false
      if !t.2 then .stall false
      else if aligned va 64 then
        match t.1.translate gr.asid gr.priv true needStore va with
        | .ok p key =>
          match ((t.1.leadVia p va.toNat key).ownLine s.cur.wave w (lineOf key)).finalTry (·.ownLine s.cur.wave w) gr.asid gr.priv .traps key with
          | .done s1 n psn => .go ((s1.consumeIf s.cur.wave psn).tokenUsed w gr) fun _ f =>
              .done (f.set w.zen d.toNat (BitVec.ofNat 32 n)) 0
          | .wait => .stall false
          | .far va' => all t.1 (trapWith 0x04 (lo32 va'))
          | .fault va' k page sz key' => stop va' k page sz key'
        | .far => all t.1 (trapWith 0x04 (lo32 va))
        | .fault k page sz key => stop va k page sz key
        | .wait => .stall false
        | .hole key => .fault (.memoryHole key)
      else all t.1 (trapWith 0x08 (lo32 va))) s

end Sys2Proof.Machine
end

