-- ==== Sys2Proof/Machine/Power.lean ====
section
/-! DEFINITION. Levels of the clusters: PERFQ, the governor's samples, level changes, the power and heat rules
(16_power_and_health R366 to R374). Chip time is in ticks of 1 ns. -/

namespace Sys2Proof.Machine

/-- Clock in MHz and voltage in mV of a level (R366). -/
def levelMHz (l : Nat) : Nat :=
  [900, 950, 1000, 1050, 1100, 1150, 1200, 1250, 1300, 1350, 1400, 1450, 1500, 1600, 1700, 1750].getD l 1750
def levelMv (l : Nat) : Nat :=
  [600, 620, 640, 660, 680, 700, 720, 740, 760, 780, 800, 830, 860, 890, 920, 950].getD l 950

/-- The cap C of a cluster (R372). -/
def Cluster.cap (c : Cluster) : Nat := max c.floor (15 - c.pr - c.hr)

/-- T clamped to [F, C] (R368). -/
def Cluster.aim (c : Cluster) (t : Nat) : Cluster := { c with target := max c.floor (min t c.cap) }

/-- A change starts at chip time `now` when T differs from L and none is running: a raise with the voltage, while the clock
stands (R370). -/
def Cluster.start (now : Nat) (c : Cluster) : Cluster :=
  match c.change with
  | some _ => c
  | none =>
    if c.target = c.level then c
    else { c with change := some { target := c.target, start := now, switched := none, resynced := false }
                  volt := max c.volt (levelMv c.target) }

/-- A cap that has fallen below T lowers T at once (R368). -/
def Cluster.recap (now : Nat) (c : Cluster) : Cluster := if c.cap < c.target then (c.aim c.cap).start now else c

/-- A change that a DET grid had frozen goes on from chip time `now` (R373). -/
def Cluster.thaw (now : Nat) (c : Cluster) : Cluster := { c with change := c.change.map fun h => { h with start := now } }

/-- The floor that the management controller gives a part: at most the cap, and T and L not below it (R367). -/
def Cluster.setFloor (f : Nat) (c : Cluster) : Cluster :=
  let f := min f 15
  { c with floor := f, target := max f c.target, level := max f c.level
           clock := levelMHz (max f c.level), volt := levelMv (max f c.level) }
/-- The floor of cluster k is set while the device does not run (R367: it never changes while it runs). -/
def State.setFloor (s : State) (k f : Nat) : State :=
  if s.dev == .inReset then s.modCluster k (Cluster.setFloor f) else s

/-- Whether a DET grid is resident on the device (R302). -/
def State.detResident (s : State) : Bool := s.grids.any fun g => g.det && g.stat == .running

/-- Caps act as level changes unless a DET grid is resident (R373). -/
def State.recapOne (s : State) (c : Nat) : State := if s.detResident then s else s.modCluster c (Cluster.recap s.now)
/-- When no DET grid is resident, caps act and pending targets start their changes (R370, R373). -/
def State.recapAll (s : State) : State :=
  if s.detResident then s
  else { s with clusters := s.clusters.map fun c => ((c.thaw s.now).recap s.now).start s.now }

/-! ### PERFQ (R371) -/

/-- What PERFQ makes of a cluster, and its status. -/
def perfqRun (det : Bool) (now : Nat) (v : Word) (c : Cluster) : Cluster × BitVec 3 :=
  let r := (v.extractLsb' 0 4 : BitVec 4).toNat
  let hold := fun (c : Cluster) => { c with hold := some (now + 1000000) }
  if det then (c, 3)
  else if v.getLsbD 4 then (c, 4)
  else if r < c.floor then (c, 2)
  else if c.cap < r then (hold ((c.aim c.cap).start now), 1)
  else (hold ((c.aim r).start now), 0)

/-- The result word of PERFQ. -/
def perfqWord (v : Word) (c : Cluster) (st : BitVec 3) : Word :=
  st ++ (0#9) ++ BitVec.ofNat 4 c.floor ++ BitVec.ofNat 4 c.cap ++ (v.extractLsb' 0 4 : BitVec 4)
    ++ BitVec.ofNat 4 c.level ++ BitVec.ofNat 4 c.target

def execPerfq (g : Guard) (d a : Reg) (s : State) : Out :=
  runPath (.perfq g d a) g (fun s w _ ls =>
    let v := (lowFibre w ls).get w.zen a.toNat
    let k := clusterOf w.core
    let r := perfqRun s.detResident s.now v (s.clusters.getD k Cluster.clear)
    .go (s.modCluster k fun _ => r.1) fun _ f => .done (f.setZ w.zen d.toNat (perfqWord v r.1 r.2)) 0) s

/-! ### Samples (R369, R372, R374) -/

/-- The governor's step (R368). -/
def Cluster.govern (now : Nat) (c : Cluster) (ratio : Nat) : Cluster :=
  if 154 ≤ ratio then (c.aim (c.target - 1)).start now
  else if ratio ≤ 51 then (c.aim (c.target + 1)).start now
  else (c.aim c.target).start now

/-- Monitors and the heat rule at a sample (R372, R374): 0x0348 is 105 degrees C, 0x0320 is 100. -/
def Cluster.sampled (c : Cluster) (now : Nat) (x : Sample) : Cluster :=
  let t := x.temp.toInt
  let hot := decide (840 ≤ t)
  let cool := decide (t < 800)
  let heating := if hot then true else if cool then false else c.heating
  { c with
    temp := x.temp, hot := hot, stall := min x.ratio 256, mv := x.mv, osc := x.osc
    heating := heating
    hr := if heating then min 15 (c.hr + 1) else c.hr
    coolSince := if cool then some (c.coolSince.getD now) else none }

/-- Whether a hold of PERFQ covers chip time `now` (R368). -/
def Cluster.held (now : Nat) (c : Cluster) : Bool :=
  match c.hold with | some t => decide (now < t) | none => false

/-- Whether a wave is resident in one of the cluster's partitions (R369). -/
def State.clusterBusy (s : State) (k : Nat) : Bool :=
  s.waves.any fun w => !w.zen && clusterOf w.core == k && (w.stat == .resident || w.stat == .halted)

/-- Stalled clocks as a ratio of all clocks of a cluster's 32 partitions since the last sample, in 1/256 (R369). -/
def Cluster.ratio (c : Cluster) (stalled : Nat) : Nat := stalled * 256 / (32 * c.span)

/-- The stall ratio of a sample over the time since the last one (R369): 0 of a cluster that had no resident wave in it, and
else between the least and the most that its stalled clocks come to, where the reading says (log 55). -/
def State.ratioOf (s : State) (k : Nat) (x : Sample) : Nat :=
  let c := s.clusters.getD k Cluster.clear
  if c.busy || s.clusterBusy k then max (c.ratio c.stalls.1) (min x.ratio (c.ratio c.stalls.2)) else 0

/-- Clusters in which a wave is resident at the end of a step. -/
def State.settleBusy (s : State) : State :=
  { s with clusters := s.clusters.mapIdx fun k c => if s.clusterBusy k then { c with busy := true } else c }

/-- A sample is due every 10 µs of chip time (R369). -/
def Cluster.sampleDue (now : Nat) (c : Cluster) : Bool := decide (c.nextSample ≤ now)

/-- STALL_SAMPLE: monitors, heat rule, governor, and then what sr.vmon shows of L and T; at 115 degrees C a fatal error.
Samples fall at the multiples of 10 µs of chip time, which does not pass one (log 47). -/
def State.sample (s : State) (k : Nat) (x : Sample) : State :=
  let r := s.ratioOf k x
  let s1 := (s.modCluster k fun c =>
    { c.sampled s.now { x with ratio := r } with
      nextSample := (s.now / 10000 + 1) * 10000, busy := false, span := 0, stalls := (0, 0) }).recapOne k
  let s2 := if s1.detResident then s1 else s1.modCluster k fun c => if c.held s.now then c else c.govern s.now r
  let s3 := s2.modCluster k fun c => { c with shown := (c.level, c.target) }
  if 920 ≤ x.temp.toInt then s3.fatalStop (.heat k) else s3

/-- The sample that a cluster takes when its time has come and the outside has given no readings: those of the last one
stand, and the stall ratio is a free value (log 55). -/
def State.heldSample (s : State) (k : Nat) : Sample :=
  let c := s.clusters.getD k Cluster.clear
  { ratio := (Config.freeRatio k s.now).val, temp := c.temp, mv := c.mv, osc := c.osc }

def execStallSample (k : Nat) (x : Sample) (s : State) : Out :=
  onRun (fun s => match s.clusters[k]? with | some c => c.sampleDue s.now | none => false) (fun s => s.sample k x) s

/-! ### A level change (R370) -/

/-- Runs `f` on cluster k when its state allows. -/
def onCluster (k : Nat) (p : Cluster → Bool) (f : State → State) (s : State) : Out :=
  onRun (fun s => match s.clusters[k]? with | some c => p c | none => false) f s

/-- The clock can switch: at once in a lowering, and in a raise once the voltage, which rose with the start, has settled,
later than the start (R370). -/
def Cluster.canSwitch (now : Nat) (c : Cluster) : Bool :=
  match c.change with
  | some h => h.switched.isNone && (decide (h.target < c.level) || decide (h.start < now))
  | none => false
/-- The clock takes the new level's frequency; the voltage stands (R370). -/
def Cluster.clockSwitch (now : Nat) (c : Cluster) : Cluster :=
  match c.change with
  | some h => { c with change := some { h with switched := some now }, clock := levelMHz h.target }
  | none => c
/-- No clock changes while a DET grid is resident (R302). -/
def execClockSwitch (k : Nat) (s : State) : Out :=
  onCluster k (fun c => c.canSwitch s.now && !s.detResident) (fun s => s.modCluster k (Cluster.clockSwitch s.now)) s

/-- Ticks until the next act of a change must happen, if it runs: the clock switches in time for the crossing's 500 ticks,
these end, and the change is complete, 2 µs after it began (R370). -/
def Cluster.changeLeft (now : Nat) (c : Cluster) : Option Nat :=
  match c.change with
  | none => none
  | some h => some (match h.switched with
    | none => h.start + 1500 - now
    | some t => if h.resynced then h.start + 2000 - now else t + 500 - now)

/-- The crossing resynchronises for 500 ticks after the switch. -/
def Cluster.canResync (now : Nat) (c : Cluster) : Bool :=
  match c.change with
  | some { switched := some t, resynced := false, .. } => decide (t + 500 ≤ now)
  | _ => false
def execCrossingResync (k : Nat) (s : State) : Out :=
  onCluster k (Cluster.canResync s.now) (fun s => s.modCluster k fun c =>
    { c with change := c.change.map fun h => { h with resynced := true } }) s

def Cluster.canComplete (c : Cluster) : Bool :=
  match c.change with | some h => h.resynced | none => false
/-- L takes the level of the change, whose clock has switched; in a lowering the voltage has fallen by then. -/
def Cluster.complete (c : Cluster) : Cluster :=
  match c.change with
  | some h => { c with level := h.target, change := none, volt := levelMv h.target }
  | none => c
/-- A target that has become pending starts the next change (R370). No level changes while a DET grid is resident: levels
are frozen, and a change whose clock has switched before is completed afterwards (R302, R373). -/
def execLevelChangeComplete (k : Nat) (s : State) : Out :=
  onCluster k (fun c => c.canComplete && !s.detResident) (fun s => s.modCluster k fun c => c.complete.start s.now) s

def Cluster.holdOver (now : Nat) (c : Cluster) : Bool :=
  match c.hold with | some t => decide (t ≤ now) | none => false
def execPerfqHoldExpiry (k : Nat) (s : State) : Out :=
  onCluster k (Cluster.holdOver s.now) (fun s => s.modCluster k fun c => { c with hold := none }) s

/-! ### The power and heat rules (R372) -/

/-- The cluster with the greatest key, lowest number first, among those that `p` admits. -/
def bestCluster (cs : List Cluster) (p : Cluster → Bool) (key : Cluster → Nat) : Option Nat :=
  (cs.zipIdx.filter fun x => p x.1).foldl (fun best x => match best with
    | none => some x.2
    | some b => if key (cs.getD b Cluster.clear) < key x.1 then some x.2 else best) none

/-- One power check with the package's mean power over the last 1 ms. -/
def State.powerCheck (s : State) (watts : Nat) : State :=
  if s.limit < watts then
    let s := { s with lowSince := none }
    match bestCluster s.clusters (fun c => decide (c.floor < c.cap)) (·.level) with
    | some k => (s.modCluster k fun c => { c with pr := min 15 (c.pr + 1) }).recapOne k
    | none => s.emit (.report "power limit not met at the floors" watts s.limit)
  else if watts * 100 ≤ s.limit * 95 then
    let since := s.lowSince.getD s.now
    let s := { s with lowSince := some since }
    if since + 10000000 ≤ s.now then
      match bestCluster s.clusters (fun c => decide (0 < c.pr)) (·.pr) with
      | some k => s.modCluster k fun c => { c with pr := c.pr - 1 }
      | none => s
    else s
  else { s with lowSince := none }

/-- A check falls every 1 ms of chip time, which does not pass one; the reading stands until the next (R372; log 47). -/
def execPowerLimitCheck (watts : Nat) (s : State) : Out :=
  onRun (fun s => decide (s.nextCheck ≤ s.now))
    (fun s => ({ s with nextCheck := (s.now / 1000000 + 1) * 1000000, watts := watts }).powerCheck watts) s

def Cluster.canFall (now : Nat) (c : Cluster) : Bool :=
  decide (0 < c.hr) && (match c.coolSince with | some t => decide (t + 1000000 ≤ now) | none => false)
/-- Ticks until the heat reduction of a cluster that stays cool falls. -/
def Cluster.fallLeft (now : Nat) (c : Cluster) : Option Nat :=
  if 0 < c.hr then c.coolSince.map (· + 1000000 - now) else none
def execHeatReductionFall (k : Nat) (s : State) : Out :=
  onCluster k (Cluster.canFall s.now) (fun s => s.modCluster k fun c =>
    { c with hr := c.hr - 1, coolSince := some s.now }) s

/-- No part takes a limit above 2,600 W, and a CD-8260-M none below 1,000 W; what a CD-8260-P's board delivers is the
board's (R372). -/
def execPowerLimitSet (watts : Nat) (s : State) : Out :=
  onRun (fun s => decide (watts ≤ 2600) && (!s.isModule || decide (1000 ≤ watts))) (fun s => { s with limit := watts }) s

end Sys2Proof.Machine
end

