-- ==== Sys2Proof/Machine/Fixed.lean ====
section
/-! DEFINITION. Fixed-star regions: FREEZE, THAW, FQUERY, replicas, thawing (11_address_space_and_fixed_stars R272 to
R284), and the death of an agent (09_lines_and_order R231). -/

namespace Sys2Proof.Machine

/-! ### Blocks, pages, regions -/

/-- 64 KiB blocks of a page: their physical numbers. -/
def Page.blocks (p : Page) : List Nat := (List.range (p.size / 65536)).map (blockOf p.tgt.toNat + ·)
/-- Whether a page maps a physical block. -/
def Page.hasBlock (p : Page) (b : Nat) : Bool :=
  decide (blockOf p.tgt.toNat ≤ b ∧ b < blockOf p.tgt.toNat + p.size / 65536)

/-- Pages of a range of a space. -/
def State.pagesIn (s : State) (asid base size : Nat) : List Page :=
  s.pages.filter fun p => p.asid == asid && decide (p.va < base + size ∧ base < p.va + p.size)

/-- Physical blocks of a range, each once; none where a block is not mapped. -/
def State.rangeBlocks (s : State) (asid base size : Nat) : Option (List Nat) :=
  ((List.range (size / 65536)).mapM fun i => (s.findPage asid (base + 65536 * i)).map fun p =>
    blockOf (p.key (base + 65536 * i))).map List.eraseDups

def State.count (s : State) (block : Nat) : Nat := (s.frozen.get block).toNat

/-- A page after the counts of some of its blocks have risen (R276). -/
def State.settlePage (s : State) (p : Page) : Page :=
  if p.st == .owned && p.blocks.all (fun b => decide (0 < s.count b)) then
    { p with st := if p.reps.isEmpty then .fixed else .readDup }
  else p

/-- Whether a line of an L1 is a replica of a page's block. -/
def L1Line.replicaOf (p : Page) (x : L1Line) : Bool :=
  x.replica && decide (p.tgt.toNat ≤ x.line * 128 ∧ x.line * 128 < p.tgt.toNat + p.size)

/-- Devices that hold replicas of a page: those that REPLICA_MAKE named, and this one while an L1 of its own holds one
(R277). -/
def State.pageReps (s : State) (p : Page) : List Nat :=
  let own := s.devNum.toNat % 64
  if s.l1.any (·.replicaOf p) && !p.reps.contains own then p.reps ++ [own] else p.reps

/-- The state of a page, with the replicas in L1s (R276). -/
def State.pageSt (s : State) (p : Page) : PageSt :=
  match p.st with
  | .fixed | .readDup => if (s.pageReps p).isEmpty then .fixed else .readDup
  | x => x

/-- A device no longer holds replicas of a page: those of this device leave its L1s. -/
def State.loseReplicas (s : State) (p : Page) (dev : Nat) : State :=
  if dev = s.devNum.toNat % 64 then { s with l1 := s.l1.filter fun x => !x.replicaOf p } else s

/-- The page state after a replica has gone. -/
def Page.afterDrop (p : Page) : Page := if p.st == .readDup && p.reps.isEmpty then { p with st := .fixed } else p

/-- The status word of FREEZE and THAW (R273). -/
def fzOk : Word := 0
def fzAlign : Word := 1
def fzNomap : Word := 2
def fzCount : Word := 3
def fzNoid : Word := 4
def fzNoregion : Word := 5
def fzNotown : Word := 6
def fzThawing : Word := 7

/-! ### FREEZE (R273, R274) -/

/-- Whether base and size are aligned and in range. -/
def freezeAligned (base size : Nat) : Bool :=
  base % 65536 == 0 && size % 65536 == 0 && size != 0 && decide (base + size ≤ 2 ^ 57)

/-- Whether the physical address of a key lies in one of the blocks. -/
def inBlocks (bs : List Nat) (key : Nat) : Bool := bs.contains (blockOf key)

/-- An atomic in flight on one of the blocks: it completes before the freeze (R236, R274). -/
def State.atomicIn (s : State) (bs : List Nat) : Bool :=
  s.waves.any fun w => w.fibres.any fun f => match f.park with
    | some { why := .atomic r, .. } => inBlocks bs r.key
    | _ => false

/-- Drain: every retired write to the blocks is carried to its home (R274), and copies of self-invalidating lines of the
blocks, which could be older than the freeze, are dropped (R275). -/
def State.drainBlocks (s : State) (bs : List Nat) : State := s.drainWhere (inBlocks bs)

/-- What an attempt to freeze comes to: a status, a fault, a wait, or a hole. -/
inductive FreezeTry where
  | done (s : State) (id : Nat) (st : Word)
  | fault (va : DWord) (k : FaultKind) (page : Nat) (sz : BitVec 2) (key : Nat)
  | wait
  | hole (key : Nat)

/-- The lowest region identifier whose status is free. -/
def State.freeRegion (s : State) : Option Nat :=
  firstFrom (fun i => (s.regionWord i).extractLsb' 0 2 == (0#2)) 65536 0

/-- Takes a region identifier for a list of blocks. -/
def State.takeRegion (s : State) (id asid : Nat) (bs : List Nat) : State :=
  let gen := match s.regions.find? (fun r => r.id == id) with | some r => r.gen | none => 0
  let r : Region := { id := id, gen := gen + 1, st := 1, asid := asid, blocks := bs, withdrawn := [], thaw := [] }
  { s with regions := s.regions.filter (fun x => x.id != id) ++ [r] }

/-- One freeze by wave `wid` of an aligned range. -/
def State.tryFreeze (s : State) (wid core asid : Nat) (priv : Bool) (base size : Nat) : FreezeTry :=
  match (s.reach asid priv needLoad ((List.range (size / 65536)).map fun i => (base + 65536 * i, 1))).2 with
  | some (.fault va k page sz key) => .fault va k page sz key
  | some (.hole key) => .hole key
  | some _ => .wait
  | none => match s.rangeBlocks asid base size with
    | none => .wait
    | some bs =>
      if bs.any fun b => s.count b == 255 then .done s 0 fzCount
      else match s.freeRegion with
        | none => .done s 0 fzNoid
        | some id =>
          if (s.pagesIn asid base size).any (fun p => p.st == .thawing) || s.atomicIn bs then .wait
          else
            let s1 := (s.releaseAt wid core true .system).drainBlocks bs
            let s2 : State := { s1 with frozen := bs.foldl (fun m b => m.put b (m.get b + 1)) s1.frozen }
            let s3 : State := { s2 with pages := s2.pages.map fun (p : Page) => if bs.any p.hasBlock then s2.settlePage p else p }
            .done (s3.takeRegion id asid bs) id fzOk

/-- The result pair of FREEZE and THAW: status above, value below. -/
def fzEnd (z : Bool) (d : Reg) (v st : Word) (f : Fibre) : Fibre := f.setPair z d.toNat (pair64 st v)

def execFreeze (g : Guard) (d a b : Reg) (s : State) : Out :=
  runPath (.freeze g d a b) g (fun s w gr ls =>
    let f0 := lowFibre w ls
    let base := (f0.getPair w.zen a.toNat).toNat
    let size := (f0.getPair w.zen b.toNat).toNat
    if !s.tokenHere w gr then .stall false
    else
      let t := s.turnReady w gr
      let fin := fun (s : State) (v st : Word) =>
        PathRes.go (s.tokenUsed w gr) fun _ f => .done (fzEnd w.zen d v st f) 0
      if !t.2 then .stall false
      else if !freezeAligned base size then fin t.1 0 fzAlign
      else if s.defer && !gr.det then
        let n := s.freeCtr
        let r : FreezeReq := { num := n, wave := s.cur.wave, d := d, base := BitVec.ofNat 64 base,
                               size := BitVec.ofNat 64 size, asid := gr.asid, record := none }
        .go ({ t.1.tokenUsed w gr with freezes := t.1.freezes ++ [r], freeCtr := n + 1 }) fun _ f => .park f (.freeze n)
      else match t.1.tryFreeze s.cur.wave w.core gr.asid gr.priv base size with
        | .done s1 id st => fin s1 (BitVec.ofNat 32 id) st
        | .wait => .stall false
        | .hole key => .fault (.memoryHole key)
        | .fault va k page sz key =>
          match t.1.raiseFault (dieOf w.core) .freeze gr.asid va k page sz key with
          | (s1, .deliver _) => fin s1 0 fzNomap
          | (s1, .parked h) => .go s1 fun _ f => .park f (.record h va)
          | (_, .full) => .stall false) s

/-- The result of a FREEZE that had left its core enters the context, saved or not (R273). -/
def State.freezeResult (s : State) (r : FreezeReq) (v st : Word) : State :=
  let s0 := match s.waves[r.wave]? with | some w => cured w s | none => s
  let s1 := { s0 with freezes := s.freezes.filter fun x => x.num != r.num }
  s1.modWave r.wave fun w => { w with fibres := w.fibres.map fun f => match f.park with
    | some { why := .freeze n, .. } => if n = r.num then (fzEnd w.zen r.d v st f).resume else f
    | _ => f }
where
  /-- What it writes is sound again (R315). -/
  cured (w : Wave) (s : State) : State :=
    s.cure ((w.fibres.zipIdx).flatMap fun p => match p.1.park with
      | some { why := .freeze n, .. } => if n = r.num then s.places r.wave w p.2 p.1 r.d 2 else []
      | _ => [])

/-- FREEZE_COMPLETE of the k-th FREEZE in flight. -/
def State.freezeComplete (s : State) (k : Nat) : Out :=
  match s.freezes[k]? with
  | none => .next s
  | some r => match s.waves[r.wave]?, r.record with
    | some w, none =>
      let priv := match s.gridOf w with | some g => g.priv | none => false
      match s.tryFreeze r.wave w.core r.asid priv r.base.toNat r.size.toNat with
        | .done s1 id st => .next (s1.freezeResult r (BitVec.ofNat 32 id) st)
        | .wait => .next s
        | .hole key => .fault (.memoryHole key)
        | .fault va kd page sz key => match s.raiseFault (dieOf w.core) .freeze r.asid va kd page sz key with
          | (s1, .deliver _) => .next (s1.freezeResult r 0 fzNomap)
          | (s1, .parked h) => .next { s1 with freezes := s1.freezes.set k { r with record := some h } }
          | (_, .full) => .next s
    | _, _ => .next s

def execFreezeComplete (k : Nat) (s : State) : Out := if s.dev == .running then s.freezeComplete k else .next s

/-! ### Thawing (R276, R279, R280, R283) -/

/-- Puts every page that holds one of the blocks into Thawing; answers which. -/
def State.thawPages (s : State) (zero : List Nat) : State × List (Nat × Nat) :=
  let hit := fun (p : Page) => zero.any p.hasBlock
  ({ s with pages := s.pages.map fun p => if hit p then { p with st := .thawing } else p },
    (s.pages.filter hit).map fun p => (p.asid, p.va))

/-- One thaw of a region by wave `wid`: its counts fall, pages that reach 0 enter Thawing. -/
def State.thawRegion (s : State) (wid core : Nat) (r : Region) : State :=
  let s0 := s.releaseAt wid core true .system
  let live := r.blocks.filter fun b => !r.withdrawn.contains b
  let s1 := { s0 with frozen := live.foldl (fun m b => m.put b (m.get b - 1)) s0.frozen }
  let t := s1.thawPages (live.filter fun b => s1.count b == 0)
  { t.1 with regions := t.1.regions.map fun x =>
      if x.id = r.id then { x with st := if t.2.isEmpty then 0 else 2, thaw := t.2 } else x }

/-- Whether a grid may thaw a region: its own space's, or, in a privileged handler task, one of a space whose fault
mailbox launched it (R279). -/
def State.mayThaw (s : State) (g : Grid) (r : Region) : Bool :=
  r.asid == g.asid || (g.priv && s.spaces.any fun x => x.asid == r.asid && x.mbx == some g.mbx)

def execThaw (g : Guard) (d a : Reg) (s : State) : Out :=
  runPath (.thaw g d a) g (fun s w gr ls =>
    if !s.tokenHere w gr then .stall false
    else
      let t := s.turnReady w gr
      if !t.2 then .stall false
      else
        let id := ((lowFibre w ls).get w.zen a.toNat).toNat % 65536
        let fin := fun (s : State) (v st : Word) =>
          PathRes.go (s.tokenUsed w gr) fun _ f => .done (fzEnd w.zen d v st f) 0
        match t.1.regions.find? (fun r => r.id == id) with
        | none => fin t.1 0 fzNoregion
        | some r =>
          if r.st == 0#2 then fin t.1 0 fzNoregion
          else if !t.1.mayThaw gr r then fin t.1 0 fzNotown
          else if r.st == 2#2 then fin t.1 0 fzThawing
          else fin (t.1.thawRegion s.cur.wave w.core r) (r.gen ++ BitVec.ofNat 16 id) fzOk) s

/-- A page is Owned again: regions that waited for it alone become free (R280). -/
def State.pageOwned (s : State) (asid va : Nat) : State :=
  { s with
    pages := s.pages.map fun p => if p.asid = asid ∧ p.va = va then { p with st := .owned, reps := [] } else p
    regions := s.regions.map fun r =>
      let t := r.thaw.filter fun x => x != (asid, va)
      { r with thaw := t, st := if r.st == 2#2 && t.isEmpty then 0 else r.st } }

/-- THAW_COMPLETE of a page: every replica has been collected. A page whose blocks are all fixed by other regions takes
the state of R276 again. -/
def State.thawComplete (s : State) (i : Nat) : State :=
  match s.pages[i]? with
  | some p =>
    if p.st == .thawing && (s.pageReps p).isEmpty then
      let s1 := s.pageOwned p.asid p.va
      { s1 with pages := s1.pages.map fun q => if q.asid = p.asid ∧ q.va = p.va then s1.settlePage q else q }
    else s
  | none => s

def execThawComplete (page : Nat) (s : State) : Out := onRun (fun _ => true) (fun s => s.thawComplete page) s

/-! ### Replicas (R275 to R277) -/

def State.modPage (s : State) (i : Nat) (f : Page → Page) : State := { s with pages := modAt s.pages i f }

/-- This device, or a peer of the domain. -/
def State.inDomain (s : State) (dev : Nat) : Bool := dev == s.devNum.toNat % 64 || (decide (dev < 64) && s.peers.getLsbD dev)

def execReplicaMake (page dev : Nat) (s : State) : Out :=
  onRun (fun s => match s.pages[page]? with
      | some p => s.inDomain dev && p.st != .thawing && !p.reps.contains dev && p.blocks.any fun b => decide (0 < s.count b)
      | none => false)
    (fun s => s.modPage page fun p =>
      { p with reps := p.reps ++ [dev], st := if p.st == .fixed then .readDup else p.st }) s

/-- Whether a device holds replicas of a page that is, or is not, Thawing. -/
def State.holdsReplica (s : State) (page dev : Nat) (thawing : Bool) : Bool :=
  match s.pages[page]? with
  | some p => (s.pageReps p).contains dev && (p.st == .thawing) == thawing
  | none => false

/-- The replicas of a page at a device are gone. -/
def State.eraseReplica (s : State) (page dev : Nat) : State :=
  match s.pages[page]? with
  | some p => (s.loseReplicas p dev).modPage page fun p => ({ p with reps := p.reps.erase dev } : Page).afterDrop
  | none => s

def execReplicaDrop (page dev : Nat) (s : State) : Out :=
  onRun (·.holdsReplica page dev false) (·.eraseReplica page dev) s

def execReplicaCollect (page dev : Nat) (s : State) : Out :=
  onRun (·.holdsReplica page dev true) (·.eraseReplica page dev) s

/-! ### What a peer does to its own memory (R274, R277, R343) -/

/-- Whether a physical key is in the memory of a peer of the domain. -/
def State.peerKey (s : State) (key : Nat) : Bool := keyLoc key == 2 && s.peers.getLsbD (key / 2 ^ 52 % 64)

/-- A byte that a peer's own store leaves in the peer's memory: copies of a tracked line are invalidated, and nothing is
written in a fixed block. -/
def State.peerByte (s : State) (c : Byte × Nat) : State :=
  if s.peerKey c.2 && s.frozenAt c.2 == 0 then (s.takeLine c.2).homeWrite c.2 [c.1] else s

/-- A peer's own store takes effect for this device. -/
def State.peerStore (s : State) (key : Nat) (bs : List Byte) : State :=
  (bs.zipIdx.map fun b => (b.1, key + b.2)).foldl State.peerByte s

/-- The freeze count of a peer's block changes here: where it rises, this device's writes to the block are carried home
first (R274); where it falls, this device's replicas have been collected, and a page whose block is at 0 is Owned again. -/
def State.peerCount (s : State) (block n : Nat) : State :=
  if !s.peerKey (block * 65536) || decide (255 < n) || s.atomicIn [block] then s
  else
    let s1 := if s.count block < n then s.drainBlocks [block]
      else { s with l1 := s.l1.filter fun x => !(x.replica && blockOf (x.line * 128) == block) }
    let s2 : State := { s1 with frozen := s1.frozen.put block (BitVec.ofNat 32 n) }
    { s2 with pages := s2.pages.map fun (p : Page) =>
        if p.hasBlock block then (if n = 0 then { p with st := .owned, reps := [] } else s2.settlePage p) else p }

/-! ### FQUERY (R281) -/

def PageSt.code : PageSt → Nat
  | .owned => 0 | .fixed => 1 | .readDup => 2 | .thawing => 3

/-- What FQUERY reads. Of a page without RD, or of a PRIV page in an unprivileged task, it is the page's real state: DESIGN CHOICE,
log 54, since R260 gives FQUERY the need of RD and R281 says that it never faults. -/
def State.fqueryWord (s : State) (asid : Nat) (va : DWord) : Word :=
  if va.toNat < 2 ^ 57 then
    match s.findPage asid va.toNat with
    | none => 0x0000000F
    | some p =>
      BitVec.ofNat 8 (s.count (blockOf (p.key va.toNat))) ++ BitVec.ofNat 8 (s.pageReps p).length ++ (0#6) ++ p.sz ++ (0#4)
        ++ BitVec.ofNat 4 (s.pageSt p).code
  else 0x0000000F

/-- Whether an FQUERY of a fibre finds its page Owned, so that it may observe the completion of a thaw (R280). -/
def State.findsOwned (s : State) (asid : Nat) (va : DWord) : Bool :=
  match s.findPage asid va.toNat with | some p => decide (va.toNat < 2 ^ 57) && p.st == .owned | none => false

/-- FQUERY. One that finds a page Owned orders what follows at system scope (R280, R281). -/
def execFquery (g : Guard) (d a : Reg) (s : State) : Out :=
  runPath (.fquery g d a) g (fun s w gr ls =>
    let sees := ls.any fun l => s.findsOwned gr.asid ((w.fibres.getD l Fibre.empty).getPair w.zen a.toNat)
    .go (if sees then s.acquireAt w.core true .system else s) fun _ f =>
      .done (f.setZ w.zen d.toNat (s.fqueryWord gr.asid (f.getPair w.zen a.toNat))) 0) s

/-! ### The death of an agent (R231) -/

/-- An agent that holds the only modified copies of lines dies: the bytes that it wrote are lost, each line is poisoned
at its home, and stores that had not reached a home are lost with it. -/
def State.agentDeath (s : State) (a : Agent) : State :=
  let lost := s.modified.filter fun m => m.agent == a
  let s1 := lost.foldl (fun s m =>
    m.home.foldl (fun s b => s.homeWrite (m.line * 128 + b.1) [b.2]) s) s
  let lines := lost.map (·.line)
  let dead := fun (c : Nat) => a == .core c
  let lose := fun (p : PendStore) => match s1.waves[p.wave]? with
    | some w => if dead w.core then { p with bytes := [] } else p
    | none => p
  { s1 with l1 := s1.l1.filter fun x => !dead x.core
            pend := s1.pend.map lose
            modified := s1.modified.filter fun m => m.agent != a
            poison := s1.poison ++ lines.filter fun l => !s1.poison.contains l }

def execAgentDeath (a : Agent) (s : State) : Out := onRun (fun _ => true) (fun s => s.agentDeath a) s

end Sys2Proof.Machine
end

