-- ==== Sys2Proof/Machine/Steps.lean ====
section
/-! DEFINITION. STEPP, STEPR, STEPQ (15_orrery_cluster R357 to R361, R365), TOKW and TOKP (12_determinism R296), and
the hint words (01 R25, R26). -/

namespace Sys2Proof.Machine

/-! ### Step mailboxes -/

/-- A pair that a fibre of an address space may use (R357). -/
def State.usable (s : State) (asid n : Nat) : Option StepPair :=
  match s.pairOf n with | some p => if p.asid = asid then some p else none | none => none

def stNopair : Word := 10
def stFull : Word := 11
def stDead : Word := 12
def stOrder : Word := 8
def stNostep : Word := 9

/-- The pair number in bits [12:0] of b. -/
def pairNo (x : Word) : Nat := x.toNat % 8192

/-- Actions that teams have staged for a pair (R365). -/
def State.stagedActions (s : State) (pair : Nat) : Nat :=
  (s.teams.map fun t => (t.stage.filter fun e => match e with | .action p _ _ => p == pair | _ => false).length).sum

/-- Whether the episode of a pair has ended. -/
def State.pairDead (s : State) (p : StepPair) : Bool :=
  match s.episodeOf p.ep with | some e => e.st == .ended | none => true

/-- A status as the bytes of a destination. -/
def codeAns (c : Word) : LaneAns := .bytes (leBytes 4 c.toNat)

/-- One lane of STEPP. `low` is the lowest executing lane, whose weight splits to the action. -/
def steppLane (wid low : Nat) (w : Wave) (g : Grid) (a b : Reg) (now : Bool) (acc : State × Bool) (f : Fibre) :
    (State × Bool) × LaneAns :=
  let s := acc.1
  let ea := f.getPair w.zen a.toNat
  let n := pairNo (f.get w.zen b.toNat)
  if aligned ea 64 then
    match s.usable g.asid n with
    | none => (acc, codeAns stNopair)
    | some p =>
      if s.pairDead p then (acc, codeAns stDead)
      else if 16 ≤ p.unanswered + p.m + s.stagedActions n then (acc, codeAns stFull)
      else match s.translate g.asid g.priv false needLoad ea with
        | .ok pg key =>
          let r := s.gload wid w pg ea.toNat key 64 .normal false
          let c := (r.1.releaseAt wid w.core true .system).splitFrom wid low g.phase
          if now then ((c.1.postAction n r.2.1 c.2, acc.2 || r.2.2), codeAns 0)
          else match c.1.stageIn w.team (.action n r.2.1 c.2) with
            | some s1 => ((s1, acc.2 || r.2.2), codeAns 0)
            | none => (acc, .stall)
        | .far => (acc, .trap (trapWith 0x04 (lo32 ea)))
        | .fault k page sz key =>
          let r := s.faultLane (dieOf w.core) .load g.asid ea k page sz key
          ((r.1, acc.2), r.2)
        | .wait => (acc, .stall)
        | .hole key => (acc, .hole key)
  else (acc, .trap (trapWith 0x08 (lo32 ea)))

def execStepp (g : Guard) (d a b : Reg) (s : State) : Out :=
  runPath (.stepp g d a b) g (fun s w gr ls =>
    let t := s.turnReady w gr
    let dr := t.1.draw
    let r := foldLanes2 (steppLane s.cur.wave (ls.headD 0) w gr a b t.2) w (dr.1, []) ls
    pathOf ((r.1.1.recountIf s.cur.wave w none dr.2 r.2).drinkBy s.cur.wave w dr.2 r.1.2) r.2 (loadEnd w.zen d.toNat r.2)) s

/-- The plain store of a record by a fibre, after its acquire (R359). -/
def State.recordStore (s : State) (wid : Nat) (w : Wave) (p : Page) (va key : Nat) (bs : List Byte) : State :=
  ((s.acquireAt w.core true .system).gstore wid w p va key bs .normal .all).1

/-- One lane of STEPR. -/
def steprLane (wid : Nat) (w : Wave) (g : Grid) (d a b : Reg) (acc : State × Bool) (f : Fibre) :
    (State × Bool) × LaneAns :=
  let s := acc.1
  let ea := f.getPair w.zen a.toNat
  let num := pairNo (f.get w.zen b.toNat)
  let n := f.get w.zen d.toNat
  if aligned ea 64 then
    match s.usable g.asid num with
    | none => (acc, codeAns stNopair)
    | some p => match s.translate g.asid g.priv true needStore ea with
      | .ok pg key =>
        match p.obs with
        | [] =>
          if p.open_.any fun x => leNat (x.take 4) == n.toNat then
            (acc, .park (.steps { d := d, ea := ea, pair := num, n := n }))
          else (acc, codeAns stNostep)
        | h :: rest =>
          if h.status ≠ 1 ∧ h.step ≠ n.toNat then (acc, codeAns stOrder)
          else
            let s1 := (s.modPair num fun p => { p with obs := rest }).recordStore wid w pg ea.toNat key h.bytes
            let s2 := match h.weight with | some c => s1.weightHome c.phase c.amount | none => s1
            ((s2, acc.2), codeAns (BitVec.ofNat 32 h.status))
      | .far => (acc, .trap (trapWith 0x04 (lo32 ea)))
      | .fault k page sz key =>
        let r := s.faultLane (dieOf w.core) .store g.asid ea k page sz key
        ((r.1, acc.2), r.2)
      | .wait => (acc, .stall)
      | .hole key => (acc, .hole key)
  else (acc, .trap (trapWith 0x08 (lo32 ea)))

def execStepr (g : Guard) (d a b : Reg) (s : State) : Out :=
  runPath (.stepr g d a b) g (fun s w gr ls =>
    let t := s.turnReady w gr
    if !t.2 then .stall false
    else
      let r := foldLanes2 (steprLane s.cur.wave w gr d a b) w (t.1, []) ls
      pathOf r.1.1 r.2 (loadEnd w.zen d.toNat r.2)) s

/-- est of STEPQ (R361). -/
def Episode.est (e : Episode) : Nat :=
  match e.st with | .stopped => 1 | .running => 2 | .ended => 3 + e.cause

/-- The pair that STEPQ writes: the status word, and the step of the queue's head. -/
def State.stepqPair (s : State) (asid num : Nat) : DWord :=
  match s.usable asid num with
  | none => 0
  | some p => match s.episodeOf p.ep with
    | none => 0
    | some e =>
      let st : Word := BitVec.ofNat 3 e.est ++ BitVec.ofNat 5 p.unanswered ++ BitVec.ofNat 6 p.obs.length
        ++ BitVec.ofNat 5 p.sd ++ (0#13)
      pair64 (match p.obs with | h :: _ => BitVec.ofNat 32 h.step | [] => 0xFFFFFFFF) st

def execStepq (g : Guard) (d b : Reg) (s : State) : Out :=
  runPath (.stepq g d b) g (fun s w gr _ =>
    .go s fun _ f => .done (f.setPair w.zen d.toNat (s.stepqPair gr.asid (pairNo (f.get w.zen b.toNat)))) 0) s

/-! ### TOKW and TOKP (R296) -/

def execTokw (g : Guard) (s : State) : Out :=
  runPath (.tokw g) g (fun s w gr _ =>
    if !gr.det || w.zen || w.held then .go s fun _ f => .done f 0
    else if s.tokenHere w gr then .go (s.setWave s.cur.wave { w with held := true }) fun _ f => .done f 0
    else .stall false) s

def execTokp (g : Guard) (s : State) : Out :=
  runPath (.tokp g) g (fun s _ _ _ => .go (s.dropToken s.cur.wave) fun _ f => .done f 0) s

/-! ### Hint words (R25, R26) -/

/-- A hint joins the group of the bundle in progress; it takes effect with the ordinary word that ends the group. -/
def pushHint (i : Instr) (s : State) : Out := .next { s with bundle := s.bundle ++ [i] }

def execXimm (p : BitVec 24) (s : State) : Out := pushHint (.ximm p) s
def execXop (p : BitVec 24) (s : State) : Out := pushHint (.xop p) s
def execMod (inv msg clr sat : Bool) (rm : Rnd) (s : State) : Out := pushHint (.mod inv msg clr sat rm) s
def execSched (yld : Bool) (reuse stall : BitVec 4) (s : State) : Out := pushHint (.sched yld reuse stall) s
def execXoff (p : BitVec 24) (s : State) : Out := pushHint (.xoff p) s

end Sys2Proof.Machine
end

