-- ==== Sys2Proof/Machine/Wait.lean ====
section
/-! DEFINITION. Events that complete what waves wait for: stores, atomics, monitors, swap-out (09 R225; 10 R236, R249 to
R252), the end of a wave (02 R54), the load-issue limit (02 R64), and host watches (10 R253, R254). -/

namespace Sys2Proof.Machine

/-! ### Completions -/

def execStoreCompletion (k : Nat) (s : State) : Out := onRun (fun s => decide (k < s.pend.length)) (·.completeStore k) s
def execAtomicCompletion (w lane : Nat) (s : State) : Out := onRun (fun _ => true) (·.completeAtomic w lane) s
def execWaveEnd (w : Nat) (s : State) : Out := onRun (fun _ => true) (·.checkWaveEnd w) s

/-! ### Monitors (R249, R250) -/

/-- Whether the fibres of a wave may leave their monitors now: a halted or saved wave reads its locations again when it
resumes (R252). -/
def State.watching (s : State) (wid : Nat) : Bool :=
  match s.waves[wid]? with
  | some w => w.stat == .resident || w.stat == .swapped
  | none => false

/-- The slice evaluates an entry when a write reaches the location. -/
def execWaitcRelease (w lane : Nat) (s : State) : Out :=
  onRun (fun s => s.watching w && (s.monitorAt w lane).any (·.entry)) (·.tryRelease w lane) s
/-- A waiter without an entry reads its location when its next microsecond has passed. -/
def execMonitorPoll (w lane : Nat) (s : State) : Out :=
  onRun (fun s => s.watching w && (s.monitorAt w lane).any fun m => !m.entry && decide (m.next ≤ s.now))
    (·.pollMonitor w lane) s
def execWaitcTimeout (w lane : Nat) (s : State) : Out := onRun (·.watching w) (·.expireMonitor w lane) s

/-- Between steps every waiter's location is judged, and one with an entry that has satisfied its condition for 1 microsecond
is released (R250). -/
def State.settleMonitor (s : State) (wid l : Nat) : State :=
  match s.monitorAt wid l with
  | none => s
  | some _ =>
    if s.watching wid then
      let s1 := s.noteMet wid l
      if (s1.monitorAt wid l).any fun m => m.met.any fun t => decide (t + 1000 ≤ s1.now) then s1.tryRelease wid l else s1
    else s

def State.settleMonitors (s : State) : State :=
  (s.waves.zipIdx).foldl (fun s w => (List.range w.1.fibres.length).foldl (fun s l => s.settleMonitor w.2 l) s) s

/-! ### Lane slots and registers of a partition (R6, R52, R84) -/

/-- Registers that a wave takes. -/
def Wave.regsTaken (w : Wave) : Nat := w.width * w.allot
/-- Waves that hold lane slots and registers of a partition: the resident ones, and those whose team has taken its
place again (R52). -/
def State.holders (s : State) (core part : Nat) : List Wave :=
  s.waves.filter fun w => !w.zen && w.core == core && w.part == part &&
    (w.stat == .resident || w.stat == .halted || w.stat == .arriving)
/-- Lane slots in use in a partition, and registers. -/
def State.lanesUsed (s : State) (core part : Nat) : Nat := ((s.holders core part).map (·.width)).sum
def State.regsUsed (s : State) (core part : Nat) : Nat := ((s.holders core part).map Wave.regsTaken).sum
/-- Whether waves of a total width and register count fit a partition beside its residents. -/
def State.partFits (s : State) (core part lanes regs : Nat) : Bool :=
  decide (s.lanesUsed core part + lanes ≤ 512 ∧ s.regsUsed core part + regs ≤ 98304)

/-- A context that issues again: its rotation from its head, the serial count and the throttle state afresh (R83); a switch
of serial mode that was due stays due, since R83 speaks of the count alone. One that returns from swap-out or is restored in
place keeps its age, since R59 speaks of placement, and R252 and R323 say nothing of age. Both: DESIGN CHOICE, log 54. -/
def Wave.restart (w : Wave) : Wave :=
  { w with stat := .resident, streak := 0, waits := [], yielded := false, quota := if 32 ≤ w.quota then 32 else 0
           score := 0, victims := [] }

/-! ### Swap-out under WAITC (R252, R359) -/

/-- Whether every live fibre waits on WAITC or STEPR. -/
def Wave.allWaiting (w : Wave) : Bool :=
  w.fibres.any (·.live) && (w.fibres.filter (·.live)).all fun f =>
    match f.park with | some { why := .monitor _, .. } | some { why := .steps _, .. } => true | _ => false

def execWaveSwapOut (w : Nat) (s : State) : Out :=
  onRun (fun s => match s.waves[w]? with
      | some x => !x.zen && x.stat == .resident && x.allWaiting
      | none => false)
    (fun s => s.modWave w fun x => { x with stat := .swapped, score := 0, victims := [] }) s

/-- A swapped-out wave is ready to return when some live fibre no longer waits. -/
def Wave.returning (w : Wave) : Bool := w.stat == .swapped && w.fibres.any fun f => f.live && f.park.isNone

/-- Whether the quad of partition p takes a wave's matrix state: no other matrix team holds it, and its own team is not
on its way out of it (R158, R182, R183). -/
def State.quadTakes (s : State) (p : Nat) (w : Wave) : Bool :=
  match s.gridOf w, s.quads[p / 4]? with
  | some g, some q => !g.matrix || (q.out.isEmpty && (q.owner == none || q.owner == some w.team))
  | _, _ => true

/-- Whether a wave can return to its partition now. -/
def State.canReturn (s : State) (w : Wave) : Bool :=
  match s.parts[w.partIndex]? with
  | some p => w.returning && p.inService && p.halt == .none && s.partFits w.core w.part w.width w.regsTaken
      && s.quadTakes w.partIndex w
  | none => false

/-- Position of a partition in a team's cores. -/
def Team.posOf (t : Team) (p : Nat) : Nat := (p / 8 - t.core) * 8 + p % 8

/-- Restores what hardware saved of one position (R184): the quad is as R159 leaves it, but for the positions restored
before. -/
def Quad.loadPart (q : Quad) (x : SavedPart) : Quad :=
  let k := x.pos % 4
  let conv := q.conv.mapIdx fun n c => match x.conv[n]? with
    | some y =>
      let sg := y.signed.getD k none
      { c with set := y.set, remaining := y.remaining, signed := c.signed.set k sg,
               acc := if sg.isSome then y.acc else c.acc, ty := if sg.isSome then y.ty else c.ty }
    | none => c
  let full := fun n => match conv[n]? with | some c => c.signed.all (·.isSome) | none => false
  { q with
    acc := x.acc.foldl (fun m c => m.put c.1 c.2) q.acc
    failed := q.failed ++ x.failed
    conv := conv
    ready := q.ready ++ x.ready.filter fun n => full n && !q.ready.contains n }

/-- The matrix state of a team comes back to a free quad of it, with what hardware saved of its four positions; the quad
stays frozen until the handlers of trap 0x12 have returned, and waits for the MREST of the positions whose handlers
saved them (R183). -/
def State.reclaim (s : State) (qi tid : Nat) : State :=
  match s.teams[tid]?, s.quads[qi]? with
  | some t, some q =>
    let matrix := match s.grids[t.grid]? with | some g => g.matrix | none => false
    if !matrix || q.owner.isSome then s
    else
      let here := fun (x : SavedPart) => x.pos / 4 == t.posOf (4 * qi) / 4
      let owed := (List.range 4).filter fun k => s.waves.any fun w =>
        !w.zen && w.team == tid && w.partIndex == 4 * qi + k && w.fibres.any fun f => f.live && f.mtrap == .saved
      let q1 := (t.saved.filter here).foldl Quad.loadPart { Quad.clear with owner := some tid }
      (s.modQuad qi fun _ => { q1 with frozen := true, resume := some owed }).modTeam tid fun t =>
        { t with saved := t.saved.filter fun x => !here x }
  | _, _ => s

/-- WAVE_RETURN: the wave is resident again, with its team's matrix state where that had left (R183, R252). -/
def State.returnWave (s : State) (wid : Nat) : State :=
  match s.waves[wid]? with
  | none => s
  | some w => (s.modWave wid Wave.restart).reclaim w.quadIndex w.team

def execWaveReturn (w : Nat) (s : State) : Out :=
  onRun (fun s => match s.waves[w]? with | some x => s.canReturn x | none => false) (·.returnWave w) s

/-! ### The load-issue limit (R64) -/

/-- The limit after a halving, for the scores before it, those below 8 included: DESIGN CHOICE, log 54, since R64 does not say
whether it means them before or after the halving. -/
def nextLimit (limit residents : Nat) (scores : List Nat) : Nat :=
  if scores.any (fun x => decide (32 ≤ x)) && decide (3 ≤ residents) then max 2 (min limit residents - 1)
  else if limit < 32 ∧ scores.all (fun x => decide (x < 8)) then
    (if residents ≤ limit + 1 then 32 else limit + 1)
  else limit

/-- One halving of the scores of a partition. -/
def State.throttle (s : State) (p : Nat) : State :=
  let ids := s.residents (p / 8) (p % 8)
  let scores := ids.map fun i => (s.waves[i]?.map (·.score)).getD 0
  let s1 := s.modPart p fun x => { x with limit := nextLimit x.limit ids.length scores }
  ids.foldl (fun s i => s.modWave i fun w => { w with score := w.score / 2 }) s1

def execThrottleHalving (p : Nat) (s : State) : Out := onRun (fun s => decide (p < s.parts.length)) (·.throttle p) s

/-- The limit returns to 32 when no more waves are resident than it admits. -/
def State.settleLimit (s : State) (p : Nat) : State :=
  match s.parts[p]? with
  | some x =>
    if x.limit < 32 ∧ (s.residents (p / 8) (p % 8)).length ≤ x.limit then s.modPart p fun x => { x with limit := 32 } else s
  | none => s

/-! ### Host watches (R253, R254) -/

def State.modWatch (s : State) (i : Nat) (f : Watch → Watch) : State := { s with watches := modAt s.watches i f }

/-- A watch that is armed: what it watches is fixed until the next arming. -/
def Watch.arm (now : Nat) (x : Watch) : Watch :=
  if x.en then x
  else { x with en := true, record := none,
                armed := some { va := x.waddr, val := x.wval, dest := x.wdest, cond := x.cond, w := x.w, asid := x.wasid,
                                vec := x.vec, msi := x.msi, key := 0, entry := false, next := now, met := none } }

/-- A watch that can read its word takes a monitor entry, if one is free (R250). -/
def State.takeWatch (s : State) (i : Nat) : State :=
  match (s.watches[i]?).bind (·.armed) with
  | none => s
  | some a => match s.translate a.asid.toNat true false needLoad a.va with
    | .ok p key =>
      let m := { a.mon with key := key }
      ((s.leadVia p a.va.toNat key).settleLine (lineOf key)).modWatch i fun x =>
        { x with armed := some { a with key := key, entry := takesEntry s.entries m } }
    | _ => s

def Watch.disarm (x : Watch) : Watch := { x with en := false, armed := none, record := none }

def execWatchDisarm (i : Nat) (s : State) : Out := onRun (fun _ => true) (·.modWatch i Watch.disarm) s

/-- A watch ends with a completion record: fired with a value, or failed. The record does not reach a fixed block (R272); the
acquire and the release at system scope take place (R254). -/
def State.watchEnd (s : State) (i : Nat) (a : Armed) (value : DWord) (ok : Bool) : State :=
  match s.watches[i]? with
  | none => s
  | some x =>
    let seq := x.seq + 1
    let s1 := s.releaseHost.deviceWrites (hostKey (a.dest.toNat / 16 * 16))
      (leBytes 8 value.toNat ++ leBytes 4 seq.toNat ++ leBytes 4 (if ok then 1 else 2))
    let s2 := s1.modWatch i fun x =>
      { x.disarm with seq := seq, fired := x.fired || ok, err := x.err || !ok }
    if ok && a.msi then s2.emit (.msix a.vec.toNat) else s2

/-- WATCH_FIRE of watch i: a read of its word that satisfies the condition fires it; a word that can not be read fails
it, or parks it on a fault record while the space has a fault mailbox. Without a monitor entry it reads once every
microsecond (R250). -/
def State.fireWatch (s : State) (i : Nat) : State :=
  match s.watches[i]? with
  | none => s
  | some x => match x.en, x.record, x.armed with
    | true, none, some a =>
      let n := if a.w = 1 then 8 else 4
      let fail := fun (s : State) => s.watchEnd i a 0 false
      let again := s.modWatch i fun x => { x with armed := some { a with next := s.now + 1000 } }
      if 2 ≤ a.w.toNat ∨ a.va.toNat % n ≠ 0 then fail s
      else if !a.entry && decide (s.now < a.next) then s
      else match s.translate a.asid.toNat true false needLoad a.va with
        | .ok p key =>
          let r := (s.leadVia p a.va.toNat key).engineRead key n
          if wcondBytes (watchCond a.cond) (a.w == 1) r.2.1 a.val then
            r.1.watchEnd i a (BitVec.ofNat 64 (leNat r.2.1)) true
          else if a.entry then r.1
          else (r.1.modWatch i fun x => { x with armed := some { a with next := s.now + 1000 } }).takeWatch i
        | .fault k page sz key => match s.raiseFault 0 .outside a.asid.toNat a.va k page sz key with
          | (s1, .deliver _) => fail s1
          | (s1, .parked h) => s1.modWatch i fun x => { x with record := some h }
          | (_, .full) => again
        | .far | .hole _ => fail s
        | .wait => again
    | _, _, _ => s

/-- Writing EN = 1 (R254): the word is read at once, as a WAITC does (R249). -/
def State.armWatch (s : State) (i : Nat) : State :=
  match s.watches[i]? with
  | some x => if x.en then s else (s.modWatch i (Watch.arm s.now)).fireWatch i
  | none => s

def execWatchArm (i : Nat) (s : State) : Out := onRun (fun _ => true) (·.armWatch i) s

/-- Whether the word of an armed watch that waits on no record satisfies its condition now; none where it cannot be read. -/
def State.watchMet (s : State) (a : Armed) : Option Bool :=
  match s.translate a.asid.toNat true false needLoad a.va with
  | .ok p key => some (wcondBytes (watchCond a.cond) (a.w == 1) ((s.leadVia p a.va.toNat key).engineRead key (if a.w = 1 then 8 else 4)).2.1 a.val)
  | _ => none

/-- Between steps a watch with an entry is judged: it fires once its word has satisfied the condition for 1 microsecond, and
reads at once a word that can no longer be read (R250, R254, R265). -/
def State.settleWatch (s : State) (i : Nat) : State :=
  match s.watches[i]? with
  | none => s
  | some x => match x.en, x.record, x.armed with
    | true, none, some a =>
      if !a.entry then s
      else match s.watchMet a with
        | none => s.fireWatch i
        | some b =>
          let met := if b then some (a.met.getD s.now) else none
          if met.any fun t => decide (t + 1000 ≤ s.now) then s.fireWatch i
          else if met = a.met then s
          else s.modWatch i fun x => { x with armed := some { a with met := met } }
    | _, _, _ => s

def State.settleWatches (s : State) : State := (List.range s.watches.length).foldl (fun s i => s.settleWatch i) s

def execWatchFire (i : Nat) (s : State) : Out := onRun (fun _ => true) (·.fireWatch i) s

end Sys2Proof.Machine
end

