-- ==== Sys2Proof/Machine/Launch.lean ====
section
/-! DEFINITION. Mailboxes, launches and their checks, completion status, phases, and the release of deterministic stages
(14_launch_and_outside R329 to R338; 12_determinism R288 to R301; 11 R269, R270; 01 R50). -/

namespace Sys2Proof.Machine

/-! ### Mailboxes (R329 to R331) -/

def State.mailboxOf (s : State) (n : Nat) : Option Mailbox := s.mailboxes.find? fun m => m.num == n
def State.modMailbox (s : State) (n : Nat) (f : Mailbox → Mailbox) : State :=
  { s with mailboxes := s.mailboxes.map fun m => if m.num = n then f m else m }
/-- Slots taken: messages that wait, and launches whose teams are not all placed. -/
def Mailbox.used (m : Mailbox) : Nat := m.pending.length + m.launched.length
def Mailbox.hasSlot (m : Mailbox) : Bool := decide (m.used < m.slots)

/-- The status word, from the DROP bit that memory holds (R331). -/
def Mailbox.statusWord (m : Mailbox) (dropBit : Bool) : Word :=
  bit1 (!m.hasSlot) ++ bit1 dropBit ++ (0#9) ++ BitVec.ofNat 5 m.used ++ m.drops

/-- A byte as the device itself reads it back: the latest of those that wait for their page to thaw, else its home's. -/
def State.deviceByte (s : State) (key : Nat) : Byte :=
  ((s.late.filter fun c => c.1 == key).getLast?.map (·.2)).getD (s.homeByte key)

/-- The DROP bit that a mailbox status word holds: Disol reads it whatever its page allows (R331). -/
def State.dropBit (s : State) (m : Mailbox) : Bool :=
  match s.findPage m.asid (m.status.toNat + 3) with
  | some p => (s.deviceByte (p.key (m.status.toNat + 3))).getLsbD 6
  | none => false

/-- Disol's update of a mailbox status word: one read-modify-write at its home, and a release at system scope. -/
def State.postStatus (s : State) (n : Nat) (drop : Bool) : State :=
  match s.mailboxOf n with
  | none => s
  | some m =>
    let s1 := s.releaseHost.settleVa m.asid m.status 4
    s1.writeVa m.asid m.status (leBytes 4 (m.statusWord (drop || s1.dropBit m)).toNat)

/-- Weight that a dropped message carried goes home (R300). -/
def State.carriedHome (s : State) (c : Option Carried) : State :=
  match c with | some c => s.weightHome c.phase c.amount | none => s

/-- A message is dropped: the drop count rises and DROP is set. -/
def State.countDrop (s : State) (n : Nat) : State :=
  (s.modMailbox n fun m => { m with drops := m.drops + 1 }).postStatus n true

/-- Whether a mailbox takes the fault records of a space: it never drops (R270, R330). -/
def State.isFaultMbx (s : State) (n : Nat) : Bool := s.spaces.any fun x => x.mbx == some n

/-- Whether a message to mailbox n has to wait: a fault mailbox without a free slot. -/
def State.mbxWaits (s : State) (n : Nat) : Bool :=
  match s.mailboxOf n with
  | some m => s.isFaultMbx n && !m.hasSlot
  | none => false

/-- A message arrives at the home slice of a mailbox, and takes a slot or is dropped; one to a full fault mailbox stays
under way (R330). -/
def State.arriveMessage (s : State) (n : Nat) (words : List DWord) (c : Option Carried) : State :=
  match s.mailboxOf n with
  | none =>
    (s.carriedHome c).emit (.report "message to an unbound mailbox" n ((words.headD 0).toNat % 256))
  | some m =>
    if m.hasSlot then
      (({ s with arrivals := s.arrivals + 1 } : State).modMailbox n fun m =>
        { m with pending := m.pending ++ [{ words := words, weight := c, seq := s.arrivals }] }).postStatus n false
    else if s.isFaultMbx n then
      { s with flights := s.flights ++ [{ target := .mailbox n, words := words, weight := c, team := none, sender := none }] }
    else (s.carriedHome c).countDrop n

/-- The message of a host write of `bs` at an offset of a mailbox's window: bytes that are not written are 0 (R339). -/
def windowMessage (off : Nat) (bs : List Byte) : List DWord :=
  bytesDwords (List.replicate off 0 ++ bs ++ List.replicate (64 - off - bs.length) 0) 8

/-- Sixteen words as eight dwords; missing words are 0. -/
def wordsMessage (ws : List Word) : List DWord :=
  (List.range 8).map fun i => pair64 (ws.getD (2 * i + 1) 0) (ws.getD (2 * i) 0)

/-- A message in flight reaches its target: a mailbox, the mapping port or the Orrery port as a command, or a peer. -/
def State.deliverFlight (s : State) (f : Flight) : State :=
  match f.target with
  | .mailbox n => s.arriveMessage n f.words f.weight
  | .mapping g => { s with commands := s.commands ++
      [{ queue := g + 2, words := f.words, asid := ((s.grids[g]?).map (·.asid)).getD 0, weight := f.weight,
         scan := none, done := none }] }
  | .orrery g => { s with commands := s.commands ++
      [{ queue := 1, words := f.words, asid := ((s.grids[g]?).map (·.asid)).getD 0, weight := f.weight,
         scan := none, done := none }] }
  | .peer p m =>
    let s1 := s.carriedHome f.weight
    if decide (p < 64) && s.peers.getLsbD p then s1.emit (.toPeer p m f.words) else s1

/-- Whether a message in flight waits for a slot of a fault mailbox. -/
def State.flightWaits (s : State) (f : Flight) : Bool :=
  match f.target with
  | .mailbox n => s.mbxWaits n
  | _ => false

/-- Whether a message must arrive before later accesses of its sender: a release has come after it (R215, R228). -/
def State.flightCalled (s : State) (f : Flight) : Bool :=
  f.sender.any fun x => s.pend.any fun p => p.called && p.wave == x.1 && p.ids.contains x.2

/-- Whether a message is behind an earlier one: of the same deterministic team (R290), or, of an STG.msg, one of the same wave
to the same target, or before a release of that wave (R228). -/
def State.flightBehind (s : State) (k : Nat) (f : Flight) : Bool :=
  (s.flights.take k).any fun x =>
    (f.team.isSome && x.team == f.team) ||
      (f.sender.isSome && x.sender.map (·.1) == f.sender.map (·.1) && (x.target == f.target || s.flightCalled x))

/-- MAILBOX_MESSAGE: a message that is under way arrives, or one of the host or of a peer. A host write that crosses a
64-byte boundary delivers nothing and counts as a drop at the mailbox in whose window it begins (R339; log 50). -/
def State.mailboxMessage (s : State) (m : MsgSource) : State :=
  match m with
  | .inFlight k => match s.flights[k]? with
    | some f => if s.flightWaits f || s.flightBehind k f then s else ({ s with flights := s.flights.eraseIdx k }).deliverFlight f
    | none => s
  | .host n off bs =>
    if s.linkUp && decide (n < 4096 ∧ off < 64) && !bs.isEmpty then
      if 64 < off + bs.length then s.countDrop n else s.arriveMessage n (windowMessage off bs) none
    else s
  | .peer n ws => if n < 4096 then s.arriveMessage n (wordsMessage ws) none else s

/-- Messages that a release of their wave follows arrive within its step (R228). -/
def State.settleFlights (s : State) : Nat → State
  | 0 => s
  | n + 1 => match s.flights.findIdx? (fun f => !s.flightWaits f &&
      s.flights.any fun x => s.flightCalled x && (x == f || (f.team.isSome && x.team == f.team))) with
    | some k => (s.mailboxMessage (.inFlight k)).settleFlights n
    | none => s

def execMailboxMessage (m : MsgSource) (s : State) : Out := onRun (fun _ => true) (·.mailboxMessage m) s

/-! ### Fault records (R269, R270) -/

def FaultKind.code : FaultKind → Nat
  | .notMapped => 1 | .noRd => 2 | .noWr => 3 | .noExec => 4 | .priv => 5 | .wFix => 6
def AccessClass.code : AccessClass → Nat
  | .load => 0 | .store => 1 | .atomic => 2 | .fetch => 3 | .copyRead => 4 | .copyWrite => 5 | .matrix => 6
  | .freeze => 7 | .outside => 8

/-- The message of a record. The freeze count of a WFIX record is read as it is posted, and its region as the record is opened:
DESIGN CHOICE, log 54, since R269 names no moment. -/
def State.recordWords (s : State) (r : FaultRec) : List DWord :=
  let cnt := match r.kind with
    | .wFix => (match s.findPage r.asid r.va.toNat with | some p => s.frozenAt (p.key r.va.toNat) | none => 0)
    | _ => 0
  let info : Word := BitVec.ofNat 8 cnt ++ (0#14) ++ r.sz ++ (0#8)
  [r.handle ++ BitVec.ofNat 16 r.asid ++ BitVec.ofNat 8 r.cls.code ++ BitVec.ofNat 8 r.kind.code, r.va,
    BitVec.ofNat 64 r.page, info ++ BitVec.ofNat 32 r.merged, BitVec.ofNat 64 r.time, BitVec.ofNat 64 r.region, 0, 0]

/-- The fault mailbox of a space. -/
def State.faultMbx (s : State) (asid : Nat) : Option Nat := (s.spaces.find? fun x => x.asid == asid).bind (·.mbx)

/-- Whether record k may be posted now: its mailbox has a slot, and no earlier record waits for the same mailbox. -/
def State.canPost (s : State) (k : Nat) : Bool :=
  match s.records[k]? with
  | none => false
  | some r => match (s.faultMbx r.asid).bind s.mailboxOf with
    | none => false
    | some m => !r.posted && m.hasSlot &&
        !((s.records.take k).any fun x => !x.posted && s.faultMbx x.asid == some m.num)

def State.postRecord (s : State) (k : Nat) : State :=
  match s.records[k]? with
  | none => s
  | some r => match s.faultMbx r.asid with
    | none => s
    | some n =>
      let r1 := { r with posted := true, merged := r.count }
      ({ s with records := s.records.set k r1 }).arriveMessage n (s.recordWords r1) none

def execFaultRecordPost (k : Nat) (s : State) : Out := onRun (·.canPost k) (·.postRecord k) s

/-! ### Completion status (R337) -/

/-- Teams of a grid. -/
def Grid.total (g : Grid) : Nat := g.gx * g.gy * g.gz

def Grid.stateCode (g : Grid) : Nat := match g.stat with | .pending | .running => 0 | .done => 1 | .refused => 2 | .killed => 3

/-- The 128 bytes at cstat. -/
def Grid.statusBytes (g : Grid) (now : Nat) : List Byte :=
  let flag := fun (b : Bool) (n : Nat) => if b then 2 ^ n else 0
  let low := (sortNat g.killed).take 8
  let t := g.term.getD { team := 0, wave := 0, cause := 0, nested := false, epc := 0 }
  leBytes 4 g.stateCode ++ leBytes 4 g.refusal ++ leBytes 8 (g.handle % 2 ^ 32)
    ++ leBytes 4 (flag g.psn 0 + flag g.etr 1 + flag g.xq 2 + flag g.fixlost 3 + flag g.ow 4
        + flag (0 < g.failedSlices) 5 + flag (0 < g.copyFails) 6 + flag (0 < g.terms) 7 + flag (!g.killed.isEmpty) 8)
    ++ leBytes 4 (min g.pcnt (2 ^ 32 - 1)) ++ leBytes 4 g.killed.length ++ leBytes 4 0
    ++ (List.range 8).flatMap (fun i => leBytes 4 (low.getD i 0xFFFFFFFF))
    ++ leBytes 4 g.terms ++ leBytes 4 t.team ++ leBytes 2 t.wave ++ leBytes 1 t.cause.toNat
    ++ leBytes 1 (flag t.nested 0) ++ leBytes 4 t.epc.toNat
    ++ leBytes 4 g.failedSlices ++ leBytes 4 g.failedSlice.toNat ++ leBytes 4 g.copyFails ++ leBytes 4 g.copyFail.toNat
    ++ leBytes 8 now ++ List.replicate 24 0

/-- The write at launch: state RUNNING and the handle; the hole list is empty, and no slice, copy or wave has failed. -/
def Grid.startBytes (g : Grid) : List Byte :=
  leBytes 8 0 ++ leBytes 8 (g.handle % 2 ^ 32) ++ List.replicate 16 0 ++ List.replicate 32 0xFF ++ List.replicate 64 0

/-- A write of a grid's completion status: a release at system scope. -/
def State.writeStatus (s : State) (g : Grid) (bs : List Byte) : State :=
  if g.cstat = 0 then s else s.releaseHost.writeVa g.asid g.cstat bs

/-- The final write of grid k. -/
def State.finalWrite (s : State) (k : Nat) : State :=
  match s.grids[k]? with
  | none => s
  | some g => (s.writeStatus g (g.statusBytes s.now)).modGrid k fun g => { g with final := true }

/-! ### Launch records and their checks (R50, R332, R334) -/

/-- A number at an offset of a record. -/
def fieldAt (bs : List Byte) (o n : Nat) : Nat := leNat ((bs.drop o).take n)

/-- The 64 MiB above a code base (R66). -/
def inSpan (cb e : Nat) : Bool := decide (cb ≤ e ∧ e < cb + 64 * 1024 * 1024)

/-- Whether a launch-defaults record is refused by R50. -/
def defaultsBad (d : List Byte) : Bool :=
  let cb := fieldAt d 48 8
  let bad := fun (e : Nat) => decide (e ≠ 0 ∧ (e < cb ∨ e % 4 ≠ 0))
  fieldAt d 56 8 != 0 || decide (16 ≤ fieldAt d 36 4) || cb == 0 || bad (fieldAt d 0 8) || bad (fieldAt d 8 8)
    || bad (fieldAt d 16 8)

/-- A field of the launch record, or its default. -/
def orDefault (marker x d : Nat) : Nat := if x = marker then d else x

/-- Waves of a team of n in partition j on the even (0) or odd (1) core (R7). -/
def wavesIn (n : Nat) (pair : Bool) (odd j : Nat) : Nat :=
  ((List.range n).filter fun i => i % 8 == j && (if pair then i / 8 % 2 else 0) == odd).length

/-- The most waves of a team in one partition. -/
def mostWaves (n : Nat) (pair : Bool) : Nat :=
  ((List.range 16).map fun k => wavesIn n pair (k / 8) (k % 8)).foldl max 0

/-- The grid that a record and its defaults describe. -/
def gridOfRecord (m : Mailbox) (msg : List DWord) (r d : List Byte) (handle phase : Nat) (root : Nat) (isRoot : Bool)
    (arrival : Nat) : Grid :=
  let fl := fieldAt r 28 4
  let f4 := if fl.testBit 15 then fl % 16 else fieldAt d 36 4 % 16
  let cb := fieldAt d 48 8
  let idx := fun (e : Nat) => BitVec.ofNat 24 ((e - cb) / 4)
  let opt := fun (e : Nat) => if e = 0 then none else some (idx e)
  { handle := handle, asid := m.asid, mbx := m.num, prio := m.prio, priv := m.priv, stat := .running, refusal := 0,
    msg := msg, gx := fieldAt r 8 4, gy := max 1 (fieldAt r 12 2), gz := max 1 (fieldAt r 14 2),
    teamSize := orDefault 0 (fieldAt r 16 2) (fieldAt d 32 2),
    width := orDefault 0 (fieldAt r 18 2) (fieldAt d 24 2),
    allot := orDefault 0 (fieldAt r 20 2) (fieldAt d 26 2),
    split := BitVec.ofNat 3 (fieldAt r 22 1),
    scratch := orDefault 0xFFFFFFFF (fieldAt r 24 4) (fieldAt d 28 4),
    pair := f4.testBit 0, det := f4.testBit 1, checkreg := f4.testBit 2, fastswitch := f4.testBit 3,
    invtrap := fl.testBit 4, matrix := fl.testBit 5,
    param := BitVec.ofNat 64 (fieldAt r 32 8), cmbx := BitVec.ofNat 16 (fieldAt r 40 2),
    cstat := BitVec.ofNat 64 (fieldAt r 48 8), user := BitVec.ofNat 64 (fieldAt r 56 8),
    codeBase := BitVec.ofNat 64 cb, entry := idx (fieldAt d 0 8), zenEntry := opt (fieldAt d 8 8),
    trapEntry := opt (fieldAt d 16 8), trapwin := fieldAt d 34 2,
    arrival := arrival, next := 0, killed := [], root := root, rootHome := false, phase := phase, isRoot := isRoot, turn := 0, ow := false,
    fixlost := false, psn := false, etr := false, xq := false, pcnt := 0, terms := 0, term := none, failedSlices := 0,
    failedSlice := 0, copyFails := 0, copyFail := 0, final := false }

/-- The refusal code of a launch, 0 if there is none; the first failing check decides (R334). -/
def launchCheck (g : Grid) (m : Mailbox) (r : List Byte) (d : Option (List Byte)) : Nat :=
  match d with
  | none => 1
  | some d =>
    let fl := fieldAt r 28 4
    let reserved := fieldAt r 22 1 / 8 != 0 || fieldAt r 23 1 != 0 || fieldAt r 42 6 != 0
      || fl - fl % 64 - (if fl.testBit 15 then 2 ^ 15 else 0) != 0
    let range := fieldAt r 8 4 == 0 || decide (2 ^ 32 < g.total) || !([16, 32, 64].contains g.width)
      || g.allot % 16 != 0 || decide (g.allot < 16 ∨ 256 < g.allot) || decide (g.teamSize = 0)
      || decide ((if g.pair then 64 else 32) < g.teamSize) || g.scratch % 16384 != 0
      || decide (2 ^ 20 < g.scratch) || decide (63 < g.trapwin)
      || decide (4095 < g.cmbx.toNat ∧ g.cmbx ≠ 0xFFFF) || (g.width == 16 && g.fastswitch)
    let span := fun (e : Nat) => e = 0 || inSpan (fieldAt d 48 8) e
    let w := mostWaves g.teamSize g.pair
    if reserved || range || defaultsBad d then 1
    else if g.fastswitch && !m.priv then 2
    else if !(inSpan (fieldAt d 48 8) (fieldAt d 0 8) && span (fieldAt d 8 8) && span (fieldAt d 16 8)) then 3
    else if 262144 * g.split.toNat < g.scratch ∨ 512 < w * g.width ∨ 98304 < w * g.width * g.allot then 4
    else 0

/-! ### LAUNCH (R297, R330, R334) -/

/-- The 64 bytes that the device reads at an address of a space for a launch. -/
def State.readRecord (s : State) (asid : Nat) (va : DWord) : State × Option (List Byte) :=
  let s1 := s.settleVa asid va 64
  (s1, s1.readVa asid va 64)

/-- The head message of mailbox n becomes a launch: it is refused, or queued for placement. -/
def State.launch (s : State) (n : Nat) : State :=
  match s.mailboxOf n with
  | none => s
  | some m => match m.pending with
    | [] => s
    | x :: rest =>
      let k := s.grids.length
      let rr := if m.gridMode then (s, some (dwordBytes x.words)) else s.readRecord m.asid m.record
      let r := rr.2.getD (List.replicate 64 0)
      let dr := match rr.2 with
        | some r => rr.1.readRecord m.asid (BitVec.ofNat 64 (fieldAt r 0 8))
        | none => (rr.1, none)
      let s := dr.1
      let d := dr.2
      let ph := match x.weight with | some c => c.phase | none => s.phases.length
      let root := match x.weight with | some c => c.amount | none => 2 ^ 63
      let s1 : State := match x.weight with
        | some _ => s
        | none => { s with phases := s.phases ++
            [{ expected := 2 ^ 63, returned := 0, grid := k, buckets := [], record := none, ended := false }] }
      let g := gridOfRecord m x.words r (d.getD (List.replicate 64 0)) s.serial ph root x.weight.isNone x.seq
      let code := launchCheck g m r d
      let s2 := { s1 with serial := s1.serial + 1 }
      if code = 0 then
        let s3 := { s2 with grids := s2.grids ++ [g] }
        let s4 := s3.modMailbox n fun m => { m with pending := rest, launched := m.launched ++ [k] }
        (s4.writeStatus g g.startBytes).postStatus n false
      else
        let g1 := { g with stat := .refused, refusal := code, rootHome := true }
        let s3 := { s2 with grids := s2.grids ++ [g1] }
        let s4 := ((s3.modMailbox n fun m => { m with pending := rest }).postStatus n false).weightHome ph root
        if g.isRoot then s4 else s4.finalWrite k

def execLaunch (m : Nat) (s : State) : Out := onRun (fun _ => true) (·.launch m) s

/-! ### Grids that are placed or killed (R300, R330, R341) -/

/-- The next team index that is not killed. -/
def Grid.advance (g : Grid) : Nat := (firstFrom (fun i => !g.killed.contains i) (g.killed.length + 1) g.next).getD g.next

/-- Once every team of a running grid is placed or killed, its root weight goes home and its mailbox slot is freed. -/
def State.settleGrid (s : State) (k : Nat) : State :=
  match s.grids[k]? with
  | none => s
  | some g =>
    if g.stat == .running && !g.rootHome then
      let s1 := s.modGrid k fun g => { g with next := g.advance }
      if g.total ≤ g.advance then
        let s2 := (s1.modGrid k fun g => { g with rootHome := true, root := 0 }).weightHome g.phase g.root
        (s2.modMailbox g.mbx fun m => { m with launched := m.launched.erase k }).postStatus g.mbx false
      else s1
    else s

/-! ### The turn of a deterministic grid (R288, R290, R292) -/

/-- The team of a grid with an index. -/
def State.teamAt (s : State) (g idx : Nat) : Option Nat := s.teams.findIdx? fun t => t.grid == g && t.idx == idx

/-- Whether no weight of team tid's waves waits for their stores, so that what it stages is all staged (R300), and no message
of it is under way (R290). -/
def State.sent (s : State) (tid : Nat) : Bool :=
  (s.homing.all fun h => match s.waves[h.1]? with | some w => w.team != tid | none => true)
    && s.flights.all fun f => f.team != some tid

/-- Passes the turn of grid k over teams that have ended with nothing staged, and over teams killed before placement. -/
def State.settleTurn (s : State) (k : Nat) : Nat → State
  | 0 => s
  | n + 1 => match s.grids[k]? with
    | none => s
    | some g =>
      if g.det then
        match s.teamAt k g.turn with
        | some tid => match s.teams[tid]? with
          | some t =>
            if t.ended && t.stage.isEmpty && s.sent tid then
              ((s.modTeam tid fun t => { t with passed := true }).modGrid k fun g => { g with turn := g.turn + 1 }).settleTurn k n
            else s
          | none => s
        | none =>
          if g.killed.contains g.turn then (s.modGrid k fun g => { g with turn := g.turn + 1 }).settleTurn k n else s
      else s

/-- Steps that settling the turn of a grid can take. -/
def State.turnFuel (s : State) (k : Nat) : Nat :=
  s.teams.length + (match s.grids[k]? with | some g => g.killed.length | none => 0) + 1

/-- STAGE_RELEASE of team t: it holds the turn, and its stage is applied at the homes in its order. -/
def State.stageRelease (s : State) (t : Nat) : State :=
  match s.teams[t]? with
  | none => s
  | some team =>
    let s1 := s.drainStage t
    s1.settleTurn team.grid (s1.turnFuel team.grid)

/-- Whether team t of a DET grid holds the turn. -/
def State.hasTurn (s : State) (t : Nat) : Bool :=
  match s.teams[t]? with
  | none => false
  | some team => match s.grids[team.grid]? with
    | some g => g.det && g.turn == team.idx && !team.passed
    | none => false

def execStageRelease (t : Nat) (s : State) : Out := onRun (·.hasTurn t) (·.stageRelease t) s

/-! ### The deterministic watchdog (R294) -/

def Fibre.onMonitor (f : Fibre) : Bool :=
  f.live && (match f.park with | some { why := .monitor _, .. } => true | _ => false)
def Wave.onMonitor (w : Wave) : Bool := w.fibres.any Fibre.onMonitor

/-- Ticks until the watchdog acts on team t, if nothing of it retires (R294). -/
def State.stuckLeft (s : State) (tid : Nat) : Option Nat :=
  match s.teams[tid]? with
  | none => none
  | some t => match s.grids[t.grid]? with
    | none => none
    | some g =>
      let on := fun (w : Nat) => match s.waves[w]? with | some x => x.onMonitor | none => false
      if g.det && !t.ended && (t.waves ++ t.zen.toList).any on
          && (g.turn == t.idx || (match t.waves[s.tokenAt t]? with | some w => on w | none => false)) then
        some (t.lastRetire + 1000000 - s.now)
      else none

/-- Whether a team is stuck and Disol acts on it. -/
def State.stuck (s : State) (tid : Nat) : Bool := s.stuckLeft tid == some 0

/-- A fibre parked on WAITC leaves its wait and takes trap 0x0F. -/
def Fibre.orderWait (f : Fibre) : Fibre :=
  match f.park with
  | some { why := .monitor m, .. } => if f.live then { f with park := none, due := f.due ++ [(0x0F, lo32 m.va)] } else f
  | _ => f

def State.watchdog (s : State) (tid : Nat) : State :=
  match s.teams[tid]? with
  | none => s
  | some t =>
    let ws := t.waves ++ t.zen.toList
    let s1 := ws.foldl (fun s w => s.modWave w fun x => { x with fibres := x.fibres.map Fibre.orderWait }) s
    (s1.modTeam tid fun t => { t with lastRetire := s.now }).modGrid t.grid fun g => { g with ow := true }

def execDeterministicWatchdog (t : Nat) (s : State) : Out := onRun (·.stuck t) (·.watchdog t) s

/-! ### Grid completion and phase end (R301, R337, R338) -/

/-- Whether grid k is complete: every team placed or killed, ended, and its stage released or discarded. -/
def State.gridOver (s : State) (k : Nat) : Bool :=
  match s.grids[k]? with
  | none => false
  | some g => g.stat == .running && decide (g.total ≤ g.next) && g.rootHome &&
      s.teams.all fun t => t.grid != k || (t.ended && (!g.det || t.passed))

/-- A grid whose every team was killed ends KILLED. -/
def Grid.over (g : Grid) : Grid := { g with stat := if g.total ≤ g.killed.length then .killed else .done }

/-- GRID_COMPLETION: a grid that joined a phase writes its own final status; the root's is written at phase end. -/
def State.gridComplete (s : State) (k : Nat) : State :=
  let s1 := s.modGrid k Grid.over
  match s1.grids[k]? with
  | some g => if g.isRoot then s1 else s1.finalWrite k
  | none => s1

def execGridCompletion (k : Nat) (s : State) : Out := onRun (·.gridOver k) (·.gridComplete k) s

/-- Whether a phase ends: its weight is home, and its grids are complete with their own final writes made. -/
def State.phaseOver (s : State) (p : Nat) : Bool :=
  match s.phases[p]? with
  | none => false
  | some ph => !ph.ended && ph.record.isNone && ph.returned == ph.expected &&
      s.grids.all fun g => g.phase != p || (g.stat != .running && g.stat != .pending && (g.isRoot || g.final))

/-- The completion message of a phase. -/
def phaseMessage (g : Grid) : List DWord := [0x41, g.cstat, BitVec.ofNat 64 (g.handle % 2 ^ 32), 0, 0, 0, 0, 0]

/-- The device makes the buckets of phase p final, one after another, up to one that has to wait: for a page to thaw, or
on the record of a fault that it meets, which the phase then holds (R256, R257). A descriptor in a fixed block is left as
it is (R272; log 49). The answer says whether all are final. -/
def State.finishBuckets (s : State) (p : Nat) : List BucketRef → State × Bool
  | [] => (s, true)
  | b :: rest =>
    if 0 < s.frozenAt b.key then s.finishBuckets p rest
    else if s.thawingAt b.key then (s, false)
    else match s.finalTry (fun s _ => s) b.asid b.priv (if b.lost then .lost else .loses) b.key with
      | .done s1 _ _ => s1.finishBuckets p rest
      | .wait | .far _ => (s, false)
      | .fault va k page sz key => match s.raiseFault 0 .atomic b.asid va k page sz key with
        | (s1, .parked h) => (s1.modPhase p fun x => { x with record := some h }, false)
        | _ => (s, false)

/-- PHASE_END: buckets final, then the root's status, then the completion message, a release at system scope. -/
def State.phaseEnd (s : State) (p : Nat) : State :=
  match s.phases[p]? with
  | none => s
  | some ph => match s.grids[ph.grid]? with
    | none => s
    | some g =>
      let r := s.finishBuckets p ph.buckets
      if r.2 then
        let s2 := (r.1.finalWrite ph.grid).modPhase p fun x => { x with ended := true }
        if g.cmbx = 0xFFFF then s2
        else { s2.releaseHost with flights := s2.flights ++
          [{ target := .mailbox g.cmbx.toNat, words := phaseMessage g, weight := none, team := none, sender := none }] }
      else r.1

def execPhaseEnd (p : Nat) (s : State) : Out := onRun (·.phaseOver p) (·.phaseEnd p) s

end Sys2Proof.Machine
end

