-- ==== Sys2Proof/Machine/Place.lean ====
section
/-! DEFINITION. Placement of teams, pre-emption, saved contexts, in-field tests (14_launch_and_outside R335, R336; 02 R52,
R53; 06 R146, R148; 07 R182 to R184; 13 R322 to R327). -/

namespace Sys2Proof.Machine

/-! ### What a core holds (R146, R335) -/

/-- Whether a team has resources on core c. -/
def Team.onCore (t : Team) (c : Nat) : Bool := t.placed && !t.ended && (t.core == c || (t.pair && t.core + 1 == c))
/-- Teams placed on a core. -/
def State.coreTeams (s : State) (c : Nat) : List Team := s.teams.filter fun t => t.onCore c
/-- Scratchpad bytes in use on a core. -/
def State.scratchUsed (s : State) (c : Nat) : Nat :=
  ((s.coreTeams c).map fun t => (s.grids[t.grid]?.map (·.scratch)).getD 0).sum
/-- Zenith contexts in use on a core: a pair team's runs on the even core. -/
def State.zenUsed (s : State) (c : Nat) : Nat := ((s.coreTeams c).filter fun t => t.zen.isSome && t.core == c).length

/-- The partitions that a team of grid g would use on core c or the pair from c: core, partition, waves there (R7). -/
def teamParts (g : Grid) (c : Nat) : List (Nat × Nat × Nat) :=
  (List.range 16).filterMap fun k =>
    let n := wavesIn g.teamSize g.pair (k / 8) (k % 8)
    if n = 0 then none else some (c + k / 8, k % 8, n)

/-- Cores of a team of grid g placed from c. -/
def teamCores (g : Grid) (c : Nat) : List Nat := if g.pair then [c, c + 1] else [c]

/-- Stages in use on a die: a team keeps its stage where it was first placed until its turn has passed (R287). -/
def State.stagesUsed (s : State) (die : Nat) : Nat :=
  (s.teams.filter fun t => !t.passed && t.stageDie == die && (match s.grids[t.grid]? with | some g => g.det | none => false)).length

/-- Whether partition p of core c takes n waves of grid g; `tid` is the team's own number when it is placed again. -/
def State.partTakes (s : State) (g : Grid) (tid : Option Nat) (c p n : Nat) : Bool :=
  (match s.parts[8 * c + p]? with
    | some x => x.inService && x.halt == .none
    | none => false)
  && s.partFits c p (n * g.width) (n * g.width * g.allot)
  && !(s.waves.any fun w => w.core == c && w.part == p && w.returning)
  && (!g.matrix || (match s.quads[2 * c + p / 4]? with
    | some q => q.owner == none || (tid.isSome && q.owner == tid)
    | none => false))

/-- Whether core c (the even one of a pair) is eligible for a team of grid g (R335). -/
def State.eligible (s : State) (g : Grid) (tid : Option Nat) (c : Nat) : Bool :=
  ((teamCores g c).all fun k =>
      let ts := s.coreTeams k
      (ts.isEmpty || s.splits[k]? == some g.split) && decide (s.scratchUsed k + g.scratch ≤ 262144 * g.split.toNat)
        && decide (ts.length < 32))
  && (g.zenEntry.isNone || decide (s.zenUsed c < 16))
  && (teamParts g c).all (fun x => s.partTakes g tid x.1 x.2.1 x.2.2)
  && (!g.det || tid.isSome || decide (s.stagesUsed (dieOf c) < 64))

/-- Lesser of two fractions. -/
def minFrac (x y : Nat × Nat) : Nat × Nat := if y.1 * x.2 < x.1 * y.2 then y else x

/-- The score of an eligible core or pair: the smallest fraction free before the team is placed. -/
def State.score (s : State) (g : Grid) (c : Nat) : Nat × Nat :=
  let parts := (teamParts g c).flatMap fun x =>
    [(512 - s.lanesUsed x.1 x.2.1, 512), (98304 - s.regsUsed x.1 x.2.1, 98304)]
  let cores := (teamCores g c).flatMap fun k =>
    [(32 - (s.coreTeams k).length, 32)]
      ++ (if g.scratch = 0 then [] else [(262144 * g.split.toNat - s.scratchUsed k, 262144 * g.split.toNat)])
  let zen := if g.zenEntry.isSome then [(16 - s.zenUsed c, 16)] else []
  (parts ++ cores ++ zen).foldl minFrac (1, 1)

/-- Candidate cores: every core, or the even core of each pair. -/
def candidates (g : Grid) : List Nat := (List.range 32).filter fun c => !g.pair || c % 2 == 0

/-- The eligible core with the largest score, the lowest number among equals. -/
def State.bestCore (s : State) (g : Grid) (tid : Option Nat) : Option Nat :=
  ((candidates g).filter (s.eligible g tid)).foldl (fun best c => match best with
    | none => some c
    | some b => if (s.score g b).1 * (s.score g c).2 < (s.score g c).1 * (s.score g b).2 then some c else best) none

/-! ### Placing a team (R52, R53, R298, R299, R333) -/

/-- Lane registers at launch: v0 and lr are 0, and the others hold their markers in a CHECKREG launch. -/
def launchRegs (g : Grid) : List Word :=
  (List.range g.allot).map fun k => if g.checkreg && k != 0 && k != 63 then marker k else 0

/-- A fibre at launch. -/
def launchFibre (pc : Pc) (regs : List Word) (sregs : List DWord) (weight : Nat) : Fibre :=
  { Fibre.empty with live := true, pc := pc, regs := regs, sregs := sregs, weight := weight }

/-- s0 to s63 at placement. -/
def launchSregs (g : Grid) : List DWord :=
  (List.range 8).map (fun i => g.msg.getD i 0)
    ++ [g.param, g.user, g.cstat, BitVec.ofNat 64 (g.handle % 2 ^ 32 + g.mbx * 2 ^ 32)] ++ List.replicate 52 0

/-- A context at launch. -/
def launchWave (g : Grid) (team idx core part age : Nat) (zen : Bool) (fibres : List Fibre) : Wave :=
  { team := team, idx := idx, zen := zen, width := if zen then 1 else g.width, allot := if zen then 64 else g.allot,
    core := core, part := part, age := age, stat := .resident, fibres := fibres, rot := [], streak := 0, waits := [], yielded := false, serial := none, quota := 0,
    readySince := 0, masks := List.replicate 16 0, decisions := [], loads := 0, stores := 0, copies := 0, tiles := 0, k0 := [],
    k1 := { entries := [], lost := false }, k2 := { entries := [], lost := false },
    k3 := { entries := [], lost := false }, fails := [], sysCopies := [], fpflags := 0, inven := g.invtrap, pcnt := 0, xq := false,
    etr := false, psn := false, err := { syn := 0, unit := 0, tile := 0 }, prom := 0, lastProm := 0, perf := 0,
    nopre := none, arrived := List.replicate 16 none, score := 0, victims := [], held := false, liveTiles := 0xFF }

/-- Core of wave i of a team placed from c (R7). -/
def waveCore (pair : Bool) (c i : Nat) : Nat := if pair then c + i / 8 % 2 else c

/-- A core takes the split of a launch: its L1 is written back and invalidated first (R146), and every victim list of the
core is emptied (R157); the launch acquires at system scope (R338). -/
def State.takeSplit (s : State) (c : Nat) (n : BitVec 3) : State :=
  let s1 := (s.acquireCore c).hostAct true .system
  if s1.splits[c]? = some n then s1
  else
    let s2 := s1.emptyL1 c
    { s2 with splits := s2.splits.set c n
              waves := s2.waves.map fun w => if w.core = c then { w with victims := [] } else w }

/-- Gives the quads that team tid occupies to it (R158, R159). -/
def State.takeQuads (s : State) (tid : Nat) (t : Team) (g : Grid) : State :=
  if g.matrix then (s.teamQuads t).foldl (fun s q => s.modQuad q fun _ => { Quad.clear with owner := some tid }) s else s

/-- The next team of grid k is placed on core c. -/
def State.placeNew (s : State) (k c : Nat) : State :=
  match s.grids[k]? with
  | none => s
  | some g =>
    let i := g.next
    let tid := s.teams.length
    let w0 := s.waves.length
    let r := splitWeight g.root
    let n := g.teamSize * g.width
    let fill := if r.2.1 < n + 1 then 2 ^ 32 else 0
    let wt := r.2.1 + fill
    let zn := if g.zenEntry.isSome then 1 else 0
    let first := wt - (n - 1) - zn
    let waves := (List.range g.teamSize).map fun j =>
      launchWave g tid j (waveCore g.pair c j) (j % 8) s.placings false ((List.range g.width).map fun l =>
        launchFibre g.entry (launchRegs g) [] (if j = 0 ∧ l = 0 then first else 1))
    let zen := match g.zenEntry with
      | some e => [launchWave g tid g.teamSize c 0 s.placings true [launchFibre e [] (launchSregs g) 1]]
      | none => []
    let t : Team :=
      { grid := k, idx := i, tx := i % g.gx, ty := i / g.gx % g.gy, tz := i / (g.gx * g.gy), core := c, pair := g.pair,
        waves := (List.range g.teamSize).map (w0 + ·), zen := if g.zenEntry.isSome then some (w0 + g.teamSize) else none,
        sregs := launchSregs g,
        bars := List.replicate 16 { expected := g.teamSize, arrivals := 0, gen := 0 },
        scratch := [], scratch2 := [], cleared := false, ended := false, killed := false, placed := true, evict := false,
        saved := [], stage := [], drain := none, stageDie := dieOf c, passed := false, token := 0, lastRetire := s.now }
    let s1 := (teamCores g c).foldl (fun s k => s.takeSplit k g.split) s
    let s2 : State := { s1 with waves := s1.waves ++ waves ++ zen, teams := s1.teams ++ [t], placings := s1.placings + 1 }
    let s3 := s2.takeQuads tid t g
    let s4 := (s3.refill g.phase (r.2.2 + fill)).modGrid k fun g => { g with root := r.1, next := i + 1 }
    s4.settleGrid k

/-- A wave of a team that takes a place again: it holds its slots and registers from now on, as the youngest of its new
partition, and its context follows by CONTEXT_RESTORE (R52, R59, R323). -/
def Wave.arrive (t : Team) (c age : Nat) (w : Wave) : Wave :=
  { w with core := if w.zen then c else waveCore t.pair c w.idx
           age := age
           stat := if w.stat == .saved then .arriving else w.stat }

/-- A pre-empted team takes a place again, on core c: its matrix state comes back to its quads. A team of which only the
Zenith thread is left runs at once. -/
def State.placeAgain (s : State) (tid c : Nat) : State :=
  match s.teams[tid]? with
  | none => s
  | some t => match s.grids[t.grid]? with
    | none => s
    | some g =>
      let s1 := (teamCores g c).foldl (fun s k => s.takeSplit k g.split) s
      let s2 : State := { s1.modTeam tid (fun t => { t with placed := true, core := c }) with
        requeue := s1.requeue.erase tid
        placings := s1.placings + 1
        waves := s1.waves.map fun w => if w.team = tid then w.arrive t c s1.placings else w }
      let s3 := (s2.teamQuads t).foldl (fun s q => s.reclaim q tid) s2
      let alone := !(s3.waves.any fun w => w.team == tid && !w.zen && w.stat == .arriving)
      match t.zen with
      | some z =>
        if alone then
          (s3.modWave z fun w => if w.stat == .arriving then { w with stat := .resident } else w).rereadWaits [z]
        else s3
      | none => s3

/-! ### Requests to halt, and eviction (R182, R322, R336) -/

/-- Whether a wave leaves its partition at the pre-emption in progress there: every wave does at a request of system
software, and the waves of the teams chosen to leave at one of the work distributor, which never pre-empts another team
(R322, R336). -/
def State.leaves (s : State) (w : Wave) : Bool :=
  (match s.parts[w.partIndex]? with | some x => x.whole | none => false)
    || (match s.teams[w.team]? with | some t => t.evict | none => false)

/-- Whether the matrix team of a quad is on its way out of partition p. -/
def State.ownerLeaves (s : State) (p : Nat) : Bool :=
  match (s.quads[p / 4]?).bind (·.owner) with
  | none => false
  | some tid => (match s.parts[p]? with | some x => x.whole | none => false)
      || (match s.teams[tid]? with | some t => t.evict | none => false)

/-- Partitions that a request for p names: a quad whose matrix team leaves is pre-empted together. -/
def State.haltGroup (s : State) (p : Nat) (whole : Bool) : List Nat :=
  match (s.quads[p / 4]?).bind (·.owner) with
  | some tid =>
    if whole || (match s.teams[tid]? with | some t => t.evict | none => false) then (List.range 4).map (p / 4 * 4 + ·)
    else [p]
  | none => [p]

/-- Whether a handler of trap 0x11 runs in a partition (R183). -/
def State.handlers11 (s : State) (p : Nat) : Bool :=
  s.waves.any fun w => !w.zen && w.partIndex == p && w.stat == .halted && w.fibres.any fun f => f.live && f.mtrap == .saving

/-- The request as one partition takes it: none acts while a handler of trap 0x11 runs, and one for the whole partition
overrides one for single teams. -/
def State.requestOne (s : State) (whole : Bool) (q : Nat) : State :=
  if s.handlers11 q then s
  else s.modPart q fun x =>
    if x.halt == .saved || (x.halt == .halted && (x.whole || !whole)) then x
    else { x with halt := .requested, whole := x.whole || whole }

/-- A pre-emption request reaches partition p: for every wave there, or for those of the teams chosen to leave. -/
def State.requestHalt (s : State) (p : Nat) (whole : Bool) : State :=
  let s1 := (s.haltGroup p whole).foldl (fun s q => s.requestOne whole q) s
  if s1.ownerLeaves p then s1.modQuad (p / 4) fun q => { q with frozen := true } else s1

/-- Whether a copy still reads or writes the scratchpad of team tid, or a matrix operation of it is outstanding (R155,
R205). -/
def State.scratchBusy (s : State) (tid : Nat) : Bool :=
  let mine := fun (w : Nat) => match s.waves[w]? with | some x => x.team == tid | none => false
  (s.engine.any fun c => mine c.issuer && c.done.isNone && c.usesScratch) || s.tileOps.any fun o => mine o.wave

/-- Whether team tid has left its cores: every wave that has not ended is saved; a team chosen to leave takes with it
the waves that are swapped out or not yet restored. Copies into its scratchpad are over (R155), and every position of its
quads has been saved, those without a wave too (R183, R184). -/
def State.gone (s : State) (tid : Nat) (t : Team) : Bool :=
  let left := t.waves.filterMap fun w => (s.waves[w]?).bind fun x => if x.stat == .ended then none else some x.stat
  t.placed && !t.ended && !s.scratchBusy tid && s.quads.all (fun q => q.owner != some tid) &&
    (if t.evict then left.all fun x => x == .saved || x == .swapped || x == .arriving
     else !left.isEmpty && left.all (· == .saved))

/-- The stores of a team's waves go home before it leaves its cores, so that it meets them wherever it runs next (R218). -/
def State.bringAll (s : State) (t : Team) : State :=
  t.cores.foldl State.throughCore ((t.waves ++ t.zen.toList).foldl (fun s w => s.homePend w none) s)

/-- A team whose waves have all left gives up its place with its scratchpad allotment, and rejoins the queue at the
front (R155, R336). -/
def State.settleEvict (s : State) (tid : Nat) : State :=
  match s.teams[tid]? with
  | none => s
  | some t =>
    if s.gone tid t then
      let s1 : State := { s with
        requeue := tid :: s.requeue.filter (· != tid)
        waves := s.waves.map fun w => if w.team = tid ∧ w.stat ≠ .ended then { w with stat := .saved } else w }
      (s1.bringAll t).modTeam tid fun t => { t with placed := false, evict := false }
    else s

/-- Partitions in which team tid has resident waves, or matrix state. -/
def State.partsOf (s : State) (tid : Nat) (t : Team) : List Nat :=
  let on : List Wave := (t.waves.filterMap fun w => s.waves[w]?).filter fun x => x.stat == .resident || x.stat == .halted
  let quads : List (Quad × Nat) := s.quads.zipIdx.filter fun q => q.1.owner == some tid
  (on.map Wave.partIndex ++ quads.map fun (q : Quad × Nat) => 4 * q.2).eraseDups

/-- A team is chosen to leave its cores: the partitions that hold its resident waves or its matrix state are asked to
pre-empt it. -/
def State.evictTeam (s : State) (tid : Nat) : State :=
  match s.teams[tid]? with
  | none => s
  | some t =>
    let s1 := s.modTeam tid fun t => { t with evict := true }
    ((s.partsOf tid t).foldl (fun s p => s.requestHalt p false) s1).settleEvict tid

/-! ### TEAM_PLACEMENT (R335, R336) -/

/-- What the head of the distributor's queue is: a pre-empted team, or the next team of a grid. -/
inductive Head where
  | again (tid : Nat)
  | next (k : Nat)
  deriving DecidableEq, Repr

def State.headPrio (s : State) (h : Head) : Nat :=
  match h with
  | .again t => ((s.teams[t]?.bind fun x => s.grids[x.grid]?).map (·.prio)).getD 0
  | .next k => (s.grids[k]?.map (·.prio)).getD 0

/-- Whether a pre-empted team waits behind the holder of its grid's turn, which is placed first (R288). -/
def State.behindTurn (s : State) (tid : Nat) : Bool :=
  match s.teams[tid]? with
  | none => false
  | some t => match s.grids[t.grid]? with
    | none => false
    | some g => g.det && g.turn != t.idx && s.requeue.any fun u => match s.teams[u]? with
      | some x => x.grid == t.grid && x.idx == g.turn | none => false

/-- The queue, pre-empted teams before new ones. -/
def State.heads (s : State) : List Head :=
  let again := (s.requeue.filter fun t => !s.behindTurn t && (match s.teams[t]? with | some x => !x.ended | none => false)).map Head.again
  let new := (s.grids.zipIdx.filter fun g => g.1.stat == .running && decide (g.1.advance < g.1.total)).map fun g => Head.next g.2
  again ++ new

/-- When the message of a new launch arrived. -/
def State.headArrival (s : State) (h : Head) : Nat :=
  match h with
  | .again _ => 0
  | .next k => (s.grids[k]?.map (·.arrival)).getD 0

/-- Whether head x goes before head y: by priority, then a pre-empted team before a new one, then by arrival. -/
def State.before (s : State) (x y : Head) : Bool :=
  if s.headPrio x = s.headPrio y then
    match x, y with
    | .next _, .next _ => decide (s.headArrival x < s.headArrival y)
    | .again _, .next _ => true
    | _, .again _ => false
  else decide (s.headPrio y < s.headPrio x)

/-- The head of the queue. -/
def State.head (s : State) : Option Head :=
  s.heads.foldl (fun best h => match best with
    | none => some h
    | some b => if s.before h b then some h else best) none

/-- The state as it would be without a team's waves, for judging who must leave. -/
def State.without (s : State) (tid : Nat) : State :=
  let s1 := s.modTeam tid fun t => { t with placed := false }
  { s1 with
    waves := s1.waves.map fun w => if w.team = tid then { w with stat := .saved } else w
    quads := s1.quads.map fun q => if q.owner = some tid then { q with owner := none } else q }

/-- When a team was placed last (R59). -/
def State.teamAge (s : State) (tid : Nat) : Nat :=
  (((s.teams[tid]?).bind fun t => t.waves.head?).bind fun w => s.waves[w]?).elim 0 (·.age)

/-- Teams of priority below p in the order in which they leave: lowest priority first, the youngest first within one. -/
def State.leaving (s : State) (p : Nat) (ids : List Nat) : List Nat :=
  (List.range p).flatMap fun q =>
    (ids.filter fun t => s.headPrio (.again t) == q).insertionSort fun x y => s.teamAge y ≤ s.teamAge x

/-- Teams of lower priority on the cores of a candidate, in the order in which they leave. -/
def State.victimsOn (s : State) (g : Grid) (c : Nat) : List Nat :=
  s.leaving g.prio ((s.teams.zipIdx.filter fun t => (teamCores g c).any t.1.onCore).map (·.2))

/-- The teams that must leave a candidate, one after another, until the team fits. -/
def leavers (g : Grid) (tid : Option Nat) (c : Nat) : State → List Nat → List Nat → Option (List Nat)
  | s, gone, [] => if s.eligible g tid c then some gone else none
  | s, gone, v :: vs => if s.eligible g tid c then some gone else leavers g tid c (s.without v) (gone ++ [v]) vs

/-- The candidate on which the fewest teams must leave. -/
def State.choice (s : State) (g : Grid) (tid : Option Nat) : Option (List Nat) :=
  ((candidates g).filterMap fun c => leavers g tid c s [] (s.victimsOn g c)).foldl (fun best l => match best with
    | none => some l
    | some b => if l.length < b.length then some l else best) none

/-- Whether some team is on its way off its cores. -/
def State.evicting (s : State) : Bool := s.teams.any fun t => t.evict && !t.ended

/-! ### Ready swapped-out waves (R252, R335) -/

/-- The teams that must leave a partition, one after another, until a ready wave can return to it. -/
def returners (w : Wave) : State → List Nat → List Nat → Option (List Nat)
  | s, gone, [] => if s.canReturn w then some gone else none
  | s, gone, v :: vs => if s.canReturn w then some gone else returners w (s.without v) (gone ++ [v]) vs

/-- How a ready wave is served: no team has to leave (WAVE_RETURN), teams of lower priority with waves in its partition
or matrix state in its quad leave, or it waits. -/
def State.serve (s : State) (w : Wave) : Option (List Nat) :=
  match s.gridOf w with
  | none => none
  | some g =>
    if w.returning then
      returners w s [] (s.leaving g.prio ((((s.holders w.core w.part).map (·.team))
        ++ ((s.quads[w.quadIndex]?).bind (·.owner)).toList).eraseDups.filter (· != w.team)))
    else none

/-- The ready wave that is served before a head of priority p, and the teams that leave for it. -/
def State.waveFirst (s : State) (p : Nat) : Option (List Nat) :=
  s.waves.findSome? fun w => match s.gridOf w with
    | some g => if p ≤ g.prio then s.serve w else none
    | none => none

/-- Places the head on the best core, or has lower-priority teams leave for it. -/
def State.placeHead (s : State) (h : Head) (g : Grid) (tid : Option Nat) : State :=
  match s.bestCore g tid with
  | some c => match h with
    | .again t => s.placeAgain t c
    | .next k => (s.modGrid k fun g => { g with next := g.advance }).placeNew k c
  | none =>
    if s.evicting then s
    else match s.choice g tid with
      | some l => l.foldl (fun s t => s.evictTeam t) s
      | none => s

/-- TEAM_PLACEMENT: a ready swapped-out wave first, else the head of the queue. -/
def State.placement (s : State) : State :=
  match s.waveFirst ((s.head.map s.headPrio).getD 0) with
  | some l => if s.evicting then s else l.foldl (fun s t => s.evictTeam t) s
  | none => match s.head with
    | none => s
    | some (.again t) => match s.teams[t]?.bind fun x => s.grids[x.grid]? with
      | some g => s.placeHead (.again t) g (some t)
      | none => s
    | some (.next k) => match s.grids[k]? with
      | some g => s.placeHead (.next k) g none
      | none => s

def execTeamPlacement (s : State) : Out := onRun (fun _ => true) State.placement s

def execScratchpadAllotmentCleared (t : Nat) (s : State) : Out :=
  onRun (fun _ => true) (fun s => s.modTeam t fun x => { x with cleared := true }) s

/-! ### The halt (R183, R322) -/

/-- The fibre that saves matrix state of partition p for the matrix team of its quad: wave and slot (R183). -/
def State.saver (s : State) (p : Nat) : Option (Nat × Nat) :=
  match (s.quads[p / 4]?).bind (·.owner) with
  | none => none
  | some tid => match s.teams[tid]? with
    | none => none
    | some t => match s.grids[t.grid]? with
      | none => none
      | some g =>
        if g.fastswitch || g.trapEntry.isNone then none
        else
          (t.waves.find? fun w => match s.waves[w]? with
            | some x => x.partIndex == p && (x.stat == .resident || x.stat == .halted) | none => false).bind fun w =>
            match s.waves[w]? with
            | some x => (x.fibres.findIdx? fun f => f.live && !f.intrap).map fun l => (w, l)
            | none => none

/-- Whether the saver of a partition still waits for an atomic or a FREEZE that has left the core. -/
def State.saverBusy (s : State) (p : Nat) : Bool :=
  match s.saver p with
  | none => false
  | some (w, l) => match ((s.waves[w]?).bind fun x => x.fibres[l]?).bind (·.park) with
    | some { why := .atomic _, .. } | some { why := .freeze _, .. } => true
    | _ => false

/-- Whether a resident wave of a partition has to halt: it leaves. -/
def State.mustHalt (s : State) (p : Nat) (w : Wave) : Bool :=
  !w.zen && w.partIndex == p && w.stat == .resident && s.leaves w

/-- Waves of a partition that have to halt and are in a pre-emption-disable window. -/
def State.inWindow (s : State) (p : Nat) : Bool := s.waves.any fun w => s.mustHalt p w && w.nopre.isSome

/-- A wave outside a window halts. -/
def State.haltWave (s : State) (p : Nat) (w : Wave) : Wave :=
  if s.mustHalt p w && w.nopre.isNone then { w with stat := .halted } else w

/-- Trap 0x11 in the saver of a partition. -/
def State.trap11 (s : State) (p : Nat) : State :=
  match s.saver p with
  | none => s
  | some (w, l) =>
    let s1 := s.modWave w fun x => { x with fibres := modAt x.fibres l fun f => { f with park := none, mtrap := .saving } }
    match (s1.waves[w]?).bind fun x => x.fibres[l]? with
    | some f => s1.takeTrap w l (trapWith 0x11 (BitVec.ofNat 32 (p % 4))) f.pc
    | none => s1

/-- PARTITION_HALT of p: the waves that leave halt outside their windows; once all have halted and the issued MMQs of
a quad whose matrix team leaves are over, the halt is complete. -/
def State.haltPart (s : State) (p : Nat) : State :=
  let s1 : State := { s with waves := s.waves.map (s.haltWave p) }
  let matrix := s.ownerLeaves p
  let drained := match s.quads[p / 4]? with | some q => !matrix || q.pipe.isEmpty | none => true
  if s.inWindow p || !drained || (matrix && s1.saverBusy p) then s1
  else
    let s2 := s1.modPart p fun x => { x with halt := .halted }
    if matrix then s2.trap11 p else s2

def execPartitionHalt (p : Nat) (s : State) : Out :=
  onRun (fun s => match s.parts[p]? with | some x => x.halt == .requested | none => false) (·.haltPart p) s

/-! ### Saved contexts (R183, R184, R323, R324) -/

/-- The slices of one position, those of the tiles that a mask names. -/
def sliceOf (m : WordMap) (k : Nat) (live : BitVec 8) : WordMap :=
  m.filter fun c => c.1 / 96 % 64 / 16 == k && live.getLsbD (c.1 / 6144)

/-- A convergence register with the signature of one position alone. -/
def Conv.only (c : Conv) (k : Nat) : Conv := { c with signed := c.signed.mapIdx fun i x => if i = k then x else none }

/-- What hardware saves of position k of a quad. -/
def Quad.savePart (q : Quad) (pos p : Nat) (live : BitVec 8) : SavedPart :=
  { pos := pos, acc := sliceOf q.acc (p % 4) live, failed := q.failed.filter fun f => f.slice == p % 4,
    conv := q.conv.map (·.only (p % 4)), ready := q.ready }

/-- Whether hardware saves the matrix state of partition p of team t itself: a FASTSWITCH launch, or no fibre of the
partition has saved it (R183, R184). -/
def State.hwSaves (s : State) (t : Team) (g : Grid) (p : Nat) : Bool :=
  g.fastswitch || !(t.waves.any fun w => match s.waves[w]? with
    | some x => x.partIndex == p && x.fibres.any fun f => f.live && f.mtrap == .saved
    | none => false)

/-- The tiles that the waves of a team in a partition have named live; all eight without FASTSWITCH. -/
def State.liveMask (s : State) (t : Team) (g : Grid) (p : Nat) : BitVec 8 :=
  if g.fastswitch then
    t.waves.foldl (fun m w => match s.waves[w]? with
      | some x => if x.partIndex = p ∧ x.stat ≠ .ended then m ||| x.liveTiles else m
      | none => m) 0
  else 0xFF

/-- The matrix state of partition p leaves its quad, into the team's context where hardware saves it. The quad is free
once its four positions have left. -/
def State.saveMatrix (s : State) (p : Nat) : State :=
  match s.quads[p / 4]? with
  | none => s
  | some q => match q.owner with
    | none => s
    | some tid => match s.teams[tid]? with
      | none => s
      | some t => match s.grids[t.grid]? with
        | none => s
        | some g =>
          if s.ownerLeaves p then
            let rest := t.saved.filter fun x => x.pos != t.posOf p
            let s1 := s.modTeam tid fun t =>
              { t with saved := if s.hwSaves t g p then rest ++ [q.savePart (t.posOf p) p (s.liveMask t g p)] else rest }
            let out := q.out.filter (· != p % 4) ++ [p % 4]
            s1.modQuad (p / 4) fun q => if (List.range 4).all out.contains then Quad.clear else { q with out := out }
          else s

/-- The Zenith context of a team whose waves have all left is saved with them (R323). -/
def State.saveZen (s : State) (tid : Nat) : State :=
  match s.teams[tid]? with
  | none => s
  | some t => match t.zen with
    | none => s
    | some z =>
      let on := t.waves.any fun w => match s.waves[w]? with
        | some x => x.stat == .resident || x.stat == .halted | none => false
      if on then s else s.modWave z fun w => if w.stat == .resident then { w with stat := .saved } else w

/-- Whether the context of partition p can move out. -/
def State.canSave (s : State) (p : Nat) : Bool :=
  match s.parts[p]? with
  | some x => x.halt == .halted && !s.handlers11 p && !(s.tileOps.any fun o => match s.waves[o.wave]? with
    | some w => w.partIndex == p | none => false)
  | none => false

/-- CONTEXT_SAVE of partition p: the waves that have halted move out; the partition stays pre-empted where system
software asked for it, and is free for other waves where the work distributor did. A team that is still to leave is
asked for again. -/
def State.saveContext (s : State) (p : Nat) : State :=
  let mine := fun (w : Wave) => !w.zen && w.partIndex == p && w.stat == .halted
  let teams := ((s.waves.filter mine).map (·.team)).eraseDups
  let s1 := (s.saveMatrix p).modPart p fun x => { x with halt := if x.whole then .saved else .none, whole := false }
  let out := fun (w : Wave) => if mine w then { w with stat := .saved, score := 0, victims := [] } else w
  let s2 : State := { s1 with waves := s1.waves.map out }
  let s3 := teams.foldl (fun s t => (s.saveZen t).settleEvict t) s2
  let again := s3.waves.any fun w => !w.zen && w.partIndex == p && w.stat == .resident &&
    (match s3.teams[w.team]? with | some t => t.evict | none => false)
  if again then s3.requestHalt p false else s3

def execContextSave (p : Nat) (s : State) : Out := onRun (·.canSave p) (·.saveContext p) s

/-- Waves of partition p whose context is to come back: those saved there, and those whose team has taken its place
again. -/
def State.savedIn (s : State) (p : Nat) : List Nat :=
  (s.waves.zipIdx.filter fun w => !w.1.zen && w.1.partIndex == p && (w.1.stat == .arriving || w.1.stat == .saved) &&
    (match s.teams[w.1.team]? with | some t => t.placed && !t.evict && !t.ended | none => false)).map (·.2)

/-- Whether a pre-emption of a quad is under way: a partition of it is asked for, or halted. -/
def State.quadHalting (s : State) (qi : Nat) : Bool :=
  ((List.range 4).map (4 * qi + ·)).any fun p => match s.parts[p]? with
    | some x => x.halt == .requested || x.halt == .halted | none => false

/-- Whether partition p can take its saved contexts back: those that hold no slots yet fit, and its quad takes those of
a matrix team. -/
def State.canRestore (s : State) (p : Nat) : Bool :=
  match s.parts[p]? with
  | none => false
  | some x =>
    let ws := (s.savedIn p).filterMap fun i => s.waves[i]?
    let new := ws.filter fun w => w.stat == .saved
    let owned := match (s.quads[p / 4]?).bind (·.owner) with | some t => ws.any fun w => w.team == t | none => false
    (x.halt == .saved || (x.halt == .none && !ws.isEmpty)) && (x.inService || ws.isEmpty)
      && s.partFits (p / 8) (p % 8) (new.map (·.width)).sum (new.map Wave.regsTaken).sum
      && ws.all (s.quadTakes p) && !(owned && s.quadHalting (p / 4))

/-- A fibre that took trap 0x11 takes trap 0x12 before its next bundle. -/
def Fibre.owe12 (k : Nat) (f : Fibre) : Fibre :=
  if f.live && f.mtrap == .saved then { f with mtrap := .restoring, due := (0x12, BitVec.ofNat 32 k) :: f.due } else f

/-- CONTEXT_RESTORE of partition p: its waves are resident again, with their Zenith contexts and their matrix state; fibres
parked on WAITC read their locations again (R252). -/
def State.restoreContext (s : State) (p : Nat) : State :=
  let ws := s.savedIn p
  let teams := (ws.filterMap fun i => (s.waves[i]?).map (·.team)).eraseDups
  let s1 := teams.foldl (fun s t => s.reclaim (p / 4) t) (s.modPart p fun x => { x with halt := .none, whole := false })
  let s2 := ws.foldl (fun s i => s.modWave i fun w =>
    { w.restart with fibres := w.fibres.map (Fibre.owe12 (p % 4)) }) s1
  let zens := (s2.waves.zipIdx.filter fun w =>
    w.1.zen && (w.1.stat == .saved || w.1.stat == .arriving) && teams.contains w.1.team).map (·.2)
  (zens.foldl (fun s z => s.modWave z fun w => { w with stat := .resident }) s2).rereadWaits (ws ++ zens)

def execContextRestore (p : Nat) (s : State) : Out := onRun (·.canRestore p) (·.restoreContext p) s

/-- No drain (R183): the slices of positions whose handlers of trap 0x12 restored nothing are as R159 leaves them. -/
def Quad.noDrain (q : Quad) (ks : List Nat) : Quad :=
  { q with acc := q.acc.filter fun c => !ks.contains (c.1 / 96 % 64 / 16)
           failed := q.failed.filter fun f => !ks.contains f.slice }

/-- Every convergence register of the quad is then unarmed, and the signatures that were not restored are gone from
their waves' tiles counters. -/
def State.noDrain (s : State) (qi tid : Nat) (ks : List Nat) : State :=
  if ks.isEmpty then s
  else
    let s1 := (List.range 8).foldl (fun s n => s.signClear qi n) (s.modQuad qi fun q => q.noDrain ks)
    let ops := fun (w : Nat) => (s1.tileOps.filter fun o => o.wave == w).length
    { s1 with waves := s1.waves.mapIdx fun i w =>
        if w.team = tid ∧ !w.zen ∧ w.quadIndex = qi ∧ ks.contains w.quadPos then { w with tiles := ops i } else w }

/-- A quad is unfrozen when no pre-emption holds it, its matrix team's waves are back, and no handler of trap 0x12 of it
still runs (R182, R183). -/
def State.settleQuad (s : State) (qi : Nat) : State :=
  match s.quads[qi]? with
  | none => s
  | some q =>
    let idle := ((List.range 4).map (4 * qi + ·)).all fun p => match s.parts[p]? with
      | some x => x.halt == .none | none => true
    let back := s.waves.all fun w => w.zen || w.quadIndex != qi || some w.team != q.owner
      || (w.stat != .saved && w.stat != .halted && w.stat != .arriving)
    if q.frozen && idle && back && q.out.isEmpty && !s.handlers12 qi then
      let s1 := match q.owner, q.resume with
        | some tid, some ks => s.noDrain qi tid ks
        | _, _ => s
      s1.modQuad qi fun q => { q with frozen := false, resume := none }
    else s

/-! ### NOPRE_OVERRUN (R325) -/

/-- Which bounds of a window have run out: [0] instructions, [1] time. -/
def NoPre.out (p : NoPre) (now : Nat) : Word :=
  (if p.left = 0 then 1 else 0) + (if p.until_ ≤ now then 2 else 0)

/-- The window closes, the wave halts, and each live fibre takes trap 0x0D when the wave resumes. -/
def State.overrun (s : State) (wid : Nat) : State :=
  match s.waves[wid]? with
  | none => s
  | some w => match w.nopre with
    | none => s
    | some n =>
      let v := n.out s.now
      (s.setWave wid { w with nopre := none, stat := .halted, fibres := w.fibres.map fun f => f.owe 0x0D v }).requestHalt
        w.partIndex true

def execNopreOverrun (w : Nat) (s : State) : Out :=
  onRun (fun s => match s.waves[w]? with
    | some x => x.stat == .resident && (match x.nopre with | some n => n.out s.now != 0 | none => false)
    | none => false) (·.overrun w) s

/-! ### In-field tests (R326, R327) -/

/-- Whether a test can start: none runs, and the partition is not halted. -/
def State.canTest (s : State) (p : Nat) : Bool :=
  match s.parts[p]? with
  | some x => x.inService && !x.testing && x.bankTest.isNone && x.halt == .none
  | none => false

def execInFieldTest (p : Nat) (s : State) : Out :=
  onRun (·.canTest p) (·.modPart p fun x => { x with testing := true, led := x.led ||| 0x80 }) s

def execVesperBankTest (p bank : Nat) (s : State) : Out :=
  onRun (fun s => s.canTest p && decide (bank < 2)) (·.modPart p fun x => { x with bankTest := some bank }) s

/-- A test fails: the partition leaves service, and every placed team with a wave that belongs there is pre-empted whole and
placed again elsewhere; one that has left its cores is only placed elsewhere. -/
def State.failTest (s : State) (p : Nat) : State :=
  let ts := ((s.waves.filter fun w => !w.zen && w.partIndex == p && w.stat != .ended &&
    (match s.teams[w.team]? with | some t => t.placed | none => false)).map (·.team)).eraseDups
  let s1 := (s.modPart p fun x =>
    { x with inService := false, testing := false, bankTest := none, led := x.led &&& 0x7F }).emit
      (.report "partition out of service" p 0)
  ts.foldl (fun s t => s.evictTeam t) s1

/-- IN_FIELD_TEST_RESULT of the test that runs in partition p. -/
def State.testResult (s : State) (p : Nat) (pass : Bool) : State :=
  match s.parts[p]? with
  | none => s
  | some x =>
    if !pass then s.failTest p
    else if x.testing then
      { s.modPart p (fun x => { x with testing := false, led := 0 }) with zenLed := s.zenLed.set (p / 8) false }
    else s.modPart p fun x => { x with bankTest := none }

/-- Whether a test of the partition can end: it waits while the partition is halted. -/
def State.canResult (s : State) (p : Nat) : Bool :=
  match s.parts[p]? with
  | some x => (x.testing || x.bankTest.isSome) && x.halt != .halted && x.halt != .saved
  | none => false

def execInFieldTestResult (p : Nat) (pass : Bool) (s : State) : Out :=
  onRun (·.canResult p)
    (·.testResult p pass) s

end Sys2Proof.Machine
end

