-- ==== Sys2Proof/Machine/Mapping.lean ====
section
/-! DEFINITION. The mapping port: command records, MAP to ASIDFREE, the page scan, completion records
(11_address_space_and_fixed_stars R259 to R265, R271, R276, R283, R386; 01 R35, R36). -/

namespace Sys2Proof.Machine

/-! ### Command records (R262) and their completion (R264) -/

/-- A 64-byte command record. -/
structure Cmd where
  op : Nat
  asid : Nat
  zero : Nat
  va : Nat
  target : Nat
  size : Nat
  attr : Nat
  status : Nat
  arg : Nat
  tag : Nat
  deriving DecidableEq, Repr

/-- Reads the eight dwords of a command record. -/
def readCommand (ws : List DWord) : Cmd :=
  let d := fun (i : Nat) => (ws.getD i 0).toNat
  { op := bits (d 0) 0 32, asid := bits (d 0) 32 16, zero := bits (d 0) 48 16, va := d 1, target := d 2, size := d 3,
    attr := d 4, status := d 5, arg := d 6, tag := d 7 }

def cmdOk : Word := 0
def cmdBad : Word := 1
def cmdOverlap : Word := 2
def cmdNotMapped : Word := 3
def cmdFixed : Word := 4
def cmdScanRefused : Word := 5
def cmdBusy : Word := 6
def cmdNoSplit : Word := 7
def cmdFull : Word := 8
def cmdBadHandle : Word := 9

/-- The head command of a queue: commands of one issuer execute in arrival order (R262). -/
def State.headCommand (s : State) (q : Nat) : Option Command := s.commands.find? fun c => c.queue == q

/-- Changes the head command of a queue. -/
def modHead (q : Nat) (f : Command → Command) : List Command → List Command
  | [] => []
  | c :: cs => if c.queue = q then f c :: cs else c :: modHead q f cs

def State.modCommand (s : State) (q : Nat) (f : Command → Command) : State := { s with commands := modHead q f s.commands }

/-- The head command of a queue has been executed, with a status and a detail. -/
def State.finishCommand (s : State) (q : Nat) (st : Word) (detail : DWord) : State :=
  s.modCommand q fun c => { c with done := some (st, detail) }

/-- Whether a queue takes an op: the host's ring takes the mapping ops and the host ops (R340), the Orrery port its own
(R348), the mapping port the mapping ops (R263). -/
def queueTakes (q op : Nat) : Bool :=
  if q = 0 then decide (1 ≤ op ∧ op ≤ 8) || decide (0x100 ≤ op ∧ op ≤ 0x107)
  else if q = 1 then decide (1 ≤ op ∧ op ≤ 7)
  else decide (1 ≤ op ∧ op ≤ 8)

/-- The head command of queue q when it is an op of a set that has not been executed yet. -/
def State.pendingCmd (s : State) (q op : Nat) : Option Cmd :=
  match s.headCommand q with
  | none => none
  | some c =>
    if c.done.isNone && (readCommand c.words).op == op && queueTakes q op then some (readCommand c.words) else none

/-! ### Ranges (R262, R386) -/

def addressEnd : Nat := 2 ^ 57
/-- The reserved control page. -/
def controlPage : Nat := 0x01FFFFFFFFFF0000
def touchesControl (va size : Nat) : Bool := decide (va < controlPage + 65536 ∧ controlPage < va + size)

/-- A non-zero multiple of the unit, at an aligned base. A range that passes the end of the address space touches the
control page, or is not mapped (checks 3 and 4). -/
def rangeOk (va size unit : Nat) : Bool := va % unit == 0 && size % unit == 0 && size != 0

/-- Whether every 64 KiB piece of a range is mapped. -/
def State.allMapped (s : State) (asid va size : Nat) : Bool :=
  ((s.pagesIn asid va size).map fun p => min (va + size) (p.va + p.size) - max va p.va).sum == size

/-- Whether a range begins and ends at page boundaries. -/
def State.wholePages (s : State) (asid va size : Nat) : Bool :=
  (s.pagesIn asid va size).all fun p => decide (va ≤ p.va ∧ p.va + p.size ≤ va + size)

/-- Fields of an attribute dword (R260). -/
def attrRd (a : Nat) : Bool := a.testBit 0
def attrWr (a : Nat) : Bool := a.testBit 1
def attrX (a : Nat) : Bool := a.testBit 2
def attrPriv (a : Nat) : Bool := a.testBit 5
def attrCoh (a : Nat) : Nat := bits a 3 2
def attrSz (a : Nat) : Nat := bits a 8 2
def attrReserved (a : Nat) : Bool := bits a 6 2 != 0 || bits a 10 54 != 0

/-- Whether a target dword names memory, aligned to the page size, for a range (R261). -/
def targetOk (t size page : Nat) : Bool :=
  decide (t / 2 ^ 60 ≤ 3) && bits t 58 2 == 0 && (t / 2 ^ 60 == 2 || bits t 52 6 == 0) && t % page == 0
    && decide (t % 2 ^ 52 + size ≤ 2 ^ 52)

/-! ### The checks of R386 -/

/-- Check 1: what makes a mapping command BADCMD before anything else. R386 names no status for a MAP or an ASIDNEW that
lies wholly beyond the 57-bit space: DESIGN CHOICE (log 51), BADCMD. R263 gives RESOLVE the actions 0 and 1, and no status for
attr[1:0] of 2 or 3: DESIGN CHOICE (log 54), BADCMD. -/
def State.badMapping (s : State) (c : Cmd) : Bool :=
  let known := s.spaces.any fun x => x.asid == c.asid
  c.zero != 0 || c.asid == 0 || (c.op != 7 && !known) || (c.target != 0 && c.op != 1 && c.op != 6)
    || (c.attr != 0 && c.op != 1 && c.op != 3 && c.op != 6)
    || (match c.op with
      | 1 =>
        let page := szBytes (BitVec.ofNat 2 (attrSz c.attr))
        attrReserved c.attr || attrSz c.attr == 3 || attrCoh c.attr == 3 || (attrWr c.attr && attrX c.attr)
          || !rangeOk c.va c.size page || decide (addressEnd ≤ c.va) || !targetOk c.target c.size page
      | 2 | 4 => !rangeOk c.va c.size 65536
      | 3 => attrReserved c.attr || !rangeOk c.va c.size 65536
      | 5 => c.va % 65536 != 0
      | 6 => decide (1 < c.attr)
      | 7 => c.va % 65536 != 0 || decide (addressEnd ≤ c.va) ||
          (if c.arg.testBit 12 then c.arg != 4096 else decide (4096 ≤ c.arg))
      | _ => false)

/-- Checks 1 to 6, in order: the status of the first that fails. -/
def State.checkMapping (s : State) (c : Cmd) : Option Word :=
  let ranged := [2, 3, 4].contains c.op
  let table := c.op == 7
  let size := if table then 4 * 65536 else if c.op = 5 then 65536 else c.size
  if s.badMapping c then some cmdBad
  else if table && s.spaces.any (fun x => x.asid == c.asid) then some cmdBusy
  else if (c.op == 1 || c.op == 3 || table) && touchesControl c.va size then some cmdOverlap
  else if (ranged || c.op == 5) && !s.allMapped c.asid c.va size then some cmdNotMapped
  else if ranged && !s.wholePages c.asid c.va size then some cmdNoSplit
  else if (c.op == 1 || table) && !(s.pagesIn c.asid c.va size).isEmpty then some cmdOverlap
  else none

/-! ### The page scan (R35) -/

/-- The words of a page at a physical key. -/
def State.pageWords (s : State) (key size : Nat) : List Word :=
  (List.range (size / 4)).map fun i =>
    wordOfBytes (s.homeByte (key + 4 * i)) (s.homeByte (key + 4 * i + 1)) (s.homeByte (key + 4 * i + 2))
      (s.homeByte (key + 4 * i + 3))

/-- The first offence in pages given by offset from va, key and size: its reason and its byte offset. -/
def State.scanPages (s : State) : List (Nat × Nat × Nat) → Option (Nat × Nat)
  | [] => none
  | (o, key, size) :: rest =>
    match scanPage (s.pageWords key size) with
    | some (r, i) => some (r, o + 4 * i)
    | none => s.scanPages rest

/-- Pages of a MAP: offset, key, size. -/
def mapPieces (c : Cmd) : List (Nat × Nat × Nat) :=
  let page := szBytes (BitVec.ofNat 2 (attrSz c.attr))
  (List.range (c.size / page)).map fun i => (i * page, c.target + i * page, page)

/-- Pages of a range in address order, as offset, key and size. -/
def State.rangePieces (s : State) (c : Cmd) : List (Nat × Nat × Nat) :=
  ((List.range (c.size / 65536)).filterMap fun i => match s.findPage c.asid (c.va + 65536 * i) with
    | some p => if p.va = c.va + 65536 * i then some (65536 * i, p.tgt.toNat, p.size) else none
    | none => none)

/-- Whether PROTECT agrees with the size and protocol of every page (R263). -/
def State.protectAgrees (s : State) (c : Cmd) : Bool :=
  (s.pagesIn c.asid c.va c.size).all fun p => p.sz.toNat == attrSz c.attr && p.coh.toNat == attrCoh c.attr

/-- The MAP or PROTECT at the head of queue q that makes a range executable, with the range's pages (R35, R36). -/
def State.execRange (s : State) (q : Nat) : Option (Cmd × List (Nat × Nat × Nat)) :=
  if q = 1 then none
  else match s.pendingCmd q 1, s.pendingCmd q 3 with
    | some c, _ => if attrX c.attr && (s.checkMapping c).isNone then some (c, mapPieces c) else none
    | none, some c =>
      if attrX c.attr && !attrWr c.attr && (s.checkMapping c).isNone && s.protectAgrees c then some (c, s.rangePieces c)
      else none
    | none, none => none

/-- The scan that the head command of queue q waits for: the pages that would become executable. -/
def State.scanWanted (s : State) (q : Nat) : Option (List (Nat × Nat × Nat)) :=
  match s.headCommand q with
  | none => none
  | some h => if h.scan.isSome then none else (s.execRange q).map (·.2)

/-- Physical blocks of scanned pages. -/
def pieceBlocks (ps : List (Nat × Nat × Nat)) : List Nat :=
  ps.flatMap fun x => (List.range (x.2.2 / 65536)).map (blockOf x.2.1 + ·)

/-- Whether a range that is being scanned holds the word at a key: a fetch from it waits (R35). -/
def State.scanning (s : State) (key : Nat) : Bool :=
  s.commands.any fun c => (s.scanWanted c.queue).any fun ps =>
    ps.any fun x => decide (x.2.1 ≤ key ∧ key < x.2.1 + x.2.2)

/-- Whether an address of a space lies in a range that a command is making executable, and whose scan has not refused it: a
fetch from it waits, whether or not the page is mapped or executable by now (R35). -/
def State.becoming (s : State) (asid va : Nat) : Bool :=
  s.commands.any fun h => match s.execRange h.queue, (s.headCommand h.queue).bind (·.scan) with
    | some c, r => (match r with | some (some _) => false | _ => true) &&
        decide (c.1.asid = asid ∧ c.1.va ≤ va ∧ va < c.1.va + c.1.size)
    | none, _ => false

/-- CODE_PAGE_SCAN for the head command of queue q: it reads every word, with the writes that are under way to the pages
brought home first (R35). -/
def State.codeScan (s : State) (q : Nat) : State :=
  match s.scanWanted q with
  | none => s
  | some ps =>
    let s1 := s.drainBlocks (pieceBlocks ps)
    s1.modCommand q fun h => { h with scan := some (s1.scanPages ps) }

def execCodePageScan (k : Nat) (s : State) : Out := onRun (fun s => (s.scanWanted k).isSome) (·.codeScan k) s

/-- The refusal of a scan, if the head command of queue q needs one: none while it passes. Pages written since the scan
are judged again as they become executable: no unscanned word ever is (R35, R37). -/
def State.scanResult (s : State) (q : Nat) (ps : List (Nat × Nat × Nat)) : Option (Nat × Nat) :=
  match (s.headCommand q).bind (·.scan) with
  | none => none
  | some r => r.or ((s.drainBlocks (pieceBlocks ps)).scanPages ps)

/-! ### MAP, UNMAP, PROTECT, SPLIT, UNFIX (R263, R265, R276, R283) -/

/-- Runs a mapping command at the head of queue q, which is not the Orrery port's: the checks of R386 first, then its own
conditions and effect. -/
def onMapping (q op : Nat) (ready : State → Cmd → Bool) (f : State → Cmd → State × Word × DWord) (s : State) : Out :=
  onRun (fun s => q != 1 && match s.pendingCmd q op with
      | some c => (s.checkMapping c).isSome || ((s.scanWanted q).isNone && ready s c)
      | none => false)
    (fun s => match s.pendingCmd q op with
      | none => s
      | some c => match s.checkMapping c with
        | some st => s.finishCommand q st 0
        | none =>
          let r := f s c
          r.1.finishCommand q r.2.1 r.2.2) s

/-- A page as MAP makes it; a block that is fixed through another mapping keeps its count (R272). -/
def newPage (c : Cmd) (i : Nat) : Page :=
  let sz := BitVec.ofNat 2 (attrSz c.attr)
  { asid := c.asid, va := c.va + i * szBytes sz, sz := sz, tgt := BitVec.ofNat 64 (c.target + i * szBytes sz),
    rd := attrRd c.attr, wr := attrWr c.attr, x := attrX c.attr, priv := attrPriv c.attr,
    coh := BitVec.ofNat 2 (attrCoh c.attr), st := .owned, reps := [] }

/-- Whether two pages share memory. -/
def Page.overlaps (p q : Page) : Bool :=
  decide (p.tgt.toNat < q.tgt.toNat + q.size ∧ q.tgt.toNat < p.tgt.toNat + p.size)

/-- What a page keeps beside pages that have become writable or executable: memory is never both, through whichever
address (R36). That a page made executable takes W from the others is a DESIGN CHOICE (log 51). -/
def Page.giveWay (new : List Page) (p : Page) : Page :=
  { p with x := p.x && !(new.any fun q => q.wr && q.overlaps p)
           wr := p.wr && !(new.any fun q => q.x && q.overlaps p) }

/-- Whether a staged effect is on one of the blocks. -/
def Staged.hits (bs : List Nat) : Staged → Bool
  | .store key _ | .redm key _ _ _ _ | .scatb _ key _ _ _ _ => inBlocks bs key
  | .clear line => inBlocks bs (line * 128)
  | _ => false

/-- Whether no atomic that has left its core, and nothing that a deterministic team has staged, can still use one of the
blocks (R265). -/
def State.still (s : State) (bs : List Nat) : Bool :=
  !s.atomicIn bs && !(s.teams.any fun t => t.stage.any (Staged.hits bs))

def scanDetail (r : Nat × Nat) : DWord := BitVec.ofNat 64 (r.1 + 256 * r.2)

def State.mapRange (s : State) (q : Nat) (c : Cmd) : State × Word × DWord :=
  match s.scanResult q (mapPieces c) with
  | some r => (s, cmdScanRefused, scanDetail r)
  | none =>
    let n := c.size / szBytes (BitVec.ofNat 2 (attrSz c.attr))
    let s1 := if attrX c.attr then s.drainBlocks (pieceBlocks (mapPieces c)) else s
    let new := (List.range n).map fun i => s1.settlePage (newPage c i)
    ({ s1 with pages := s1.pages.map (Page.giveWay new) ++ new }, cmdOk, 0)

def execMap (q : Nat) (s : State) : Out :=
  onMapping q 1 (fun s c => !attrX c.attr || s.still (pieceBlocks (mapPieces c))) (fun s c => s.mapRange q c) s

/-- Physical blocks of the pages of a range. -/
def State.blocksIn (s : State) (c : Cmd) : List Nat := (s.pagesIn c.asid c.va c.size).flatMap Page.blocks

/-- Whether nothing that is under way can still use a range under its old mapping (R265). -/
def State.quiet (s : State) (c : Cmd) : Bool := s.still (s.blocksIn c)

/-- The lines of a list of blocks leave every cache. -/
def State.dropBlocks (s : State) (bs : List Nat) : State :=
  let s1 := s.drainBlocks bs
  { s1 with l1 := s1.l1.filter fun x => !inBlocks bs (x.line * 128)
            leaders := s1.leaders.filter fun x => !inBlocks bs (x.line * 128) }

def State.unmapRange (s : State) (c : Cmd) : State × Word × DWord :=
  let bs := s.blocksIn c
  if bs.any fun b => decide (0 < s.count b) then (s, cmdFixed, 0)
  else
    let gone := s.pagesIn c.asid c.va c.size
    let s1 := gone.foldl (fun s p => s.pageOwned p.asid p.va) (s.dropBlocks bs)
    ({ s1 with pages := s1.pages.filter fun p => !(p.asid == c.asid && decide (c.va ≤ p.va ∧ p.va < c.va + c.size)) },
      cmdOk, 0)

def execUnmap (q : Nat) (s : State) : Out := onMapping q 2 State.quiet State.unmapRange s

/-- A page after PROTECT: W = 1 clears X (R36). -/
def Page.protect (p : Page) (a : Nat) : Page :=
  { p with rd := attrRd a, wr := attrWr a, x := attrX a && !attrWr a, priv := attrPriv a }

def State.protectRange (s : State) (q : Nat) (c : Cmd) : State × Word × DWord :=
  if !s.protectAgrees c then (s, cmdBad, 0)
  else match s.scanResult q (s.rangePieces c) with
    | some r => (s, cmdScanRefused, scanDetail r)
    | none =>
      let s1 := s.drainBlocks (s.blocksIn c)
      let mine := fun (p : Page) => p.asid == c.asid && decide (c.va ≤ p.va ∧ p.va < c.va + c.size)
      let new := (s1.pages.filter mine).map (·.protect c.attr)
      ({ s1 with pages := s1.pages.map fun p => if mine p then p.protect c.attr else p.giveWay new }, cmdOk, 0)

def execProtect (q : Nat) (s : State) : Out := onMapping q 3 State.quiet (fun s c => s.protectRange q c) s

/-- The pages that SPLIT makes of one. -/
def Page.pieces (p : Page) : List Page :=
  if p.sz = 0 then [p]
  else
    let sz : BitVec 2 := if p.sz = 1 then 0 else 1
    (List.range (p.size / szBytes sz)).map fun i =>
      { p with va := p.va + i * szBytes sz, sz := sz, tgt := p.tgt + BitVec.ofNat 64 (i * szBytes sz) }

/-- Regions that wait for a page wait for each of its pieces. -/
def Region.split (p : Page) (r : Region) : Region :=
  { r with thaw := r.thaw.flatMap fun x =>
      if x = (p.asid, p.va) then p.pieces.map fun y => (y.asid, y.va) else [x] }

def State.splitRange (s : State) (c : Cmd) : State × Word × DWord :=
  let ps := s.pagesIn c.asid c.va c.size
  ({ s with pages := s.pages.flatMap fun p => if ps.contains p then p.pieces else [p]
            regions := ps.foldl (fun rs p => rs.map (Region.split p)) s.regions }, cmdOk, 0)

def execSplit (q : Nat) (s : State) : Out := onMapping q 4 (fun _ _ => true) State.splitRange s

/-- UNFIX of the block at va: it is withdrawn from every region that counts it, and its page begins to thaw. -/
def State.unfixBlock (s : State) (c : Cmd) : State × Word × DWord :=
  match s.findPage c.asid c.va with
  | none => (s, cmdNotMapped, 0)
  | some p =>
    let b := blockOf (p.key c.va)
    let counts := fun (r : Region) => r.st == 1#2 && r.blocks.contains b && !r.withdrawn.contains b
    if p.sz ≠ 0 then (s, cmdNoSplit, 0)
    else if s.count b = 0 then (s, cmdOk, 0)
    else if s.regions.any fun r => counts r && decide (256 ≤ r.withdrawn.length) then (s, cmdFull, 0)
    else
      let s1 : State := { s with
        frozen := s.frozen.put b 0
        regions := s.regions.map fun r => if counts r then { r with withdrawn := r.withdrawn ++ [b] } else r }
      ((s1.thawPages [b]).1, cmdOk, 0)

def execUnfix (q : Nat) (s : State) : Out := onMapping q 5 (fun _ _ => true) State.unfixBlock s

/-! ### ASIDNEW, ASIDFREE (R263, R278) -/

/-- A page of the region status table. -/
def tablePage (c : Cmd) (i : Nat) : Page :=
  { asid := c.asid, va := c.va + i * 65536, sz := 0, tgt := tableTarget + BitVec.ofNat 64 (i * 65536), rd := true,
    wr := false, x := false, priv := false, coh := 2, st := .owned, reps := [] }

def State.newSpace (s : State) (c : Cmd) : State × Word × DWord :=
  ({ s with spaces := s.spaces ++ [{ asid := c.asid, mbx := if c.arg.testBit 12 then none else some c.arg,
                                     table := BitVec.ofNat 64 c.va }]
            pages := s.pages ++ (List.range 4).map (tablePage c) }, cmdOk, 0)

def execAsidnew (q : Nat) (s : State) : Out := onMapping q 7 (fun _ _ => true) State.newSpace s

/-- Whether a launch, a fault record or a region of a space exists. -/
def State.spaceBusy (s : State) (asid : Nat) : Bool :=
  s.grids.any (fun g => g.asid == asid && !g.final)
    || s.records.any (fun r => r.asid == asid) || s.regions.any fun r => r.asid == asid && r.st != 0#2

def State.freeSpace (s : State) (c : Cmd) : State × Word × DWord :=
  if s.spaceBusy c.asid then (s, cmdBusy, 0)
  else
    let bs := (s.pages.filter fun p => p.asid == c.asid).flatMap Page.blocks
    let gone := s.pages.filter fun p => p.asid == c.asid
    let s1 := gone.foldl (fun s p => s.pageOwned p.asid p.va) (s.dropBlocks bs)
    ({ s1 with pages := s1.pages.filter fun p => p.asid != c.asid
               spaces := s1.spaces.filter fun x => x.asid != c.asid }, cmdOk, 0)

def execAsidfree (q : Nat) (s : State) : Out := onMapping q 8 (fun _ _ => true) State.freeSpace s

/-! ### MAPPING_COMPLETION (R264, R265) -/

/-- The completion record of a command. -/
def completionBytes (tag : Nat) (st : Word) (detail : DWord) : List Byte :=
  leBytes 4 st.toNat ++ leBytes 4 tag ++ leBytes 8 detail.toNat

/-- Reads the ring's next entry, where it is enabled, has no error and no entry in execution (R340). -/
def State.fetchRing (s : State) : State :=
  let r := s.ring
  let lines := 2 ^ r.lsize.toNat
  let key := hostKey (r.base.toNat + 64 * (r.head.toNat % lines))
  if !r.en || r.err || r.head.toNat % lines == r.tail.toNat % lines || s.commands.any (fun c => c.queue == 0) then s
  else
    let s1 := s.settleLine (lineOf key)
    if s1.poisoned key then { s1 with ring := { r with err := true } }
    else { s1 with commands := s1.commands ++
      [{ queue := 0, words := bytesDwords (s1.homeRead key 64) 8, asid := 0, weight := none, scan := none, done := none }] }

/-- Removes the head command of a queue. -/
def dropHead (q : Nat) : List Command → List Command
  | [] => []
  | c :: cs => if c.queue = q then cs else c :: dropHead q cs

/-- The completion record of the head command of queue q is written, its weight goes home, and the next command of
the queue can begin. A host command's status address is a host physical address, a task's is virtual in its space. -/
def State.completeCommand (s : State) (q : Nat) : State :=
  match s.headCommand q with
  | none => s
  | some h =>
    let c := readCommand h.words
    let r := h.done.getD (cmdBad, 0)
    let bs := completionBytes c.tag r.1 r.2
    let s1 := if q = 0 then s.deviceWrites (hostKey c.status) bs else s.releaseHost.writeVa h.asid (BitVec.ofNat 64 c.status) bs
    let s2 := ({ s1 with commands := dropHead q s1.commands }).carriedHome h.weight
    if q = 0 then
      ({ s2 with ring := { s2.ring with head := BitVec.ofNat 16 ((s2.ring.head.toNat + 1) % 2 ^ s2.ring.lsize.toNat) } }).fetchRing
    else s2

/-- Whether the head command of queue q has been executed, or has a reserved op, which completes BADCMD. -/
def State.commandOver (s : State) (q : Nat) : Bool :=
  match s.headCommand q with
  | some h => h.done.isSome || !queueTakes q (readCommand h.words).op
  | none => false

def execMappingCompletion (q : Nat) (s : State) : Out := onRun (·.commandOver q) (·.completeCommand q) s

end Sys2Proof.Machine
end

