-- ==== Sys2Proof/Machine/Outside.lean ====
section
/-! DEFINITION. The host port: command ring, registers, host ops; host lines, reset and power gating, peers, attestation
(14_launch_and_outside R329, R331, R339 to R344; 09 R231, R233; 13 R321, R322; 10 R253, R254). -/

namespace Sys2Proof.Machine

/-! ### The command ring and the registers (R253, R339, R340) -/

/-- A write to EN: the next entry may begin. -/
def State.ringEnable (s : State) (en : Bool) : State := ({ s with ring := { s.ring with en := en } }).fetchRing
/-- A write to the tail index. -/
def State.ringTail (s : State) (v : BitVec 16) : State := ({ s with ring := { s.ring with tail := v } }).fetchRing

def execCommandRingEnable (en : Bool) (s : State) : Out := onRun (·.linkUp) (·.ringEnable en) s
def execCommandRingTail (v : BitVec 16) (s : State) : Out := onRun (·.linkUp) (·.ringTail v) s

/-- A write to the fields of WCTL; FIRED and ERR are cleared by ones. -/
def Watch.writeCtl (v : DWord) (x : Watch) : Watch :=
  { x with
    fired := x.fired && !v.getLsbD 30
    err := x.err && !v.getLsbD 29
    vec := v.extractLsb' 17 11
    msi := v.getLsbD 16
    cond := v.extractLsb' 2 3
    w := v.extractLsb' 0 2 }

/-- A write to WCTL of watch i: EN arms or disarms. -/
def State.writeCtl (s : State) (i : Nat) (v : DWord) : State :=
  let s1 := s.modWatch i (Watch.writeCtl v)
  if v.getLsbD 31 then s1.armWatch i else s1.modWatch i Watch.disarm

/-- A write to a register by its fields' access codes; identity and head are read-only. -/
def State.writeReg (s : State) (r : HostReg) (v : DWord) : State :=
  match r with
  | .waddr i => s.modWatch i fun x => { x with waddr := v &&& 0x01FFFFFFFFFFFFFF }
  | .wval i => s.modWatch i fun x => { x with wval := v }
  | .wdest i => s.modWatch i fun x => { x with wdest := v &&& 0xFFFFFFFFFFFFFFF0 }
  | .wctl i => s.writeCtl i v
  | .wasid i => s.modWatch i fun x => { x with wasid := v.extractLsb' 0 16 }
  | .ringBase => { s with ring := { s.ring with base := v &&& 0xFFFFFFFFFFFFF000 } }
  | .ringSize => { s with ring := { s.ring with lsize := v.extractLsb' 0 5 } }
  | .ringCtl => ({ s with ring := { s.ring with err := s.ring.err && !v.getLsbD 1 } }).ringEnable (v.getLsbD 0)
  | .identity _ | .ringHead => s

def execRegisterWrite (r : HostReg) (v : DWord) (s : State) : Out := onRun (·.linkUp) (·.writeReg r v) s

/-- The instruction-set level that the device reports (R48, R339). -/
def isaLevel : Word := 1

/-- What a read of a register returns; reserved bits read 0. -/
def State.readReg (s : State) (r : HostReg) : DWord :=
  let watch := fun (i : Nat) => s.watches.getD i Watch.clear
  match r with
  | .waddr i => (watch i).waddr
  | .wval i => (watch i).wval
  | .wdest i => (watch i).wdest
  | .wctl i =>
    let x := watch i
    ((bit1 x.en ++ bit1 x.fired ++ bit1 x.err ++ (0#1) ++ x.vec ++ bit1 x.msi ++ (0#11) ++ x.cond ++ x.w : Word)).setWidth 64
  | .wasid i => (watch i).wasid.setWidth 64
  | .ringBase => s.ring.base
  | .ringSize => s.ring.lsize.setWidth 64
  | .ringHead => s.ring.head.setWidth 64
  | .ringCtl => ((bit1 s.ring.err ++ bit1 s.ring.en : BitVec 2)).setWidth 64
  | .identity k => (if k = 0 then isaLevel else s.devNum).setWidth 64

/-- The register of BAR0 at an offset, and its bytes; the tail index and the mailbox windows have rows of their own
(R253, R339, R340). -/
def hostRegAt (off : Nat) : Option (HostReg × Nat) :=
  if off = 0 then some (.identity 0, 4)
  else if off = 4 then some (.identity 1, 4)
  else if off = 0x1000 then some (.ringBase, 8)
  else if off = 0x1008 then some (.ringSize, 4)
  else if off = 0x1018 then some (.ringHead, 4)
  else if off = 0x1020 then some (.ringCtl, 4)
  else if 0x10000 ≤ off ∧ off < 0x12000 then
    let i := (off - 0x10000) / 32
    match off % 32 with
    | 0x00 => some (.waddr i, 8)
    | 0x08 => some (.wval i, 8)
    | 0x10 => some (.wdest i, 8)
    | 0x18 => some (.wctl i, 4)
    | 0x1C => some (.wasid i, 4)
    | _ => none
  else none

/-- The ring's tail index. -/
def tailOffset : Nat := 0x1010
/-- The mailbox windows: mailbox m at 64 × m. -/
def mbxWindow : Nat := 0x100000

/-- The events that a host write of bytes to BAR0 is, in the order in which they take effect: the registers that it covers
whole, the last first, so that a watch that it arms has the space that it names (log 50). -/
def bar0Writes (off : Nat) (bs : List Byte) : Nat → List Instr
  | 0 => []
  | n + 1 =>
    if mbxWindow ≤ off ∧ off < mbxWindow + 64 * 4096 then
      [.mailboxMessage (.host ((off - mbxWindow) / 64) (off % 64) bs)]
    else
      let reg := if off = tailOffset then some ((fun v => Instr.commandRingTail (v.setWidth 16)), 4)
        else (hostRegAt off).map fun r => ((fun v => Instr.registerWrite r.1 v), r.2)
      match reg with
      | some (f, len) =>
        if len ≤ bs.length then
          bar0Writes (off + len) (bs.drop len) n ++ [f (BitVec.ofNat 64 (leNat (bs.take len)))]
        else []
      | none => if bs.isEmpty then [] else bar0Writes (off + 4) (bs.drop 4) n

/-- A host read of a register of BAR0; an offset without one reads 0. -/
def State.bar0Read (s : State) (off : Nat) : State :=
  let v := if off = tailOffset then s.ring.tail.setWidth 64
    else match hostRegAt off with | some r => s.readReg r.1 | none => 0
  if s.linkUp then s.emit (.register off v) else s

/-! ### Host ops (R340) -/

/-- Runs a host op at the head of the ring's queue, once it is `ready`. -/
def onHost (op : Nat) (f : State → Cmd → State × Word) (s : State) (ready : State → Cmd → Bool := fun _ _ => true) : Out :=
  onRun (fun s => (s.pendingCmd 0 op).any (ready s))
    (fun s => match s.pendingCmd 0 op with
      | some c =>
        let r := f s c
        r.1.finishCommand 0 r.2 0
      | none => s) s

/-- The fields of R262 that a host op does not name are zero. -/
def plainArg (c : Cmd) : Bool := c.zero == 0 && c.target == 0 && c.attr == 0

/-- MBBIND: a mailbox is bound, and its status word is written (R329, R331). -/
def State.bindMailbox (s : State) (c : Cmd) : State × Word :=
  let n := c.arg
  let slots := bits c.attr 4 5
  let grid := c.attr.testBit 3
  if c.zero ≠ 0 ∨ 4096 ≤ n ∨ 512 ≤ c.attr ∨ slots = 0 ∨ 16 < slots ∨ c.va % 64 ≠ 0 ∨ (grid ∧ c.target ≠ 0)
      ∨ !(s.spaces.any fun x => x.asid == c.asid) then (s, cmdBad)
  else if (s.mailboxOf n).isSome then (s, cmdBusy)
  else match s.findPage c.asid c.va with
    | none => (s, cmdNotMapped)
    | some _ =>
      let m : Mailbox :=
        { num := n, asid := c.asid, addr := BitVec.ofNat 64 c.va, slots := slots, gridMode := grid,
          record := BitVec.ofNat 64 c.target, prio := bits c.attr 0 2, priv := c.attr.testBit 2,
          status := BitVec.ofNat 64 c.size, pending := [], launched := [], drops := 0 }
      (({ s with mailboxes := s.mailboxes ++ [m] }).postStatus n false, cmdOk)

def execMbbind (s : State) : Out := onHost 0x100 State.bindMailbox s

/-- MBFREE. -/
def State.freeMailbox (s : State) (c : Cmd) : State × Word :=
  match s.mailboxOf c.arg with
  | none => (s, cmdBad)
  | some m =>
    if !plainArg c then (s, cmdBad)
    else if m.used ≠ 0 then (s, cmdBusy)
    else ({ s with mailboxes := s.mailboxes.filter fun x => x.num != c.arg }, cmdOk)

def execMbfree (s : State) : Out := onHost 0x101 State.freeMailbox s

/-- SWBIND. -/
def State.bindWindow (s : State) (c : Cmd) : State × Word :=
  let n := bits c.arg 0 12
  if c.zero ≠ 0 ∨ bits c.arg 12 4 ≠ 0 ∨ bits c.arg 28 36 ≠ 0 ∨ bits c.arg 16 12 = 0 ∨ 3 < bits c.attr 48 16 then (s, cmdBad)
  else if (s.windowOf n).isSome then (s, cmdBusy)
  else
    let w : StoreWin :=
      { num := n, depth := bits c.arg 16 12 + 1, va := BitVec.ofNat 64 c.va, doorbell := BitVec.ofNat 64 c.target,
        route := BitVec.ofNat 16 c.attr, nsid := BitVec.ofNat 32 (c.attr / 65536), code := bits c.attr 48 4, cap := c.size }
    ({ s with windows := s.windows ++ [w] }, cmdOk)

def execSwbind (s : State) : Out := onHost 0x102 State.bindWindow s

/-- A copy in flight from a window. -/
def usesWindow (n : Nat) (c : Copy) : Bool :=
  let m := readCmd c.cw
  c.done.isNone && c.stop.isNone && m.skind == 2 && m.window == n

/-- The copies in flight from a window of blocks of `size` bytes complete NOWIN; which of their blocks have been read and
written is open (R196, R200). -/
def State.failWindow (s : State) (n size : Nat) : Nat → State
  | 0 => s
  | k + 1 => match s.engine.findIdx? (usesWindow n) with
    | none => s
    | some i => match s.engine[i]? with
      | none => s
      | some c =>
        let tid := s.teamId c.issuer
        let r := (s.leadPieces c.asid (s.copyRanges tid c)).copySource tid c
        (r.1.stopCopy i { status := stNowin, sct := 0, sc := 0, bytes := r.2.1, unit := size }).failWindow n size k

/-- SWFREE. -/
def State.freeWindow (s : State) (c : Cmd) : State × Word :=
  match s.windowOf c.arg with
  | none => (s, cmdBad)
  | some w =>
    if !plainArg c then (s, cmdBad)
    else (({ s with windows := s.windows.filter fun w => w.num != c.arg }).failWindow c.arg w.blockSize s.engine.length,
      cmdOk)

def execSwfree (s : State) : Out := onHost 0x103 State.freeWindow s

/-- A line of zeros, without poison. -/
def State.scrubLine (s : State) (key : Nat) : State :=
  let s1 := s.engineWrite key (List.replicate 128 0)
  { s1 with poison := s1.poison.filter (· != lineOf key)
            l1 := s1.l1.filter fun x => x.line != lineOf key }

/-- Whether a SCRUB's fields are refused. -/
def State.scrubBad (s : State) (c : Cmd) : Bool :=
  !plainArg c || !(s.spaces.any fun x => x.asid == c.asid) || c.va % 128 != 0 || c.size % 128 != 0

/-- The lines of a SCRUB: page, address and physical key. -/
def State.scrubLines (s : State) (c : Cmd) : Option (List (Page × Nat × Nat)) :=
  (List.range (c.size / 128)).mapM fun i =>
    (s.findPage c.asid (c.va + 128 * i)).map fun p => (p, c.va + 128 * i, p.key (c.va + 128 * i))

/-- SCRUB (R233). One of a range with a fixed block completes FIXED and scrubs nothing (R340), though R284 lets a scrub clear a
fixed line's poison: DESIGN CHOICE, log 54. -/
def State.scrub (s : State) (c : Cmd) : State × Word :=
  if s.scrubBad c then (s, cmdBad)
  else match s.scrubLines c with
    | none => (s, cmdNotMapped)
    | some xs =>
      if xs.any fun x => decide (0 < s.frozenAt x.2.2) then (s, cmdFixed)
      else (xs.foldl (fun s x => (s.leadVia x.1 x.2.1 x.2.2).scrubLine x.2.2) s, cmdOk)

/-- A SCRUB of a block without freezes waits while its page is Thawing (R276). -/
def State.scrubReady (s : State) (c : Cmd) : Bool :=
  s.scrubBad c || (match s.scrubLines c with
    | none => true
    | some xs => xs.any (fun x => decide (0 < s.frozenAt x.2.2)) || !xs.any fun x => s.thawingAt x.2.2)

def execScrub (s : State) : Out := onHost 0x104 State.scrub s State.scrubReady

/-- A KILL of a placed team: its live waves end as terminated waves do, with cause 0 (R320, R341). -/
def State.killPlaced (s : State) (tid : Nat) : State :=
  match s.teams[tid]? with
  | none => s
  | some t =>
    if t.ended then s
    else
      let note := fun (s : State) (w : Nat) => match s.waves[w]? with
        | some x => match x.fibres.find? (·.live) with
          | some f => s.modGrid t.grid fun g =>
            { g with terms := g.terms + 1,
                     term := g.term <|> some { team := t.idx, wave := if x.zen then 0xFFFF else x.idx, cause := 0,
                                               nested := false, epc := f.epc } }
          | none => s
        | none => s
      ((t.waves ++ t.zen.toList).foldl note s).killTeam tid

/-- A KILL of team i of grid k: a team that is not placed yet is marked killed. -/
def State.killOne (s : State) (k i : Nat) : State :=
  match s.teamAt k i with
  | some tid => s.killPlaced tid
  | none => s.modGrid k fun g => if g.killed.contains i then g else { g with killed := g.killed ++ [i] }

/-- KILL (R341). -/
def State.killCmd (s : State) (c : Cmd) : State × Word :=
  let team := c.arg / 2 ^ 32
  match s.grids.findIdx? fun g => g.handle == c.arg % 2 ^ 32 with
  | none => (s, cmdBad)
  | some k => match s.grids[k]? with
    | none => (s, cmdBad)
    | some g =>
      if !plainArg c then (s, cmdBad)
      else if team ≠ 0xFFFFFFFF ∧ g.total ≤ team then (s, cmdBad)
      else if g.stat ≠ .running then (s, cmdOk)
      else if team = 0xFFFFFFFF then ((List.range g.total).foldl (fun s i => s.killOne k i) s, cmdOk)
      else (s.killOne k team, cmdOk)

def execKill (s : State) : Out := onHost 0x105 State.killCmd s

/-- INJECT (R321). -/
def State.injectCmd (s : State) (c : Cmd) : State × Word :=
  let w := BitVec.ofNat 32 c.arg
  if plainArg c && decide (c.arg < 2 ^ 32) && injValid w then (s.armInject w, cmdOk) else (s, cmdBad)

def execInject (s : State) : Out := onHost 0x106 State.injectCmd s

/-- PREEMPT (R322). -/
def State.preemptCmd (s : State) (c : Cmd) : State × Word :=
  if plainArg c && decide (c.arg < 256) then (s.requestHalt c.arg true, cmdOk) else (s, cmdBad)

def execPreempt (s : State) : Out := onHost 0x107 State.preemptCmd s

/-! ### Host lines and the device's states (R342) -/

/-- The answer to a host snoop: the line's state and data while the device runs, its shadow flushed first (R245); invalid
otherwise. Stores that have retired and not reached the line come after the snoop. The host then holds the data. -/
def State.snoop (s : State) (line : Nat) : State :=
  if s.dev == .running then
    let key := hostKey (line * 128)
    let held := s.hostMod.contains (lineOf key)
    let s1 := s.settleLine (lineOf key)
    { s1 with hostMod := s1.hostMod.filter (· != lineOf key)
              outputs := s1.outputs ++ [.snoop line held (if held then s1.homeRead key 128 else [])] }
  else s.emit (.snoop line false [])

def execHostSnoop (line : Nat) (s : State) : Out := .next (if s.linkUp then s.snoop line else s)

/-- Surprise loss of the host link: what the device holds of host lines is discarded, dirty bytes and stores on their way
included. -/
def State.linkLoss (s : State) : State :=
  let host := fun (line : Nat) => keyLoc (line * 128) == 3
  ({ s with
    linkUp := false, hostMod := []
    l1 := s.l1.filter fun x => !host x.line
    shadows := s.shadows.filter fun x => !host x.line
    modified := s.modified.filter fun m => !host m.line
    pend := s.pend.map fun p => { p with bytes := p.bytes.filter fun c => keyLoc c.1 != 3 } } : State).agentDeath .hostCache

def execHostLinkLoss (s : State) : Out := .next (if s.linkUp then s.linkLoss else s)

/-- Entering reset: modified host lines are written back, and the device is as after reset but for what lies outside it:
the contents of memory, chip time, the link, the peers, the firmware and the part's own numbers (log 4). -/
def State.enterReset (s : State) : State :=
  let s1 := s.returnHost
  { State.reset with
    mem := s1.mem, poison := s1.poison, time := s.time, linkUp := s.linkUp, devNum := s.devNum, peers := s.peers,
    isModule := s.isModule, limit := s.limit, watts := s.watts
    clusters := State.reset.clusters.map fun c => { c with nextSample := (s.now / 10000 + 1) * 10000 }
    nextCheck := (s.now / 1000000 + 1) * 1000000, outputs := s1.outputs, agenda := s.agenda, freeCtr := s.freeCtr, defer := s.defer,
    firmware := s.firmware, image := s.image, dev := .inReset }

/-- The security processor boots only firmware whose signature over its hash verifies (R344). -/
def State.bootable (s : State) : Bool := s.firmware.all fun x => Config.verifies x.hash x.sig
/-- A device in reset starts to run. -/
def State.boot (s : State) : State := if s.dev == .inReset && s.bootable then { s with dev := .running } else s

def execReset (s : State) : Out := .next s.enterReset

/-- Entering power gating: modified host lines are written back first. -/
def State.gate (s : State) : State := { s.returnHost with dev := .gated, bundle := [] }

def execPowerGating (s : State) : Out := onRun (fun _ => true) State.gate s

/-! ### Peers, identity (R231, R277, R343, R344) -/

/-- System software forms the domain: this device is number n, of 0 to 63, among the peers of a mask (R343). -/
def State.formDomain (s : State) (n : Nat) (peers : BitVec 64) : State :=
  if n < 64 then { s with devNum := BitVec.ofNat 32 n, peers := peers &&& ~~~(1#64 <<< n) } else s

/-- A peer leaves the domain: messages to it are dropped and their weight goes home, its replicas count as collected, and
it is a dead agent. -/
def State.peerGone (s : State) (p : Nat) : State :=
  let toPeer := fun (f : Flight) => match f.target with | .peer q _ => q == p | _ => false
  let s1 := (s.flights.filter toPeer).foldl (fun s f => s.carriedHome f.weight) s
  let bit : BitVec 64 := 1#64 <<< p
  let s2 : State := { s1 with
    flights := s1.flights.filter fun f => !toPeer f
    peers := s1.peers &&& ~~~bit
    pages := s1.pages.map fun q => ({ q with reps := q.reps.filter (· != p) } : Page).afterDrop }
  s2.agentDeath (.peer p)

def execPeerLeave (p : Nat) (s : State) : Out :=
  onRun (fun s => decide (p < 64) && s.peers.getLsbD p) (·.peerGone p) s

/-- The measurements that the security processor signs: each firmware image's, and that of the security configuration. -/
def State.measurements (s : State) : List (BitVec 384) := s.firmware.map (·.hash) ++ [Config.securityHash]

/-- SPDM_REQUEST: the security processor answers with its certificate chain and its measurements, signed with the identity
key. -/
def execSpdmRequest (nonce : Nat) (s : State) : Out :=
  .next ({ s with freeCtr := s.freeCtr + 1 }.emit
    (.attest nonce Config.certificates s.measurements (Config.freeSignature s.freeCtr)))

end Sys2Proof.Machine
end

