-- ==== Sys2Proof/Machine/Orrery.lean ====
section
/-! DEFINITION. The Orrery cluster: episodes and their control port, step pairs seen from an episode, the watchdog, and
requests of the host, of peers and of episodes (15_orrery_cluster R345 to R365; 11 R268, R271; 13 R316). -/

namespace Sys2Proof.Machine

/-! ### The end of an episode (R349, R360) -/

/-- A transition to ENDED: the hart is discarded, and every unanswered action of its pairs is answered. -/
def State.endEpisode (s : State) (n cause : Nat) (code : DWord) : State :=
  match s.episodeOf n with
  | none => s
  | some e =>
    if e.st == .ended then s
    else
      let dead := fun (x : Episode) => { x with
        st := .ended, cause := cause, code := code, waiting := none, record := none, hart := Hart.clear }
      let s1 := (s.modEpisode n dead).leaveCore n
      let s2 : State := { s1 with parkedReqs := s1.parkedReqs.filter fun r => r.req.episode != some n }
      (s2.pairs.filter fun p => p.ep == n).foldl (fun s p =>
        (s.modPair p.num fun p => p.answerAll n (endStatus cause) s.now p.unanswered).wakeSteps p.num) s2

def causeExit : Nat := 0
def causeKilled : Nat := 1
def causeTimeout : Nat := 2

/-! ### The control port (R348) -/

/-- Runs a command of the control port at the head of its queue. -/
def onOrrery (op : Nat) (f : State → Cmd → State × Word × DWord) (s : State) : Out :=
  onRun (fun s => (s.pendingCmd 1 op).isSome)
    (fun s => match s.pendingCmd 1 op with
      | some c =>
        let r := f s c
        r.1.finishCommand 1 r.2.1 r.2.2
      | none => s) s

/-- The fields that only EPNEW names are zero. -/
def noWindow (c : Cmd) : Bool := c.zero == 0 && c.va == 0 && c.target == 0 && c.size == 0
/-- A command that names an episode in arg[11:0], and no other field. -/
def onlyEpisode (c : Cmd) : Bool := noWindow c && c.asid == 0 && c.attr == 0 && decide (c.arg < 4096)

/-- Where an episode's window lies in its own address space (R347). -/
def epWindow : Nat := 0x0000400000000000
/-- Where the pair pages of an episode lie. -/
def pairBase : Nat := 0x00007FFF00000000

/-- Whether EPNEW's fields are well formed. -/
def epnewOk (c : Cmd) : Bool :=
  c.zero == 0 && c.arg == 0 && decide (c.attr < 2 ^ 48) && rangeOk c.va c.size (2 ^ 21) && decide (c.size ≤ 2 ^ 36)
    && c.target % 2 == 0 && decide (c.target < c.size)

/-- An episode as EPNEW makes it. -/
def newEpisode (n : Nat) (c : Cmd) : Episode :=
  { num := n, st := .stopped, asid := c.asid, va := BitVec.ofNat 64 c.va, size := BitVec.ofNat 64 c.size,
    entry := BitVec.ofNat 64 c.target, budget := c.attr, active := c.attr, cause := 0, code := 0, hart := Hart.clear, onCore := false, waiting := none, record := none, clock := 0, ran := 0 }

def State.epNew (s : State) (c : Cmd) : State × Word × DWord :=
  if !epnewOk c || !(s.spaces.any fun x => x.asid == c.asid) then (s, cmdBad, 0)
  else match firstFrom (fun n => (s.episodeOf n).isNone) 4096 0 with
    | none => (s, cmdFull, 0)
    | some n =>
      if s.allMapped c.asid c.va c.size then
        ({ s with episodes := s.episodes ++ [newEpisode n c] }, cmdOk, BitVec.ofNat 64 n)
      else (s, cmdNotMapped, 0)

def execEpnew (s : State) : Out := onOrrery 1 State.epNew s

/-- The hart as EPGO starts it (R349). -/
def Episode.start (e : Episode) : Episode :=
  { e with
    st := .running
    hart := (({ Hart.clear with pc := BitVec.ofNat 64 epWindow + e.entry }.set xA0 (BitVec.ofNat 64 e.num)).set xA1
      (BitVec.ofNat 64 pairBase)).set xSp (BitVec.ofNat 64 epWindow + e.size)
    clock := 0
    active := e.budget }

def State.epGo (s : State) (c : Cmd) : State × Word × DWord :=
  if !onlyEpisode c then (s, cmdBad, 0)
  else match s.episodeOf c.arg with
    | some e => if e.st == .stopped then ((s.modEpisode c.arg Episode.start).makeReady c.arg, cmdOk, 0) else (s, cmdBusy, 0)
    | none => (s, cmdBusy, 0)

def execEpgo (s : State) : Out := onOrrery 2 State.epGo s

def State.epKill (s : State) (c : Cmd) : State × Word × DWord :=
  if !onlyEpisode c || (s.episodeOf c.arg).isNone then (s, cmdBad, 0)
  else (s.endEpisode c.arg causeKilled 0, cmdOk, 0)

def execEpkill (s : State) : Out := onOrrery 3 State.epKill s

def State.epFree (s : State) (c : Cmd) : State × Word × DWord :=
  if !onlyEpisode c then (s, cmdBad, 0)
  else match s.episodeOf c.arg with
    | none => (s, cmdBusy, 0)
    | some e =>
      if e.st != .ended || s.pairs.any (fun p => p.ep == e.num) then (s, cmdBusy, 0)
      else ({ s with episodes := s.episodes.filter fun x => x.num != e.num }, cmdOk,
        pair64 (BitVec.ofNat 32 e.cause) (lo32 e.code))

def execEpfree (s : State) : Out := onOrrery 4 State.epFree s

/-- A pair as PAIRBIND binds it (R352, R354). -/
def newPair (n ep slot asid : Nat) : StepPair :=
  { num := n, ep := ep, slot := slot, asid := asid, ring := List.replicate 16 (List.replicate 64 0), atail := 0, ahead := 0,
    weights := [], obs := [], sdrop := 0, last := 0, staging := List.replicate 64 0 }

def State.pairBind (s : State) (c : Cmd) : State × Word × DWord :=
  let n := bits c.arg 0 13
  let ep := bits c.arg 16 12
  let slot := bits c.arg 32 6
  if !noWindow c || c.attr != 0 || bits c.arg 13 3 != 0 || bits c.arg 28 4 != 0 || bits c.arg 38 26 != 0
      || !(s.spaces.any fun x => x.asid == c.asid) then (s, cmdBad, 0)
  else if (s.pairOf n).isSome then (s, cmdBusy, 0)
  else if s.pairs.any fun p => p.ep == ep && p.slot == slot then (s, cmdOverlap, 0)
  else match s.episodeOf ep with
    | some e =>
      if e.st == .ended then (s, cmdBusy, 0)
      else ({ s with pairs := s.pairs ++ [newPair n ep slot c.asid] }, cmdOk, 0)
    | none => (s, cmdBusy, 0)

def execPairbind (s : State) : Out := onOrrery 5 State.pairBind s

/-- Whether the episode of a pair is STOPPED or RUNNING. -/
def State.pairLive (s : State) (p : StepPair) : Bool :=
  match s.episodeOf p.ep with | some e => e.st != EpSt.ended | none => false

/-- The STEPR at which a fibre is parked on pair n. -/
def Fibre.onPair (n : Nat) (f : Fibre) : Option StepWait :=
  match f.park with
  | some { why := .steps x, .. } => if x.pair = n then some x else none
  | _ => none

/-- A fibre parked in STEPR on pair n goes on with code NOPAIR. -/
def Fibre.noPair (z : Bool) (n : Nat) (f : Fibre) : Fibre :=
  match f.onPair n with
  | some x => (f.set z x.d.toNat stNopair).resume
  | none => f

/-- The fibres of a wave that are parked in STEPR on pair n end it with code NOPAIR (R361). -/
def Wave.noPair (n : Nat) (w : Wave) : Wave :=
  { w.retireLate (fun f => (f.onPair n).isSome) with fibres := w.fibres.map (Fibre.noPair w.zen n) }

/-- A pair is unbound: the weight of its records goes home, and the fibres that wait there are released at once (R361). -/
def State.unbind (s : State) (p : StepPair) : State :=
  let s1 := (p.obs.filterMap Obs.weight).foldl (fun (s : State) c => s.weightHome c.phase c.amount) s
  { s1 with pairs := s1.pairs.filter (fun x => x.num != p.num), waves := s1.waves.map (Wave.noPair p.num) }

def State.pairFree (s : State) (c : Cmd) : State × Word × DWord :=
  if !noWindow c || c.asid != 0 || c.attr != 0 || decide (8192 ≤ c.arg) then (s, cmdBad, 0)
  else match s.pairOf c.arg with
    | none => (s, cmdBad, 0)
    | some p => if s.pairLive p then (s, cmdBusy, 0) else (s.unbind p, cmdOk, 0)

def execPairfree (s : State) : Out := onOrrery 6 State.pairFree s

def State.epBudget (s : State) (c : Cmd) : State × Word × DWord :=
  if !noWindow c || c.asid != 0 || decide (2 ^ 48 ≤ c.attr) || decide (4096 ≤ c.arg) || (s.episodeOf c.arg).isNone then
    (s, cmdBad, 0)
  else (s.modEpisode c.arg fun e => { e with budget := c.attr }, cmdOk, 0)

def execEpbudget (s : State) : Out := onOrrery 7 State.epBudget s

/-! ### Calls of the monitor (R350, R351) -/

/-- Whether an episode runs on a core. -/
def Episode.runs (e : Episode) : Bool := e.st == .running && e.onCore && e.waiting.isNone && e.record.isNone

/-- Acts on an episode that satisfies a condition. -/
def onEpisode (n : Nat) (p : State → Episode → Bool) (f : State → Episode → State) (s : State) : Out :=
  onRun (fun s => match s.episodeOf n with | some e => p s e | none => false)
    (fun s => match s.episodeOf n with | some e => f s e | none => s) s

/-- The instructions that an episode on a core has run leave its hart so (R345; log 34). -/
def State.moveHart (s : State) (n : Nat) (h : Hart) : State :=
  match s.episodeOf n with
  | some e => if e.runs && h.ok then s.modEpisode n fun e => { e with hart := h } else s
  | none => s

/-- FENCE: an acquire and a release of the episode at system scope (R346). -/
def State.fenceHart (s : State) (n : Nat) : State :=
  match s.episodeOf n with
  | some e => if e.runs then s.releaseHost.modEpisode n Episode.skip else s
  | none => s

/-- A read of a CSR into x register rd; an illegal one is an exception, which kills the episode (R345, R347). -/
def State.csrHart (s : State) (n csr rd : Nat) : State :=
  match s.episodeOf n with
  | some e =>
    if e.runs && decide (rd < 32) then match s.csrValue e.hart csr with
      | some v => s.modEpisode n fun e => ({ e with hart := e.hart.set rd v } : Episode).skip
      | none => s.endEpisode n causeKilled 0
    else s
  | none => s

/-- A write of a CSR; an illegal one is an exception, which kills the episode (R345, R347). -/
def State.csrSet (s : State) (n csr : Nat) (v : DWord) : State :=
  match s.episodeOf n with
  | some e =>
    if e.runs then match e.hart.csrSet csr v with
      | some h => s.modEpisode n fun e => ({ e with hart := h } : Episode).skip
      | none => s.endEpisode n causeKilled 0
    else s
  | none => s

/-- An ECALL with function k in a7 (R350). -/
def Episode.calls (e : Episode) (k : Nat) : Bool := e.runs && (e.hart.get xA7).toNat == k
/-- The argument of an ECALL, in a0. -/
def Episode.arg (e : Episode) : DWord := e.hart.get xA0

/-- WAIT. -/
def State.ecallWait (s : State) (limit : Nat) (e : Episode) : State :=
  match s.pendingSlot e.num with
  | some slot => s.modEpisode e.num (Episode.setA0 (BitVec.ofNat 64 slot))
  | none =>
    (s.modEpisode e.num fun x => { x with waiting := some (if limit = 0 then none else some (s.now + limit)) }).leaveCore
      e.num

def execEcallWait (e limit : Nat) (s : State) : Out :=
  onEpisode e (fun _ x => x.calls 0 && x.arg.toNat == limit)
    (fun s x => (s.modEpisode e Episode.skip).ecallWait limit x) s

/-- EXIT. -/
def execEcallExit (e : Nat) (code : DWord) (s : State) : Out :=
  onEpisode e (fun _ x => x.calls 1 && x.arg == code) (fun s x => s.endEpisode x.num causeExit code) s

/-- The back of the ready order. -/
def State.toBack (s : State) (e : Nat) : State := (s.modEpisode e fun x => { x with onCore := false }).makeReady e

/-- YIELD. -/
def execEcallYield (e : Nat) (s : State) : Out :=
  onEpisode e (fun _ x => x.calls 2) (fun s x => (s.modEpisode e Episode.skip).toBack x.num) s

/-- Any other function. -/
def execEcallOther (e : Nat) (s : State) : Out :=
  onEpisode e (fun _ x => x.runs && decide (2 < (x.hart.get xA7).toNat))
    (fun s x => s.modEpisode x.num fun e => (Episode.setA0 (-1) e).skip) s

/-- Whether the limit of a WAIT has come. -/
def Episode.limitOver (now : Nat) (e : Episode) : Bool :=
  match e.waiting with | some (some t) => decide (t ≤ now) | _ => false

def State.waitLimit (s : State) (e : Episode) : State :=
  (s.modEpisode e.num fun x => ({ x with waiting := none } : Episode).setA0 (-1)).makeReady e.num

def execEpisodeWaitLimit (e : Nat) (s : State) : Out :=
  onEpisode e (fun s x => x.limitOver s.now) State.waitLimit s

/-- An episode has held its core for 1 ms while others are ready. -/
def State.quantumOver (s : State) (e : Episode) : Bool := e.runs && decide (1000000 ≤ e.ran) && !s.ready.isEmpty

def execEpisodeQuantum (e : Nat) (s : State) : Out := onEpisode e State.quantumOver (fun s x => s.toBack x.num) s

/-! ### What kills an episode (R347, R362) -/

def execEpisodeAccessDenied (e : Nat) (s : State) : Out :=
  onEpisode e (fun _ x => x.runs) (fun s x => s.endEpisode x.num causeKilled 0) s

def execEpisodeException (e : Nat) (s : State) : Out :=
  onEpisode e (fun _ x => x.runs) (fun s x => s.endEpisode x.num causeKilled 0) s

/-- Whether the step clock has reached a budget above 0. -/
def Episode.overBudget (e : Episode) : Bool :=
  e.st == .running && decide (0 < e.active) && decide (e.active ≤ e.clock)

def execStepWatchdog (e : Nat) (s : State) : Out :=
  onEpisode e (fun _ x => x.overBudget) (fun s x => s.endEpisode x.num causeTimeout 0) s

/-! ### Observations (R353, R356) -/

/-- The staging record as a post of a status makes it. -/
def StepPair.observation (p : StepPair) (status now : Nat) : List Byte :=
  p.staging.take 10 ++ leBytes 2 p.num ++ leBytes 1 status ++ leBytes 1 0 ++ leBytes 2 p.ep ++ leBytes 8 now
    ++ (p.staging.drop 24).take 40

/-- Whether the staging record answers the oldest unanswered action. -/
def StepPair.matches_ (p : StepPair) : Bool :=
  p.unanswered != 0 && stepVersion p.staging == stepVersion (p.action p.ahead.toNat)

/-- A pair after a write to POST. -/
def StepPair.postObs (p : StepPair) (now : Nat) : StepPair :=
  if p.matches_ then { p.answer (p.observation 0 now) with last := 1 }
  else if p.sd < 16 then { p with obs := p.obs ++ [{ bytes := p.observation 1 now, weight := none }], last := 2 }
  else { p with sdrop := p.sdrop + 1, last := 3 }

/-- A write to POST of pair n, a release of its episode at system scope (R355); a match restarts the episode's step clock with
its current budget (R362). -/
def State.postObs (s : State) (n : Nat) : State :=
  match s.pairOf n with
  | none => s
  | some p =>
    let s1 := s.releaseHost.modPair n fun p => p.postObs s.now
    let s2 := if p.matches_ then s1.modEpisode p.ep fun e => { e with clock := 0, active := e.budget } else s1
    s2.wakeSteps n

/-- Whether the episode of pair n runs on a core. -/
def State.pairRuns (s : State) (n : Nat) : Bool :=
  match (s.pairOf n).bind fun p => s.episodeOf p.ep with | some e => e.runs | none => false

def execObservationPost (p : Nat) (s : State) : Out := onRun (·.pairRuns p) (·.postObs p) s

/-! ### Requests from outside (R268, R271, R346, R347, R354) -/

/-- What an episode's address names. -/
inductive EpAccess where
  | memory (va : DWord)
  | page (pair : StepPair) (off : Nat)
  | denied

/-- The isolation filter. -/
def State.epAccess (s : State) (e : Episode) (va n : Nat) : EpAccess :=
  if epWindow ≤ va ∧ va + n ≤ epWindow + e.size.toNat then .memory (e.va + BitVec.ofNat 64 (va - epWindow))
  else if pairBase ≤ va ∧ va < pairBase + 64 * 4096 then
    match s.pairs.find? fun p => p.ep == e.num && p.slot == (va - pairBase) / 4096 with
    | some p => .page p ((va - pairBase) % 4096)
    | none => .denied
  else .denied

/-- OSTAT. -/
def StepPair.ostat (p : StepPair) : Word := p.last ++ (0#8) ++ BitVec.ofNat 6 p.obs.length ++ p.sdrop

/-- Whether an access is naturally aligned. -/
def natural (off n : Nat) : Bool := [1, 2, 4, 8].contains n && off % n == 0

/-- A read of a pair page; none where it is denied. POST is write only: it reads 0 (R11). -/
def StepPair.pageRead (p : StepPair) (off n : Nat) : Option (List Byte) :=
  if !natural off n then none
  else if off < 0x400 then some (((p.ring.getD (off / 64) []).drop (off % 64)).take n)
  else if off < 0x440 then some ((p.staging.drop (off - 0x400)).take n)
  else if n = 4 then
    if off = 0x800 then some (leBytes 4 p.ahead.toNat)
    else if off = 0x804 then some (leBytes 4 p.atail.toNat)
    else if off = 0x808 then some (leBytes 4 0)
    else if off = 0x80C then some (leBytes 4 p.ostat.toNat)
    else none
  else none

/-- A write of a pair page; none where it is denied. The action slots, AHEAD, ATAIL and OSTAT are read only: a write there
is ignored (R11). -/
def State.pageWrite (s : State) (p : StepPair) (off : Nat) (bs : List Byte) : Option State :=
  if !natural off bs.length then none
  else if off < 0x400 ∨ ((off = 0x800 ∨ off = 0x804 ∨ off = 0x80C) ∧ bs.length = 4) then some s
  else if 0x400 ≤ off ∧ off < 0x440 then
    some (s.modPair p.num fun p => { p with staging := patch p.staging (off - 0x400) bs })
  else if off = 0x808 ∧ bs.length = 4 then some (s.postObs p.num)
  else none

/-- Bytes that a request covers. -/
def reqSize (r : OutsideReq) : Nat := match r.wr with | some bs => bs.length | none => r.n

/-- The delivered outcome of a request: unsuccessful to its requester, and reported; an episode is killed. -/
def State.requestFails (s : State) (r : OutsideReq) : State :=
  let s1 := (s.emit (.requestDone false [])).emit (.report "request not completed" r.asid r.va.toNat)
  match r.episode with | some n => s1.endEpisode n causeKilled 0 | none => s1

/-- A request waits: on a record, or for a page to thaw or a record to be free. An episode that waits on a record gives
up its core (R351). -/
def State.parkRequest (s : State) (r : OutsideReq) (h : Option Word) : State :=
  let s1 : State := { s with parkedReqs := s.parkedReqs ++ [{ req := r, record := h }] }
  match r.episode, h with
  | some n, some h => (s1.modEpisode n fun e => { e with record := some h }).leaveCore n
  | _, _ => s1

/-- Reads pieces (virtual address, size) of a space at their homes; a read that fetches a line first elects its leader
(R267). -/
def State.serveRead (s : State) (asid : Nat) : List (Nat × Nat) → State × List Byte
  | [] => (s, [])
  | (va, n) :: rest =>
    match s.findPage asid va with
    | some p =>
      let r := (s.leadVia p va (p.key va)).engineRead (p.key va) n
      let q := r.1.serveRead asid rest
      (q.1, r.2.1 ++ q.2)
    | none => s.serveRead asid rest

/-- A write within one line by an agent outside the cores (none: the cluster cache). -/
def State.outsideWrite (s : State) (a : Option Agent) (coh : BitVec 2) (asid va key : Nat) (bs : List Byte) : State :=
  let line := lineOf key
  let r := (s.flushLine line).lead line asid (va / 128 * 128) coh
  if r.2.coh = 0 then
    let s1 := match a with
      | some a => if r.1.watched line then r.1.share none line else r.1.claim a key bs.length
      | none => (r.1.share none line).noteHost key
    let s2 := s1.homeWrite key bs
    { s2 with l1 := s2.l1.filter fun x => x.line != line }
  else ((r.1.share none line).noteHost key).homeWrite key bs

/-- Writes bytes over pieces (virtual address, size), by virtual address of a space. -/
def State.serveWrite (s : State) (a : Option Agent) (asid : Nat) : List (Nat × Nat) → List Byte → State
  | [], _ => s
  | (va, n) :: rest, bs =>
    let s1 := match s.findPage asid va with
      | some p => s.outsideWrite a p.coh asid va (p.key va) (bs.take n)
      | none => s
    s1.serveWrite a asid rest (bs.drop n)

/-- A request to device memory at an address of a space. -/
def State.memRequest (s : State) (r : OutsideReq) (asid : Nat) (priv : Bool) (va : DWord) : Out :=
  let pieces := cutLines va.toNat (reqSize r)
  let p := s.reach asid priv (if r.wr.isSome then needStore else needLoad) pieces
  match p.2 with
  | none => match r.wr with
    | some bs =>
      .next ((s.serveWrite (if r.episode.isSome then none else some r.from_) asid pieces bs).emit (.requestDone true []))
    | none => let q := s.serveRead asid pieces; .next (q.1.emit (.requestDone true q.2))
  | some (.fault a k page sz key) => match s.raiseFault 0 .outside asid a k page sz key with
    | (s1, .parked h) => .next (s1.parkRequest r (some h))
    | (s1, .deliver _) => .next (s1.requestFails r)
    | (_, .full) => .next (s.parkRequest r none)
  | some (.far _) => .next (s.requestFails r)
  | some .wait => .next (s.parkRequest r none)
  | some (.hole key) => .fault (.memoryHole key)

/-- A request of an episode, through the isolation filter. -/
def State.epRequest (s : State) (r : OutsideReq) (e : Episode) : Out :=
  match s.epAccess e r.va.toNat (reqSize r) with
  | .memory va => s.memRequest r e.asid false va
  | .page p off => match r.wr with
    | none => match p.pageRead off r.n with
      | some bs => .next (s.emit (.requestDone true bs))
      | none => .next (s.endEpisode e.num causeKilled 0)
    | some bs => match s.pageWrite p off bs with
      | some s1 => .next (s1.emit (.requestDone true []))
      | none => .next (s.endEpisode e.num causeKilled 0)
  | .denied => .next (s.endEpisode e.num causeKilled 0)

/-- A request; one that waited is no longer waiting. A new one of an episode needs it on a core (R347, R351). -/
def State.request (s : State) (r : OutsideReq) : Out :=
  let waited := s.parkedReqs.contains { req := r, record := none }
  let s1 : State := { s with parkedReqs := s.parkedReqs.erase { req := r, record := none } }
  match r.episode with
  | none => s1.memRequest r r.asid true r.va
  | some n => match s1.episodeOf n with
    | some e => if e.st == .running && e.record.isNone && (waited || e.runs) then s1.epRequest r e else .next s1
    | none => .next s1

def execHostOrPeerRequest (r : OutsideReq) (s : State) : Out :=
  if s.dev == .running then s.request r else .next s

/-- Whether a waiting request can go on now. -/
def State.canServe (s : State) (x : ParkedReq) : Bool :=
  x.record.isNone &&
    (match s.request x.req with
      | .next t => !(t.parkedReqs.any fun y => y.record.isNone && y.req == x.req)
      | _ => true)

end Sys2Proof.Machine
end

