-- ==== Sys2Proof/Machine/Resolve.lean ====
section
/-! DEFINITION. RESOLVE of a fault record: replay and deliver (11_address_space_and_fixed_stars R271; 10 R256). -/

namespace Sys2Proof.Machine

/-! ### The accesses parked on a record -/

/-- The address at which a fibre is parked on record h. -/
def Fibre.onRecord (h : Word) (f : Fibre) : Option DWord :=
  match f.park with
  | some { why := .record h' va, .. } => if h' = h then some va else none
  | _ => none

/-- Every fibre parked on record h runs its bundle again. -/
def State.replayFibres (s : State) (h : Word) : State :=
  { s with waves := s.waves.map fun w => { w with fibres := w.fibres.map fun f =>
      if (f.onRecord h).isSome then { f with park := none } else f } }

/-- Replay: parked fibres, engines, watches, requests, and releases and phase ends that wait continue, as fresh accesses. -/
def State.replay (s : State) (h : Word) : State :=
  let s1 := s.replayFibres h
  let mine := fun (r : Option Word) => r == some h
  let eps := (s1.episodes.filter fun e => mine e.record).map (·.num)
  let s2 : State := { s1 with
    engine := s1.engine.map fun c => if mine c.record then { c with record := none } else c
    tileOps := s1.tileOps.map fun o => if mine o.record then { o with record := none } else o
    freezes := s1.freezes.map fun r => if mine r.record then { r with record := none } else r
    watches := s1.watches.map fun x => if mine x.record then { x with record := none } else x
    parkedReqs := s1.parkedReqs.map fun r => if mine r.record then { r with record := none } else r
    episodes := s1.episodes.map fun e => if mine e.record then { e with record := none } else e
    teams := s1.teams.map fun t => if mine t.drain then { t with drain := none } else t
    phases := s1.phases.map fun p => if mine p.record then { p with record := none } else p }
  eps.foldl (fun s e => s.makeReady e) s2

/-! ### Deliver -/

/-- What the deliver action makes of a parked fibre's instruction: FREEZE ends with NOMAP, SCATB whose array can not be
written counts the index as dropped, and every other access traps. -/
inductive Delivered where
  | freeze (d : Reg)
  | scatb (va : DWord) (i : Nat)
  | trap

/-- Which of these a parked fibre meets. -/
def Fibre.delivered (z : Bool) (f : Fibre) (va : DWord) : Delivered :=
  match f.park with
  | none => .trap
  | some p => match decode p.word with
    | some (.freeze _ d _ _) => .freeze d
    | some (.scatb _ a b) =>
      if f.getPair z a.toNat = va then .trap else .scatb (f.getPair z a.toNat) (f.get z b.toNat).toNat
    | _ => .trap

/-- Whether a fibre on record h completes at the delivery, without a trap. -/
def Fibre.completes (z : Bool) (h : Word) (f : Fibre) : Bool :=
  match f.onRecord h with
  | none => false
  | some va => match f.delivered z va with | .trap => false | _ => true

/-- The delivery in one fibre; `here` says at which bundle an access that takes part in the token's order may complete. -/
def State.deliverLane (s : State) (wid : Nat) (h : Word) (cause : BitVec 6) (here : Pc → Bool) (l : Nat) : State :=
  match s.waves[wid]? with
  | none => s
  | some w => match w.fibres[l]?, s.gridOf w with
    | some f, some g => match f.onRecord h with
      | none => s
      | some va =>
        let put := fun (s : State) (x : Fibre) => s.modWave wid fun w => { w with fibres := w.fibres.set l x }
        match f.delivered w.zen va with
        | .freeze d => if here f.pc then (put s (fzEnd w.zen d 0 fzNomap f).resume).tokenUsed w g else s
        | .scatb a i => if !here f.pc then s else match s.translate g.asid g.priv true needStore a with
          | .ok p key =>
            match ((s.leadVia p a.toNat key).ownLine wid w (lineOf key)).scatbTry (·.ownLine wid w) g.asid g.priv g.det .lost key i with
            | .done s1 _ psn =>
              let n := f.countName s1.freeCtr
              ((put s1 { f.resume with owed := none }).noteBucket g.phase g.asid g.priv key |>.drink wid
                (if psn && !w.drank n then [n] else [])).tokenUsed w g
            | _ => put s { f with park := none }
          | _ => put s { f with park := none }
        | .trap => (put s ({ f with park := none, owed := none } |>.owe cause (lo32 va))).giveCount wid f.owed
    | _, _ => s

/-- The bundle whose SCATB or FREEZE may complete at the delivery of record h: any outside a deterministic team's waves, and in
one the lowest lane's, once the token is at the wave (R295). -/
def State.deliverAt (s : State) (w : Wave) (g : Grid) (h : Word) (pc : Pc) : Bool :=
  !g.det || w.zen ||
    (s.tokenHere w g && (w.fibres.find? (·.completes w.zen h)).map (·.pc) == some pc)

/-- The delivery in the fibres of a wave; what completes retires. -/
def State.deliverWave (s : State) (h : Word) (cause : BitVec 6) (wid : Nat) : State :=
  match s.waves[wid]? with
  | none => s
  | some w => match s.gridOf w with
    | none => s
    | some g =>
      let here := s.deliverAt w g h
      let s1 := s.modWave wid fun w => w.retireLate fun f => f.completes w.zen h && here f.pc
      (List.range w.fibres.length).foldl (fun s l => s.deliverLane wid h cause here l) s1

/-- Whether a fibre is parked on record h. -/
def State.onRecord (s : State) (h : Word) : Bool := s.waves.any fun w => w.fibres.any fun f => (f.onRecord h).isSome

/-- Between steps: parts of a delivery that waited for the token complete once it is there (R295). -/
def State.settleDelivered (s : State) : State :=
  if s.delivered = [] then s
  else
    let s1 := s.delivered.foldl (fun s d => (List.range s.waves.length).foldl (fun s w => s.deliverWave d.1 d.2 w) s) s
    { s1 with delivered := s1.delivered.filter fun d => s1.onRecord d.1 }

/-- The delivery to the copies on a record. -/
def State.deliverCopies (s : State) (h : Word) (cause : BitVec 6) : Nat → State
  | 0 => s
  | n + 1 => match s.engine.findIdx? (fun c => c.record == some h) with
    | none => s
    | some k => (s.deliverCopy k cause).deliverCopies h cause n

/-- The delivery to MDRAIN and MREST operations on a record. -/
def State.deliverTileOps (s : State) (h : Word) (cause : BitVec 6) (va : DWord) : Nat → State
  | 0 => s
  | n + 1 => match s.tileOps.findIdx? (fun o => o.record == some h) with
    | none => s
    | some k =>
      let at_ := match (s.tileOps[k]?).bind (fun o => (s.tileReach o).2) with | some (.fault a _ _ _ _) => a | _ => va
      (s.deliverTiles k cause at_).deliverTileOps h cause va n

/-- The delivery to a watch. -/
def State.deliverWatch (s : State) (h : Word) (i : Nat) : State :=
  match s.watches[i]? with
  | some x => match x.armed with
    | some a => if x.record = some h then s.watchEnd i a 0 false else s
    | none => s
  | none => s

/-- The delivery to the release of a team's stage: the SCATB at its head, whose array faulted, loses the access (R256). -/
def Team.delivered (h : Word) (t : Team) : Team :=
  if t.drain = some h then
    { t with drain := none
             stage := match t.stage with
               | .scatb a k b w id _ :: rest => .scatb a k b w id true :: rest
               | es => es }
  else t

/-- The delivery to a phase that makes its buckets final: the first bucket whose array still faults loses the access. -/
def State.deliverPhase (s : State) (h : Word) (p : Phase) : Phase :=
  if p.record = some h then
    let stuck := fun (b : BucketRef) => !b.lost && (match s.finalTry (fun s _ => s) b.asid b.priv .loses b.key with
      | .fault _ _ _ _ _ => true | _ => false)
    let rec mark : List BucketRef → List BucketRef
      | [] => []
      | b :: bs => if stuck b then { b with lost := true } :: bs else b :: mark bs
    { p with record := none, buckets := mark p.buckets }
  else p

/-- Deliver: every access parked on the record ends as R271 says. -/
def State.deliverRecord (s : State) (r : FaultRec) : State :=
  let h := r.handle
  let cause := r.kind.cause
  let s1 := (List.range s.waves.length).foldl (fun s w => s.deliverWave h cause w) s
  let s2 := (s1.deliverCopies h cause s1.engine.length).deliverTileOps h cause r.va s1.tileOps.length
  let s3 := (s2.freezes.filter fun q => q.record == some h).foldl (fun s q => s.freezeResult q 0 fzNomap) s2
  let s4 := (List.range s3.watches.length).foldl (fun s i => s.deliverWatch h i) s3
  let mine := s4.parkedReqs.filter fun q => q.record == some h
  let s5 : State := { s4 with parkedReqs := s4.parkedReqs.filter fun q => q.record != some h }
  let s6 : State := { s5 with teams := s5.teams.map (Team.delivered h), phases := s5.phases.map (s5.deliverPhase h) }
  let s7 := mine.foldl (fun s q => s.requestFails q.req) s6
  { s7 with delivered := if s7.onRecord h then s7.delivered ++ [(h, cause)] else s7.delivered }

/-- RESOLVE: the record is freed, and its accesses continue or end. -/
def State.resolveRecord (s : State) (c : Cmd) : State × Word × DWord :=
  match s.records.find? fun r => decide (r.handle.toNat = c.target) with
  | none => (s, cmdBadHandle, 0)
  | some r =>
    let s1 : State := { s with records := s.records.erase r }
    (if c.attr = 0 then s1.replay r.handle else s1.deliverRecord r, cmdOk, 0)

def execResolve (q : Nat) (s : State) : Out := onMapping q 6 (fun _ _ => true) State.resolveRecord s

end Sys2Proof.Machine
end

