-- ==== Sys2Proof/Machine/Fetch.lean ====
section
/-! DEFINITION. Fetching a word, the traps that a fibre owes before its next bundle, and what holds between steps
(01 R19, R28, R36, R37; 02 R57; 11 R268; 13 R324, R325; 12 R288, R294, R295). -/

namespace Sys2Proof.Machine

/-! ### Fetch (R36, R66, R260) -/

/-- The address of a word of a launch. -/
def Grid.codeVa (g : Grid) (pc : Pc) : DWord := g.codeBase + BitVec.ofNat 64 (4 * pc.toNat)

/-- A word of memory at its home. -/
def State.wordAt (s : State) (key : Nat) : Word :=
  wordOfBytes (s.homeByte key) (s.homeByte (key + 1)) (s.homeByte (key + 2)) (s.homeByte (key + 3))

/-- What the issue of the path at `s.cur` comes to: a state in which no word ran, a stop, or the instruction that runs. -/
inductive Issue where
  | done (s : State)
  | fault (e : Fault)
  | refused (r : Refusal)
  | run (s : State) (i : Instr)

/-- STG under a MOD hint with MSG or CLRPOISON is the instruction of that name (R45). -/
def State.refine (s : State) (i : Instr) : Instr :=
  match i with
  | .stg g d a o c w h =>
    if s.hintMsg then .stgMsg g d a o c w h else if s.hintClr then .stgClrpoison g d a o c w h else i
  | _ => i

/-- The instruction of a fetched word after the hints of the bundle. Nothing checks its form here (R37): only a word that
no row of the opcode table gives a meaning, and a hint that its group has no place for, can not run, and R35 and R36 keep
both from ever being fetched. -/
def State.wordIssue (s : State) (w : Word) : Issue :=
  match decode w with
  | none => .refused (.undecodable w)
  | some i =>
    if isHintWord w then
      if 3 ≤ s.bundle.length || (s.bundle.map fun h => hintKind (encode h)).contains (hintKind w) then
        .refused .malformedGroup
      else .run s i
    else .run s (s.refine i)

/-- Slots of the path at `s.cur`. -/
def State.pathLanes (s : State) (w : Wave) : List Nat :=
  (w.fibres.zipIdx.filter fun p => w.inPath s.cur.pc p.2 p.1).map (·.2)

/-- The fibres of a path park on a record of their fetch. -/
def parkFetch (pc : Pc) (h : Word) (va : DWord) (ls : List Nat) (l : Nat) (f : Fibre) : Fibre :=
  if ls.contains l then { f with park := some { why := .record h va, next := pc, last := pc, word := 0 } } else f

/-- A fetch faults: the path parks, or takes the trap of a record that can not be resolved (R268, R270). -/
def State.fetchFault (s : State) (w : Wave) (g : Grid) (va : DWord) (k : FaultKind) (page : Nat) (sz : BitVec 2)
    (key : Nat) : State :=
  let ls := s.pathLanes w
  match s.raiseFault (dieOf w.core) .fetch g.asid va k page sz key with
  | (s1, .parked h) =>
    let park := fun (x : Wave) => { x with fibres := x.fibres.mapIdx (parkFetch s.cur.pc h va ls) }
    { s1.modWave s.cur.wave park with bundle := [] }
  | (s1, .deliver c) => { s1 with bundle := [] }.takeTraps s.cur.wave s.cur.pc (ls.map fun l => (l, trapWith c (lo32 va)))
  | (_, .full) => s.stall false

/-! ### Traps that a fibre owes (R183, R271, R294, R324, R325) -/

/-- Which of the traps that a fibre owes it takes before its next bundle: the oldest, but 0x0D not while it runs a handler of
trap 0x11 or 0x12, or halts between them. -/
def Fibre.dueAt (f : Fibre) : Option Nat := f.due.findIdx? fun d => f.mtrap == .none || d.1 != 0x0D#6
def Fibre.dueNow (f : Fibre) : Option (BitVec 6 × Word) := f.dueAt.bind fun k => f.due[k]?

/-- The slots of the path at `s.cur` that owe a trap, with the traps. -/
def State.dueLanes (s : State) (w : Wave) : List (Nat × TrapInfo) :=
  (s.pathLanes w).filterMap fun l =>
    ((w.fibres.getD l Fibre.empty).dueNow).map fun d => (l, trapWith d.1 d.2)

/-- Drops the owed trap that is taken. -/
def dropDue (ls : List Nat) (l : Nat) (f : Fibre) : Fibre :=
  if ls.contains l then { f with due := match f.dueAt with | some k => f.due.eraseIdx k | none => f.due } else f

/-- Fibres of the path take what they owe. -/
def State.takeDue (s : State) (ts : List (Nat × TrapInfo)) : State :=
  let drop := fun (x : Wave) => { x with fibres := x.fibres.mapIdx (dropDue (ts.map (·.1))) }
  (s.modWave s.cur.wave drop).takeTraps s.cur.wave s.cur.pc ts

/-- The issue of the path at `s.cur`: owed traps first, else the next word of its bundle is fetched, once no scan of its
page or of its address's is under way (R35); a fetch elects the leader of its line (R267). -/
def State.issue (s : State) : Issue :=
  match s.waves[s.cur.wave]? with
  | none => .done { s with bundle := [] }
  | some w => match s.gridOf w with
    | none => .done { s with bundle := [] }
    | some g =>
      match s.dueLanes w with
      | t :: ts => .done (s.takeDue (t :: ts))
      | [] =>
        let va := g.codeVa s.lastPc
        if s.becoming g.asid va.toNat then .done (s.stall false)
        else match s.translate g.asid g.priv false needFetch va with
        | .ok p key =>
          if s.scanning key then .done (s.stall false) else (s.leadVia p va.toNat key).wordIssue (s.wordAt key)
        | .hole key => .fault (.memoryHole key)
        | .fault k page sz key => .done (s.fetchFault w g va k page sz key)
        | .far | .wait => .done ({ s with bundle := [] }.takeTraps s.cur.wave s.cur.pc
            ((s.pathLanes w).map fun l => (l, trapWith 0x04 (lo32 va))))

/-- Whether a wave can issue at all: its team is placed, its allotment is cleared (R148), and no bound of its
pre-emption-disable window has run out (R325). -/
def State.canIssueFrom (s : State) (w : Wave) : Bool :=
  (match s.teams[w.team]? with | some t => t.placed && t.cleared && !t.ended | none => false)
    && (match w.nopre with | some n => n.out s.now == 0 | none => true)

/-- Whether the path of wave `wid` at pc can issue: its wave can, and it has a fibre that may issue. -/
def State.pathReady (s : State) (wid : Nat) (pc : Pc) : Bool :=
  match s.waves[wid]? with
  | none => false
  | some w => s.canIssueFrom w && w.fibres.zipIdx.any fun p => w.inPath pc p.2 p.1

/-- The path of a wave that issues next: the first of its rotation that is ready (R58), without those that had to wait
when they were chosen since any other last issued. -/
def State.headPath (s : State) (wid : Nat) : Option Pc :=
  match s.waves[wid]? with
  | none => none
  | some w => (w.rot ++ w.readyPcs).find? fun pc => s.pathReady wid pc && !s.tried.contains { wave := wid, pc := pc }

/-- Whether the agenda may choose a path to issue next: the first of its wave's rotation, or any other while no path of the
wave has waited long and none has just yielded (R60, R79). -/
def State.choosable (s : State) (wid : Nat) (pc : Pc) : Bool :=
  s.pathReady wid pc && (match s.waves[wid]? with
    | some w => s.headPath wid == some pc || (!w.yielded && w.calm pc)
    | none => false)

/-- Whether a wave has a path that can issue, so far as is known: one that has not had to wait when it was last chosen, one
that only the load-issue limit holds back (R64), or in serial mode another fibre than one that waits for an operand. -/
def State.wants (s : State) (k : Nat) (w : Wave) : Bool :=
  w.stat == .resident && s.canIssueFrom w && (w.fibres.any fun f => f.live && f.park.isNone) &&
    ((s.headPath k).isSome || (s.denied k w && !s.overdue w) ||
      (match w.serial with
        | some c => (w.nextReady c).any (· != c)
        | none => false))

/-- The wave that issues when it is wave `wid`'s turn: the oldest ready wave of its partition (R59), unless the bound of R60
would be missed. A Zenith context has an issue unit of its own (R83). -/
def State.issuer (s : State) (wid : Nat) : Nat :=
  match s.waves[wid]? with
  | none => wid
  | some w =>
    if w.zen || s.overdue w then wid
    else ((s.residents w.core w.part).find? fun k => (s.headPath k).isSome).getD wid

/-- Whose turn it is, and the wave and path that issue: partitions and Zenith contexts in turn, by their waves. -/
def State.nextPath (s : State) : Option (Nat × Nat × Pc) :=
  let n := s.waves.length
  ((List.range n).map fun k => (s.turn + k) % n).findSome? fun k =>
    if (s.headPath k).isSome then (s.headPath (s.issuer k)).map fun pc => (k, s.issuer k, pc) else none

/-! ### Chip time (R5, R351, R362) -/

/-- An episode over n ticks: its step clock runs while it holds a core, or is parked on a record, with an action
unanswered. -/
def State.ageEpisode (s : State) (n : Nat) (e : Episode) : Episode :=
  let busy := s.pairs.any fun p => p.ep == e.num && p.unanswered != 0
  let holds := e.st == .running && (e.onCore || e.record.isSome)
  { e with clock := if holds && busy then e.clock + n else e.clock
           ran := if e.st == .running && e.onCore then e.ran + n else e.ran }

/-- Partitions with a resident wave whose loads or copies counter is not 0 (R369). -/
def State.waitingParts (s : State) : List Nat :=
  ((s.waves.filter fun w => !w.zen && (w.stat == .resident || w.stat == .halted) && (w.loads != 0 || w.copies != 0)).map
    Wave.partIndex).eraseDups

/-- Thousandths of clocks that the caps would remove from cluster c in one tick if its level could drop to its cap (R373). -/
def Cluster.excess (c : Cluster) : Nat := c.clock - levelMHz (min c.level c.cap)

/-- What whole-chip bubbles remove in one tick while a DET grid is resident: what the most limited cluster would lose (R373). -/
def State.bubbleRate (s : State) : Nat := if s.detResident then (s.clusters.map Cluster.excess).foldl max 0 else 0

/-- A cluster over n ticks, at whose start bubbles of `new` thousandths of clocks begin: the clocks that are left, and the
stalled ones of its partitions `ws` (R366, R369, R373). -/
def Cluster.age (n new : Nat) (parts : List Part) (ws : List Nat) (c : Cluster) : Cluster :=
  let lost := min (c.bubble + new) (n * c.clock)
  let t := n * c.clock - lost
  { c with
    clk := c.clk + t
    bubble := c.bubble + new - lost
    span := c.span + t
    stalls := ws.foldl (fun a p => match parts[p]? with
      | some x => (a.1 + (t - min t x.most), a.2 + (t - min t x.least))
      | none => a) c.stalls }

/-- Chip time advances by n ticks of 1 ns. A bubble is a block of 64 clocks that begins in every cluster at the same tick, when
the caps would have removed as many (R373). -/
def State.advance (s : State) (n : Nat) : State :=
  let b := s.bubbles + n * s.bubbleRate
  let new := b / 64000 * 64000
  let ws := s.waitingParts
  let clusters := s.clusters.mapIdx fun k c => c.age n new s.parts (ws.filter fun p => p / 32 == k)
  let passed := fun (p : Nat) => (clusters.getD (p / 32) Cluster.clear).clk - (s.clusters.getD (p / 32) Cluster.clear).clk
  { s with time := s.time + BitVec.ofNat 64 n, episodes := s.episodes.map (s.ageEpisode n)
           clusters := clusters
           bubbles := if s.bubbleRate = 0 then 0 else b % 64000
           parts := s.parts.mapIdx fun p x =>
             if x.most = 0 then x else { x with most := x.most - passed p, least := x.least - passed p } }

/-- Ticks until the next step clock reaches its budget. -/
def State.budgetLeft (s : State) : Option Nat :=
  (s.episodes.filterMap fun e =>
    if 0 < e.active ∧ (s.ageEpisode 1 e).clock ≠ e.clock then some (e.active - e.clock) else none).min?

/-- The monitors of fibres that may leave them. -/
def State.liveMonitors (s : State) : List Monitor :=
  (s.waves.zipIdx.filter fun w => s.watching w.2).flatMap fun w => w.1.fibres.filterMap fun f => match f.park with
    | some { why := .monitor m, .. } => some m
    | _ => none

/-- The bound in ticks of the next act of a pre-emption of partition p that can happen now: 100 for a halt, whose quad's MMQs
end within it (R182, R322), and 8,000 for a context to move out or in (R5, R323). -/
def State.haltBound (s : State) (p : Nat) (x : Part) : Option Nat :=
  if x.halt == .requested then
    if (s.waves.any fun w => s.mustHalt p w && w.nopre.isNone) || (!s.inWindow p && !(s.ownerLeaves p && s.saverBusy p)) then
      some 100 else none
  else if s.canSave p || s.canRestore p then some 8000 else none

/-- Whether a pre-emption may be under way somewhere. -/
def State.preempting (s : State) : Bool :=
  (s.parts.any fun x => x.halt != .none) || s.waves.any fun w => w.stat == .saved || w.stat == .arriving

/-- Words that each partition has issued since state `before`, as far as they have retired (R92, R369). -/
def State.issuedSince (before s : State) : List (Nat × Nat) :=
  (s.waves.zipIdx.filterMap fun w => match before.waves[w.2]? with
    | some x => if w.1.zen || w.1.perf == x.perf then none else some (w.1.partIndex, (w.1.perf - x.perf).toNat)
    | none => none)

/-- What a partition's words still take, and since when its next act of a pre-emption has been possible. -/
def State.settleParts (before s : State) : State :=
  let ran := before.issuedSince s
  if ran = [] ∧ !s.preempting then s
  else
    { s with parts := s.parts.mapIdx fun p x =>
        let n := ((ran.filter fun r => r.1 == p).map (·.2)).sum
        let since := match before.parts[p]? with
          | some y => if (s.haltBound p x).isSome && before.haltBound p y == s.haltBound p x then x.since else s.now
          | none => s.now
        { x with most := x.most + 1000 * n, least := x.least + 250 * n
                 since := if s.preempting then since else x.since } }

/-- Ticks until each moment at which something happens by the clock alone: step budgets (R362), the limits of WAIT (R350),
the 1 ms of an episode on a core (R351), timeouts, reads and releases of monitors and watches (R249, R250, R254), samples
(R369), level changes (R370), power checks and falls of the heat reduction (R372), the deterministic watchdog (R294), and the
acts of pre-emptions (R5, R322, R323). -/
def State.alarms (s : State) : List Nat :=
  s.budgetLeft.toList
    ++ s.episodes.filterMap (fun e => match e.waiting with | some (some t) => some (t - s.now) | _ => none)
    ++ s.episodes.filterMap (fun e => if e.runs && !s.ready.isEmpty then some (1000000 - e.ran) else none)
    ++ s.liveMonitors.flatMap (fun m => (m.deadline.map (· - s.now)).toList ++ (m.due.map (· - s.now)).toList)
    ++ s.watches.filterMap (fun x => if x.record.isSome then none else x.armed.bind fun a => a.mon.due.map (· - s.now))
    ++ s.clusters.map (fun c => c.nextSample - s.now)
    ++ (if s.detResident then [] else s.clusters.filterMap (Cluster.changeLeft s.now))
    ++ [s.nextCheck - s.now]
    ++ s.clusters.filterMap (fun c => c.fallLeft s.now)
    ++ (List.range s.teams.length).filterMap (fun t => s.stuckLeft t)
    ++ (if s.preempting then s.parts.zipIdx.filterMap (fun x => (s.haltBound x.2 x.1).map (x.1.since + · - s.now)) else [])

/-- Ticks until the bound of a wave that could issue (R60). -/
def State.waveTicks (s : State) : List Nat :=
  s.waves.zipIdx.filterMap fun w => if !w.1.zen && s.wants w.2 w.1 then some (s.ticksLeft w.1) else none

/-- How many of n ticks chip time can pass now: it stops at each moment at which something must happen, until that has. -/
def State.room (s : State) (n : Nat) : Nat :=
  if s.dev == .running then (s.alarms ++ s.waveTicks).foldl min n else n

/-- A line leaves every cache: its dirty bytes and shadow are written back, and its leadership lapses (R267). -/
def State.lapseLine (s : State) (line : Nat) : State :=
  let s1 := (s.l1.filter fun x => x.line == line).foldl (fun s x => s.evictLine x.core line) s
  let s2 := s1.settleLine line
  { s2 with leaders := s2.leaders.filter fun x => x.line != line }

/-! ### What holds between steps -/

/-- The team's latest retirement, and the member at which the Meridian token stands (R294, R295). -/
def State.settleTeam (before s : State) (t : Team) : Team :=
  let moved := (t.waves ++ t.zen.toList).any fun w =>
    (before.waves[w]?).map (·.perf) != (s.waves[w]?).map (·.perf)
  let det := match s.grids[t.grid]? with | some g => g.det | none => false
  { t with lastRetire := if moved then s.now else t.lastRetire
           token := if det && !t.ended then s.tokenAt t else t.token }

/-- Turns and root weights of the grids (R288, R300). -/
def State.settleGrids (s : State) : State :=
  (List.range s.grids.length).foldl (fun s k => (s.settleTurn k (s.turnFuel k)).settleGrid k) s

/-- When a wave last issued or had nothing ready, its rotation and its serial mode, between steps (R58, R60, R62, R63). In
serial mode a current fibre that waits for an operand gives way where the wave's bound would be missed. -/
def State.settleWave (before s : State) (k : Nat) (w : Wave) : Wave :=
  let idle := !s.wants k w || (before.waves[k]?).map (·.perf) != some w.perf
  let w1 := (if idle then { w with readySince := s.clkOf w.core } else w).settleRot.enterSerial
  w1.settleSerial (s.overdue w1 && (s.headPath k).isNone)

def State.settleWaves (before s : State) : State := { s with waves := s.waves.mapIdx (before.settleWave s) }

/-- What has become due by itself: messages that a release calls for, parts of deliveries that wait for the token, weight, copies
that were held back, monitors, late writes, shadows of host lines, places in the engine's queue. -/
def State.settleDue (s : State) : State :=
  let s0 := (s.settleFlights s.flights.length).settleDelivered
  let s1 := s0.settleWeight.settleCopies.settleMonitors.settleWatches.settleLate.settleHost
  if s1.slotQueue = [] then s1 else { s1 with slotQueue := s1.slotQueue.filter s1.stillPushes }

/-- Waves whose last counter has fallen without an access of their own, at a SIGNCLR or another wave's end, end too (R54,
R165). -/
def State.settleEnds (s : State) : State :=
  (List.range s.waves.length).foldl (fun s w => match s.waves[w]? with
    | some x => if x.stat != .ended && x.fibres.all (fun f => !f.live) then s.checkWaveEnd w else s
    | none => s) s

/-- After a step that began in state `before`: barriers' acquires on pairs, what has become due, tokens, turns, teams that
have left, limits, frozen quads, the scheduler's own fields, and caps once no deterministic grid is resident (R373). -/
def State.settle (before s : State) : State :=
  let s1 := (before.pairSync s).settleDue.settleEnds.settleBusy
  let s2 : State := { s1 with teams := s1.teams.map (before.settleTeam s1) }
  let s3 := (List.range s2.teams.length).foldl (fun s t => s.settleEvict t) s2.settleGrids
  let s4 := (List.range s3.parts.length).foldl (fun s p => s.settleLimit p) s3
  let s5 := (List.range s4.quads.length).foldl (fun s q => s.settleQuad q) s4
  let s6 := before.settleWaves (before.settleParts s5)
  if before.detResident && !s6.detResident then s6.recapAll else s6

end Sys2Proof.Machine
end

