-- ==== Sys2Proof/Machine/Sfu.lean ====
section
/-! DEFINITION. Special functions (05_vector_datapath R134): each result is the exact value rounded once. Irrational
values are computed in fixed point with 640 fraction bits and carry a sticky bit (log 10). -/

namespace Sys2Proof.Machine

/-! ### Fixed point -/

/-- Fraction bits of the working precision. -/
def sfuBits : Nat := 640
/-- One in working precision. -/
def sfuOne : Nat := 2 ^ sfuBits

/-- Sum of the terms that `next` produces from the first, for `n` steps: `next k t` is term k from term k - 1. -/
def sumTerms (next : Nat → Int → Int) (n : Nat) (t0 : Int) : Int :=
  ((List.range n).foldl (fun (acc : Int × Int) k => let t := next (k + 1) acc.2; (acc.1 + t, t)) (t0, t0)).1

/-- exp(y) for 0 ≤ y < 1 in working precision. -/
def expFix (y : Int) : Int := sumTerms (fun k t => t * y / sfuOne / k) 160 sfuOne
/-- sin(y) and cos(y) for 0 ≤ y < 1 in working precision. -/
def sinFix (y : Int) : Int := sumTerms (fun k t => -(t * y / sfuOne * y / sfuOne) / (2 * k * (2 * k + 1))) 80 y
def cosFix (y : Int) : Int := sumTerms (fun k t => -(t * y / sfuOne * y / sfuOne) / (2 * k * (2 * k - 1))) 80 sfuOne
/-- atanh of 1/n · c: the sum of c / (n^(2k+1) (2k+1)). -/
def atanhSum (c n2 d2 : Int) : Int :=
  ((List.range 420).foldl (fun (acc : Int × Int) k => (acc.1 + acc.2 / (2 * k + 1), acc.2 * n2 / d2)) (0, c)).1
/-- ln 2 = 2 atanh(1/3). -/
def ln2Fix : Int := 2 * atanhSum ((sfuOne : Int) / 3) 1 9
/-- arctan(1/n) in working precision. -/
def atanInv (n : Int) : Int :=
  ((List.range 320).foldl (fun (acc : Int × Int) k =>
    (if k % 2 = 0 then acc.1 + acc.2 / (2 * k + 1) else acc.1 - acc.2 / (2 * k + 1), acc.2 / (n * n)))
    (0, (sfuOne : Int) / n)).1
/-- pi = 16 arctan(1/5) - 4 arctan(1/239). -/
def piFix : Int := 16 * atanInv 5 - 4 * atanInv 239

/-- A positive value v in working precision that is not a dyadic number of fewer bits: rounded with a sticky bit, the
last 64 working bits left off as unsure. -/
def irrational (neg : Bool) (v : Int) : Exact :=
  .fin neg (2 * (v.toNat / 2 ^ 64) + 1) (64 - sfuBits - 1 : Int)

/-- A quotient num / den of natural numbers, exact or with a sticky bit below 80 significant bits. -/
def quotient (neg : Bool) (num den : Nat) (e : Int) : Exact :=
  let k := 80 + bitLen den
  let q := num * 2 ^ k / den
  let r := num * 2 ^ k % den
  .fin neg (2 * q + (if r = 0 then 0 else 1)) (e - k - 1)

/-- The square root of m * 2^e, exact or with a sticky bit. -/
def rootOf (m : Nat) (e : Int) : Exact :=
  let m1 := if e % 2 = 0 then m else 2 * m
  let e1 := if e % 2 = 0 then e else e - 1
  let x := m1 * 2 ^ 160
  let r := Nat.sqrt x
  .fin false (2 * r + (if r * r = x then 0 else 1)) (e1 / 2 - 80 - 1)

/-! ### The functions on finite non-zero values m * 2^e -/

/-- 1/√(m * 2^e). -/
def rsqrtOf (m : Nat) (e : Int) : Exact :=
  let m1 := if e % 2 = 0 then m else 2 * m
  let e1 := if e % 2 = 0 then e else e - 1
  let x := 2 ^ 400 / m1
  let r := Nat.sqrt x
  .fin false (2 * r + (if r * r * m1 = 2 ^ 400 then 0 else 1)) (-(e1 / 2) - 200 - 1)

/-- 2^x. -/
def exp2Of (neg : Bool) (m : Nat) (e : Int) : Exact :=
  if ltDy 255 0 m e then (if neg then .fin false 1 (-400) else .fin false 3 400)
  else
    let den := 2 ^ (-e).toNat
    let v : Int := if neg then -(m * 2 ^ e.toNat : Nat) else (m * 2 ^ e.toNat : Nat)
    let n := v / (den : Int)
    let fr := v - n * den
    if fr = 0 then .fin false 1 n
    else match irrational false (expFix (fr * ln2Fix / den)) with
      | .fin s a b => .fin s a (b + n)
      | x => x

/-- log2 of m * 2^e: the exact exponent of a power of two, else k + ln y / ln 2 for y in (1, 2). -/
def log2Of (m : Nat) (e : Int) : Exact :=
  let k : Int := (bitLen m : Int) - 1
  let p := 2 ^ (bitLen m - 1)
  if m = p then .fin (decide (k + e < 0)) (k + e).natAbs 0
  else
    let a := ((m : Int) - p) * sfuOne / (m + p)
    let ln := 2 * atanhSum a (a * a) ((sfuOne : Int) * sfuOne)
    let v := (k + e) * sfuOne + ln * sfuOne / ln2Fix
    irrational (decide (v < 0)) v.natAbs

/-- sin(π t) and cos(π t) for t = num / 2^s with 0 < t < 1/2, in working precision. -/
def sinpiFix (num s : Nat) : Int :=
  if 4 * num ≤ 2 ^ s then sinFix (piFix * num / 2 ^ s) else cosFix (piFix * ((2 : Int) ^ s - 2 * num) / 2 ^ (s + 1))

/-- sin(π x) for x = m * 2^e > 0 with e < 0 and x not an integer: the quadrant and the value. -/
def sinpiPos (m s : Nat) : Bool × Exact :=
  let r := m % 2 ^ (s + 1)
  let neg := decide (2 ^ s < r)
  let u := if neg then r - 2 ^ s else r
  let u := if 2 * u ≤ 2 ^ s then u else 2 ^ s - u
  if 2 * u = 2 ^ s then (neg, .fin false 1 0)
  else if u * 2 ^ 64 ≤ 2 ^ s then
    -- π t (1 - small): the first factor in working precision, scaled by the exact t
    match irrational false (piFix - 1) with
    | .fin _ a b => (neg, .fin false (a * u * 2 ^ 20 - 1) (b - s - 20))
    | x => (neg, x)
  else (neg, irrational false (sinpiFix u s))

/-- tanh of m * 2^e > 0. -/
def tanhOf (m : Nat) (e : Int) : Exact :=
  if ltDy 32 0 m e then .fin false (2 ^ 90 - 1) (-90)
  else if ltDy m e 1 (-40) then .fin false (m * 2 ^ 100 - 1) (e - 100)
  else
    let y : Int := (m : Int) * sfuOne * 2 * 2 ^ e.toNat / 2 ^ (-e).toNat
    let n := y / ln2Fix
    let ex := expFix (y - n * ln2Fix)
    let E := ex * 2 ^ n.toNat
    irrational false ((E - sfuOne) * sfuOne / (E + sfuOne))

/-! ### The instruction (R134) -/

/-- The eight functions. -/
inductive SfuFn where
  | rcp | rsq | sqrt | exp2 | log2 | sinpi | cospi | tanh
  deriving DecidableEq, Repr

/-- An exact infinity or NaN of a special input, or a value to round. -/
def sfuExact (fn : SfuFn) (v : FVal) : Exact × BitVec 6 :=
  let bad : Exact × BitVec 6 := (.invalid, 0)
  match fn, v with
  | _, .nan _ => bad
  | .rcp, .inf n => (.fin n 0 0, 0)
  | .rcp, .fin n m e => if m = 0 then (.inf n, flDZ) else (quotient n 1 m (-e), 0)
  | .rsq, .inf n => if n then bad else (.fin false 0 0, 0)
  | .rsq, .fin n m e => if m = 0 then (.inf n, flDZ) else if n then bad else (rsqrtOf m e, 0)
  | .sqrt, .inf n => if n then bad else (.inf false, 0)
  | .sqrt, .fin n m e => if m = 0 then (.fin n 0 0, 0) else if n then bad else (rootOf m e, 0)
  | .exp2, .inf n => if n then (.fin false 0 0, 0) else (.inf false, 0)
  | .exp2, .fin n m e => if m = 0 then (.fin false 1 0, 0) else (exp2Of n m e, 0)
  | .log2, .inf n => if n then bad else (.inf false, 0)
  | .log2, .fin n m e => if m = 0 then (.inf true, flDZ) else if n then bad else (log2Of m e, 0)
  | .sinpi, .inf _ => bad
  | .sinpi, .fin n m e =>
    if m = 0 ∨ 0 ≤ e ∨ m % 2 ^ (-e).toNat = 0 then (.fin n 0 0, 0)
    else
      let r := sinpiPos m (-e).toNat
      match r.2 with
      | .fin _ a b => (.fin (n != r.1) a b, 0)
      | x => (x, 0)
  | .cospi, .inf _ => bad
  | .cospi, .fin _ m e =>
    if m = 0 then (.fin false 1 0, 0)
    else if 0 ≤ e then (.fin (m * 2 ^ e.toNat % 2 == 1) 1 0, 0)
    else
      -- cos(π x) = sin(π (x + 1/2))
      let s := (-e).toNat
      if m % 2 ^ s = 0 then (.fin (m / 2 ^ s % 2 == 1) 1 0, 0)
      else if 2 * m % 2 ^ s = 0 ∧ (2 * m / 2 ^ s) % 2 = 1 then (.fin false 0 0, 0)
      else if ltDy m e 1 (-40) then (.fin false (2 ^ 90 - 1) (-90), 0)
      else
        let r := sinpiPos (2 * m + 2 ^ s) (s + 1)
        match r.2 with
        | .fin _ a b => (.fin r.1 a b, 0)
        | x => (x, 0)
  | .tanh, .inf n => (.fin n 1 0, 0)
  | .tanh, .fin n m e =>
    if m = 0 then (.fin n 0 0, 0)
    else match tanhOf m e with
      | .fin _ a b => (.fin n a b, 0)
      | x => (x, 0)

/-- The result of a function on an FP32 code. -/
def sfuVal (fn : SfuFn) (rm : Rnd) (sat : Bool) (c : Nat) : FRes :=
  match IFmt.f32.dec c with
  | .nan s => (IFmt.f32.quiet c, if s then flNV else 0)
  | v =>
    let x := sfuExact fn v
    let r := IFmt.f32.finish rm sat false x.1
    (r.1, r.2 ||| x.2)

def runSfu (i : Instr) (g : Guard) (d a : Reg) (fn : SfuFn) (s : State) : Out :=
  runFp i g (fun z f => [f.get z a.toNat]) (fun z f =>
    let r := sfuVal fn s.hintRnd s.hintSat (f.get z a.toNat).toNat
    ([r.2], f.setZ z d.toNat (BitVec.ofNat 32 r.1))) s

def execRcp (g : Guard) (d a : Reg) (s : State) : Out := runSfu (.rcp g d a) g d a .rcp s
def execRsq (g : Guard) (d a : Reg) (s : State) : Out := runSfu (.rsq g d a) g d a .rsq s
def execSqrt (g : Guard) (d a : Reg) (s : State) : Out := runSfu (.sqrt g d a) g d a .sqrt s
def execExp2 (g : Guard) (d a : Reg) (s : State) : Out := runSfu (.exp2 g d a) g d a .exp2 s
def execLog2 (g : Guard) (d a : Reg) (s : State) : Out := runSfu (.log2 g d a) g d a .log2 s
def execSinpi (g : Guard) (d a : Reg) (s : State) : Out := runSfu (.sinpi g d a) g d a .sinpi s
def execCospi (g : Guard) (d a : Reg) (s : State) : Out := runSfu (.cospi g d a) g d a .cospi s
def execTanh (g : Guard) (d a : Reg) (s : State) : Out := runSfu (.tanh g d a) g d a .tanh s

/-- The class mask of an FP32 code. -/
def fclassVal (c : Nat) : Word :=
  1#32 <<< (match IFmt.f32.dec c with
    | .inf n => if n then 0 else 7
    | .nan s => if s then 8 else 9
    | .fin n m _ =>
      if m = 0 then (if n then 3 else 4)
      else if m < 2 ^ 23 then (if n then 2 else 5)
      else if n then 1 else 6)

def execFclass (g : Guard) (d a : Reg) (s : State) : Out :=
  runFp (.fclass g d a) g (fun z f => [f.get z a.toNat])
    (fun z f => ([0], f.setZ z d.toNat (fclassVal (f.get z a.toNat).toNat))) s

end Sys2Proof.Machine
end

