-- ==== Sys2Proof/Machine/Lanes.lean ====
section
/-! DEFINITION. Cross-lane instructions: SHFL, VOTE, SCAN, WRED, DIST, TOPK (05_vector_datapath R135 to R145). -/

namespace Sys2Proof.Machine

/-- What a cross-lane instruction leaves in one active lane. -/
inductive LaneVal where
  | write (v : Word) (fl : BitVec 6)
  | same (fl : BitVec 6)
  | trap (t : TrapInfo)
  deriving DecidableEq, Repr

/-- The end of a lane: d is written, kept, or the lane traps. -/
def valEnd (d : Nat) (tbl : List (Nat × LaneVal)) (l : Nat) (f : Fibre) : LaneEnd :=
  match tbl.lookup l with
  | some (.write v fl) => .done (f.set false d v) fl
  | some (.same fl) => .done f fl
  | some (.trap t) => .trap f t
  | none => .done f 0

/-- The fibre of a lane. -/
def Wave.lane (w : Wave) (l : Nat) : Fibre := w.fibres.getD l Fibre.empty

/-! ### SHFL and VOTE (R136, R137) -/

/-- log2 of the width: 4, 5 or 6. -/
def log2W (width : Nat) : Nat := if width ≤ 16 then 4 else if width ≤ 32 then 5 else 6

/-- The source lane of SHFL. -/
def shflSrc (m : ShflMode) (width lane : Nat) (b : Word) : Nat :=
  match m with
  | .pick => b.toNat % width
  | .rot => (lane + b.toNat) % width
  | .lead => lane / 2 ^ (min b.toNat (log2W width)) * 2 ^ (min b.toNat (log2W width))
  | .swap => lane ^^^ (b.toNat % width)

def execShfl (g : Guard) (d a b : Reg) (m : ShflMode) (s : State) : Out :=
  runPath (.shfl g d a b m) g (fun s w _ ls =>
    .go s (valEnd d.toNat (ls.map fun l =>
      let src := shflSrc m w.width l ((w.lane l).get false b.toNat)
      (l, if ls.contains src then .write ((w.lane src).get false a.toNat) 0 else .same 0)))) s

def execVoteAll (g : Guard) (pd pa : PredNo) (s : State) : Out :=
  runPath (.voteAll g pd pa) g (fun s w _ ls =>
    let v := ls.all fun l => (w.lane l).pred pa
    .go s fun _ f => .done (f.setPred pd v) 0) s
def execVoteAny (g : Guard) (pd pa : PredNo) (s : State) : Out :=
  runPath (.voteAny g pd pa) g (fun s w _ ls =>
    let v := ls.any fun l => (w.lane l).pred pa
    .go s fun _ f => .done (f.setPred pd v) 0) s

/-- The mask of the active lanes base to base + 31 whose predicate is true. -/
def ballot (w : Wave) (ls : List Nat) (pa : PredNo) (base : Nat) : Word :=
  ls.foldl (fun m l => if base ≤ l && l < base + 32 && (w.lane l).pred pa then m ||| (1#32 <<< (l - base)) else m) 0

def execVoteBallot (g : Guard) (d : Reg) (pa : PredNo) (hi : Bool) (s : State) : Out :=
  runPath (.voteBallot g d pa hi) g (fun s w _ ls =>
    let v := ballot w ls pa (if hi then 32 else 0)
    .go s fun _ f => .done (f.set false d.toNat v) 0) s

/-! ### SCAN and WRED (R138, R139, R144) -/

end Sys2Proof.Machine

namespace Sys2Proof
open Sys2Proof.Machine
/-- Whether an operator works on FP32. -/
def ScanOp.float : ScanOp → Bool
  | .addF | .minF | .maxF => true
  | _ => false
/-- A combining step. -/
def ScanOp.step (o : ScanOp) (k : FMode) (x y : Word) : Word × BitVec 6 :=
  let fp := fun (r : FRes) => (BitVec.ofNat 32 r.1, r.2)
  match o with
  | .addF => fp (fpAdd .f32 k false x.toNat y.toNat)
  | .minF => fp (fpMinMax .f32 false false false x.toNat y.toNat)
  | .maxF => fp (fpMinMax .f32 false true false x.toNat y.toNat)
  | .addS => (x + y, 0)
  | .minS => (iminVal x y, 0)
  | .maxS => (imaxVal x y, 0)
  | .orS => (x ||| y, 0)
/-- What an exclusive scan writes to the first active lane. -/
def ScanOp.identity : ScanOp → Word
  | .addF | .addS | .orS => 0
  | .minF => 0x7F800000
  | .maxF => 0xFF800000
  | .minS => 0x7FFFFFFF
  | .maxS => 0x80000000
end Sys2Proof

namespace Sys2Proof.Machine

/-- SCAN over the active lanes in ascending order: what each lane is left with and the flags of its step. -/
def scanLanes (o : ScanOp) (k : FMode) (ex : Bool) : Option Word → List (Nat × Word) → List (Nat × Word × BitVec 6)
  | _, [] => []
  | none, (l, x) :: rest => (l, if ex then o.identity else x, 0) :: scanLanes o k ex (some x) rest
  | some run, (l, x) :: rest =>
    let r := o.step k run x
    (l, if ex then run else r.1, r.2) :: scanLanes o k ex (some r.1) rest

/-- Splits the executing lanes into those that a marker traps and the active ones (R123, R135). -/
def splitMarked (g : Grid) (on : Bool) (ops : Nat → List Word) (ls : List Nat) :
    List (Nat × LaneVal) × List Nat :=
  (ls.filterMap fun l => if on then (markerTrap g (ops l)).map (fun t => (l, .trap t)) else none,
   ls.filter fun l => !on || (markerTrap g (ops l)).isNone)

def execScan (g : Guard) (d a : Reg) (op : ScanOp) (ex : Bool) (s : State) : Out :=
  runPath (.scan g d a op ex) g (fun s w gr ls =>
    let val := fun l => (w.lane l).get false a.toNat
    let p := splitMarked gr op.float (fun l => [val l]) ls
    let res := scanLanes op (s.fmode .f32) ex none (p.2.map fun l => (l, val l))
    .go s (valEnd d.toNat (p.1 ++ res.map fun r =>
      (r.1, if s.invOn w && r.2.2.getLsbD 0 then .trap (trapWith 0x03 (BitVec.ofNat 32 r.1))
            else .write r.2.1 r.2.2)))) s

/-- A node of the tree of WRED: its value and the lowest active lane beneath it. -/
structure RedNode where
  val : Word
  low : Nat
  deriving DecidableEq, Repr

/-- Flags raised so far, and the lowest lane beneath a step that raised NV. -/
structure RedAcc where
  fl : BitVec 6
  nv : Option Nat
  deriving DecidableEq, Repr

/-- One level of the tree. -/
def redLevel (o : ScanOp) (k : FMode) : RedAcc → List (Option RedNode) → RedAcc × List (Option RedNode)
  | acc, x :: y :: rest =>
    match x, y with
    | some p, some q =>
      let r := o.step k p.val q.val
      let nv := if r.2.getLsbD 0 then some (min p.low (acc.nv.getD p.low)) else acc.nv
      let t := redLevel o k { fl := acc.fl ||| r.2, nv := nv } rest
      (t.1, some { val := r.1, low := min p.low q.low } :: t.2)
    | some p, none => let t := redLevel o k acc rest; (t.1, some p :: t.2)
    | none, q => let t := redLevel o k acc rest; (t.1, q :: t.2)
  | acc, l => (acc, l)

/-- The levels of the tree. -/
def redTree (o : ScanOp) (k : FMode) : Nat → RedAcc → List (Option RedNode) → RedAcc × List (Option RedNode)
  | 0, acc, l => (acc, l)
  | n + 1, acc, l => let r := redLevel o k acc l; redTree o k n r.1 r.2

def execWred (g : Guard) (d a : Reg) (op : ScanOp) (s : State) : Out :=
  runPath (.wred g d a op) g (fun s w gr ls =>
    let val := fun l => (w.lane l).get false a.toNat
    let p := splitMarked gr op.float (fun l => [val l]) ls
    let leaves := (List.range w.width).map fun l =>
      if p.2.contains l then some { val := val l, low := l : RedNode } else none
    let r := redTree op (s.fmode .f32) (log2W w.width) { fl := 0, nv := none } leaves
    let root := match r.2 with | some n :: _ => n.val | _ => 0
    .go s (valEnd d.toNat (p.1 ++ p.2.map fun l =>
      (l, match r.1.nv with
        | some k => if s.invOn w then .trap (trapWith 0x03 (BitVec.ofNat 32 k)) else .write root r.1.fl
        | none => .write root r.1.fl)))) s

/-! ### DIST (R140, R141, R144) -/

/-- Element code j of registers from `field` on (R108, R140). -/
def distCode (t : DistTy) (f : Fibre) (field j : Nat) : Nat :=
  let w := (f.get false (field + j / t.perReg)).toNat
  match t with
  | .f16 | .bf16 => w / 2 ^ (16 * (j % 2)) % 65536
  | .s8 | .b8p4 => w / 2 ^ (8 * (j % 4)) % 256

/-- binary8p4, signed, extended. -/
def b8p4 : B8Par := { p := 4, uns := false, fin := false }

/-- An element's value before flushing. -/
def distDec (t : DistTy) (c : Nat) : FVal :=
  match t with
  | .f16 => IFmt.f16.dec c
  | .bf16 => IFmt.bf16.dec c
  | .s8 => .fin (decide (128 ≤ c)) (if 128 ≤ c then 256 - c else c) 0
  | .b8p4 => b8p4.dec c

/-- The FP32 NaN that a NaN element passes on (R117, R118). -/
def distNan (t : DistTy) (c : Nat) : Nat :=
  match t with
  | .f16 => carryNan .f16 .f32 c
  | .bf16 => carryNan .bf16 .f32 c
  | _ => IFmt.f32.nanCode

/-- An element, a subnormal flushed to zero with FZ (R116). -/
def distElt (t : DistTy) (c : Nat) : FVal × BitVec 6 :=
  match distDec t c with
  | .fin n m e =>
    let sub := match t with
      | .f16 => decide (m < 2 ^ 10) | .bf16 => decide (m < 2 ^ 7) | .b8p4 => decide (m < 2 ^ 3) | .s8 => false
    if sub && m != 0 then (.fin n 0 e, flFZ) else (.fin n m e, 0)
  | v => (v, 0)

/-- A term or sum: not a number (with whether it is a new invalid operation), or exact. -/
inductive DTerm where
  | nan
  | ok (x : Exact)
  deriving DecidableEq, Repr

/-- The square of a difference, or a product. -/
def distTerm (sq : Bool) (x y : FVal) : DTerm :=
  if x.isNan || y.isNan then .nan
  else if sq then
    match addExact .rne x y.negate with
    | .invalid => .ok .invalid
    | .inf _ => .ok (.inf false)
    | .fin _ m e => .ok (.fin false (m * m) (e + e))
  else .ok (mulExact x y)

/-- A running block sum: finite part, infinities and NaNs met, and the lowest index whose term was invalid. -/
structure BlockSum where
  sum : Option (Bool × Nat × Int)
  pinf : Bool
  ninf : Bool
  nan : Bool
  bad : Option Nat
  deriving DecidableEq, Repr

def BlockSum.zero : BlockSum := { sum := none, pinf := false, ninf := false, nan := false, bad := none }

/-- Adds a term to a block. Where the exact sum is zero its sign is that of the rule of R130 applied term by term: DESIGN
CHOICE, log 53. -/
def BlockSum.add (rm : Rnd) (b : BlockSum) (j : Nat) (t : DTerm) : BlockSum :=
  match t with
  | .nan => { b with nan := true }
  | .ok .invalid => { b with nan := true, bad := b.bad <|> some j }
  | .ok (.inf n) => if n then { b with ninf := true } else { b with pinf := true }
  | .ok (.fin n m e) =>
    { b with sum := match b.sum with
        | none => some (n, m, e)
        | some (n0, m0, e0) => some (addFin rm n0 m0 e0 n m e) }

/-- An FP32 code with flags, and the lowest index at which NV was raised. -/
structure DAcc where
  code : Nat
  fl : BitVec 6
  nv : Option Nat
  deriving DecidableEq, Repr

/-- The smaller of two indices. -/
def minOpt (a b : Option Nat) : Option Nat :=
  match a, b with
  | some x, some y => some (min x y)
  | some x, none => some x
  | none, y => y

/-- B of block k: the exact sum rounded to FP32. -/
def BlockSum.round (b : BlockSum) (k : FMode) (blk : Nat) : DAcc :=
  if b.nan then { code := IFmt.f32.nanCode, fl := if b.bad.isSome then flNV else 0, nv := b.bad }
  else if b.pinf && b.ninf then { code := IFmt.f32.nanCode, fl := flNV, nv := some (32 * blk) }
  else if b.pinf then { code := IFmt.f32.infCode, fl := 0, nv := none }
  else if b.ninf then { code := IFmt.f32.signed true IFmt.f32.infCode, fl := 0, nv := none }
  else
    let x := b.sum.getD (false, 0, 0)
    let r := IFmt.f32.deliver k.rm k.sat false x.1 x.2.1 x.2.2
    { code := r.1, fl := r.2, nv := none }

/-- One accumulation: from `acc0` (none: the first block enters as it is) over the blocks of n dimensions. -/
def distAccum (k : FMode) (n : Nat) (acc0 : Option Nat) (term : Nat → DTerm) : DAcc :=
  let blocks := (n + 31) / 32
  let r := (List.range blocks).foldl (fun (st : Option Nat × BitVec 6 × Option Nat) blk =>
    let b := ((List.range (min 32 (n - 32 * blk))).foldl
      (fun (b : BlockSum) i => b.add k.rm (32 * blk + i) (term (32 * blk + i))) BlockSum.zero).round k blk
    match st.1 with
    | none => (some b.code, st.2.1 ||| b.fl, minOpt st.2.2 b.nv)
    | some a =>
      let r := fpAdd .f32 k false a b.code
      (some r.1, st.2.1 ||| b.fl ||| r.2,
        minOpt (minOpt st.2.2 b.nv) (if r.2.getLsbD 0 then some n else none))) (acc0, 0, none)
  { code := r.1.getD 0, fl := r.2.1, nv := r.2.2 }

/-- The final step of COS: accxy / sqrt(accxx * accyy), rounded once. -/
def cosStep (k : FMode) (n xy xx yy : Nat) : DAcc :=
  let ex := IFmt.f32.dec xx
  let ey := IFmt.f32.dec yy
  let fin := fun (r : FRes) => ({ code := r.1, fl := r.2, nv := if r.2.getLsbD 0 then some n else none } : DAcc)
  match IFmt.f32.nanOf [xy, xx, yy] with
  | some r => { code := r.1, fl := 0, nv := none }
  | none =>
    match IFmt.f32.dec xy, ex, ey with
    | p, .fin _ a e1, .fin _ b e2 =>
      if a = 0 ∨ b = 0 then fin (IFmt.f32.nanCode, flNV)
      else match p with
        | .inf s => fin (IFmt.f32.signed s IFmt.f32.infCode, 0)
        | .fin s m e =>
          if m = 0 then fin (IFmt.f32.signed s 0, 0)
          else
            let E := 2 * e - e1 - e2
            let A := if E % 2 = 0 then m * m else 2 * (m * m)
            let E' := if E % 2 = 0 then E else E - 1
            let x := A * 2 ^ 400 / (a * b)
            let r := Nat.sqrt x
            let stick := if r * r * (a * b) = A * 2 ^ 400 then 0 else 1
            fin (IFmt.f32.deliver k.rm k.sat false s (2 * r + stick) (E' / 2 - 200 - 1))
        | .nan _ => fin (IFmt.f32.nanCode, 0)
    | p, _, _ =>
      let zero := (match ex with | .fin _ 0 _ => true | _ => false) || (match ey with | .fin _ 0 _ => true | _ => false)
      if zero then fin (IFmt.f32.nanCode, flNV)
      else match p with
        | .inf _ => fin (IFmt.f32.nanCode, flNV)
        | .fin s _ _ => fin (IFmt.f32.signed s 0, 0)
        | .nan _ => fin (IFmt.f32.nanCode, 0)

/-- Bits in which two codes differ. -/
def hamming (x y : Nat) : Nat := (List.range 16).countP fun i => (x ^^^ y).testBit i

/-- DIST of one lane: query and candidate codes, old d. Where several kinds of source raise NV, sr.evalue is the smallest
of their numbers (R144): DESIGN CHOICE, log 53. A lane that passes on a NaN keeps the flags of its other elements
(DEDUCED, log 53). -/
def distLane (t : DistTy) (m : DistMetric) (k : FMode) (n : Nat) (x y : Nat → Nat) (d : Word) : DAcc :=
  match m with
  | .ham =>
    { code := (d.toNat + (List.range n).foldl (fun a j => a + hamming (x j) (y j)) 0) % 2 ^ 32, fl := 0, nv := none }
  | _ =>
    let ex := fun j => (distElt t (x j)).1
    let ey := fun j => (distElt t (y j)).1
    let js := List.range n
    let fz := if js.any (fun j => (distElt t (x j)).2 != 0 || (distElt t (y j)).2 != 0) then flFZ else 0
    let snan := js.find? fun j => (ex j).isSnan || (ey j).isSnan
    let dn := match m with | .cos => none | _ => if (IFmt.f32.dec d.toNat).isNan then some d.toNat else none
    let nan := ((js.find? fun j => (ex j).isNan).map fun j => distNan t (x j))
      <|> ((js.find? fun j => (ey j).isNan).map fun j => distNan t (y j)) <|> (dn.map IFmt.f32.quiet)
    let r := match m with
      | .cos =>
        let xy := distAccum k n none fun j => distTerm false (ex j) (ey j)
        let xx := distAccum k n none fun j => distTerm false (ex j) (ex j)
        let yy := distAccum k n none fun j => distTerm false (ey j) (ey j)
        let c := cosStep k n xy.code xx.code yy.code
        { code := c.code, fl := xy.fl ||| xx.fl ||| yy.fl ||| c.fl,
          nv := minOpt (minOpt xy.nv (minOpt xx.nv yy.nv)) c.nv : DAcc }
      | .l2 => distAccum k n (some d.toNat) fun j => distTerm true (ex j) (ey j)
      | _ => distAccum k n (some d.toNat) fun j => distTerm false (ex j) (ey j)
    { code := nan.getD r.code
      fl := r.fl ||| fz ||| (if snan.isSome then flNV else 0)
      nv := minOpt r.nv snan }

/-- DIST type and metric whose operands are read as floating point (R123). -/
def distFloat : DistTy → Bool
  | .s8 => false | _ => true

/-- DIST (R135, R140 to R144). The lane that gives the query gives it though it may itself take trap 0x02 for a marker in
its candidate or in d: DESIGN CHOICE, log 53; and so does one that takes trap 0x07 there. -/
def execDist (g : Guard) (d a b : Reg) (t : DistTy) (m : DistMetric) (s : State) : Out :=
  runPath (.dist g d a b t m) g (fun s w gr ls =>
    let r := s.distRegs t
    let n := s.distDims
    let badA := fun l => beyond (w.lane l).base w.allot (a.toNat, r)
    let lead := if s.faulty = [] then none else s.queryLane (.dist g d a b t m) g a r w gr
    let refused := match lead with | some q => ls.filter (· < q) | none => ls.takeWhile badA
    let rest := match lead with | some q => ls.filter (q ≤ ·) | none => ls.dropWhile badA
    let tr01 := refused.map fun l => (l, LaneVal.trap (trapWith 0x01 (encode (.dist g d a b t m))))
    match rest with
    | [] => .go s (valEnd d.toNat tr01)
    | q :: _ =>
      let qf := w.lane (lead.getD q)
      let regsOf := fun (f : Fibre) (field : Nat) => (List.range r).map fun i => f.get false (field + i)
      match (if distFloat t then markerTrap gr (regsOf qf a.toNat) else none) with
      | some tr => .go s (valEnd d.toNat (tr01 ++ rest.map fun l => (l, .trap tr)))
      | none =>
        let readsD := match m with | .l2 | .ip => true | _ => false
        let p := splitMarked gr (distFloat t) (fun l => regsOf (w.lane l) b.toNat ++
          (if readsD then [(w.lane l).get false d.toNat] else [])) rest
        .go s (valEnd d.toNat (tr01 ++ p.1 ++ p.2.map fun l =>
          let x := distLane t m (s.fmode .f32) n (distCode t qf a.toNat) (distCode t (w.lane l) b.toNat)
            ((w.lane l).get false d.toNat)
          (l, match x.nv with
            | some j => if s.invOn w then .trap (trapWith 0x03 (BitVec.ofNat 32 j))
                        else .write (BitVec.ofNat 32 x.code) x.fl
            | none => .write (BitVec.ofNat 32 x.code) x.fl)))) s

/-! ### TOPK (R142 to R144) -/

/-- Whether entry x ranks strictly before y: key, then id. -/
def topkBefore (desc : Bool) (x y : Word × Word) : Bool :=
  let kx := IFmt.f32.dec x.1.toNat
  let ky := IFmt.f32.dec y.1.toNat
  if kx.isNan && ky.isNan then x.2.ult y.2
  else if kx.isNan then false
  else if ky.isNan then true
  else if (if desc then fvalLt false ky kx else fvalLt false kx ky) then true
  else if (if desc then fvalLt false kx ky else fvalLt false ky kx) then false
  else x.2.ult y.2

/-- Inserts an entry after every entry that it does not rank before. -/
def topkInsert (desc : Bool) (x : Word × Word) : List (Word × Word) → List (Word × Word)
  | [] => [x]
  | y :: rest => if topkBefore desc x y then x :: y :: rest else y :: topkInsert desc x rest

/-- A stable sort. -/
def topkSort (desc : Bool) (l : List (Word × Word)) : List (Word × Word) :=
  l.foldl (fun acc x => topkInsert desc x acc) []

/-- Writes list entry i to slot i, at physical registers P and P + 1. -/
def writeList (p : Nat) (es : List (Word × Word)) (fs : List Fibre) : List Fibre :=
  fs.mapIdx fun i f => match es[i]? with
    | some e => { f with regs := (f.regs.set p e.1).set (p + 1) e.2 }
    | none => f

/-- TOPK (R142). Where every executing fibre takes the marker trap there is no candidate, and the list is still sorted and
written (DESIGN CHOICE, log 53); no fibre is then left whose retirement would set NV for a signalling key of the list, and none
is set (DESIGN CHOICE, log 54). -/
def execTopk (g : Guard) (d a b : Reg) (desc : Bool) (s : State) : Out :=
  runPath (.topk g d a b desc) g (fun s w gr ls =>
    let k := s.topkSlots
    let p := (w.lane ((guardLanes w s.cur.pc g).headD 0)).base + d.toNat
    if w.width < k ∨ w.allot < p + 2 then
      .go s fun _ f => .trap f (trapWith 0x01 (encode (.topk g d a b desc)))
    else
      let key := fun l => (w.lane l).get false a.toNat
      let m := splitMarked gr true (fun l => [key l]) ls
      let list := (List.range k).map fun i =>
        let f := w.lane i
        (f.regs.getD p 0, f.regs.getD (p + 1) 0)
      let snan := fun (x : Word) => (IFmt.f32.dec x.toNat).isSnan
      let nv := (m.2.find? fun l => snan (key l)) <|> ((list.findIdx? fun e => snan e.1).map (64 + ·))
      match (if s.invOn w then nv else none) with
      | some e =>
        .go s (valEnd d.toNat (m.1 ++ m.2.map fun l => (l, .trap (trapWith 0x03 (BitVec.ofNat 32 e)))))
      | none =>
        let es := (topkSort desc (list ++ m.2.map fun l => (key l, (w.lane l).get false b.toNat))).take k
        let fl := if nv.isSome then flNV else 0
        .go ((s.setWave s.cur.wave { w with fibres := writeList p es w.fibres }).cure
            ((List.range k).flatMap fun i => [.lane s.cur.wave i p, .lane s.cur.wave i (p + 1)]))
          (valEnd d.toNat (m.1 ++ m.2.map fun l => (l, .same fl)))) s

end Sys2Proof.Machine
end

