-- ==== Sys2Proof/Machine/Dispatch.lean ====
section
/-! DEFINITION. The one dispatch over the instructions: one arm for each row of spec/opcode_table.json. -/

namespace Sys2Proof.Machine

def exec (i : Instr) (s : State) : Host.Outcome State Fault Refusal :=
  match i with
  | .nop g => Sys2Proof.Machine.execNop g s
  | .trap g code => Sys2Proof.Machine.execTrap g code s
  | .rte g => Sys2Proof.Machine.execRte g s
  | .rteReg g a => Sys2Proof.Machine.execRteReg g a s
  | .brk g => Sys2Proof.Machine.execBrk g s
  | .yield g => Sys2Proof.Machine.execYield g s
  | .fend g => Sys2Proof.Machine.execFend g s
  | .chkerr g d => Sys2Proof.Machine.execChkerr g d s
  | .nopre g => Sys2Proof.Machine.execNopre g s
  | .preon g => Sys2Proof.Machine.execPreon g s
  | .perfq g d a => Sys2Proof.Machine.execPerfq g d a s
  | .livetile g m => Sys2Proof.Machine.execLivetile g m s
  | .errinj g a => Sys2Proof.Machine.execErrinj g a s
  | .bra g off => Sys2Proof.Machine.execBra g off s
  | .call g sh off => Sys2Proof.Machine.execCall g sh off s
  | .jmpi g a => Sys2Proof.Machine.execJmpi g a s
  | .calli g a sh => Sys2Proof.Machine.execCalli g a sh s
  | .ret g => Sys2Proof.Machine.execRet g s
  | .fork g d a imm => Sys2Proof.Machine.execFork g d a imm s
  | .join g j => Sys2Proof.Machine.execJoin g j s
  | .waitj g j => Sys2Proof.Machine.execWaitj g j s
  | .jclr g j => Sys2Proof.Machine.execJclr g j s
  | .loop g c a imm => Sys2Proof.Machine.execLoop g c a imm s
  | .ubr g imm => Sys2Proof.Machine.execUbr g imm s
  | .popd g d => Sys2Proof.Machine.execPopd g d s
  | .dpush g d a b => Sys2Proof.Machine.execDpush g d a b s
  | .dcnt g d a => Sys2Proof.Machine.execDcnt g d a s
  | .iadd g d a b => Sys2Proof.Machine.execIadd g d a b s
  | .isub g d a b => Sys2Proof.Machine.execIsub g d a b s
  | .and g d a b => Sys2Proof.Machine.execAnd g d a b s
  | .or g d a b => Sys2Proof.Machine.execOr g d a b s
  | .xor g d a b => Sys2Proof.Machine.execXor g d a b s
  | .andn g d a b => Sys2Proof.Machine.execAndn g d a b s
  | .shl g d a b => Sys2Proof.Machine.execShl g d a b s
  | .shr g d a b => Sys2Proof.Machine.execShr g d a b s
  | .sar g d a b => Sys2Proof.Machine.execSar g d a b s
  | .rotl g d a b => Sys2Proof.Machine.execRotl g d a b s
  | .imin g d a b => Sys2Proof.Machine.execImin g d a b s
  | .imax g d a b => Sys2Proof.Machine.execImax g d a b s
  | .umin g d a b => Sys2Proof.Machine.execUmin g d a b s
  | .umax g d a b => Sys2Proof.Machine.execUmax g d a b s
  | .iadds g d a b => Sys2Proof.Machine.execIadds g d a b s
  | .iabsd g d a b => Sys2Proof.Machine.execIabsd g d a b s
  | .iaddi g d a imm => Sys2Proof.Machine.execIaddi g d a imm s
  | .andi g d a imm => Sys2Proof.Machine.execAndi g d a imm s
  | .ori g d a imm => Sys2Proof.Machine.execOri g d a imm s
  | .xori g d a imm => Sys2Proof.Machine.execXori g d a imm s
  | .shfi g d a k n => Sys2Proof.Machine.execShfi g d a k n s
  | .movi g d imm => Sys2Proof.Machine.execMovi g d imm s
  | .movhi g d imm => Sys2Proof.Machine.execMovhi g d imm s
  | .imul g d a b => Sys2Proof.Machine.execImul g d a b s
  | .imulhs g d a b => Sys2Proof.Machine.execImulhs g d a b s
  | .imulhu g d a b => Sys2Proof.Machine.execImulhu g d a b s
  | .imad g d a b => Sys2Proof.Machine.execImad g d a b s
  | .idp4s g d a b => Sys2Proof.Machine.execIdp4s g d a b s
  | .idp4u g d a b => Sys2Proof.Machine.execIdp4u g d a b s
  | .popc g d a => Sys2Proof.Machine.execPopc g d a s
  | .clz g d a => Sys2Proof.Machine.execClz g d a s
  | .brev g d a => Sys2Proof.Machine.execBrev g d a s
  | .bfe g d a b => Sys2Proof.Machine.execBfe g d a b s
  | .bfes g d a b => Sys2Proof.Machine.execBfes g d a b s
  | .bfi g d a b => Sys2Proof.Machine.execBfi g d a b s
  | .bpick g d a b => Sys2Proof.Machine.execBpick g d a b s
  | .iadd64 g d a b => Sys2Proof.Machine.execIadd64 g d a b s
  | .isub64 g d a b => Sys2Proof.Machine.execIsub64 g d a b s
  | .lea64s0 g d a b => Sys2Proof.Machine.execLea64s0 g d a b s
  | .lea64s1 g d a b => Sys2Proof.Machine.execLea64s1 g d a b s
  | .lea64s2 g d a b => Sys2Proof.Machine.execLea64s2 g d a b s
  | .lea64s3 g d a b => Sys2Proof.Machine.execLea64s3 g d a b s
  | .imulw g d a b => Sys2Proof.Machine.execImulw g d a b s
  | .shl64 g d a b => Sys2Proof.Machine.execShl64 g d a b s
  | .shr64 g d a b => Sys2Proof.Machine.execShr64 g d a b s
  | .mov g d a pair => Sys2Proof.Machine.execMov g d a pair s
  | .movs g d a part => Sys2Proof.Machine.execMovs g d a part s
  | .movsr g d a pair => Sys2Proof.Machine.execMovsr g d a pair s
  | .movsw g chk a => Sys2Proof.Machine.execMovsw g chk a s
  | .movpw g d => Sys2Proof.Machine.execMovpw g d s
  | .movwp g a => Sys2Proof.Machine.execMovwp g a s
  | .sel g d a b neg p => Sys2Proof.Machine.execSel g d a b neg p s
  | .icmp g pd pe a b cc => Sys2Proof.Machine.execIcmp g pd pe a b cc s
  | .fcmp g pd pe a b cc => Sys2Proof.Machine.execFcmp g pd pe a b cc s
  | .plop g pd pe x y op => Sys2Proof.Machine.execPlop g pd pe x y op s
  | .fadd g d a b t => Sys2Proof.Machine.execFadd g d a b t s
  | .fsub g d a b t => Sys2Proof.Machine.execFsub g d a b t s
  | .fmul g d a b t => Sys2Proof.Machine.execFmul g d a b t s
  | .fma g d a b t => Sys2Proof.Machine.execFma g d a b t s
  | .fnma g d a b t => Sys2Proof.Machine.execFnma g d a b t s
  | .fms g d a b t => Sys2Proof.Machine.execFms g d a b t s
  | .fnms g d a b t => Sys2Proof.Machine.execFnms g d a b t s
  | .fmin g d a b t => Sys2Proof.Machine.execFmin g d a b t s
  | .fmax g d a b t => Sys2Proof.Machine.execFmax g d a b t s
  | .fminn g d a b t => Sys2Proof.Machine.execFminn g d a b t s
  | .fmaxn g d a b t => Sys2Proof.Machine.execFmaxn g d a b t s
  | .cvt g d a op => Sys2Proof.Machine.execCvt g d a op s
  | .rcp g d a => Sys2Proof.Machine.execRcp g d a s
  | .rsq g d a => Sys2Proof.Machine.execRsq g d a s
  | .sqrt g d a => Sys2Proof.Machine.execSqrt g d a s
  | .exp2 g d a => Sys2Proof.Machine.execExp2 g d a s
  | .log2 g d a => Sys2Proof.Machine.execLog2 g d a s
  | .sinpi g d a => Sys2Proof.Machine.execSinpi g d a s
  | .cospi g d a => Sys2Proof.Machine.execCospi g d a s
  | .tanh g d a => Sys2Proof.Machine.execTanh g d a s
  | .fclass g d a => Sys2Proof.Machine.execFclass g d a s
  | .shfl g d a b m => Sys2Proof.Machine.execShfl g d a b m s
  | .voteAll g pd pa => Sys2Proof.Machine.execVoteAll g pd pa s
  | .voteAny g pd pa => Sys2Proof.Machine.execVoteAny g pd pa s
  | .voteBallot g d pa hi => Sys2Proof.Machine.execVoteBallot g d pa hi s
  | .scan g d a op ex => Sys2Proof.Machine.execScan g d a op ex s
  | .wred g d a op => Sys2Proof.Machine.execWred g d a op s
  | .dist g d a b t m => Sys2Proof.Machine.execDist g d a b t m s
  | .topk g d a b desc => Sys2Proof.Machine.execTopk g d a b desc s
  | .lds g d a ord scp w ch => Sys2Proof.Machine.execLds g d a ord scp w ch s
  | .sts g d a ord scp w ch => Sys2Proof.Machine.execSts g d a ord scp w ch s
  | .atoms g d a b op => Sys2Proof.Machine.execAtoms g d a b op s
  | .bara g b => Sys2Proof.Machine.execBara g b s
  | .barw g b => Sys2Proof.Machine.execBarw g b s
  | .bars g b => Sys2Proof.Machine.execBars g b s
  | .barc g a b => Sys2Proof.Machine.execBarc g a b s
  | .ldg g d a ord scp w ch => Sys2Proof.Machine.execLdg g d a ord scp w ch s
  | .stg g d a ord scp w ch => Sys2Proof.Machine.execStg g d a ord scp w ch s
  | .stgMsg g d a ord scp w ch => Sys2Proof.Machine.execStgMsg g d a ord scp w ch s
  | .stgClrpoison g d a ord scp w ch => Sys2Proof.Machine.execStgClrpoison g d a ord scp w ch s
  | .pref g a scp w ch => Sys2Proof.Machine.execPref g a scp w ch s
  | .atom g d a ord scp op => Sys2Proof.Machine.execAtom g d a ord scp op s
  | .redm g d a ord scp op => Sys2Proof.Machine.execRedm g d a ord scp op s
  | .waitc g d a ord scp c w64 => Sys2Proof.Machine.execWaitc g d a ord scp c w64 s
  | .scatb g a b => Sys2Proof.Machine.execScatb g a b s
  | .scatf g d a => Sys2Proof.Machine.execScatf g d a s
  | .qpush g k a => Sys2Proof.Machine.execQpush g k a s
  | .qpop g d k => Sys2Proof.Machine.execQpop g d k s
  | .qtry g d k => Sys2Proof.Machine.execQtry g d k s
  | .qcnt g d k => Sys2Proof.Machine.execQcnt g d k s
  | .waitn g ld st cp tl => Sys2Proof.Machine.execWaitn g ld st cp tl s
  | .sleept g a => Sys2Proof.Machine.execSleept g a s
  | .signset g c a b => Sys2Proof.Machine.execSignset g c a b s
  | .signclr g c => Sys2Proof.Machine.execSignclr g c s
  | .mmq g c acc sa vb t => Sys2Proof.Machine.execMmq g c acc sa vb t s
  | .accz g t => Sys2Proof.Machine.execAccz g t s
  | .accrd g d a t => Sys2Proof.Machine.execAccrd g d a t s
  | .accwr g d a t => Sys2Proof.Machine.execAccwr g d a t s
  | .acccv g a t => Sys2Proof.Machine.execAcccv g a t s
  | .mdrain g a => Sys2Proof.Machine.execMdrain g a s
  | .mrest g a => Sys2Proof.Machine.execMrest g a s
  | .mstat g d a => Sys2Proof.Machine.execMstat g d a s
  | .freeze g d a b => Sys2Proof.Machine.execFreeze g d a b s
  | .thaw g d a => Sys2Proof.Machine.execThaw g d a s
  | .fquery g d a => Sys2Proof.Machine.execFquery g d a s
  | .tokw g => Sys2Proof.Machine.execTokw g s
  | .tokp g => Sys2Proof.Machine.execTokp g s
  | .stepp g d a b => Sys2Proof.Machine.execStepp g d a b s
  | .stepr g d a b => Sys2Proof.Machine.execStepr g d a b s
  | .stepq g d b => Sys2Proof.Machine.execStepq g d b s
  | .ximm p => Sys2Proof.Machine.execXimm p s
  | .xop p => Sys2Proof.Machine.execXop p s
  | .mod inv msg clr sat rm => Sys2Proof.Machine.execMod inv msg clr sat rm s
  | .sched yld reuse stall => Sys2Proof.Machine.execSched yld reuse stall s
  | .xoff p => Sys2Proof.Machine.execXoff p s
  | .faultRecordPost k => Sys2Proof.Machine.execFaultRecordPost k s
  | .waveEnd w => Sys2Proof.Machine.execWaveEnd w s
  | .mmqIssue q => Sys2Proof.Machine.execMmqIssue q s
  | .mmqCommit q c => Sys2Proof.Machine.execMmqCommit q c s
  | .tilesOperationComplete k => Sys2Proof.Machine.execTilesOperationComplete k s
  | .copyCompletion k inp => Sys2Proof.Machine.execCopyCompletion k inp s
  | .sleeptWake w => Sys2Proof.Machine.execSleeptWake w s
  | .waitcRelease w lane => Sys2Proof.Machine.execWaitcRelease w lane s
  | .waitcTimeout w lane => Sys2Proof.Machine.execWaitcTimeout w lane s
  | .monitorPoll w lane => Sys2Proof.Machine.execMonitorPoll w lane s
  | .waveSwapOut w => Sys2Proof.Machine.execWaveSwapOut w s
  | .waveReturn w => Sys2Proof.Machine.execWaveReturn w s
  | .watchArm n => Sys2Proof.Machine.execWatchArm n s
  | .watchDisarm n => Sys2Proof.Machine.execWatchDisarm n s
  | .watchFire n => Sys2Proof.Machine.execWatchFire n s
  | .codePageScan k => Sys2Proof.Machine.execCodePageScan k s
  | .map q => Sys2Proof.Machine.execMap q s
  | .unmap q => Sys2Proof.Machine.execUnmap q s
  | .protect q => Sys2Proof.Machine.execProtect q s
  | .split q => Sys2Proof.Machine.execSplit q s
  | .unfix q => Sys2Proof.Machine.execUnfix q s
  | .resolve q => Sys2Proof.Machine.execResolve q s
  | .asidnew q => Sys2Proof.Machine.execAsidnew q s
  | .asidfree q => Sys2Proof.Machine.execAsidfree q s
  | .mappingCompletion q => Sys2Proof.Machine.execMappingCompletion q s
  | .freezeComplete k => Sys2Proof.Machine.execFreezeComplete k s
  | .replicaMake page dev => Sys2Proof.Machine.execReplicaMake page dev s
  | .replicaDrop page dev => Sys2Proof.Machine.execReplicaDrop page dev s
  | .replicaCollect page dev => Sys2Proof.Machine.execReplicaCollect page dev s
  | .thawComplete page => Sys2Proof.Machine.execThawComplete page s
  | .agentDeath a => Sys2Proof.Machine.execAgentDeath a s
  | .stageRelease t => Sys2Proof.Machine.execStageRelease t s
  | .deterministicWatchdog t => Sys2Proof.Machine.execDeterministicWatchdog t s
  | .phaseEnd p => Sys2Proof.Machine.execPhaseEnd p s
  | .gridCompletion k => Sys2Proof.Machine.execGridCompletion k s
  | .mailboxMessage m => Sys2Proof.Machine.execMailboxMessage m s
  | .launch m => Sys2Proof.Machine.execLaunch m s
  | .teamPlacement => Sys2Proof.Machine.execTeamPlacement s
  | .scratchpadAllotmentCleared t => Sys2Proof.Machine.execScratchpadAllotmentCleared t s
  | .partitionHalt p => Sys2Proof.Machine.execPartitionHalt p s
  | .contextSave p => Sys2Proof.Machine.execContextSave p s
  | .contextRestore p => Sys2Proof.Machine.execContextRestore p s
  | .nopreOverrun w => Sys2Proof.Machine.execNopreOverrun w s
  | .inFieldTest p => Sys2Proof.Machine.execInFieldTest p s
  | .vesperBankTest p bank => Sys2Proof.Machine.execVesperBankTest p bank s
  | .inFieldTestResult p pass => Sys2Proof.Machine.execInFieldTestResult p pass s
  | .fatalError => Sys2Proof.Machine.execFatalError s
  | .throttleHalving p => Sys2Proof.Machine.execThrottleHalving p s
  | .stallSample c x => Sys2Proof.Machine.execStallSample c x s
  | .clockSwitch c => Sys2Proof.Machine.execClockSwitch c s
  | .crossingResync c => Sys2Proof.Machine.execCrossingResync c s
  | .levelChangeComplete c => Sys2Proof.Machine.execLevelChangeComplete c s
  | .perfqHoldExpiry c => Sys2Proof.Machine.execPerfqHoldExpiry c s
  | .powerLimitCheck watts => Sys2Proof.Machine.execPowerLimitCheck watts s
  | .heatReductionFall c => Sys2Proof.Machine.execHeatReductionFall c s
  | .hostSnoop line => Sys2Proof.Machine.execHostSnoop line s
  | .hostLinkLoss => Sys2Proof.Machine.execHostLinkLoss s
  | .reset => Sys2Proof.Machine.execReset s
  | .powerGating => Sys2Proof.Machine.execPowerGating s
  | .spdmRequest nonce => Sys2Proof.Machine.execSpdmRequest nonce s
  | .peerLeave p => Sys2Proof.Machine.execPeerLeave p s
  | .commandRingEnable en => Sys2Proof.Machine.execCommandRingEnable en s
  | .commandRingTail v => Sys2Proof.Machine.execCommandRingTail v s
  | .registerWrite r v => Sys2Proof.Machine.execRegisterWrite r v s
  | .mbbind => Sys2Proof.Machine.execMbbind s
  | .mbfree => Sys2Proof.Machine.execMbfree s
  | .swbind => Sys2Proof.Machine.execSwbind s
  | .swfree => Sys2Proof.Machine.execSwfree s
  | .scrub => Sys2Proof.Machine.execScrub s
  | .kill => Sys2Proof.Machine.execKill s
  | .inject => Sys2Proof.Machine.execInject s
  | .preempt => Sys2Proof.Machine.execPreempt s
  | .epnew => Sys2Proof.Machine.execEpnew s
  | .epgo => Sys2Proof.Machine.execEpgo s
  | .epkill => Sys2Proof.Machine.execEpkill s
  | .epfree => Sys2Proof.Machine.execEpfree s
  | .pairbind => Sys2Proof.Machine.execPairbind s
  | .pairfree => Sys2Proof.Machine.execPairfree s
  | .epbudget => Sys2Proof.Machine.execEpbudget s
  | .ecallWait e limit => Sys2Proof.Machine.execEcallWait e limit s
  | .ecallExit e code => Sys2Proof.Machine.execEcallExit e code s
  | .ecallYield e => Sys2Proof.Machine.execEcallYield e s
  | .ecallOther e => Sys2Proof.Machine.execEcallOther e s
  | .episodeWaitLimit e => Sys2Proof.Machine.execEpisodeWaitLimit e s
  | .episodeQuantum e => Sys2Proof.Machine.execEpisodeQuantum e s
  | .episodeAccessDenied e => Sys2Proof.Machine.execEpisodeAccessDenied e s
  | .episodeException e => Sys2Proof.Machine.execEpisodeException e s
  | .observationPost p => Sys2Proof.Machine.execObservationPost p s
  | .stepWatchdog e => Sys2Proof.Machine.execStepWatchdog e s
  | .storeCompletion k => Sys2Proof.Machine.execStoreCompletion k s
  | .atomicCompletion w lane => Sys2Proof.Machine.execAtomicCompletion w lane s
  | .asynchronousEngineFault o => Sys2Proof.Machine.execAsynchronousEngineFault o s
  | .hostOrPeerRequest r => Sys2Proof.Machine.execHostOrPeerRequest r s
  | .powerLimitSet watts => Sys2Proof.Machine.execPowerLimitSet watts s

end Sys2Proof.Machine
end

