-- ==== Sys2Proof/Machine/Run.lean ====
section
/-! DEFINITION. Who moves: the agenda of outside choices, the events that happen by themselves, and the paths in turn
(log 1); and how one word is placed so that the next step fetches it. -/

namespace Sys2Proof.Machine

/-! ### One word, one event -/

/-- The next word of the path at `s.cur` is fetched and executed. -/
def runWord (s : State) : Out :=
  match s.issue with
  | .done s1 => .next s1
  | .fault e => .fault e
  | .refused r => .refused r
  | .run s1 i => exec i s1

/-- Paths that had to wait are chosen again once a bundle has come to its end without a wait (log 1). -/
def State.retry (before s : State) : State :=
  if s.bundle = [] ∧ s.tried = before.tried then { s with tried := [] } else s

/-- An event of the opcode table happens. -/
def runEvent (i : Instr) (s : State) : Out :=
  if i.guard?.isSome || i.isHint then .next s else exec i s

/-- Events one after another. -/
def runEvents (s : State) : List Instr → Out
  | [] => .next s
  | i :: is => match runEvent i s with
    | .next t => runEvents t is
    | r => r

/-- Every 1,024 clocks of a cluster since state `before` its partitions halve their scores (R64; the phase is log 47). -/
def State.halvings (before s : State) : State :=
  (List.range s.clusters.length).foldl (fun s k =>
    let n := min 64 (s.clkOf (4 * k) / 1024000 - before.clkOf (4 * k) / 1024000)
    if n = 0 then s
    else (List.range 32).foldl (fun s p => (List.range n).foldl (fun s _ => s.throttle (32 * k + p)) s) s) s

/-- Chip time advances by n ticks, with the halvings that fall in them. -/
def State.pass (s : State) (n : Nat) : State := s.halvings (s.advance n)

/-- Chip time advances by up to n ticks: not past a moment at which something must happen. -/
def State.elapse (s : State) (n : Nat) : State := s.pass (s.room n)

/-- What an entry of the agenda does that is no issue: whatever had to wait is tried again after it. -/
def runInput (t : Turn) (s : State) : Out :=
  match t with
  | .issue _ _ => .next s
  | .event i => runEvent i s
  | .tick n =>
    let m := s.room n
    .next { s.pass m with agenda := if m = n then s.agenda else .tick (n - m) :: s.agenda }
  | .evict c l => .next (s.evictLine c l)
  | .lapse l => .next (s.lapseLine l)
  | .flush l => .next (s.flushLine l)
  | .defer b => .next { s with defer := b }
  | .floor k f => .next (s.setFloor k f)
  | .spoil p => .next (s.spoil p)
  | .spoilTile q x => .next (s.spoilTile q x)
  | .mismatch core part zen first again => .next (s.mismatch core part zen first again)
  | .fails x => .next { s with failing := x }
  | .bar0Write off bs => if s.linkUp then runEvents s (bar0Writes off bs (bs.length + 1)) else .next s
  | .bar0Read off => .next (s.bar0Read off)
  | .domain n peers => .next (s.formDomain n peers)
  | .peerStore key bs => .next (s.peerStore key bs)
  | .peerCount block n => .next (s.peerCount block n)
  | .hart e h => .next (s.moveHart e h)
  | .fence e => .next (s.fenceHart e)
  | .csr e n rd => .next (s.csrHart e n rd)
  | .csrWrite e n v => .next (s.csrSet e n v)
  | .misa => .next (s.emit (.register 0x301 misa))
  | .form => .next (s.emit (.report (if s.isModule then "CD-8260-M" else "CD-8260-P") 0 0))
  | .flash images => .next { s with firmware := images }

/-- What an entry of the agenda does (log 1). -/
def runTurn (t : Turn) (s : State) : Out :=
  match t with
  | .issue w pc =>
    if s.dev == .running && s.choosable w pc then andThen (runWord { s with cur := { wave := w, pc := pc } }) s.retry
    else .next s
  | t => runInput t { s with tried := [] }

/-! ### Events that happen by themselves -/

/-- The first number below n that satisfies p, as an event. -/
def firstEvent (n : Nat) (p : Nat → Bool) (f : Nat → Instr) : Option Instr := (firstFrom p n 0).map f

/-- The first lane of a wave's fibres that satisfies p, over all waves. -/
def State.firstFibre (s : State) (p : Nat → Nat → Fibre → Bool) (f : Nat → Nat → Instr) : Option Instr :=
  (s.waves.zipIdx).findSome? fun w => (w.1.fibres.zipIdx.find? fun x => p w.2 x.2 x.1).map fun x => f w.2 x.2

/-- Whether a halt that was requested can go on: a wave can halt, or the halt can complete. -/
def State.haltMoves (s : State) (p : Nat) : Bool :=
  match s.parts[p]? with
  | some x => x.halt == .requested &&
      ((s.waves.any fun w => s.mustHalt p w && w.nopre.isNone) ||
        (!s.inWindow p && (!s.ownerLeaves p ||
          (!s.saverBusy p && (match s.quads[p / 4]? with | some q => q.pipe.isEmpty | none => true)))))
  | none => false

/-- Events of the partitions. -/
def State.partEvent (s : State) : Option Instr :=
  firstEvent s.waves.length (fun w => match s.waves[w]? with
    | some x => x.stat == .resident && (match x.nopre with | some n => n.out s.now != 0 | none => false)
    | none => false) .nopreOverrun
  <|> firstEvent s.parts.length s.haltMoves .partitionHalt
  <|> firstEvent s.parts.length s.canSave .contextSave
  <|> firstEvent s.parts.length s.canRestore .contextRestore

/-- Completions of what has left the cores. -/
def State.completionEvent (s : State) : Option Instr :=
  firstEvent s.pend.length (fun k => match s.pend[k]? with | some p => !s.storeFlies p | none => false) .storeCompletion
  <|> s.firstFibre (fun w l _ => s.canLand w l) .atomicCompletion
  <|> firstEvent s.freezes.length (fun k => match s.freezeComplete k with
      | .next t => t.freezes != s.freezes | _ => true) .freezeComplete
  <|> firstEvent s.quads.length s.canIssue .mmqIssue
  <|> firstEvent s.quads.length (fun q => match s.quads[q]? with | some x => !x.pipe.isEmpty | none => false)
      (fun q => .mmqCommit q .agree)
  <|> firstEvent s.tileOps.length (fun k => match s.completeTiles k with
      | .next t => t.tileOps.length != s.tileOps.length | _ => true) .tilesOperationComplete
  <|> firstEvent s.engine.length (fun k => match s.completeCopy k .moved with
      | .next t => t.engine != s.engine | _ => true) (fun k => .copyCompletion k .moved)
  <|> firstEvent s.engine.length (fun k => (s.engineFault (.copy k)).engine != s.engine)
      (fun k => .asynchronousEngineFault (.copy k))
  <|> firstEvent s.tileOps.length (fun k => (s.engineFault (.tiles k)).tileOps != s.tileOps)
      (fun k => .asynchronousEngineFault (.tiles k))

/-- Waits that are over. -/
def State.wakeEvent (s : State) : Option Instr :=
  firstEvent s.waves.length (fun w => match s.waves[w]? with
    | some x => x.stat == .resident && x.fibres.any (·.wakes (lo32 s.time)) | none => false) .sleeptWake
  <|> s.firstFibre (fun w l f => match f.park with
      | some { why := .monitor m, .. } => m.entry && s.watching w && (match s.monitorRead w l with
        | some (_, m, r) => wcondBytes m.cond m.w64 r.2.1 m.x | none => false)
      | _ => false) .waitcRelease
  <|> s.firstFibre (fun w _ f => match f.park with
      | some { why := .monitor m, .. } => !m.entry && s.watching w && decide (m.next ≤ s.now)
      | _ => false) .monitorPoll
  <|> s.firstFibre (fun w _ f => match f.park with
      | some { why := .monitor m, .. } => s.watching w && (match m.deadline with | some t => decide (t ≤ s.now) | none => false)
      | _ => false) .waitcTimeout
  <|> firstEvent s.waves.length (fun w => match s.waves[w]? with | some x => s.canReturn x | none => false) .waveReturn

/-- Whether a head of the distributor's queue can be placed now, or teams can leave for it. -/
def State.headMoves (s : State) (h : Head) : Bool :=
  let tid := match h with | .again t => some t | .next _ => none
  let g := match h with
    | .again t => s.teams[t]?.bind fun x => s.grids[x.grid]?
    | .next k => s.grids[k]?
  match g with
  | some g => (s.bestCore g tid).isSome || (!s.evicting && (s.choice g tid).isSome)
  | none => false

/-- Whether the work distributor can act: teams leave for a ready swapped-out wave, or else for the head of its queue, or
that is placed (R252, R335). -/
def State.placeable (s : State) : Bool :=
  match s.waveFirst ((s.head.map s.headPrio).getD 0) with
  | some l => !l.isEmpty && !s.evicting
  | none => match s.head with
    | none => false
    | some h => s.headMoves h

/-- The mailbox whose head message arrived first (R335). -/
def State.nextMailbox (s : State) : Option Nat :=
  (s.mailboxes.foldl (fun (best : Option (Nat × Nat)) m => match m.pending with
    | [] => best
    | x :: _ => match best with
      | some b => if x.seq < b.2 then some (m.num, x.seq) else best
      | none => some (m.num, x.seq)) none).map (·.1)

/-- Messages, launches, placement and completion. -/
def State.launchEvent (s : State) : Option Instr :=
  firstEvent s.flights.length (fun k => match s.flights[k]? with | some f => !s.flightWaits f && !s.flightBehind k f | none => false)
    (fun k => .mailboxMessage (.inFlight k))
  <|> firstEvent s.records.length s.canPost .faultRecordPost
  <|> s.nextMailbox.map .launch
  <|> firstEvent s.teams.length (fun t => match s.teams[t]? with | some x => x.placed && !x.cleared | none => false)
      .scratchpadAllotmentCleared
  <|> (if s.placeable then some .teamPlacement else none)
  <|> firstEvent s.teams.length (fun t => s.hasTurn t &&
        (match s.teams[t]? with | some x => !x.stage.isEmpty && x.drain.isNone | none => false) &&
        (s.stageRelease t).teams != s.teams) .stageRelease
  <|> firstEvent s.teams.length s.stuck .deterministicWatchdog
  <|> firstEvent s.grids.length s.gridOver .gridCompletion
  <|> firstEvent s.phases.length (fun p => s.phaseOver p && (s.phaseEnd p).phases != s.phases) .phaseEnd

/-- Replicas of thawing pages, and clusters. -/
def State.deviceEvent (s : State) : Option Instr :=
  (if s.failing != .other && s.isFatal s.failing then some .fatalError else none)
  <|> (s.pages.zipIdx.findSome? fun p => if p.1.st == .thawing then
      (match s.pageReps p.1 with | d :: _ => some (.replicaCollect p.2 d) | [] => some (.thawComplete p.2)) else none)
  <|> firstEvent s.clusters.length (fun c => !s.detResident && (s.clusters.getD c Cluster.clear).canSwitch s.now) .clockSwitch
  <|> firstEvent s.clusters.length (fun c => (s.clusters.getD c Cluster.clear).canResync s.now) .crossingResync
  <|> firstEvent s.clusters.length (fun c => !s.detResident && (s.clusters.getD c Cluster.clear).canComplete)
      .levelChangeComplete
  <|> firstEvent s.clusters.length (fun c => (s.clusters.getD c Cluster.clear).holdOver s.now) .perfqHoldExpiry
  <|> firstEvent s.clusters.length (fun c => (s.clusters.getD c Cluster.clear).canFall s.now) .heatReductionFall
  <|> firstEvent s.clusters.length (fun c => (s.clusters.getD c Cluster.clear).sampleDue s.now)
      (fun c => .stallSample c (s.heldSample c))
  <|> (if s.nextCheck ≤ s.now then some (.powerLimitCheck s.watts) else none)
  <|> firstEvent s.watches.length (fun i => match s.watches[i]? with
      | some x => x.en && (s.fireWatch i).watches != s.watches | none => false) .watchFire

/-- The row of the opcode table that executes an op of queue q. -/
def opEvent (q op : Nat) : Option Instr :=
  if q = 1 then match op with
    | 1 => some .epnew | 2 => some .epgo | 3 => some .epkill | 4 => some .epfree | 5 => some .pairbind
    | 6 => some .pairfree | 7 => some .epbudget | _ => none
  else match op with
    | 1 => some (.map q) | 2 => some (.unmap q) | 3 => some (.protect q) | 4 => some (.split q) | 5 => some (.unfix q)
    | 6 => some (.resolve q) | 7 => some (.asidnew q) | 8 => some (.asidfree q)
    | 0x100 => some .mbbind | 0x101 => some .mbfree | 0x102 => some .swbind | 0x103 => some .swfree
    | 0x104 => some .scrub | 0x105 => some .kill | 0x106 => some .inject | 0x107 => some .preempt
    | _ => none

/-- What the head command of queue q does next: its completion, its scan, or its effect if that can happen now. -/
def State.commandStep (s : State) (q : Nat) : Option Instr :=
  if s.commandOver q then some (.mappingCompletion q)
  else if (s.scanWanted q).isSome then some (.codePageScan q)
  else match (s.headCommand q).bind fun c => opEvent q (readCommand c.words).op with
    | some i => match exec i s with
      | .next t => if t.commands = s.commands then none else some i
      | _ => some i
    | none => none

/-- Commands, episodes and waiting requests. -/
def State.commandEvent (s : State) : Option Instr :=
  (s.commands.findSome? fun c => s.commandStep c.queue)
  <|> (s.episodes.find? (·.overBudget)).map (fun e => .stepWatchdog e.num)
  <|> (s.episodes.find? (·.limitOver s.now)).map (fun e => .episodeWaitLimit e.num)
  <|> (s.episodes.find? s.quantumOver).map (fun e => .episodeQuantum e.num)
  <|> (s.parkedReqs.find? s.canServe).map (fun x => .hostOrPeerRequest x.req)

/-- The first event that can happen by itself. -/
def State.autoEvent (s : State) : Option Instr :=
  s.partEvent <|> s.completionEvent <|> s.wakeEvent <|> s.commandEvent <|> s.launchEvent <|> s.deviceEvent

/-- When no path can issue, every wave that only waits for operands starts a new bound (R60, R61), and a tick passes. One that
the load-issue limit holds back, or in serial mode has other ready fibres, keeps its bound until it would miss it. -/
def State.idle (s : State) : State :=
  let free := fun (k : Nat) (w : Wave) =>
    if s.wants k w && !s.overdue w then w else { w with readySince := s.clkOf w.core }
  let s1 : State := { s with tried := [], waves := s.waves.mapIdx free }
  s1.pass (s1.alarms.foldl min 1)

/-- The machine moves by itself: the first event that can happen does, or else the next path issues. -/
def runAuto (s : State) : Out :=
  match s.autoEvent with
  | some i => exec i { s with tried := [] }
  | none => match s.nextPath with
    | some (k, w, pc) => andThen (runWord { s with cur := { wave := w, pc := pc }, turn := k + 1 }) s.retry
    | none => .next s.idle

/-- The state in which the machine moves by itself, if it does: with an empty agenda, after a tick, as far as one can pass;
and while the agenda lets ticks pass, at a moment at which something must happen first. -/
def State.moves (s : State) : Option State :=
  if s.dev == .running then
    match s.agenda with
    | [] => some (s.elapse 1)
    | .tick n :: _ => if n ≠ 0 ∧ s.room n = 0 then some s else none
    | _ => none
  else none

/-- One step: a bundle in progress goes on, else the machine moves by itself, else the agenda's next entry acts. A device
that does not run only takes the agenda, and boots when it is in reset and nothing is left there (log 1). -/
def run (s : State) : Out :=
  if s.dev == .running && !s.bundle.isEmpty then andThen (runWord s) s.retry
  else match s.moves with
    | some t => runAuto t
    | none => match s.agenda with
      | t :: rest => runTurn t { s with agenda := rest }
      | [] => .next s.boot

/-- One step, with what holds between steps restored. -/
def runStep (s : State) : Out := andThen (run s) (State.settle s)

/-! ### Placing one word (withFetchWord) -/

/-- A number above all of a list. -/
def fresh (xs : List Nat) : Nat := xs.foldl max 0 + 1

/-- The grid that a placed word runs in: one team of one wave, privileged, with matrix words allowed. -/
def demoGrid (handle asid phase : Nat) : Grid :=
  { handle := handle, asid := asid, mbx := 0, prio := 0, priv := true, stat := .running, refusal := 0,
    msg := List.replicate 8 0, gx := 1, gy := 1, gz := 1, teamSize := 1, width := 16, allot := 64, split := 1,
    scratch := 16384, pair := false, det := false, checkreg := false, fastswitch := false, invtrap := false,
    matrix := true, param := 0, cmbx := 0xFFFF, cstat := 0, user := 0, codeBase := 0x10000, entry := 0,
    zenEntry := some 0, trapEntry := some 0, trapwin := 0, arrival := 0, next := 1, killed := [], root := 0, rootHome := true,
    phase := phase, isRoot := true, turn := 0, ow := false, fixlost := false, psn := false, etr := false, xq := false,
    pcnt := 0, terms := 0, term := none, failedSlices := 0, failedSlice := 0, copyFails := 0, copyFail := 0,
    final := false }

/-- The team of a placed word. -/
def demoTeam (grid w : Nat) (now : Nat) : Team :=
  { grid := grid, idx := 0, tx := 0, ty := 0, tz := 0, core := 0, pair := false, waves := [w], zen := some (w + 1),
    sregs := [], bars := List.replicate 16 { expected := 1, arrivals := 0, gen := 0 }, scratch := [], scratch2 := [],
    cleared := true, ended := false, killed := false, placed := true, evict := false, saved := [], stage := [],
    drain := none, stageDie := 0, passed := false, token := 0, lastRetire := now }

/-- The page that holds a placed word. -/
def demoPage (asid : Nat) : Page :=
  { asid := asid, va := 0x10000, sz := 0, tgt := 0, rd := false, wr := false, x := true, priv := false, coh := 0,
    st := .owned, reps := [] }

/-- The state with a word in a page of its own, and a team whose next step fetches it: in the Zenith context where the
word is legal only there, else in lane 0 of a wave. -/
def placeWord (s : State) (w : Word) : State :=
  let asid := fresh (s.spaces.map (·.asid))
  let g := demoGrid s.serial asid s.phases.length
  let w0 := s.waves.length
  let live := launchFibre 0 (launchRegs g) [] (2 ^ 32)
  let wave := launchWave g s.teams.length 0 0 0 s.placings false (live :: List.replicate 15 { Fibre.empty with regs := launchRegs g })
  let zen := launchWave g s.teams.length 1 0 0 s.placings true [launchFibre 0 [] (launchSregs g) 1]
  let inZen := match decode w with | some i => zenOnly i | none => false
  let s1 : State := { s with
    waves := s.waves ++ [wave, zen]
    teams := s.teams ++ [demoTeam s.grids.length w0 s.now]
    grids := s.grids ++ [g]
    phases := s.phases ++ [{ expected := 2 ^ 32 + 1, returned := 0, grid := s.grids.length, buckets := [], record := none, ended := false }]
    spaces := s.spaces ++ [{ asid := asid, mbx := none, table := 0 }]
    pages := s.pages ++ [demoPage asid]
    mem := s.mem.writeN 0 (bytesOfWord w)
    dev := .running
    bundle := []
    agenda := [.issue (if inZen then w0 + 1 else w0) 0] }
  s1.modQuad 0 fun _ => { Quad.clear with owner := some s.teams.length }

end Sys2Proof.Machine
end

