-- ==== Sys2Proof/Machine/Step.lean ====
section
/-! DEFINITION. The step function, and the placement of one word for the host's probe (log 1). -/

namespace Sys2Proof.Machine

/-- One step of the machine: one word of one path, one event, or one input from outside. -/
def step (s : State) : Host.Outcome State Fault Refusal := runStep s

/-- `s` with the instruction whose bits are w stored where the next step fetches it, in a launch of its own. -/
def State.withFetchWord (s : State) (nbits w : Nat) : State :=
  placeWord s (BitVec.ofNat 32 (w % 2 ^ min nbits 32))

end Sys2Proof.Machine
end

