-- ==== Sys2Proof/Safety.lean ====
section
/-! DEFINITION. The terms that the claims use: when a word can run on the path at `s.cur`, what a retired bundle
leaves, and the invariants of the machine. -/

namespace Sys2Proof.Machine

/-! ### Running one word of wave or Zenith code -/

/-- Whether a lane breaks a context rule (R38, R39). -/
def LaneKind.isBad : LaneKind → Bool
  | .bad _ => true
  | _ => false

/-- Word `i` with guard `gd` can run on the path at `s.cur`: the path's wave is `w` of grid `g`, some lane executes
(R20), none breaks a context rule (R38), no injected report waits (R321), and nothing is uncorrectable (R315). -/
structure Ready (i : Instr) (gd : Guard) (s : State) (w : Wave) (g : Grid) : Prop where
  wave : s.waves[s.cur.wave]? = some w
  grid : s.gridOf w = some g
  calm : s.injects = []
  sound : s.faulty = []
  runs : execLanes (kindsOf s i gd w g) ≠ []
  legal : (kindsOf s i gd w g).any LaneKind.isBad = false

/-- As `Ready`, of a bundle in which some fibres of the path may break a context rule, and trap beside those that execute
(R38). -/
structure Begins (i : Instr) (gd : Guard) (s : State) (w : Wave) (g : Grid) : Prop where
  wave : s.waves[s.cur.wave]? = some w
  grid : s.gridOf w = some g
  calm : s.injects = []
  sound : s.faulty = []
  runs : execLanes (kindsOf s i gd w g) ≠ []

/-- What a bundle leaves in one lane: `after` where it executes, the next word where the guard is false (R20), nothing
outside the path. -/
def laneAfter (s : State) (ks : List LaneKind) (after : Nat → Fibre → Fibre) (l : Nat) (f : Fibre) : Fibre :=
  match ks.getD l .out with
  | .exec => after l f
  | .skip => f.advance s.nextPc s.lastPc
  | _ => f

/-- `t` is `s` after the bundle of the path at `s.cur` has retired with the lanes of `after`. In the issuing wave the
fibres, the flags raised, sr.perf by the bundle's words (R92), the window of NOPRE (R325) and the rotation (R58) change;
everything else in the machine stands. -/
def Retired (s t : State) (ks : List LaneKind) (fl : BitVec 6) (after : Nat → Fibre → Fibre) : Prop :=
  ∃ w w' : Wave, s.waves[s.cur.wave]? = some w ∧
    t = { s with waves := s.waves.set s.cur.wave w', bundle := [] } ∧
    w' = { w with
      fibres := w.fibres.mapIdx (laneAfter s ks after)
      fpflags := w.fpflags ||| fl
      perf := w.perf + BitVec.ofNat 32 (s.bundle.length + 1)
      nopre := w.nopre.map fun (p : NoPre) => { p with left := p.left - (s.bundle.length + 1) }
      rot := w'.rot
      streak := w'.streak
      waits := w'.waits
      yielded := w'.yielded
      serial := w'.serial
      quota := w'.quota }

/-- `t` is `s` with the path at `s.cur` waiting: its bundle runs again later, and only the scheduler's own fields change
(R58, R61, R63; log 1). -/
def Waits (s t : State) : Prop :=
  ∃ w w' : Wave, s.waves[s.cur.wave]? = some w ∧
    t = { s with waves := s.waves.set s.cur.wave w', bundle := [], tried := t.tried } ∧
    w' = { w with
      rot := w'.rot, streak := w'.streak, waits := w'.waits, serial := w'.serial, quota := w'.quota }

/-- What a bundle leaves in one lane when the executing fibres, and those that break a context rule, trap to `entry`
with a window shift of `win` (R311). -/
def laneTrapped (s : State) (ks : List LaneKind) (z : Bool) (entry : Pc) (win : Nat) (why : Nat → Fibre → TrapInfo)
    (l : Nat) (f : Fibre) : Fibre :=
  match ks.getD l .out with
  | .exec => f.enter z (why l f) s.cur.pc entry win
  | .bad t => f.enter z t s.cur.pc entry win
  | .skip => f.advance s.nextPc s.lastPc
  | .out => f

/-- The launch has a trap section at `entry`, and no fibre of the path is in a trap path. -/
structure CanTrap (ks : List LaneKind) (w : Wave) (g : Grid) (entry : Pc) : Prop where
  entry : g.trapEntry = some entry
  outside : ∀ l f, w.fibres[l]? = some f → ks.getD l .out ≠ .out → f.intrap = false

/-- `t` is `s` after a bundle whose executing fibres have trapped: the bundle has no other effect (R38, R41). Trap 0x07
leaves its error record in the wave (R315). -/
def Trapped (s t : State) (ks : List LaneKind) (entry : Pc) (win : Nat) (why : Nat → Fibre → TrapInfo) : Prop :=
  ∃ w w' : Wave, s.waves[s.cur.wave]? = some w ∧
    t = { s with waves := s.waves.set s.cur.wave w', bundle := [] } ∧
    w' = { w with
      fibres := w.fibres.mapIdx (laneTrapped s ks w.zen entry win why)
      etr := w'.etr
      err := w'.err
      perf := w'.perf
      nopre := w'.nopre
      rot := w'.rot
      streak := w'.streak
      waits := w'.waits
      yielded := w'.yielded
      serial := w'.serial
      quota := w'.quota } ∧
    ((∀ l f, (why l f).cause ≠ 0x07) → w'.etr = w.etr ∧ w'.err = w.err) ∧
    ∀ e, (∀ l f, why l f = trapSilent e) → w'.etr = true ∧ w'.err = e

/-- What a bundle leaves in one lane, where the executing lanes for which `why` names a trap take it, and so do the lanes that
break a context rule, while the others complete it (R38, R122). -/
def laneParted (s : State) (ks : List LaneKind) (z : Bool) (entry : Pc) (win : Nat) (why : Nat → Fibre → Option TrapInfo)
    (after : Nat → Fibre → Fibre) (l : Nat) (f : Fibre) : Fibre :=
  match ks.getD l .out, why l f with
  | .exec, some x => f.enter z x s.cur.pc entry win
  | .bad x, _ => f.enter z x s.cur.pc entry win
  | _, _ => laneAfter s ks after l f

/-- `t` is `s` after a bundle that some lanes leave by a trap, those that break a context rule and the executing ones for which
`why` names one, while the others complete it with the lanes of `after` and the flags `fl` (R38, R144). No trap is 0x07. -/
def PartTrapped (s t : State) (ks : List LaneKind) (fl : BitVec 6) (entry : Pc) (win : Nat)
    (why : Nat → Fibre → Option TrapInfo) (after : Nat → Fibre → Fibre) : Prop :=
  ∃ w w' : Wave, s.waves[s.cur.wave]? = some w ∧
    t = { s with waves := s.waves.set s.cur.wave w', bundle := [] } ∧
    w' = { w with
      fibres := w.fibres.mapIdx (laneParted s ks w.zen entry win why after)
      fpflags := w.fpflags ||| fl
      perf := w'.perf
      nopre := w'.nopre
      rot := w'.rot
      streak := w'.streak
      waits := w'.waits
      yielded := w'.yielded
      serial := w'.serial
      quota := w'.quota }

/-- Flags that the executing lanes raise together (R121). -/
def raised (ks : List LaneKind) (fs : List Fibre) (fl : Fibre → BitVec 6) : BitVec 6 :=
  (fs.mapIdx fun l f => if ks.getD l .out = .exec then fl f else 0).foldl (· ||| ·) 0

/-- No store is on its way, no narrow sum is in a shadow, every cached line is a tracked one, no team has staged anything,
the host link is up and pages lie on their boundaries (R260, R261): every byte is at its home. -/
structure Quiet (s : State) : Prop where
  pend : s.pend = []
  shadows : s.shadows = []
  l1 : ∀ x ∈ s.l1, x.selfinv = false ∧ x.dirty = [] ∧ s.lineCoh x.line = some 0
  stages : ∀ t ∈ s.teams, t.stage = []
  link : s.linkUp = true
  pages : ∀ p ∈ s.pages, p.va % 65536 = 0 ∧ p.tgt.toNat % 65536 = 0

/-- What a global access of the path at `s.cur` outside a deterministic launch can change (09 R206 to R233): the memory
system; in its own wave the fibres, the counters, the poison record (R317), the victim score and tags (R64), the flags' and
the scheduler's fields that any retirement changes; and in other waves the victim tags, where a line that it makes room for
leaves the L1 (R157). -/
def MemStep (s t : State) (w w' : Wave) : Prop :=
  t = { s with
    waves := t.waves
    bundle := []
    mem := t.mem, poison := t.poison, l1 := t.l1, pend := t.pend, modified := t.modified, leaders := t.leaders
    shadows := t.shadows, hostMod := t.hostMod, freeCtr := t.freeCtr } ∧
  t.waves.length = s.waves.length ∧ t.waves[s.cur.wave]? = some w' ∧
  (∀ k x, k ≠ s.cur.wave → s.waves[k]? = some x → ∃ v, t.waves[k]? = some { x with victims := v }) ∧
  w' = { w with
    fibres := w'.fibres, loads := w'.loads, stores := w'.stores, psn := w'.psn, pcnt := w'.pcnt, score := w'.score
    victims := w'.victims, perf := w'.perf, nopre := w'.nopre, rot := w'.rot, streak := w'.streak, waits := w'.waits
    yielded := w'.yielded, serial := w'.serial, quota := w'.quota }

/-- Names of wave instructions that a fibre holds (R43): those of the parts that it has still to complete. -/
def Fibre.names (f : Fibre) : List Nat :=
  (f.owed.map (·.id)).toList ++ match f.park with
    | some { why := .monitor m, .. } => [m.id]
    | some { why := .atomic r, .. } => [r.id]
    | _ => []

/-- Every name that a fibre of a wave holds has been given out before. -/
def Wave.named (w : Wave) (n : Nat) : Prop := ∀ f ∈ w.fibres, ∀ k ∈ f.names, k < n

/-- No lane of `on` owes a part of a bundle that began before (R43): none is on a replay; and what the wave's fibres owe was
named before. -/
abbrev Fresh (s : State) (w : Wave) (on : List Nat) : Prop := (∀ l ∈ on, (w.lane l).owed = none) ∧ w.named s.freeCtr

/-- The memory lists are in their canonical form: that of global memory, and those of the teams' scratchpads. -/
def State.canonical (s : State) : Prop :=
  s.mem.wf = true ∧ ∀ t ∈ s.teams, t.scratch.wf = true ∧ t.scratch2.wf = true

/-- A key whose line lies below the region status table, which hardware writes and no store reaches (R278). -/
abbrev plainKey (k : Nat) : Prop := k + 128 ≤ 15 * 2 ^ 60

/-- Where a global access of n bytes at `va` goes for a wave of grid `g`: aligned, and translated (R226, R258, R260). -/
def State.lands (s : State) (g : Grid) (wr : Bool) (n : Nat) (va : DWord) : Option (Page × Nat) :=
  if va.toNat % n = 0 then
    match s.translate g.asid g.priv wr (if wr then needStore else needLoad) va with
    | .ok p k => some (p, k)
    | _ => none
  else none

/-- What the termination of wave `w`, the current one, by a trap in its fibre f leaves (R320): every fibre of it has ended, and
its grid counts it, and records the first one. -/
def EndsBy (s t : State) (w : Wave) (f : Fibre) (cause : BitVec 6) (nested : Bool) : Prop :=
  ∀ tm g, s.teams[w.team]? = some tm → s.grids[tm.grid]? = some g → ∃ w' g', t.waves[s.cur.wave]? = some w' ∧
    (∀ x ∈ w'.fibres, x.live = false) ∧ t.grids[tm.grid]? = some g' ∧ g'.terms = g.terms + 1 ∧
    g'.term = (g.term <|> some { team := tm.idx, wave := if w.zen then 0xFFFF else w.idx, cause := cause, nested := nested,
                                 epc := f.epc })

end Sys2Proof.Machine
end

