-- ==== Sys2Proof/WellFormed.lean ====
section
/-! DEFINITION. Well-formed instructions: those that a page passing the scanner can hold (01 R24, R35). -/

namespace Sys2Proof

/-- The guard of a word is not the hint marker N = 1, G = 7 (R19, R20). -/
def Instr.guardOk (i : Instr) : Bool :=
  match i.guard? with | some g => g != 0xF#4 | none => true

/-- A well-formed instruction: its guard is no hint marker, its fields are within their limits, and its register
operands are aligned (a DIST is judged with the smallest count; its bundle judges it with its own). -/
def Instr.wf (i : Instr) : Bool := i.guardOk && i.limits && i.pairsOk 1

/-- An instruction that one 32-bit word encodes by itself: an ordinary word or a hint word (spec/opcode_table.json rows
0 to 156). STG under a MOD hint shares the word of STG, and an event has no word. -/
def Instr.isWord (i : Instr) : Bool :=
  match i with
  | .stgMsg .. | .stgClrpoison .. => false
  | _ => i.guard?.isSome || i.isHint

end Sys2Proof
end

