-- ==== Sys2Proof/Certificates/Slice0/Obligations.lean ====
section
/-! DEFINITION. The statements for the provers. Each family of words is stated through a table of what the spec gives
each instruction; `Ready` and `Retired` (Sys2Proof/Safety.lean) say when a word runs and what else stands. -/

open Sys2Proof Sys2Proof.Machine

namespace Sys2Proof.Machine

/-! ### Integer arithmetic (03 R95 to R101) -/

/-- The 32-bit result of an integer instruction: its guard, its destination and its value in a fibre, as R95 to R100
give them over numbers. Register fields are read as 32 bits (R90). -/
def intResult (s : State) (z : Bool) (i : Instr) : Option (Guard × Reg × (Fibre → Word)) :=
  let ab := fun (g : Guard) (d a b : Reg) (op : Word → Word → Word) =>
    some (g, d, fun (f : Fibre) => op (f.get z a.toNat) (f.get z b.toNat))
  let abd := fun (g : Guard) (d a b : Reg) (op : Word → Word → Word → Word) =>
    some (g, d, fun (f : Fibre) => op (f.get z a.toNat) (f.get z b.toNat) (f.get z d.toNat))
  let one := fun (g : Guard) (d a : Reg) (op : Word → Word) =>
    some (g, d, fun (f : Fibre) => op (f.get z a.toNat))
  let n32 := fun (x : Nat) => BitVec.ofNat 32 x
  let i32 := fun (x : Int) => BitVec.ofInt 32 x
  let pos := fun (c : Word) => c.toNat % 256
  let len := fun (c : Word) => min (c.toNat / 256 % 256) (32 - pos c)
  match i with
  | .iadd g d a b => ab g d a b fun x y => n32 (x.toNat + y.toNat)
  | .isub g d a b => ab g d a b fun x y => i32 ((x.toNat : Int) - y.toNat)
  | .and g d a b => ab g d a b fun x y => x &&& y
  | .or g d a b => ab g d a b fun x y => x ||| y
  | .xor g d a b => ab g d a b fun x y => x ^^^ y
  | .andn g d a b => ab g d a b fun x y => x &&& ~~~y
  | .shl g d a b => ab g d a b fun x y => if y.toNat < 32 then n32 (x.toNat * 2 ^ y.toNat) else 0
  | .shr g d a b => ab g d a b fun x y => if y.toNat < 32 then n32 (x.toNat / 2 ^ y.toNat) else 0
  | .sar g d a b => ab g d a b fun x y =>
      if y.toNat < 32 then i32 (x.toInt / 2 ^ y.toNat) else if x.getLsbD 31 then 0xFFFFFFFF#32 else 0
  | .rotl g d a b => ab g d a b fun x y => x.rotateLeft (y.toNat % 32)
  | .imin g d a b => ab g d a b fun x y => i32 (min x.toInt y.toInt)
  | .imax g d a b => ab g d a b fun x y => i32 (max x.toInt y.toInt)
  | .umin g d a b => ab g d a b fun x y => n32 (min x.toNat y.toNat)
  | .umax g d a b => ab g d a b fun x y => n32 (max x.toNat y.toNat)
  | .iadds g d a b => ab g d a b fun x y => i32 (max (-(2 ^ 31)) (min (2 ^ 31 - 1) (x.toInt + y.toInt)))
  | .iabsd g d a b => ab g d a b fun x y => n32 (x.toInt - y.toInt).natAbs
  | .iaddi g d a m => one g d a fun x => n32 (x.toNat + (s.imm10 m).toNat)
  | .andi g d a m => one g d a fun x => x &&& s.imm10 m
  | .ori g d a m => one g d a fun x => x ||| s.imm10 m
  | .xori g d a m => one g d a fun x => x ^^^ s.imm10 m
  | .shfi g d a k m => one g d a fun x => match k with
      | .shl => n32 (x.toNat * 2 ^ m.toNat)
      | .shr => n32 (x.toNat / 2 ^ m.toNat)
      | .sar => i32 (x.toInt / 2 ^ m.toNat)
      | .rotl => x.rotateLeft m.toNat
  | .movi g d m => some (g, d, fun _ => s.imm16 m)
  | .movhi g d m => some (g, d, fun f => n32 (m.toNat * 2 ^ 16 + (f.get z d.toNat).toNat % 2 ^ 16))
  | .imul g d a b => ab g d a b fun x y => n32 (x.toNat * y.toNat)
  | .imulhs g d a b => ab g d a b fun x y => i32 (x.toInt * y.toInt / 2 ^ 32)
  | .imulhu g d a b => ab g d a b fun x y => n32 (x.toNat * y.toNat / 2 ^ 32)
  | .imad g d a b => abd g d a b fun x y o => n32 (x.toNat * y.toNat + o.toNat)
  | .idp4s g d a b => abd g d a b fun x y o => i32 (o.toInt + (byteOf x 0).toInt * (byteOf y 0).toInt
      + (byteOf x 1).toInt * (byteOf y 1).toInt + (byteOf x 2).toInt * (byteOf y 2).toInt
      + (byteOf x 3).toInt * (byteOf y 3).toInt)
  | .idp4u g d a b => abd g d a b fun x y o => n32 (o.toNat + (byteOf x 0).toNat * (byteOf y 0).toNat
      + (byteOf x 1).toNat * (byteOf y 1).toNat + (byteOf x 2).toNat * (byteOf y 2).toNat
      + (byteOf x 3).toNat * (byteOf y 3).toNat)
  | .popc g d a => one g d a fun x => n32 (∑ k ∈ Finset.range 32, (x.getLsbD k).toNat)
  | .clz g d a => one g d a fun x => if x = 0 then 32 else n32 (31 - x.toNat.log2)
  | .brev g d a => one g d a fun x => x.reverse
  | .bfe g d a b => ab g d a b fun x c => if pos c < 32 then n32 (x.toNat / 2 ^ pos c % 2 ^ len c) else 0
  | .bfes g d a b => ab g d a b fun x c =>
      if pos c < 32 then (BitVec.ofNat (len c) (x.toNat / 2 ^ pos c)).signExtend 32 else 0
  | .bfi g d a b => abd g d a b fun x c o =>
      let m := n32 (2 ^ len c - 1)
      if pos c < 32 then (o &&& ~~~(m <<< pos c)) ||| ((x &&& m) <<< pos c) else o
  | .bpick g d a b => abd g d a b fun x c o => bpickVal x c o
  | _ => none

/-- The 64-bit result of the I64 group (R101): a pair role reads and writes 64 bits, a single role 32. -/
def intResult64 (z : Bool) (i : Instr) : Option (Guard × Reg × (Fibre → DWord)) :=
  let pp := fun (g : Guard) (d a b : Reg) (op : DWord → DWord → DWord) =>
    some (g, d, fun (f : Fibre) => op (f.getPair z a.toNat) (f.getPair z b.toNat))
  let ps := fun (g : Guard) (d a b : Reg) (op : DWord → Word → DWord) =>
    some (g, d, fun (f : Fibre) => op (f.getPair z a.toNat) (f.get z b.toNat))
  let n64 := fun (x : Nat) => BitVec.ofNat 64 x
  let lea := fun (k : Nat) (x : DWord) (y : Word) => BitVec.ofInt 64 ((x.toNat : Int) + y.toInt * 2 ^ k)
  match i with
  | .iadd64 g d a b => pp g d a b fun x y => n64 (x.toNat + y.toNat)
  | .isub64 g d a b => pp g d a b fun x y => BitVec.ofInt 64 ((x.toNat : Int) - y.toNat)
  | .lea64s0 g d a b => ps g d a b (lea 0)
  | .lea64s1 g d a b => ps g d a b (lea 1)
  | .lea64s2 g d a b => ps g d a b (lea 2)
  | .lea64s3 g d a b => ps g d a b (lea 3)
  | .imulw g d a b => some (g, d, fun f => n64 ((f.get z a.toNat).toNat * (f.get z b.toNat).toNat))
  | .shl64 g d a b => ps g d a b fun x y => if y.toNat < 64 then n64 (x.toNat * 2 ^ y.toNat) else 0
  | .shr64 g d a b => ps g d a b fun x y => if y.toNat < 64 then n64 (x.toNat / 2 ^ y.toNat) else 0
  | _ => none

/-! ### Moves, selects and predicates (R79, R102 to R105) -/

/-- What NOP, YIELD, a move, a select, a compare or a predicate operation makes of one fibre (R79, R90, R91, R102 to
R105). -/
def moveFibre (z : Bool) (i : Instr) : Option (Guard × (Fibre → Fibre)) :=
  match i with
  | .nop g | .yield g => some (g, id)
  | .mov g d a pair => some (g, fun f =>
      if pair || z then f.setPair z d.toNat (f.getPair z a.toNat) else f.set z d.toNat (f.get z a.toNat))
  | .movpw g d => some (g, fun f => f.set z d.toNat (BitVec.ofNat 32 (128 + f.preds.toNat)))
  | .movwp g a => some (g, fun f => { f with preds := BitVec.ofNat 7 (f.get z a.toNat).toNat })
  | .sel g d a b neg p => some (g, fun f =>
      let src := if f.pred p = neg then b else a
      if z then f.setPair z d.toNat (f.getPair z src.toNat) else f.set z d.toNat (f.get z src.toNat))
  | .icmp g pd pe a b cc => some (g, fun f =>
      let t := if z then icond cc (f.getPair z a.toNat) (f.getPair z b.toNat)
        else icond cc (f.get z a.toNat) (f.get z b.toNat)
      (f.setPred pd t).setPred pe (!t))
  | .plop g pd pe x y op => some (g, fun f =>
      let t := match op with
        | .and => f.pred x && f.pred y
        | .or => f.pred x || f.pred y
        | .xor => f.pred x != f.pred y
        | .andn => f.pred x && !f.pred y
        | .orn => f.pred x || !f.pred y
        | .not => !f.pred x
        | .mov => f.pred x
      (f.setPred pd t).setPred pe (!t))
  | _ => none

end Sys2Proof.Machine

/-- R95 to R101: every integer instruction puts the result that its table row gives into its destination in each
executing fibre, 32 bits of it or (the I64 group) 64, goes on at the next word, and changes nothing else; and words
written out by the rules decode to them. -/
def Obligations.IntegerResult : Prop :=
  ((∀ (i : Instr) (gd : Guard) (d : Reg) (val : Fibre → Word) (s : State) (w : Wave) (g : Grid),
    intResult s w.zen i = some (gd, d, val) → Ready i gd s w g →
    ∃ t, exec i s = .next t ∧ Retired s t (kindsOf s i gd w g) 0
      fun _ f => (f.set w.zen d.toNat (val f)).advance s.nextPc s.lastPc) ∧
  (∀ (i : Instr) (gd : Guard) (d : Reg) (val : Fibre → DWord) (s : State) (w : Wave) (g : Grid),
    intResult64 w.zen i = some (gd, d, val) → Ready i gd s w g →
    ∃ t, exec i s = .next t ∧ Retired s t (kindsOf s i gd w g) 0
      fun _ f => (f.setPair w.zen d.toNat (val f)).advance s.nextPc s.lastPc)) ∧
  decode 0x72410830 = some (.iadd 7 1 2 3) ∧ decode 0x7241083E = some (.iadds 7 1 2 3) ∧
  decode 0x72441468 = some (.sar 7 4 5 6) ∧ decode 0x744824A3 = some (.imad 7 8 9 10) ∧
  decode 0x744824A4 = some (.idp4s 7 8 9 10) ∧ decode 0x74820C43 = some (.bfe 7 2 3 4) ∧
  decode 0x74C41895 = some (.lea64s3 7 4 6 9)

/-- R58, R79, R102 to R105, R230: NOP and YIELD change nothing, but that the path of a YIELD joins the back of its
wave's rotation, behind the paths that stand there and those that have become ready; and PREF no register, no byte and
no poison, only which lines are cached; the moves, SEL, ICMP and PLOP change what their rows give, and nothing else;
and words written out by the rules decode to them. -/
def Obligations.MoveResult : Prop :=
  (∀ (i : Instr) (gd : Guard) (op : Fibre → Fibre) (s : State) (w : Wave) (g : Grid),
    moveFibre w.zen i = some (gd, op) → Ready i gd s w g →
    ∃ t, exec i s = .next t ∧ Retired s t (kindsOf s i gd w g) 0 fun _ f => (op f).advance s.nextPc s.lastPc) ∧
  (∀ (gd : Guard) (s : State) (w : Wave) (g : Grid), Ready (.yield gd) gd s w g → w.rot.Nodup → s.nextPc ∉ w.rot →
    (∀ l f, w.fibres[l]? = some f → (kindsOf s (.yield gd) gd w g).getD l .out ≠ .out →
      (f.advance s.nextPc s.lastPc).pc = s.nextPc) →
    ∃ t w' new, exec (.yield gd) s = .next t ∧ t.waves[s.cur.wave]? = some w' ∧ w'.yielded = true ∧
      w'.rot = (w.rot.filter fun p => p != s.cur.pc && w'.readyPcs.contains p) ++ new ++ [s.nextPc] ∧ w'.rot.Nodup ∧
      ∀ p, p ∈ w'.rot ↔ p ∈ w'.readyPcs) ∧
  (∀ (gd : Guard) (a : Reg) (c : Scope) (wd : Width) (ch : CacheHint) (s : State) (w : Wave) (g : Grid),
    let i := Instr.pref gd a c wd ch
    Ready i gd s w g → ∃ t w', exec i s = .next t ∧ MemStep s t w w' ∧
      w'.fibres = w.fibres.mapIdx (laneAfter s (kindsOf s i gd w g) fun _ f => f.advance s.nextPc s.lastPc) ∧
      w'.loads = w.loads ∧ w'.stores = w.stores ∧ w'.psn = w.psn ∧ t.poison = s.poison ∧ (Quiet s → t.mem = s.mem)) ∧
  decode 0x7541083A = some (.sel 7 1 2 3 true 2) ∧ decode 0x758A1052 = some (.icmp 7 1 2 4 5 .lt) ∧
  decode 0x759F1059 = some (.icmp 7 3 7 4 5 .geu) ∧ decode 0x76080006 = some (.plop 7 1 0 0 0 .mov) ∧
  decode 0x76070423 = some (.plop 7 0 7 1 2 .andn)

namespace Sys2Proof.Machine

/-! ### Reads of the team's and the wave's registers (R88, R92, R102) -/

/-- The value of a special register as a fibre f in slot l of wave `w` reads it, field by field (R65, R74, R92, R93, R121,
R303, R309, R312, R316, R317, R374); 0 for a reserved number. -/
def specialValue (s : State) (w : Wave) (t : Team) (g : Grid) (l : Nat) (f : Fibre) (n : Nat) : Nat :=
  let at_ := fun (k : Nat) (b : Bool) => if b then 2 ^ k else 0
  let ones := 2 ^ 32 - 1
  let own := fun (x : Nat) => if w.zen then ones else x
  let c := s.clusters.getD (w.core / 4) Cluster.clear
  let p := s.parts.getD (8 * w.core + w.part) Part.clear
  let zled := s.zenLed.getD w.core false
  match n with
  | 0 => if w.zen then 0 else l
  | 1 => own w.idx
  | 2 => g.width
  | 3 => t.tx
  | 4 => t.ty
  | 5 => t.tz
  | 6 => g.gx
  | 7 => g.gy
  | 8 => g.gz
  | 9 => w.core
  | 10 => own w.part
  | 11 => own (w.part / 4)
  | 12 => s.time.toNat % 2 ^ 32
  | 13 => s.time.toNat / 2 ^ 32
  | 14 => at_ 8 w.inven + w.fpflags.toNat
  | 15 => 2 ^ 8 * w.pcnt.toNat + at_ 2 w.xq + at_ 1 w.etr + at_ 0 w.psn
  | 16 => w.err.syn.toNat
  | 17 => w.err.unit.toNat
  | 18 => w.err.tile.toNat
  | 19 => at_ 31 f.queued.isSome + f.cause.toNat
  | 20 => f.epc.toNat
  | 21 => f.evalue.toNat
  | 22 => f.ureg.toNat
  | 23 => w.prom.toNat
  | 24 => f.weight % 2 ^ 32
  | 25 => f.weight / 2 ^ 32
  | 26 => (f.lcOf 0).toNat
  | 27 => (f.lcOf 1).toNat
  | 28 => (f.lcOf 2).toNat
  | 29 => if g.det then 2 ^ 31 + at_ 30 (w.held && !w.zen) + at_ 29 (g.turn == t.idx) + at_ 28 g.ow
      + stageUsed t.stage % 2 ^ 12 else 0
  | 30 => w.perf.toNat
  | 31 => if w.zen then at_ 30 zled + (s.zenCnt.getD w.core 0).toNat
      else at_ 31 (p.led.getLsbD 7) + at_ 30 zled + 2 ^ 24 * (p.led.toNat % 64) + p.cnt.toNat
  | 32 => if w.zen then 0
      else 2 ^ 20 * (p.limit % 64) + 2 ^ 8 * (w.score % 256) + at_ 0 (s.denied s.cur.wave w)
  | 33 => at_ 31 c.hot + c.temp.toNat
  | 34 => 2 ^ 28 * (c.shown.1 % 16) + 2 ^ 24 * (c.shown.2 % 16) + 2 ^ 16 * min c.stall 255 + c.mv.toNat
  | 35 => 2 ^ 16 * (c.floor % 16) + c.osc.toNat
  | _ => 0

/-- What MOVS and MOVSR put into their destination (R89, R90, R92, R102). -/
def readFibre (s : State) (w : Wave) (t : Team) (g : Grid) (i : Instr) :
    Option (Guard × (Nat → Fibre → Fibre)) :=
  match i with
  | .movs gd d a .low => some (gd, fun _ f => f.set w.zen d.toNat (lo32 ((s.teamSregs t).getD a.toNat 0)))
  | .movs gd d a .high => some (gd, fun _ f => f.set w.zen d.toNat (hi32 ((s.teamSregs t).getD a.toNat 0)))
  | .movs gd d a .pair => some (gd, fun _ f => f.setPair w.zen d.toNat ((s.teamSregs t).getD a.toNat 0))
  | .movsr gd d a pair => some (gd, fun l f =>
      let r := fun (n : Nat) => BitVec.ofNat 32 (specialValue s w t g l f n)
      if pair then f.setPair w.zen d.toNat (pair64 (r (a.toNat + 1)) (r a.toNat)) else f.setZ w.zen d.toNat (r a.toNat))
  | _ => none

/-! ### Control (R67 to R69, R74, R76, R313) -/

/-- The fibre with a window shifted by a call, and lr of the new window holding the link (R68). -/
def calledFibre (z : Bool) (src t : Pc) (sh : BitVec 6) (f : Fibre) : Fibre :=
  let f1 : Fibre := { f with base := if z then (f.base + sh.toNat) % 64 else f.base + sh.toNat, pc := t }
  f1.setZ z 63 (BitVec.ofNat 32 ((src.toNat + 1) * 256 + sh.toNat * 4))

/-- Where a control transfer takes one fibre from word `s.lastPc`; none where it traps or ends instead. A loop that ends
at the word counts the pass as at any other (R74). -/
def controlFibre (s : State) (w : Wave) (i : Instr) : Option (Guard × (Fibre → Option Fibre)) :=
  let src := s.lastPc
  let jump := fun (f : Fibre) (t : Pc) => ({ f.leaveLoops src t with pc := t } : Fibre).loopEnd src
  let call := fun (f : Fibre) (sh : BitVec 6) (t : Pc) =>
    if src = 0xFFFFFF#24 then none
    else if w.zen || decide (f.base + sh.toNat + 63 < w.allot) then some ((calledFibre w.zen src t sh f).loopEnd src)
    else none
  let rte := fun (f : Fibre) (t : Pc) =>
    if f.queued.isSome then none
    else some (({ f with base := f.savedBase, intrap := false, epc := t, pc := t, mtrap := f.mtrap.afterRte } :
      Fibre).loopEnd src)
  match i with
  | .bra gd off => some (gd, fun f => some (jump f (src + off.signExtend 24)))
  | .jmpi gd a => some (gd, fun f => some (jump f (BitVec.ofNat 24 (f.get w.zen a.toNat).toNat)))
  | .call gd sh off => some (gd, fun f => call f sh (src + off.signExtend 24))
  | .calli gd a sh => some (gd, fun f => call f sh (BitVec.ofNat 24 (f.get w.zen a.toNat).toNat))
  | .ret gd => some (gd, fun f =>
      let lr := (f.get w.zen 63).toNat
      let sh := lr / 4 % 64
      if lr / 256 = 0 then none
      else if w.zen then some { jump f (BitVec.ofNat 24 (lr / 256)) with base := (f.base + 64 - sh) % 64 }
      else if sh ≤ f.base then some { jump f (BitVec.ofNat 24 (lr / 256)) with base := f.base - sh }
      else none)
  | .loop gd c a m => some (gd, fun f =>
      let e := src + m.setWidth 24
      let n := f.get w.zen a.toNat
      let rest := f.loops.filter fun r => r.n != c
      if n = 0 then some (({ f with pc := e + 1, loops := rest } : Fibre).loopEnd src)
      else some (({ f with lc := f.lc.set c.toNat n, pc := src + 1, loops := { n := c, s := src + 1, e := e } :: rest } :
        Fibre).loopEnd src))
  | .rte gd => some (gd, fun f => rte f f.epc)
  | .rteReg gd a => some (gd, fun f => rte f (BitVec.ofNat 24 (f.get w.zen a.toNat).toNat))
  | _ => none

/-! ### Registers of the wave, the quad and the cluster that a word writes (R102, R184, R317, R321, R325, R371) -/

/-- The lowest executing fibre. -/
def lowLane (i : Instr) (gd : Guard) (s : State) (w : Wave) (g : Grid) : Fibre :=
  w.fibres.getD ((execLanes (kindsOf s i gd w g)).headD 0) Fibre.empty

/-- What a word that writes a register of the wave or of its cluster leaves of the state, and puts into its executing
fibres. -/
def waveReg (i : Instr) (s : State) (w : Wave) (g : Grid) (low : Fibre) :
    Option (Guard × State × (Fibre → Fibre)) :=
  let v := fun (a : Reg) => low.get w.zen a.toNat
  let put := fun (w1 : Wave) => { s with waves := s.waves.set s.cur.wave w1 }
  match i with
  | .movsw gd true _ => some (gd, put { w with pcnt := 0, xq := false, etr := false, psn := false }, id)
  | .movsw gd false a => some (gd, put { w with fpflags := (v a).extractLsb' 0 6 }, id)
  | .chkerr gd d => some (gd, put { w with pcnt := 0, xq := false, etr := false, psn := false },
      fun f => f.setZ w.zen d.toNat w.chkWord)
  | .nopre gd => some (gd, (if w.zen || w.nopre.isSome then s
      else put { w with nopre := some { left := 4096 + (s.bundle.length + 1), until_ := s.now + 20000 } }), id)
  | .preon gd => some (gd, (if w.zen then s else put { w with nopre := none }), id)
  | .livetile gd m => some (gd, (if g.fastswitch then put { w with liveTiles := m } else s), id)
  | .errinj gd a => if injValid (v a) then some (gd, s.armInject (v a), id) else none
  | .perfq gd d a =>
    let c := s.clusters.getD (w.core / 4) Cluster.clear
    let r := perfqRun s.detResident s.now (v a) c
    some (gd, { s with clusters := s.clusters.modify (w.core / 4) fun _ => r.1 },
      fun f => f.setZ w.zen d.toNat (perfqWord (v a) r.1 r.2))
  | _ => none

end Sys2Proof.Machine

/-- R65, R88, R89, R92, R93, R102, R303, R374: MOVS reads the team's s-registers, MOVSR one or two special registers
at one instant, each with the value that its field map gives. Where it rests on the model's own choice, not on a rule:
log 53. -/
def Obligations.SpecialRead : Prop :=
  ∀ (i : Instr) (gd : Guard) (op : Nat → Fibre → Fibre) (s : State) (w : Wave) (g : Grid) (t0 : Team),
    s.teamOf w = some t0 → readFibre s w t0 g i = some (gd, op) → Ready i gd s w g →
    ∃ t, exec i s = .next t ∧ Retired s t (kindsOf s i gd w g) 0 fun l f => (op l f).advance s.nextPc s.lastPc

/-- R67 to R69, R74, R313: BRA, JMPI, CALL, CALLI, RET, LOOP and RTE take each executing fibre where their rules say.
Where it rests on the model's own choice, not on a rule: log 29. -/
def Obligations.ControlTransfer : Prop :=
  ∀ (i : Instr) (gd : Guard) (op : Fibre → Option Fibre) (after : Fibre → Fibre) (s : State) (w : Wave) (g : Grid),
    controlFibre s w i = some (gd, op) → Ready i gd s w g →
    (∀ l f, w.fibres[l]? = some f → (kindsOf s i gd w g).getD l .out = .exec → op f = some (after f)) →
    ∃ t, exec i s = .next t ∧ Retired s t (kindsOf s i gd w g) 0 fun _ f => after f

/-- R102, R184, R317, R321, R325, R371: the words that write a register of their wave or its cluster. Where it rests
on the model's own choice, not on a rule: log 39. -/
def Obligations.WaveRegisterWrite : Prop :=
  ∀ (i : Instr) (gd : Guard) (s1 : State) (op : Fibre → Fibre) (s : State) (w : Wave) (g : Grid),
    waveReg i s w g (lowLane i gd s w g) = some (gd, s1, op) → Ready i gd s w g →
    ∃ t, exec i s = .next t ∧ Retired s1 t (kindsOf s i gd w g) 0 fun _ f => (op f).advance s.nextPc s.lastPc

namespace Sys2Proof.Machine

/-! ### The context rules (R38 to R40, R332) -/

/-- The row of R39's table that names an instruction by its mnemonic alone: 1 privileged, 2 Zenith code, 3 wave code, 4 a
trap path, 5 a queue register above k3, 7 acq on a store; none where no row names it. -/
def namedRow : Instr → Option Nat
  | .livetile .. | .errinj .. => some 1
  | .dpush .. | .signset .. | .signclr .. => some 2
  | .fork .. | .join .. | .waitj .. | .jclr .. | .ubr .. | .popd .. | .movs .. | .shfl .. | .voteAll .. | .voteAny ..
  | .voteBallot .. | .scan .. | .wred .. | .dist .. | .topk .. | .mmq .. | .accz .. | .accrd .. | .accwr .. | .acccv ..
  | .mdrain .. | .mrest .. | .scatb .. | .scatf .. | .bara .. | .barw .. | .bars .. | .barc .. | .stepp .. | .stepr .. =>
    some 3
  | .rte .. | .rteReg .. => some 4
  | .qpush _ k _ | .qpop _ _ k | .qtry _ _ k | .qcnt _ _ k => if 4 ≤ k.toNat then some 5 else none
  | .sts _ _ _ .acq .. | .stg _ _ _ .acq .. | .stgMsg _ _ _ .acq .. | .stgClrpoison _ _ _ .acq .. | .redm _ _ _ .acq .. =>
    some 7
  | _ => none

/-- The words that R158 names, which trap in a launch without MATRIX (R332). -/
def needsMatrix : Instr → Bool
  | .signset .. | .signclr .. | .mmq .. | .accz .. | .accrd .. | .accwr .. | .acccv .. | .mdrain .. | .mrest .. | .mstat ..
  | .livetile .. => true
  | _ => false

/-- Register fields of a word of wave code, each with the registers that it occupies (R24, R40): the pairs and quads, the
XOP register, CAS's expected values and MMQ's twelve registers. The query of DIST and the list of TOPK are checked apart. -/
def fieldRegs (s : State) (i : Instr) : List (Nat × Nat) :=
  let at_ := fun (l : List (Reg × Nat)) => l.map fun x => (x.1.toNat, x.2)
  let span := fun (w : Width) => match w with | .b64 => 2 | .b128 => 4 | _ => 1
  let xop := s.bundle.findSome? fun h => match h with | .xop p => some p.toNat | _ => none
  match i with
  | .popd _ d | .movpw _ d | .qcnt _ d _ | .voteBallot _ d _ _ | .chkerr _ d | .movi _ d _ | .movhi _ d _ | .dcnt _ d _ =>
    at_ [(d, 1)]
  | .jmpi _ a | .calli _ a _ | .loop _ _ a _ | .movsw _ _ a | .movwp _ a | .errinj _ a | .rteReg _ a | .barc _ a _
  | .sleept _ a => at_ [(a, 1)]
  | .ret _ => [(63, 1)]
  | .movs _ d _ p => at_ [(d, if p = .pair then 2 else 1)]
  | .movsr _ d _ p => at_ [(d, if p = true then 2 else 1)]
  | .mov _ d a p => at_ [(d, if p = true then 2 else 1), (a, if p = true then 2 else 1)]
  | .fork _ d a _ | .perfq _ d a | .popc _ d a | .clz _ d a | .brev _ d a | .iaddi _ d a _ | .andi _ d a _ | .ori _ d a _
  | .xori _ d a _ | .shfi _ d a _ _ | .cvt _ d a _ | .rcp _ d a | .rsq _ d a | .sqrt _ d a | .exp2 _ d a | .log2 _ d a
  | .sinpi _ d a | .cospi _ d a | .tanh _ d a | .fclass _ d a | .scan _ d a _ _ | .wred _ d a _ | .accrd _ d a _
  | .accwr _ d a _ | .mstat _ d a => at_ [(d, 1), (a, 1)]
  | .icmp _ _ _ a b _ | .fcmp _ _ _ a b _ | .topk _ _ a b _ => at_ [(a, 1), (b, 1)]
  | .iadd _ d a b | .isub _ d a b | .and _ d a b | .or _ d a b | .xor _ d a b | .andn _ d a b | .shl _ d a b | .shr _ d a b
  | .sar _ d a b | .rotl _ d a b | .imin _ d a b | .imax _ d a b | .umin _ d a b | .umax _ d a b | .iadds _ d a b
  | .iabsd _ d a b | .imul _ d a b | .imulhs _ d a b | .imulhu _ d a b | .imad _ d a b | .idp4s _ d a b | .idp4u _ d a b
  | .bfe _ d a b | .bfes _ d a b | .bfi _ d a b | .bpick _ d a b | .sel _ d a b _ _ | .fadd _ d a b _ | .fsub _ d a b _
  | .fmul _ d a b _ | .fmin _ d a b _ | .fmax _ d a b _ | .fminn _ d a b _ | .fmaxn _ d a b _ | .shfl _ d a b _
  | .dpush _ d a b => at_ [(d, 1), (a, 1), (b, 1)]
  | .fma _ d a b _ | .fnma _ d a b _ | .fms _ d a b _ | .fnms _ d a b _ =>
    at_ [(d, 1), (a, 1), (b, 1)] ++ (match xop with | some p => [(p / 2 ^ 18, 1)] | none => [])
  | .iadd64 _ d a b | .isub64 _ d a b | .freeze _ d a b => at_ [(d, 2), (a, 2), (b, 2)]
  | .lea64s0 _ d a b | .lea64s1 _ d a b | .lea64s2 _ d a b | .lea64s3 _ d a b | .shl64 _ d a b | .shr64 _ d a b =>
    at_ [(d, 2), (a, 2), (b, 1)]
  | .imulw _ d a b => at_ [(d, 2), (a, 1), (b, 1)]
  | .dist _ d _ b t _ =>
    let n := match xop with | some p => p % 65536 | none => 32
    let e := match t with | .f16 | .bf16 => 2 | .s8 | .b8p4 => 4
    at_ [(d, 1), (b, (n + e - 1) / e)]
  | .lds _ d a _ _ w _ | .sts _ d a _ _ w _ | .ldg _ d a _ _ w _ | .stg _ d a _ _ w _ | .stgMsg _ d a _ _ w _
  | .stgClrpoison _ d a _ _ w _ => at_ [(d, span w), (a, 2)]
  | .atoms _ d a b o => at_ [(d, if o = .cas then 2 else 1), (a, 2), (b, 1)]
  | .atom _ d a _ _ o | .redm _ d a _ _ o =>
    at_ [(d, match o with | .cas | .addD | .exchD => 2 | .casD => 4 | _ => 1), (a, 2)]
  | .waitc _ d a _ _ _ w => at_ [(d, if w = true then 2 else 1), (a, 2)]
  | .pref _ a _ _ _ | .qpush _ _ a | .acccv _ a _ | .mdrain _ a | .mrest _ a => at_ [(a, 2)]
  | .scatb _ a b => at_ [(a, 2), (b, 1)]
  | .scatf _ d a | .fquery _ d a => at_ [(d, 1), (a, 2)]
  | .qpop _ d _ | .qtry _ d _ => at_ [(d, 2)]
  | .mmq _ _ _ _ v _ => at_ [(v, 12)]
  | .thaw _ d a | .stepq _ d a => at_ [(d, 2), (a, 1)]
  | .stepp _ d a b | .stepr _ d a b => at_ [(d, 1), (a, 2), (b, 1)]
  | _ => []

/-- The cause of the first context rule that fibre f of wave `w` breaks with a word, in the order of R39's rows 1 to 7, and
after them that of a launch without MATRIX (R332). -/
def brokenRule (s : State) (i : Instr) (w : Wave) (g : Grid) (f : Fibre) : Option (BitVec 6) :=
  let clr := s.bundle.any fun h => match h with | .mod _ _ c _ _ => c | _ => false
  let row := namedRow i
  if g.priv = false ∧ (row = some 1 ∨ clr = true) then some 0x01
  else if row = some 2 ∧ w.zen = false then some 0x01
  else if row = some 3 ∧ w.zen = true then some 0x01
  else if row = some 4 ∧ f.intrap = false then some 0x01
  else if row = some 5 then some 0x0C
  else if w.zen = false ∧ ∃ u ∈ fieldRegs s i, w.allot < f.base + u.1 + u.2 then some 0x01
  else if row = some 7 then some 0x01
  else if needsMatrix i = true ∧ g.matrix = false then some 0x01
  else none

end Sys2Proof.Machine

/-- R310, R311, R314: TRAP n and BRK take their executing fibres into the trap section, with causes 0x0A and 0x0B. -/
def Obligations.SoftwareTrap : Prop :=
  (∀ (gd : Guard) (n : BitVec 12) (s : State) (w : Wave) (g : Grid) (entry : Pc),
    (Ready (.trap gd n) gd s w g → CanTrap (kindsOf s (.trap gd n) gd w g) w g entry →
      ∃ t, exec (.trap gd n) s = .next t ∧ Trapped s t (kindsOf s (.trap gd n) gd w g) entry g.trapwin fun _ _ =>
        { cause := 0x0A, evalue := n.setWidth 32, ureg := none, err := none }) ∧
    (Ready (.brk gd) gd s w g → CanTrap (kindsOf s (.brk gd) gd w g) w g entry →
      ∃ t, exec (.brk gd) s = .next t ∧ Trapped s t (kindsOf s (.brk gd) gd w g) entry g.trapwin fun _ _ =>
        { cause := 0x0B, evalue := 0, ureg := none, err := none })) ∧
  (∀ (i : Instr) (gd : Guard) (cause : BitVec 6) (s : State) (w : Wave) (g : Grid),
    (i = .brk gd ∧ cause = 0x0B ∨ ∃ n, i = .trap gd n ∧ cause = 0x0A) → Ready i gd s w g →
    ((lowLane i gd s w g).intrap = true → ∃ t, exec i s = .next t ∧ EndsBy s t w (lowLane i gd s w g) cause true) ∧
    ((lowLane i gd s w g).intrap = false → g.trapEntry = none →
      ∃ t, exec i s = .next t ∧ EndsBy s t w (lowLane i gd s w g) cause false)) ∧
  (∀ (i : Instr) (gd : Guard) (s : State) (w : Wave) (g : Grid) (l : Nat) (f : Fibre) (e : SilentErr),
    let ks := kindsOf s i gd w g
    i.guard? = some gd → s.waves[s.cur.wave]? = some w → s.gridOf w = some g → w.fibres[l]? = some f →
    (∀ k, ks.getD k .out = if k = l then .bad (trapSilent e) else .out) → f.intrap = true →
    (f.queued = none → ∃ t w', exec i s = .next t ∧ t.waves[s.cur.wave]? = some w' ∧ w'.xq = true ∧ w'.etr = w.etr ∧
      w'.err = w.err ∧ w'.fibres = w.fibres.set l
        { (if e.syn.toNat % 256 = 6 then f else f.advance s.nextPc s.lastPc) with queued := some e }) ∧
    (f.queued ≠ none → g.det = false → ∃ t, exec i s = .next t ∧ EndsBy s t w f 0x0E false)) ∧
  ∀ (gd : Guard) (d a b : Reg) (s : State) (w : Wave) (g : Grid) (l : Nat) (f : Fibre),
    let reg := f.base + a.toNat
    s.faulty = [.lane s.cur.wave l reg] → w.zen = false → w.fibres[l]? = some f → w.inPath s.cur.pc l f = true →
    f.guardTrue gd = true → brokenRule s (.iadd gd d a b) w g f = none →
    (kindsOf s (.iadd gd d a b) gd w g).getD l .out = .bad (trapSilent {
      syn := BitVec.ofNat 32 (256 * (reg % 256) + 4), unit := BitVec.ofNat 32 (256 * w.core + w.part), tile := 0 })

/-- R38 to R41, R332: only a fibre of the path whose guard is true is checked; the first rule of R39 that it breaks
traps it, with that rule's cause (0x01, or 0x0C for a queue register above k3) and the ordinary word in sr.evalue,
while a fibre that breaks none executes and the others skip the word or stand outside the path. Where every fibre
whose guard is true breaks a rule, each takes its trap and the bundle has no other effect; and an MMQ on a register
that has no SIGNSET naming the wave, or that the wave has signed already, traps 0x01 in the same way (row 8). Where
some break a rule and others execute an integer word, a move or a compare, the former trap and the latter complete it.
Where it rests on the model's own choice, not on a rule: log 30. -/
def Obligations.ContextRuleTrap : Prop :=
  (∀ (i : Instr) (gd : Guard) (after : Fibre → Fibre) (s : State) (w : Wave) (g : Grid) (entry : Pc),
    ((∃ d val, intResult s w.zen i = some (gd, d, val) ∧ after = fun f => f.set w.zen d.toNat (val f)) ∨
      (∃ d val, intResult64 w.zen i = some (gd, d, val) ∧ after = fun f => f.setPair w.zen d.toNat (val f)) ∨
      moveFibre w.zen i = some (gd, after)) →
    Begins i gd s w g → CanTrap (kindsOf s i gd w g) w g entry →
    ∃ t, exec i s = .next t ∧ PartTrapped s t (kindsOf s i gd w g) 0 entry g.trapwin (fun _ _ => none)
      fun _ f => (after f).advance s.nextPc s.lastPc) ∧
  (∀ (i : Instr) (gd : Guard) (s : State) (w : Wave) (g : Grid) (l : Nat) (f : Fibre), s.faulty = [] →
    w.fibres[l]? = some f →
    (kindsOf s i gd w g).getD l .out =
      if w.inPath s.cur.pc l f = false then .out
      else if f.guardTrue gd = false then .skip
      else match brokenRule s i w g f with
        | some c => .bad { cause := c, evalue := encode i, ureg := none, err := none }
        | none => .exec) ∧
  (∀ (i : Instr) (gd : Guard) (s : State) (w : Wave) (g : Grid) (entry : Pc),
    i.guard? = some gd → s.waves[s.cur.wave]? = some w → s.gridOf w = some g → s.faulty = [] →
    g.trapEntry = some entry →
    (∀ l f, w.fibres[l]? = some f → w.inPath s.cur.pc l f = true → f.intrap = false) →
    (∀ l f, w.fibres[l]? = some f → w.inPath s.cur.pc l f = true → f.guardTrue gd = true →
      (brokenRule s i w g f).isSome = true) →
    (∃ l f, w.fibres[l]? = some f ∧ w.inPath s.cur.pc l f = true ∧ f.guardTrue gd = true) →
    ∃ t w', exec i s = .next t ∧ Trapped s t (kindsOf s i gd w g) entry g.trapwin (fun _ _ => trapWith 0 0) ∧
      t.waves[s.cur.wave]? = some w' ∧ ∀ l f, w.fibres[l]? = some f →
        (w.inPath s.cur.pc l f = false → w'.fibres[l]? = some f) ∧
        (w.inPath s.cur.pc l f = true → f.guardTrue gd = false →
          w'.fibres[l]? = some (f.advance s.nextPc s.lastPc)) ∧
        ∀ c, w.inPath s.cur.pc l f = true → f.guardTrue gd = true → brokenRule s i w g f = some c →
          w'.fibres[l]? = some (f.enter w.zen { cause := c, evalue := encode i, ureg := none, err := none } s.cur.pc entry
            g.trapwin)) ∧
  ∀ (gd : Guard) (c acc : BitVec 3) (sa vb : Reg) (ty : MmqTy) (s : State) (w : Wave) (g : Grid) (t0 : Team) (q : Quad)
    (cv : Conv) (entry : Pc),
    let i := Instr.mmq gd c acc sa vb ty
    Ready i gd s w g → s.teams[w.team]? = some t0 → s.quads[w.quadIndex]? = some q → q.conv[c.toNat]? = some cv →
    w.tiles < 63 → s.signWait w.quadIndex = false → CanTrap (kindsOf s i gd w g) w g entry →
    cv.remaining = 0 ∨ cv.set[w.quadPos]? ≠ some w.idx ∨ (cv.signed.getD w.quadPos none).isSome = true →
    ∃ t, exec i s = .next t ∧ Trapped s t (kindsOf s i gd w g) entry g.trapwin fun _ _ => trapWith 0x01 (encode i)

/-- R20, R42: a word that no fibre of its path executes retires, the path goes on at the next word, and nothing else
changes; where the counter that R42's table gives the word is full (R198), the path waits and nothing of it changes.
-/
def Obligations.FalseGuard : Prop :=
  ∀ (i : Instr) (gd : Guard) (s : State) (w : Wave) (g : Grid),
    i.guard? = some gd → s.waves[s.cur.wave]? = some w → s.gridOf w = some g → s.faulty = [] →
    (∀ k ∈ kindsOf s i gd w g, k = .skip ∨ k = .out) → .skip ∈ kindsOf s i gd w g →
    let waits := countWaits i w = true ∨ (limited i = true ∧ s.loadWaits s.cur.wave w = true)
    (¬ waits → ∃ t, exec i s = .next t ∧ Retired s t (kindsOf s i gd w g) 0 fun _ f => f) ∧
    (waits → ∃ t, exec i s = .next t ∧ Waits s t)

namespace Sys2Proof.Machine

/-! ### Floating point (05 R129 to R134) -/

/-- What an elementwise floating-point word computes in one fibre: the words it reads as floating-point values (R123),
the flags of each element (R121), and the fibre with its result. -/
def floatFibre (s : State) (z : Bool) (i : Instr) :
    Option (Guard × (Fibre → List Word) × (Fibre → List (BitVec 6) × Fibre)) :=
  let two := fun (g : Guard) (d a b : Reg) (t : FTy) (op : Nat → Nat → FRes) =>
    some (g, (fun (f : Fibre) => [f.get z a.toNat, f.get z b.toNat]), fun (f : Fibre) =>
      let rs := List.zipWith op (t.elems (f.get z a.toNat)) (t.elems (f.get z b.toNat))
      (rs.map (·.2), f.setZ z d.toNat (t.pack (rs.map (·.1)))))
  let fused := fun (g : Guard) (d a b : Reg) (t : FTy) (np nc : Bool) =>
    let c := match s.hintXop with | some p => (p.extractLsb' 18 6 : BitVec 6).toNat | none => d.toNat
    some (g, (fun (f : Fibre) => [f.get z a.toNat, f.get z b.toNat, f.get z c]), fun (f : Fibre) =>
      let rs := List.zipWith (fun x yz => fpFma t.fmt (s.fmode t) np nc x yz.1 yz.2) (t.elems (f.get z a.toNat))
        (List.zip (t.elems (f.get z b.toNat)) (t.elems (f.get z c)))
      (rs.map (·.2), f.setZ z d.toNat (t.pack (rs.map (·.1)))))
  let sfu := fun (g : Guard) (d a : Reg) (fn : SfuFn) =>
    some (g, (fun (f : Fibre) => [f.get z a.toNat]), fun (f : Fibre) =>
      let r := sfuVal fn s.hintRnd s.hintSat (f.get z a.toNat).toNat
      ([r.2], f.setZ z d.toNat (BitVec.ofNat 32 r.1)))
  match i with
  | .fadd g d a b t => two g d a b t (fpAdd t.fmt (s.fmode t) false)
  | .fsub g d a b t => two g d a b t (fpAdd t.fmt (s.fmode t) true)
  | .fmul g d a b t => two g d a b t (fpMul t.fmt (s.fmode t))
  | .fma g d a b t => fused g d a b t false false
  | .fnma g d a b t => fused g d a b t true false
  | .fms g d a b t => fused g d a b t false true
  | .fnms g d a b t => fused g d a b t true true
  | .fmin g d a b t => two g d a b t (fpMinMax t.fmt (t != .f32) false false)
  | .fmax g d a b t => two g d a b t (fpMinMax t.fmt (t != .f32) true false)
  | .fminn g d a b t => two g d a b t (fpMinMax t.fmt (t != .f32) false true)
  | .fmaxn g d a b t => two g d a b t (fpMinMax t.fmt (t != .f32) true true)
  | .fcmp g pd pe a b cc => some (g, (fun f => [f.get z a.toNat, f.get z b.toNat]), fun f =>
      let x := (f.get z a.toNat).toNat
      let y := (f.get z b.toNat).toNat
      let v := fcond cc (fpRel x y)
      ([fcmpFlags cc x y], (f.setPred pd v).setPred pe (!v)))
  | .cvt g d a op => some (g, (fun f => if cvtFloat op then [f.get z a.toNat] else []), fun f =>
      let r := cvtVal op s.hintRnd s.hintSat (f.get z a.toNat)
      (r.1, f.setZ z d.toNat r.2))
  | .rcp g d a => sfu g d a .rcp
  | .rsq g d a => sfu g d a .rsq
  | .sqrt g d a => sfu g d a .sqrt
  | .exp2 g d a => sfu g d a .exp2
  | .log2 g d a => sfu g d a .log2
  | .sinpi g d a => sfu g d a .sinpi
  | .cospi g d a => sfu g d a .cospi
  | .tanh g d a => sfu g d a .tanh
  | .fclass g d a => some (g, (fun f => [f.get z a.toNat]), fun f =>
      ([0], f.setZ z d.toNat (fclassVal (f.get z a.toNat).toNat)))
  | _ => none

/-! ### Across lanes (05 R135 to R144) -/

/-- What SHFL and VOTE make of the fibre in lane l, with `on` the executing lanes (R136, R137). -/
def crossFibre (w : Wave) (on : List Nat) (i : Instr) : Option (Guard × (Nat → Fibre → Fibre)) :=
  let p := fun (l : Nat) (q : PredNo) => (w.lane l).pred q
  match i with
  | .shfl g d a b m => some (g, fun l f =>
      let n := (f.get false b.toNat).toNat
      let src := match m with
        | .pick => n % w.width
        | .rot => (l + n) % w.width
        | .lead => l / 2 ^ (min n (log2W w.width)) * 2 ^ (min n (log2W w.width))
        | .swap => l ^^^ (n % w.width)
      if src ∈ on then f.set false d.toNat ((w.lane src).get false a.toNat) else f)
  | .voteAll g pd pa => some (g, fun _ f => f.setPred pd (decide (∀ l ∈ on, p l pa = true)))
  | .voteAny g pd pa => some (g, fun _ f => f.setPred pd (decide (∃ l ∈ on, p l pa = true)))
  | .voteBallot g d pa hi => some (g, fun _ f =>
      let lo := if hi then 32 else 0
      f.set false d.toNat (BitVec.ofNat 32
        (∑ k ∈ Finset.range 32, if lo + k ∈ on ∧ p (lo + k) pa = true then 2 ^ k else 0)))
  | _ => none

/-- A running combination of words in lane order (R138). -/
def combined (o : ScanOp) (k : FMode) : List Word → Word
  | [] => o.identity
  | x :: rest => rest.foldl (fun acc y => (o.step k acc y).1) x

end Sys2Proof.Machine

/-- R129 to R134: an elementwise floating-point word whose executing fibres read no marker in a CHECKREG launch, and
raise no NV where trap 0x03 is enabled, writes its results, and the wave's flags gather those of every element. Where
it rests on the model's own choice, not on a rule: log 10. -/
def Obligations.FloatResult : Prop :=
  ∀ (i : Instr) (gd : Guard) (reads : Fibre → List Word) (op : Fibre → List (BitVec 6) × Fibre) (s : State) (w : Wave)
    (g : Grid),
    floatFibre s w.zen i = some (gd, reads, op) → Ready i gd s w g →
    (g.checkreg = true → ∀ l f, w.fibres[l]? = some f → (kindsOf s i gd w g).getD l .out = .exec →
      ∀ x ∈ reads f, isMarker x = false) →
    (s.invOn w = true → ∀ l f, w.fibres[l]? = some f → (kindsOf s i gd w g).getD l .out = .exec →
      ∀ x ∈ (op f).1, x.getLsbD 0 = false) →
    ∃ t, exec i s = .next t ∧
      Retired s t (kindsOf s i gd w g) (raised (kindsOf s i gd w g) w.fibres fun f => (op f).1.foldl (· ||| ·) 0)
        fun _ f => (op f).2.advance s.nextPc s.lastPc

/-- The trap of a marker that a word reads in a CHECKREG launch (R123). -/
def Sys2Proof.Machine.markedBy (x : Word) : TrapInfo :=
  { cause := 0x02, evalue := 0, ureg := some (BitVec.ofNat 8 x.toNat), err := none }

/-- R38, R122, R123: where every executing fibre reads a marker in a CHECKREG launch, or raises NV with trap 0x03
enabled, each traps: 0x02 with the first marker's register, else 0x03 with the first element. Where only some do, or
some break a context rule, those trap, and the others write their results and raise their flags. -/
def Obligations.FloatTrap : Prop :=
  (∀ (i : Instr) (gd : Guard) (reads : Fibre → List Word) (op : Fibre → List (BitVec 6) × Fibre) (s : State) (w : Wave)
    (g : Grid) (entry : Pc),
    let ks := kindsOf s i gd w g
    let why : Nat → Fibre → Option TrapInfo := fun _ f =>
      match (if g.checkreg = true then (reads f).find? isMarker else none) with
      | some m => some (markedBy m)
      | none => if s.invOn w = true then
          ((op f).1.findIdx? fun x => x.getLsbD 0).map fun n => trapWith 0x03 (BitVec.ofNat 32 n) else none
    floatFibre s w.zen i = some (gd, reads, op) → Begins i gd s w g → CanTrap ks w g entry →
    ∃ t, exec i s = .next t ∧ PartTrapped s t ks
      (raised ks w.fibres fun f => if (why 0 f).isSome = true then 0 else (op f).1.foldl (· ||| ·) 0) entry g.trapwin why
      fun _ f => (op f).2.advance s.nextPc s.lastPc) ∧
  ∀ (i : Instr) (gd : Guard) (reads : Fibre → List Word) (op : Fibre → List (BitVec 6) × Fibre) (s : State) (w : Wave)
    (g : Grid) (entry : Pc) (why : Fibre → TrapInfo),
    floatFibre s w.zen i = some (gd, reads, op) → Ready i gd s w g → CanTrap (kindsOf s i gd w g) w g entry →
    (∀ l f, w.fibres[l]? = some f → (kindsOf s i gd w g).getD l .out = .exec →
      (∃ m, g.checkreg = true ∧ (reads f).find? isMarker = some m ∧
        why f = { cause := 0x02, evalue := 0, ureg := some (BitVec.ofNat 8 m.toNat), err := none }) ∨
      (∃ n, (g.checkreg = false ∨ (reads f).find? isMarker = none) ∧ s.invOn w = true ∧
        (op f).1.findIdx? (fun x => x.getLsbD 0) = some n ∧ why f = trapWith 0x03 (BitVec.ofNat 32 n))) →
    ∃ t, exec i s = .next t ∧ Trapped s t (kindsOf s i gd w g) entry g.trapwin fun _ f => why f

/-- R136, R137: SHFL and the three forms of VOTE over the executing lanes; words written out by the rules decode to
them, and a VOTE with another field value is refused. -/
def Obligations.ShuffleVote : Prop :=
  (∀ (i : Instr) (gd : Guard) (op : Nat → Fibre → Fibre) (s : State) (w : Wave) (g : Grid),
    crossFibre w (execLanes (kindsOf s i gd w g)) i = some (gd, op) → Ready i gd s w g →
    ∃ t, exec i s = .next t ∧ Retired s t (kindsOf s i gd w g) 0 fun l f => (op l f).advance s.nextPc s.lastPc) ∧
  decode 0x77C10833 = some (.shfl 7 1 2 3 .swap) ∧ decode 0x78021401 = some (.voteAny 7 2 5) ∧
  decode 0x78060402 = some (.voteBallot 7 6 1 false) ∧ decode 0x78060412 = some (.voteBallot 7 6 1 true) ∧
  decode 0x780A1401 = none ∧ decode 0x78021411 = none ∧ decode 0x78060422 = none

/-- R38, R123, R135, R138, R139, R144: SCAN gives each executing lane the combination of the lanes up to it, or below
it; the operators on integers raise no flag; on FP32 a lane whose value is a marker traps 0x02 in a CHECKREG launch
and takes no part; with trap 0x03 enabled the lanes whose own step raises NV trap instead, each with its lane index;
the others complete, as they do beside lanes that break a context rule. -/
def Obligations.ScanResult : Prop :=
  ∀ (gd : Guard) (d a : Reg) (o : ScanOp) (ex : Bool) (s : State) (w : Wave) (g : Grid),
    let i := Instr.scan gd d a o ex
    let on := execLanes (kindsOf s i gd w g)
    let k := s.fmode .f32
    let val := fun (l : Nat) => (w.lane l).get false a.toNat
    let marked := fun (l : Nat) => o.float && g.checkreg && isMarker (val l)
    let act := on.filter fun l => !marked l
    let upTo := fun (p : Nat → Bool) => combined o k ((act.filter p).map val)
    let after := fun (l : Nat) (f : Fibre) =>
      (f.set false d.toNat (upTo fun j => if ex then j < l else j ≤ l)).advance s.nextPc s.lastPc
    let charged := fun (l : Nat) =>
      (act.any fun j => j < l) && (o.step k (upTo fun j => j < l) (val l)).2.getLsbD 0
    (Ready i gd s w g → (∀ l ∈ on, marked l = false ∧ (o.float = true → s.invOn w = true → charged l = false)) →
      ∃ t fl, exec i s = .next t ∧ (o.float = false → fl = 0) ∧ Retired s t (kindsOf s i gd w g) fl after) ∧
    ∀ entry, Begins i gd s w g → CanTrap (kindsOf s i gd w g) w g entry →
      ∃ t fl, exec i s = .next t ∧ (o.float = false → fl = 0) ∧ PartTrapped s t (kindsOf s i gd w g) fl entry g.trapwin
        (fun l _ => if marked l = true then some (markedBy (val l))
          else if o.float = true ∧ s.invOn w = true ∧ charged l = true then some (trapWith 0x03 (BitVec.ofNat 32 l))
          else none) after

/-- Node i of level n of WRED's tree over lane slots: the operator on its two nodes below, or the one that is there (R139). -/
def Sys2Proof.Machine.treeNode (o : ScanOp) (k : FMode) (leaf : Nat → Option Word) : Nat → Nat → Option Word
  | 0, i => leaf i
  | n + 1, i => match treeNode o k leaf n (2 * i), treeNode o k leaf n (2 * i + 1) with
    | some x, some y => some (o.step k x y).1
    | some x, none => some x
    | none, y => y

/-- R38, R123, R135, R139: WRED gives every executing lane one value, the root of the pairwise tree over the lane
slots; on integers that is the combination of all of them, in any order. On FP32 a lane whose value is a marker traps
0x02 in a CHECKREG launch and takes no part. With trap 0x03 enabled a step of the tree that raises NV traps every
other executing lane, with the lowest lane beneath such a step (R144). Lanes that break a context rule trap beside
those that complete. -/
def Obligations.ReduceResult : Prop :=
  ∀ (gd : Guard) (d a : Reg) (o : ScanOp) (s : State) (w : Wave) (g : Grid),
    let i := Instr.wred gd d a o
    let on := execLanes (kindsOf s i gd w g)
    let val := fun (l : Nat) => (w.lane l).get false a.toNat
    let marked := fun (l : Nat) => o.float && g.checkreg && isMarker (val l)
    let act := on.filter fun l => !marked l
    let xs := act.map val
    let k := s.fmode .f32
    let leaf := fun (l : Nat) => if l ∈ act then some (val l) else none
    let put := fun (v : Word) (_ : Nat) (f : Fibre) => (f.set false d.toNat v).advance s.nextPc s.lastPc
    let beneath := fun (e : Nat) => ∃ n x y,
      treeNode o k leaf n (2 * (e / 2 ^ (n + 1))) = some x ∧ treeNode o k leaf n (2 * (e / 2 ^ (n + 1)) + 1) = some y ∧
      (o.step k x y).2.getLsbD 0 = true
    w.fibres.length ≤ w.width → w.width ≤ 64 →
    (∀ n entry e, Begins i gd s w g → w.width = 2 ^ n → o.float = true → s.invOn w = true →
      CanTrap (kindsOf s i gd w g) w g entry → e ∈ act → beneath e → (∀ l ∈ act, l < e → ¬ beneath l) →
      ∃ t, exec i s = .next t ∧ PartTrapped s t (kindsOf s i gd w g) 0 entry g.trapwin
        (fun l _ => some (if marked l = true then markedBy (val l) else trapWith 0x03 (BitVec.ofNat 32 e))) (put 0)) ∧
    ((o.float = true → s.invOn w = false ∨ ∀ e, ¬ beneath e) →
    ∃ v fl, (o.float = false → fl = 0 ∧ v = combined o k xs) ∧
      (act.length ≤ 2 → act ≠ [] → v = combined o k xs) ∧
      (∀ n, w.width = 2 ^ n → act ≠ [] → treeNode o k leaf n 0 = some v) ∧
      (Ready i gd s w g → (∀ l ∈ on, marked l = false) →
        ∃ t, exec i s = .next t ∧ Retired s t (kindsOf s i gd w g) fl (put v)) ∧
      ∀ entry, Begins i gd s w g → CanTrap (kindsOf s i gd w g) w g entry →
        ∃ t, exec i s = .next t ∧ PartTrapped s t (kindsOf s i gd w g) fl entry g.trapwin
          (fun l _ => if marked l = true then some (markedBy (val l)) else none) (put v))

/-- R38, R123, R135, R140, R141: DIST gives each executing lane the distance of its elements from the query of the
lowest one whose query registers lie in the allotment, over the count of the hint; the lanes below that one trap 0x01.
In a CHECKREG launch a marker in the query traps every lane 0x02, and one among a lane's own elements, or in the d
that it reads, that lane; with trap 0x03 enabled a lane whose own computation raises NV traps with the index that R144
gives its first cause. The others complete, as they do beside lanes that break another context rule. Where it rests on
the model's own choice, not on a rule: log 53. -/
def Obligations.DistResult : Prop :=
  ∀ (gd : Guard) (d a b : Reg) (ty : DistTy) (m : DistMetric) (s : State) (w : Wave) (g : Grid),
    let i := Instr.dist gd d a b ty m
    let ks := kindsOf s i gd w g
    let on := execLanes ks
    let beyond_ := fun (l : Nat) => w.allot < (w.lane l).base + a.toNat + s.distRegs ty
    (∀ entry, Begins i gd s w g → CanTrap ks w g entry → (∀ l ∈ on, beyond_ l) →
      ∃ t, exec i s = .next t ∧ PartTrapped s t ks 0 entry g.trapwin (fun _ _ => some (trapWith 0x01 (encode i))) fun _ f => f) ∧
    ∀ pre n post, on = pre ++ n :: post → (∀ l ∈ pre, beyond_ l) → ¬ beyond_ n →
      let q := w.lane n
      let r := fun (f : Fibre) => distLane ty m (s.fmode .f32) s.distDims (distCode ty q a.toNat) (distCode ty f b.toNat)
        (f.get false d.toNat)
      let regs := fun (f : Fibre) (k : Nat) => (List.range (s.distRegs ty)).map fun j => f.get false (k + j)
      let own := fun (f : Fibre) => regs f b.toNat ++ if m = .l2 ∨ m = .ip then [f.get false d.toNat] else []
      let mark := fun (xs : List Word) => if ty ≠ .s8 ∧ g.checkreg = true then xs.find? isMarker else none
      let why : Nat → Fibre → Option TrapInfo := fun l f =>
        if l ∈ pre then some (trapWith 0x01 (encode i))
        else match mark (regs q a.toNat ++ own f) with
          | some x => some (markedBy x)
          | none => if s.invOn w = true then (r f).nv.map fun j => trapWith 0x03 (BitVec.ofNat 32 j) else none
      let fl := (on.map fun l => if (why l (w.lane l)).isSome = true then 0 else (r (w.lane l)).fl).foldl (· ||| ·) 0
      let after := fun (_ : Nat) (f : Fibre) => (f.set false d.toNat (BitVec.ofNat 32 (r f).code)).advance s.nextPc s.lastPc
      (Ready i gd s w g → (∀ l ∈ on, why l (w.lane l) = none) → ∃ t, exec i s = .next t ∧ Retired s t ks fl after) ∧
      ∀ entry, Begins i gd s w g → CanTrap ks w g entry →
        ∃ t, exec i s = .next t ∧ PartTrapped s t ks fl entry g.trapwin why after

/-- R123, R135, R142, R143: TOPK leaves in its list the first k of the list's entries and the executing lanes'
candidates together, in the order of rank; no other register changes. With k above the width, or list registers beyond
the allotment, every executing lane traps 0x01 (R142); a lane whose key is a marker traps 0x02 in a CHECKREG launch
and gives no candidate; with trap 0x03 enabled a signalling key traps every other executing lane, with the lowest such
lane, or 64 plus the lowest such list slot (R144). Where it rests on the model's own choice, not on a rule: log 53,
54. -/
def Obligations.TopkResult : Prop :=
  ∀ (gd : Guard) (d a b : Reg) (desc : Bool) (s : State) (w : Wave) (g : Grid),
    let i := Instr.topk gd d a b desc
    let on := execLanes (kindsOf s i gd w g)
    let k := match s.hintXop with | some p => (p.extractLsb' 0 16 : BitVec 16).toNat | none => 32
    let p := (lowLane i gd s w g).base + d.toNat
    let snan := fun (x : Word) => x.toNat / 2 ^ 23 % 256 = 255 ∧ x.toNat % 2 ^ 23 ≠ 0 ∧ x.getLsbD 22 = false
    let key := fun (l : Nat) => (w.lane l).get false a.toNat
    let marked := fun (l : Nat) => g.checkreg && isMarker (key l)
    let cands := on.filter fun l => !marked l
    let laneBad := fun (l : Nat) => l ∈ cands ∧ snan (key l)
    let slotBad := fun (l : Nat) => l < k ∧ snan ((w.lane l).regs.getD p 0)
    Ready i gd s w g → w.fibres.length = w.width →
    (∀ entry, w.width < k ∨ w.allot < p + 2 → CanTrap (kindsOf s i gd w g) w g entry →
      ∃ t, exec i s = .next t ∧ Trapped s t (kindsOf s i gd w g) entry g.trapwin fun _ _ => trapWith 0x01 (encode i)) ∧
    (∀ entry e, s.invOn w = true → k ≤ w.width → p + 2 ≤ w.allot →
      CanTrap (kindsOf s i gd w g) w g entry →
      (laneBad e ∧ e < 64 ∧ (∀ l < e, ¬ laneBad l) ∨
        (∀ l, ¬ laneBad l) ∧ ∃ n, e = 64 + n ∧ slotBad n ∧ ∀ l < n, ¬ slotBad l) →
      ∃ t, exec i s = .next t ∧ PartTrapped s t (kindsOf s i gd w g) 0 entry g.trapwin
        (fun l _ => some (if marked l = true then markedBy (key l) else trapWith 0x03 (BitVec.ofNat 32 e))) fun _ f => f) ∧
    ((s.invOn w = false ∨ ∀ l, ¬ laneBad l ∧ ¬ slotBad l) → k ≤ w.width → p + 2 ≤ w.allot →
    ∃ fl es out, es.length = k ∧
      (es ++ out).Perm (((List.range k).map fun l => ((w.lane l).regs.getD p 0, (w.lane l).regs.getD (p + 1) 0)) ++
        cands.map fun l => (key l, (w.lane l).get false b.toNat)) ∧
      (es ++ out).Pairwise (fun x y => topkBefore desc y x = false) ∧
      let s1 := s.setWave s.cur.wave { w with fibres := writeList p es w.fibres }
      ((∀ l ∈ on, marked l = false) → ∃ t, exec i s = .next t ∧
        Retired s1 t (kindsOf s i gd w g) fl fun _ f => f.advance s.nextPc s.lastPc) ∧
      ∀ entry, CanTrap (kindsOf s i gd w g) w g entry → ∃ t, exec i s = .next t ∧
        PartTrapped s1 t (kindsOf s i gd w g) fl entry g.trapwin
          (fun l _ => if marked l = true then some (markedBy (key l)) else none) fun _ f => f.advance s.nextPc s.lastPc)

/-- R25, R28: a hint word joins the group of the bundle in progress and does nothing else by itself. -/
def Obligations.HintWord : Prop :=
  ∀ (i : Instr) (s : State), i.isHint = true → exec i s = .next { s with bundle := s.bundle ++ [i] }

/-- R70, R298, R299: FORK completes; alone in its path, a fibre gets the lowest free slot's number, the slot gets the
child with the value of a in v0 and its share of the weight, and without a free slot it gets -1 and nothing else
happens. -/
def Obligations.ForkStarts : Prop :=
  ∀ (gd : Guard) (d a : Reg) (imm : BitVec 10) (s : State) (w : Wave) (g : Grid),
    let i := Instr.fork gd d a imm
    let put := fun (x : Word) (_ : Nat) (f : Fibre) => (f.set false d.toNat x).advance s.nextPc s.lastPc
    Ready i gd s w g →
    (∃ t, exec i s = .next t) ∧
    ∀ l f, execLanes (kindsOf s i gd w g) = [l] → w.fibres[l]? = some f →
      (w.freeSlot = none → ∃ t, exec i s = .next t ∧ Retired s t (kindsOf s i gd w g) 0 (put 0xFFFFFFFF#32)) ∧
      ∀ k, w.freeSlot = some k → ∃ t, exec i s = .next t ∧
        Retired ((s.setWave s.cur.wave { w with
            fibres := (w.fibres.set k (childOf g (w.fibres.getD k Fibre.empty)
              (s.lastPc + (s.imm10 imm).extractLsb' 0 24) (f.get false a.toNat) (splitWeight f.weight).2.1)).set l
                { f with weight := (splitWeight f.weight).1 } }).refill g.phase (splitWeight f.weight).2.2)
          t (kindsOf s i gd w g) 0 (put (BitVec.ofNat 32 k))

/-- R54, R69, R71, R300: FEND, and RET with a link to word 0, end their executing fibres: each slot is free
afterwards, and while another fibre of the wave can go on, the phase gets their weight back, once the wave owes
nothing. That the weight waits while a store or an MDRAIN of the wave is on its way is the model's choice, not a
rule's words. Where it rests on the model's own choice, not on a rule: log 49. -/
def Obligations.FibreEnds : Prop :=
  ∀ (i : Instr) (gd : Guard) (s : State) (w : Wave) (g : Grid), Ready i gd s w g →
    (i = .fend gd ∨ i = .ret gd ∧ ∀ l f, w.fibres[l]? = some f → (kindsOf s i gd w g).getD l .out = .exec →
      (f.get w.zen 63).toNat / 256 = 0) →
    ∃ t, exec i s = .next t ∧
      (∀ l ∈ execLanes (kindsOf s i gd w g), ∃ w' f', t.waves[s.cur.wave]? = some w' ∧ w'.fibres[l]? = some f' ∧
        f'.live = false ∧ f'.weight = 0) ∧
      ((∃ l f, w.fibres[l]? = some f ∧ f.live = true ∧ f.park = none ∧ l ∉ execLanes (kindsOf s i gd w g)) →
        g.det = false → (∀ t0, s.teamOf w = some t0 → t0.stage = []) →
        (s.owes s.cur.wave = false → ∀ ph, s.phases[g.phase]? = some ph → t.phases[g.phase]? = some { ph with returned :=
          ph.returned + ((execLanes (kindsOf s i gd w g)).map fun l => (w.fibres.getD l Fibre.empty).weight).sum }) ∧
        (s.owes s.cur.wave = true → t.phases = s.phases))

/-- R72: JOIN adds the executing lanes to its mask; JCLR empties its mask and releases the fibres parked on it. -/
def Obligations.JoinMasks : Prop :=
  ∀ (gd : Guard) (j : BitVec 4) (s : State) (w : Wave) (g : Grid), w.masks.length = 16 →
    (Ready (.join gd j) gd s w g → ∃ t m, exec (.join gd j) s = .next t ∧
      (∀ l < 64, m.getLsbD l = (((w.masks.getD j.toNat 0).getLsbD l) ||
        decide (l ∈ execLanes (kindsOf s (.join gd j) gd w g)))) ∧
      Retired (s.setWave s.cur.wave { w with masks := w.masks.set j.toNat m }) t (kindsOf s (.join gd j) gd w g) 0
        fun _ f => f.advance s.nextPc s.lastPc) ∧
    (Ready (.jclr gd j) gd s w g → ∃ t, ∃ w' : Wave, exec (.jclr gd j) s = .next t ∧ t.waves[s.cur.wave]? = some w' ∧
      w'.masks = w.masks.set j.toNat 0 ∧
      ∀ (l : Nat) (f : Fibre), w.fibres[l]? = some f → f.live = true → f.park.map (·.why) = some (.mask j) →
        w'.fibres[l]? = some f.resume)

/-- R72, R73: WAITJ parks its executing fibres while a live fibre of the mask has neither arrived nor executes it;
when the mask is complete with them, they and the fibres parked on it go on. Where it leaves every live fibre of the
wave parked on a mask and none of those masks complete, each of them traps 0x01 at its own WAITJ, with that word. -/
def Obligations.WaitOnMask : Prop :=
  ∀ (gd : Guard) (j : BitVec 4) (s : State) (w : Wave) (g : Grid),
    let i := Instr.waitj gd j
    let on := execLanes (kindsOf s i gd w g)
    let m := w.masks.getD j.toNat 0
    Ready i gd s w g →
    ((∃ l f, w.fibres[l]? = some f ∧ m.getLsbD l = true ∧ f.live = true ∧ f.park = none ∧ l ∉ on) →
      ∃ t w', exec i s = .next t ∧ t.waves[s.cur.wave]? = some w' ∧ ∀ l ∈ on, ∀ f, w.fibres[l]? = some f →
        w'.fibres[l]? = some { f with
          park := some { why := .mask j, next := s.nextPc, last := s.lastPc, word := encode i } }) ∧
    ((∀ l f, w.fibres[l]? = some f → m.getLsbD l = true → l ∈ on ∨ parkedOnMask j.toNat f = true) →
      ∃ t, ∃ w' : Wave, exec i s = .next t ∧ t.waves[s.cur.wave]? = some w' ∧
        (∀ l ∈ on, ∀ f, w.fibres[l]? = some f → w'.fibres[l]? = some (f.advance s.nextPc s.lastPc)) ∧
        ∀ (l : Nat) (f : Fibre), w.fibres[l]? = some f → parkedOnMask j.toNat f = true →
          w'.fibres[l]? = some f.resume) ∧
    ∀ entry, g.trapEntry = some entry →
      (∀ l f, w.fibres[l]? = some f → f.live = true →
        f.intrap = false ∧ (l ∈ on ∨ ∃ k, f.park.map (·.why) = some (.mask k))) →
      (∀ k : BitVec 4, (k = j ∨ ∃ f ∈ w.fibres, parkedOnMask k.toNat f = true) →
        ∃ l f, w.fibres[l]? = some f ∧ (w.masks.getD k.toNat 0).getLsbD l = true ∧ (l ∈ on → k ≠ j) ∧
          (l ∉ on → f.park.map (·.why) ≠ some (.mask k))) →
      ∃ (t : State) (w' : Wave), exec i s = .next t ∧ t.waves[s.cur.wave]? = some w' ∧
        ∀ (l : Nat) (f : Fibre), w.fibres[l]? = some f → f.live = true →
        w'.fibres[l]? = some (f.enter w.zen (trapWith 0x01 (match f.park with | some p => p.word | none => encode i)) f.pc
          entry g.trapwin)

/-- R76 to R78: UBR and POPD take the oldest decision of their wave, DPUSH appends one to the queue of the wave that a
names, and waits while that holds 32, and DCNT counts; where a names no live wave both answer -1; on an empty queue
UBR and POPD wait while the team's Zenith thread runs, and trap 0x01 once it has ended. -/
def Obligations.DecisionQueue : Prop :=
  (∀ (i : Instr) (gd : Guard) (s : State) (w : Wave) (g : Grid), Ready i gd s w g →
    (∀ imm x rest, i = .ubr gd imm → w.decisions = x :: rest →
      ∃ t, exec i s = .next t ∧ Retired (s.setWave s.cur.wave { w with decisions := rest }) t (kindsOf s i gd w g) 0
        fun _ f => if x = 0 then f.advance s.nextPc s.lastPc
          else ({ f.leaveLoops s.lastPc (s.lastPc + (s.imm10 imm).extractLsb' 0 24) with
            pc := s.lastPc + (s.imm10 imm).extractLsb' 0 24 } : Fibre).loopEnd s.lastPc) ∧
    (∀ d x rest, i = .popd gd d → w.decisions = x :: rest →
      ∃ t, exec i s = .next t ∧ Retired (s.setWave s.cur.wave { w with decisions := rest }) t (kindsOf s i gd w g) 0
        fun _ f => (f.set w.zen d.toNat x).advance s.nextPc s.lastPc) ∧
    (∀ d a b t0 wid x, i = .dpush gd d a b → s.teamOf w = some t0 →
      s.liveWave t0 ((lowLane i gd s w g).getPair w.zen a.toNat).toNat = some wid → s.waves[wid]? = some x →
      x.decisions.length < 32 →
      ∃ t, exec i s = .next t ∧
        Retired (s.setWave wid { x with decisions := x.decisions ++ [(lowLane i gd s w g).get w.zen b.toNat] }) t
          (kindsOf s i gd w g) 0
          fun _ f => (f.set w.zen d.toNat (BitVec.ofNat 32 (x.decisions.length + 1))).advance s.nextPc s.lastPc) ∧
    (∀ d a b t0 wid x, i = .dpush gd d a b → s.teamOf w = some t0 →
      s.liveWave t0 ((lowLane i gd s w g).getPair w.zen a.toNat).toNat = some wid → s.waves[wid]? = some x →
      32 ≤ x.decisions.length → ∃ t, exec i s = .next t ∧ Waits s t) ∧
    (∀ d t0, ((∃ a b, i = .dpush gd d a b ∧ s.liveWave t0 ((lowLane i gd s w g).getPair w.zen a.toNat).toNat = none) ∨
        ∃ a, i = .dcnt gd d a ∧ w.zen = true ∧ s.liveWave t0 ((lowLane i gd s w g).getPair w.zen a.toNat).toNat = none) →
      s.teamOf w = some t0 → ∃ t, exec i s = .next t ∧ Retired s t (kindsOf s i gd w g) 0
        fun _ f => (f.set w.zen d.toNat 0xFFFFFFFF#32).advance s.nextPc s.lastPc) ∧
    (∀ d a, i = .dcnt gd d a → w.zen = false →
      ∃ t, exec i s = .next t ∧ Retired s t (kindsOf s i gd w g) 0
        fun _ f => (f.set w.zen d.toNat (BitVec.ofNat 32 w.decisions.length)).advance s.nextPc s.lastPc) ∧
    (∀ d a t0 wid x, i = .dcnt gd d a → w.zen = true → s.teamOf w = some t0 →
      s.liveWave t0 ((lowLane i gd s w g).getPair w.zen a.toNat).toNat = some wid → s.waves[wid]? = some x →
      ∃ t, exec i s = .next t ∧ Retired s t (kindsOf s i gd w g) 0
        fun _ f => (f.set w.zen d.toNat (BitVec.ofNat 32 x.decisions.length)).advance s.nextPc s.lastPc)) ∧
  (∀ (i : Instr) (gd : Guard) (s : State) (w : Wave) (g : Grid) (t0 : Team) (entry : Pc), Ready i gd s w g →
    ((∃ imm, i = .ubr gd imm) ∨ ∃ d, i = .popd gd d) → w.decisions = [] → s.teamOf w = some t0 →
    (s.zenLive t0 = true → ∃ t, exec i s = .next t ∧ Waits s t) ∧
    (s.zenLive t0 = false → CanTrap (kindsOf s i gd w g) w g entry →
      ∃ t, exec i s = .next t ∧ Trapped s t (kindsOf s i gd w g) entry g.trapwin fun _ _ => trapWith 0x01 (encode i)))

namespace Sys2Proof.Machine

/-- What the arrival of wave `w` at barrier b, in the open generation of `bar`, makes of a state `r` (R80, R81): the wave
has arrived in that generation; short of the count expected the arrival is counted; with it the next generation opens, with
the ended waves of team `t0` as its arrivals, and the fibres parked on the old one go on. -/
def arrivedState (r : State) (w : Wave) (t0 : Team) (b : Nat) (bar : Barrier) : State :=
  let freed := fun (f : Fibre) => match f.park with
    | some { why := .barrier b' gen, .. } => if b'.toNat = b ∧ gen = bar.gen then f.resume else f
    | _ => f
  let noted := r.waves.modify r.cur.wave fun x => { x with arrived := x.arrived.set b (some bar.gen) }
  let ended := (t0.waves.filter fun n => (r.waves[n]?).all fun x => x.stat == .ended).length
  let put := fun (x : Barrier) => r.teams.modify w.team fun t => { t with bars := t.bars.set b x }
  if bar.arrivals + 1 < bar.expected then
    { r with waves := noted, teams := put { bar with arrivals := bar.arrivals + 1 } }
  else
    { r with
      waves := noted.map fun x => if x.team = w.team ∧ x.zen = false then { x with fibres := x.fibres.map freed } else x
      teams := put { bar with arrivals := ended, gen := bar.gen + 1 } }

end Sys2Proof.Machine

/-- R80 to R82, R296: BARA is one arrival of its wave in each generation, a team-scope release, and waits while an
access that the wave has issued has not been performed; a held token is dropped. BARW parks its fibres on the
generation in which the wave last arrived, or on the open one, unless that generation has completed; BARS does both,
and a BARS that waits is a blocked fibre and a switch point (R61, R63); BARC sets the count expected, and completes a
generation whose arrivals meet it. Where it rests on the model's own choice, not on a rule: log 9, 54. -/
def Obligations.BarrierWords : Prop :=
  ∀ (gd : Guard) (b : BitVec 4) (a : Reg) (s : State) (w : Wave) (g : Grid) (t0 : Team) (bar : Barrier),
    s.teamOf w = some t0 → t0.bars[b.toNat]? = some bar → b.toNat < w.arrived.length →
    let last := w.arrived.getD b.toNat none
    let flying := ∃ f ∈ w.fibres, f.owed ≠ none ∨ (∃ r, f.park.map (·.why) = some (.atomic r)) ∨
      ∃ n, f.park.map (·.why) = some (.freeze n)
    let on := fun (i : Instr) (n : Nat) (_ : Nat) (f : Fibre) =>
      ({ f with park := some { why := .barrier b n, next := s.nextPc, last := s.lastPc, word := encode i } } : Fibre)
    let go := fun (_ : Nat) (f : Fibre) => f.advance s.nextPc s.lastPc
    let s0 := if w.held = true then
        { s with
          waves := s.waves.set s.cur.wave { w with held := false }
          teams := s.teams.set w.team { t0 with token := (w.idx + 1) % max 1 t0.waves.length } }
      else s
    let s1 := arrivedState (s0.releaseAct s.cur.wave w.core t0.pair) w t0 b.toNat bar
    let i1 := Instr.bara gd b
    let i2 := Instr.barw gd b
    let i3 := Instr.bars gd b
    (Ready i1 gd s w g → ∃ t, exec i1 s = .next t ∧
      (last ≠ some bar.gen → flying → Waits s t) ∧
      (last ≠ some bar.gen → ¬ flying → Retired s1 t (kindsOf s i1 gd w g) 0 go) ∧
      (last = some bar.gen → Retired s0 t (kindsOf s i1 gd w g) 0 go)) ∧
    (Ready i2 gd s w g → ∃ t, exec i2 s = .next t ∧ Retired s t (kindsOf s i2 gd w g) 0
      (match last with
        | some n => if n < bar.gen then go else on i2 n
        | none => on i2 bar.gen)) ∧
    (Ready i3 gd s w g → ∃ t, exec i3 s = .next t ∧
      (last ≠ some bar.gen → flying → Waits s t) ∧
      (last ≠ some bar.gen → ¬ flying → Retired s1 t (kindsOf s i3 gd w g) 0
        (if bar.arrivals + 1 < bar.expected then on i3 bar.gen else go)) ∧
      (last = some bar.gen → Retired s0 t (kindsOf s i3 gd w g) 0 (on i3 bar.gen))) ∧
    (Ready (.barc gd a b) gd s w g →
      let n := ((lowLane (.barc gd a b) gd s w g).get w.zen a.toNat).toNat
      let s1 := s.modTeam w.team fun x => { x with bars := x.bars.set b.toNat { bar with expected := n } }
      (1 ≤ n → n ≤ t0.waves.length →
      ∃ t, exec (.barc gd a b) s = .next t ∧
        Retired (if n ≤ bar.arrivals then s1.completeBar w.team b.toNat else s1) t (kindsOf s (.barc gd a b) gd w g) 0 go) ∧
      ∀ entry, n = 0 ∨ t0.waves.length < n → CanTrap (kindsOf s (.barc gd a b) gd w g) w g entry →
        ∃ t, exec (.barc gd a b) s = .next t ∧ Trapped s t (kindsOf s (.barc gd a b) gd w g) entry g.trapwin fun _ _ =>
          trapWith 0x01 (encode (.barc gd a b)))

/-- R80: an arrival short of the count expected is only counted; the one that reaches it opens the next generation,
with the ended waves as its arrivals, and the fibres parked on the old one go on. -/
def Obligations.BarrierGeneration : Prop :=
  ∀ (s : State) (tid b : Nat) (t0 : Team) (bar : Barrier), s.teams[tid]? = some t0 → t0.bars[b]? = some bar →
    (bar.arrivals + 1 < bar.expected → s.arrive tid b = { s with
      teams := s.teams.set tid { t0 with bars := t0.bars.set b { bar with arrivals := bar.arrivals + 1 } } }) ∧
    (bar.expected ≤ bar.arrivals + 1 →
      (s.arrive tid b).teams = s.teams.set tid
        { t0 with bars := t0.bars.set b { bar with arrivals := s.endedWaves t0, gen := bar.gen + 1 } } ∧
      ∀ (wid : Nat) (w : Wave) (l : Nat) (f : Fibre), s.waves[wid]? = some w → w.team = tid → w.zen = false → w.fibres[l]? = some f →
        ∃ w' : Wave, (s.arrive tid b).waves[wid]? = some w' ∧
          w'.fibres[l]? = some (match f.park with
            | some { why := .barrier b' gen, .. } => if b'.toNat = b ∧ gen = bar.gen then f.resume else f
            | _ => f))

/-- R188 to R190, R197, R198: QPUSH appends to the partial command on k0, where no command becomes complete, and
empties k1 to k3. The fourth word of a good command makes the engine accept it: the command joins the engine's,
charged to the issuer, whose copies counter counts it, with a share of the pushing fibre's weight; its promise is
posted to k1, and is no earlier than now or than the last one; with the counter at 63, or no slot of the core free,
the QPUSH waits. QPOP and QTRY take one entry for each executing fibre in lane order; a QPOP that lacks an entry waits
while a command of its wave can still post one; QCNT counts. Where it rests on the model's own choice, not on a rule:
log 2. -/
def Obligations.QueueRegisters : Prop :=
  ∀ (i : Instr) (gd : Guard) (k : BitVec 4) (s : State) (w : Wave) (g : Grid), Ready i gd s w g → k.toNat < 4 →
    let ks := kindsOf s i gd w g
    let on := execLanes ks
    let q := w.queue k
    (∀ a, i = .qpush gd k a → k = 0 → w.k0.length + on.length < 4 →
      ∃ t, exec i s = .next t ∧ Retired ({ s with
          slotQueue := s.slotQueue.filter fun c => c != s.cur && s.stillPushes c }.setWave s.cur.wave
          { w with k0 := w.k0 ++ on.map fun l => (w.lane l).getPair w.zen a.toNat }) t ks 0
        fun _ f => f.advance s.nextPc s.lastPc) ∧
    (∀ a l f t0, i = .qpush gd k a → k = 0 → w.k0.length = 3 → on = [l] → w.fibres[l]? = some f → s.teamOf w = some t0 →
      let cw := w.k0 ++ [f.getPair w.zen a.toNat]
      let used := (s.engine.filter fun c => c.core == w.core && c.done.isNone).length
      let now := s.time.toNat
      (readCmd cw).ob = false →
      (63 ≤ w.copies → ∃ t, exec i s = .next t ∧ Waits s t) ∧
      (w.copies < 63 → 1024 ≤ used → ∃ t, exec i s = .next t ∧
        Waits { s with slotQueue := if s.cur ∈ s.slotQueue then s.slotQueue else s.slotQueue ++ [s.cur] } t) ∧
      (w.copies < 63 → used < 1024 → s.slotQueue = [] → s.acceptStatus w t0 g (readCmd cw) (cw.getD 0 0) = none →
        (∀ y, s.engine.find? (·.charged == s.cur.wave) = some y → y.done = none) →
        ∃ (t : State) (w' : Wave) (c : Copy), exec i s = .next t ∧ t.waves[s.cur.wave]? = some w' ∧
          t.engine = s.engine ++ [c] ∧ c.core = w.core ∧ c.issuer = s.cur.wave ∧ c.charged = s.cur.wave ∧ c.cw = cw ∧
          c.done = none ∧ c.record = none ∧ c.asid = g.asid ∧ c.priv = g.priv ∧ c.phase = g.phase ∧
          c.weight = (splitWeight f.weight).2.1 ∧ c.promise = BitVec.ofNat 32 w'.lastProm ∧
          max now w.lastProm ≤ w'.lastProm ∧ w'.lastProm ≤ max (now + (2 ^ 31 - 1)) w.lastProm ∧
          (w.k1.entries.length < 64 → w'.k1 =
            { w.k1 with entries := w.k1.entries ++ [(0#16) ++ (readCmd cw).tag ++ c.promise] }) ∧
          w'.copies = w.copies + 1 ∧ w'.k0 = [] ∧ w'.k2 = w.k2 ∧ w'.k3 = w.k3 ∧
          w'.fails = w.fails.map (fun x => { x with younger := x.younger + 1 }) ∧
          w'.fibres = w.fibres.mapIdx (laneAfter s ks fun _ f =>
            ({ f with weight := (splitWeight f.weight).1 } : Fibre).advance s.nextPc s.lastPc) ∧
          w'.fpflags = w.fpflags ∧ w'.loads = w.loads ∧ w'.tiles = w.tiles)) ∧
    (∀ d, i = .qpop gd d k → k ≠ 0 → q.entries.length < on.length →
      (∃ c ∈ s.engine, c.issuer = s.cur.wave ∧
        (k = 2 ∧ (readCmd c.cw).note = true ∨ k = 3 ∧ (readCmd c.cw).skind = 2)) →
      ∃ t, exec i s = .next t ∧ Waits s t) ∧
    (∀ a, i = .qpush gd k a → k ≠ 0 →
      ∃ t, exec i s = .next t ∧ Retired (s.setWave s.cur.wave (w.modQueue k fun _ => { entries := [], lost := false }))
        t ks 0 fun _ f => f.advance s.nextPc s.lastPc) ∧
    (∀ d, (i = .qpop gd d k ∧ (on.length ≤ q.entries.length ∨ s.posting s.cur.wave k = false)) ∨ i = .qtry gd d k → k ≠ 0 →
      ∃ t, exec i s = .next t ∧
        Retired (s.setWave s.cur.wave (w.modQueue k fun q => { q with entries := q.entries.drop on.length })) t ks 0
          fun l f => (f.setPair w.zen d.toNat (((on.zip q.entries).lookup l).getD 0xFFFFFFFFFFFFFFFF#64)).advance
            s.nextPc s.lastPc) ∧
    (∀ d, i = .qpop gd d k ∨ i = .qtry gd d k → k = 0 →
      ∃ t, exec i s = .next t ∧ Retired (s.setWave s.cur.wave { w with k0 := [] }) t ks 0
        fun _ f => (f.setPair w.zen d.toNat (BitVec.ofNat 64 w.k0.length)).advance s.nextPc s.lastPc) ∧
    (∀ d, i = .qcnt gd d k → k = 0 →
      ∃ t, exec i s = .next t ∧ Retired s t ks 0
        fun _ f => (f.setZ w.zen d.toNat (BitVec.ofNat 32 w.k0.length)).advance s.nextPc s.lastPc) ∧
    (∀ d, i = .qcnt gd d k → k ≠ 0 → q.entries.length < 2 ^ 31 →
      ∃ t, exec i s = .next t ∧ Retired (s.setWave s.cur.wave (w.modQueue k fun q => { q with lost := false })) t ks 0
        fun _ f => (f.setZ w.zen d.toNat
          (BitVec.ofNat 32 ((if q.lost then 2 ^ 31 else 0) + q.entries.length))).advance s.nextPc s.lastPc)

/-- R199, R200, R202: WAITN goes on once every counter is within its threshold and no failure waits to be reported,
and acquires if it asks about copies or tile operations (R204, R215); it waits otherwise; the oldest failure of a copy
that it requires traps instead, with the cause that R200 gives its status and with its tag and status, and is
consumed. SLEEPT goes on once chip time has reached its promise with no copy missed, parks until then, and traps 0x06
for the oldest copy that has missed its promise, which sr.prom names. Where it rests on the model's own choice, not on
a rule: log 37. -/
def Obligations.CounterWaits : Prop :=
  ∀ (gd : Guard) (ld st cp tl : BitVec 5) (a : Reg) (s : State) (w : Wave) (g : Grid),
    let i := Instr.waitn gd ld st cp tl
    let j := Instr.sleept gd a
    let met := under ld w.loads && under st w.stores && under cp w.copies && under tl w.tiles
    let p := (lowLane j gd s w g).get w.zen a.toNat
    (Ready i gd s w g → met = true → (cp = 31#5 ∨ ∀ f ∈ w.fails, f.younger < cp.toNat) →
      let s1 := if cp = 31#5 ∧ tl = 31#5 then s else s.acquireCore w.core
      let asked := fun (n : Nat) => cp != 31#5 && decide (cp.toNat ≤ n)
      ∃ t, exec i s = .next t ∧ Retired (if w.sysCopies.any asked then s1.releaseHost.modWave s.cur.wave fun x =>
          { x with sysCopies := x.sysCopies.filter fun n => !asked n } else s1) t
        (kindsOf s i gd w g) 0 fun _ f => f.advance s.nextPc s.lastPc) ∧
    (∀ entry pre x post, Ready i gd s w g → met = true → cp ≠ 31#5 → w.fails = pre ++ x :: post →
      (∀ y ∈ pre, y.younger < cp.toNat) → cp.toNat ≤ x.younger → x.cause ≠ 0x07 →
      CanTrap (kindsOf s i gd w g) w g entry →
      ∃ t, exec i s = .next t ∧ Trapped (s.setWave s.cur.wave { w with fails := pre ++ post }) t (kindsOf s i gd w g) entry
        g.trapwin fun _ _ => { cause := x.cause, evalue := BitVec.ofNat 32 (2 ^ 16 * x.status.toNat + x.tag.toNat),
                               ureg := none, err := none }) ∧
    (∀ st : Byte, copyCause st = if st = 1 ∨ st = 2 then some 0x10 else if st = 3 then some 0x09
      else if st = 4 ∨ st = 5 ∨ st = 6 then some 0x04 else if st = 7 then some 0x05 else none) ∧
    (∀ entry pre c post, Ready j gd s w g → (lo32 s.time - p).toNat < 2 ^ 31 → s.engine = pre ++ c :: post →
      c.charged = s.cur.wave → (lo32 s.time - c.promise).toNat < 2 ^ 31 →
      (∀ y ∈ pre, y.charged = s.cur.wave → 2 ^ 31 ≤ (lo32 s.time - y.promise).toNat) →
      CanTrap (kindsOf s j gd w g) w g entry →
      ∃ t, exec j s = .next t ∧
        Trapped (s.setWave s.cur.wave { w with prom := BitVec.ofNat 32 (2 ^ 31 + (readCmd c.cw).tag.toNat) }) t
          (kindsOf s j gd w g) entry g.trapwin fun _ _ => trapWith 0x06 c.promise) ∧
    (Ready i gd s w g → met = false → ∃ t, exec i s = .next t ∧ Waits s t) ∧
    (Ready j gd s w g → (lo32 s.time - p).toNat < 2 ^ 31 → s.missed s.cur.wave = none →
      ∃ t, exec j s = .next t ∧ Retired s t (kindsOf s j gd w g) 0 fun _ f => f.advance s.nextPc s.lastPc) ∧
    (Ready j gd s w g → 2 ^ 31 ≤ (lo32 s.time - p).toNat →
      ∃ t w', exec j s = .next t ∧ t.waves[s.cur.wave]? = some w' ∧
        ∀ l f, w.fibres[l]? = some f → (kindsOf s j gd w g).getD l .out = .exec → w'.fibres[l]? = some { f with
          park := some { why := .sleep p, next := s.nextPc, last := s.lastPc, word := encode j } })

/-- R289, R295, R296: TOKW holds the Meridian token when it stands at the wave, TOKP lets a held one pass to the next
member, and neither does anything outside a DET launch. In one, ATOM, REDM, SCATB, SCATF, FREEZE and THAW wait while
the token is not at their wave, and ATOM, SCATF, FREEZE and THAW while their team does not hold the turn. -/
def Obligations.MeridianToken : Prop :=
  ∀ (gd : Guard) (s : State) (w : Wave) (g : Grid),
    (Ready (.tokw gd) gd s w g → s.tokenHere w g = true →
      ∃ t, exec (.tokw gd) s = .next t ∧
        Retired (if g.det && !w.zen && !w.held then s.setWave s.cur.wave { w with held := true } else s) t
          (kindsOf s (.tokw gd) gd w g) 0 fun _ f => f.advance s.nextPc s.lastPc) ∧
    (Ready (.tokp gd) gd s w g → w.held = true →
      ∃ t, exec (.tokp gd) s = .next t ∧
        Retired ((s.setWave s.cur.wave { w with held := false }).modTeam w.team fun x =>
            { x with token := (w.idx + 1) % max 1 x.waves.length }) t
          (kindsOf s (.tokp gd) gd w g) 0 fun _ f => f.advance s.nextPc s.lastPc) ∧
    (Ready (.tokp gd) gd s w g → w.held = false →
      ∃ t, exec (.tokp gd) s = .next t ∧
        Retired s t (kindsOf s (.tokp gd) gd w g) 0 fun _ f => f.advance s.nextPc s.lastPc) ∧
    (∀ i, ((∃ d a o c op, i = .redm gd d a o c op) ∨ ∃ a b, i = .scatb gd a b) → Ready i gd s w g → s.tokenHere w g = false →
      ∃ t, exec i s = .next t ∧ Waits s t) ∧
    ∀ i, ((∃ d a o c op, i = .atom gd d a o c op) ∨ (∃ d a, i = .scatf gd d a) ∨ (∃ d a b, i = .freeze gd d a b) ∨
        ∃ d a, i = .thaw gd d a) → Ready i gd s w g →
      s.tokenHere w g = false ∨ s.staging w.team = true ∧ g.det = true → ∃ t, exec i s = .next t ∧ Waits s t

namespace Sys2Proof.Machine

/-! ### Scratchpad (R148 to R154) -/

/-- A scratchpad access: its guard, its address register, the XOFF of the bundle where the access takes one, its size and
its annotation. -/
def scrAccess (s : State) (i : Instr) : Option (Guard × Reg × DWord × Nat × Ord4 × Scope) :=
  match i with
  | .lds gd _ a o c wd _ | .sts gd _ a o c wd _ => some (gd, a, s.hintXoff, wd.bytes, o, c.narrow)
  | .atoms gd _ a _ _ => some (gd, a, 0, 4, .acqrel, .team)
  | _ => none

/-- Where n bytes at an offset lie: the half of the pair and the byte there; none outside the allotment (R149). -/
def scrPlace (t : Team) (g : Grid) (w : Wave) (n : Nat) (off : DWord) : Option (Bool × Nat) :=
  let own := t.pair && w.core != t.core
  let o := off.toNat
  if o % n ≠ 0 then none
  else if o + n ≤ g.scratch then some (own, o)
  else if t.pair = true ∧ 0x100000 ≤ o ∧ o - 0x100000 + n ≤ g.scratch then some (!own, o - 0x100000)
  else none

/-- What ATOMS writes (R154). -/
def scratchAtomic (op : AtomsOp) (old x e : Word) : Word :=
  match op with
  | .add => BitVec.ofNat 32 (old.toNat + x.toNat)
  | .min => BitVec.ofInt 32 (min old.toInt x.toInt)
  | .max => BitVec.ofInt 32 (max old.toInt x.toInt)
  | .umin => BitVec.ofNat 32 (min old.toNat x.toNat)
  | .umax => BitVec.ofNat 32 (max old.toNat x.toNat)
  | .and => old &&& x
  | .or => old ||| x
  | .xor => old ^^^ x
  | .exch => x
  | .cas => if old = e then x else old
  | .fadd => BitVec.ofNat 32 (fpAdd .f32 homeMode false old.toNat x.toNat).1

/-- Some executing fibre that `p` holds for, the highest lane first. -/
def lastLane {α : Type} (on : List Nat) (p : Nat → Option α) : Option α := on.reverse.findSome? p

end Sys2Proof.Machine

/-- R148 to R153: LDS puts the bytes at each executing fibre's offset into its register, lowest bytes first and
zero-extended, and changes nothing else; STS puts each executing fibre's bytes at its offset, the highest lane's where
lanes overlap, and leaves every other byte of the team's allotments; the stores counter, which it raises at issue, is
back at its retirement. -/
def Obligations.ScratchAccess : Prop :=
  (∀ (gd : Guard) (d a : Reg) (o : Ord4) (c : Scope) (wd : Width) (ch : CacheHint) (s : State) (w : Wave) (g : Grid)
    (t0 : Team) (place : Fibre → Bool × Nat),
    let i := Instr.lds gd d a o c wd ch
    Ready i gd s w g → s.teams[w.team]? = some t0 → w.loads < 63 → s.loadWaits s.cur.wave w = false →
    (∀ l f, w.fibres[l]? = some f → (kindsOf s i gd w g).getD l .out = .exec →
      scrPlace t0 g w wd.bytes (f.getPair w.zen a.toNat + s.hintXoff) = some (place f)) →
    ∃ t, exec i s = .next t ∧
      Retired (s.orderAct s.cur.wave w.core t0.pair o c.narrow) t (kindsOf s i gd w g) 0 fun _ f =>
        (f.setBytes w.zen d.toNat ((t0.scr (place f).1).readN (place f).2 wd.bytes)).advance s.nextPc s.lastPc) ∧
  (∀ (gd : Guard) (d a : Reg) (o : Ord4) (c : Scope) (wd : Width) (ch : CacheHint) (s : State) (w : Wave) (g : Grid)
    (t0 : Team) (place : Fibre → Bool × Nat),
    let i := Instr.sts gd d a o c wd ch
    let on := execLanes (kindsOf s i gd w g)
    Ready i gd s w g → s.teams[w.team]? = some t0 → w.stores < 63 →
    (∀ l ∈ on, scrPlace t0 g w wd.bytes ((w.lane l).getPair w.zen a.toNat + s.hintXoff) = some (place (w.lane l))) →
    ∃ t m m2, exec i s = .next t ∧
      Retired ((s.orderAct s.cur.wave w.core t0.pair o c.narrow).modTeam w.team fun x =>
          { x with scratch := m, scratch2 := m2 }) t (kindsOf s i gd w g) 0
        (fun _ f => f.advance s.nextPc s.lastPc) ∧
      ∀ (odd : Bool) (x : Nat), (if odd then m2 else m).read x =
        (lastLane on fun l =>
          let q := place (w.lane l)
          if q.1 = odd ∧ q.2 ≤ x ∧ x < q.2 + wd.bytes then
            ((w.lane l).getBytes w.zen d.toNat wd.bytes)[x - q.2]? else none).getD ((t0.scr odd).read x))

/-- The two allotments of a team after the ATOMS of lanes, one lane after another, each at its place (R151, R154). -/
def Sys2Proof.Machine.scratchFold (z : Bool) (w : Wave) (d b : Reg) (op : AtomsOp) (place : Nat → Bool × Nat)
    (m : Memory × Memory) (ls : List Nat) : Memory × Memory :=
  ls.foldl (fun m l =>
    let q := place l
    let f := w.lane l
    let c := if q.1 then m.2 else m.1
    let new := scratchAtomic op (c.word q.2) (f.get z b.toNat) (f.get z (d.toNat + 1))
    let c1 := c.writeN q.2 (leBytes 4 new.toNat)
    if q.1 then (m.1, c1) else (c1, m.2)) m

/-- R38, R151, R153, R154: the executing fibres' ATOMS happen in lane order: each returns the word that the lanes
below it have left, zero-extended in Zenith code, and stores what its operation makes of it; no other byte changes. A
fibre whose offset is misaligned traps 0x08, one outside the allotment 0x09, and does nothing else, beside those that
complete. -/
def Obligations.ScratchAtomic : Prop :=
  ∀ (gd : Guard) (d a b : Reg) (op : AtomsOp) (s : State) (w : Wave) (g : Grid) (t0 : Team),
    let i := Instr.atoms gd d a b op
    let ks := kindsOf s i gd w g
    let on := execLanes ks
    let at_ := fun (f : Fibre) => scrPlace t0 g w 4 (f.getPair w.zen a.toNat)
    let place := fun (l : Nat) => (at_ (w.lane l)).getD (false, 0)
    let act := on.filter fun l => (at_ (w.lane l)).isSome
    let upTo := fun (ls : List Nat) => scratchFold w.zen w d b op place (t0.scratch, t0.scratch2) ls
    let s1 := (s.orderAct s.cur.wave w.core t0.pair .acqrel .team).modTeam w.team fun x =>
      { x with scratch := (upTo act).1, scratch2 := (upTo act).2 }
    let after := fun (l : Nat) (f : Fibre) =>
      let m := upTo (act.takeWhile (· < l))
      (f.setZ w.zen d.toNat ((if (place l).1 then m.2 else m.1).word (place l).2)).advance s.nextPc s.lastPc
    s.teams[w.team]? = some t0 → w.loads < 63 → s.loadWaits s.cur.wave w = false →
    (Ready i gd s w g → (∀ l ∈ on, (at_ (w.lane l)).isSome = true) →
      ∃ t, exec i s = .next t ∧ Retired s1 t ks 0 after) ∧
    ∀ entry, Begins i gd s w g → CanTrap ks w g entry →
      ∃ t, exec i s = .next t ∧ PartTrapped s1 t ks 0 entry g.trapwin
        (fun _ f => match at_ f with
          | some _ => none
          | none => some (trapWith (if (f.getPair w.zen a.toNat).toNat % 4 ≠ 0 then 0x08 else 0x09)
              (lo32 (f.getPair w.zen a.toNat)))) after

/-- R38, R153: a scratchpad access at a misaligned offset traps 0x08, one outside the allotment 0x09, each with the
offset in sr.evalue; the access itself has no effect. Where some fibres of an LDS or an STS trap so, or break a
context rule, the others complete it. -/
def Obligations.ScratchTrap : Prop :=
  (∀ (i : Instr) (gd : Guard) (a : Reg) (xo : DWord) (n : Nat) (o : Ord4) (c : Scope) (s : State) (w : Wave) (g : Grid)
    (t0 : Team) (entry : Pc),
    scrAccess s i = some (gd, a, xo, n, o, c) → Ready i gd s w g → s.teams[w.team]? = some t0 →
    w.loads < 63 → w.stores < 63 → s.loadWaits s.cur.wave w = false → CanTrap (kindsOf s i gd w g) w g entry →
    (∀ l f, w.fibres[l]? = some f → (kindsOf s i gd w g).getD l .out = .exec →
      scrPlace t0 g w n (f.getPair w.zen a.toNat + xo) = none) →
    ∃ t, exec i s = .next t ∧
      Trapped (s.orderAct s.cur.wave w.core t0.pair o c) t (kindsOf s i gd w g) entry g.trapwin fun _ f =>
        let off := f.getPair w.zen a.toNat + xo
        trapWith (if off.toNat % n ≠ 0 then 0x08 else 0x09) (lo32 off)) ∧
  ∀ (gd : Guard) (d a : Reg) (o : Ord4) (c : Scope) (wd : Width) (ch : CacheHint) (s : State) (w : Wave) (g : Grid)
    (t0 : Team) (entry : Pc),
    let n := wd.bytes
    let off := fun (f : Fibre) => f.getPair w.zen a.toNat + s.hintXoff
    let at_ := fun (f : Fibre) => scrPlace t0 g w n (off f)
    let why : Nat → Fibre → Option TrapInfo := fun _ f => match at_ f with
      | some _ => none
      | none => some (trapWith (if (off f).toNat % n ≠ 0 then 0x08 else 0x09) (lo32 (off f)))
    let s0 := s.orderAct s.cur.wave w.core t0.pair o c.narrow
    s.teams[w.team]? = some t0 →
    (∀ i, i = Instr.lds gd d a o c wd ch → Begins i gd s w g → w.loads < 63 → s.loadWaits s.cur.wave w = false →
      CanTrap (kindsOf s i gd w g) w g entry →
      ∃ t, exec i s = .next t ∧ PartTrapped s0 t (kindsOf s i gd w g) 0 entry g.trapwin why fun _ f =>
        (f.setBytes w.zen d.toNat (((at_ f).map fun q => (t0.scr q.1).readN q.2 n).getD [])).advance s.nextPc s.lastPc) ∧
    ∀ i, i = Instr.sts gd d a o c wd ch → Begins i gd s w g → w.stores < 63 → CanTrap (kindsOf s i gd w g) w g entry →
      ∃ t m m2, exec i s = .next t ∧
        PartTrapped (s0.modTeam w.team fun x => { x with scratch := m, scratch2 := m2 }) t (kindsOf s i gd w g) 0 entry
          g.trapwin why (fun _ f => f.advance s.nextPc s.lastPc) ∧
        ∀ (odd : Bool) (x : Nat), (if odd then m2 else m).read x =
          (lastLane (execLanes (kindsOf s i gd w g)) fun l => (at_ (w.lane l)).bind fun q =>
            if q.1 = odd ∧ q.2 ≤ x ∧ x < q.2 + n then ((w.lane l).getBytes w.zen d.toNat n)[x - q.2]?
            else none).getD ((t0.scr odd).read x)

namespace Sys2Proof.Machine

/-! ### Global accesses that trap or fault (R227, R258, R268 to R271) -/

/-- A global access of one word: its guard, its address register, its bytes, whether it writes, its class in a fault record,
the counter that counts it, and the state with the cache actions that its annotation asks for before it (R215). -/
def globalAccess (s : State) (w : Wave) (i : Instr) :
    Option (Guard × Reg × Nat × Bool × AccessClass × Option Bool × State) :=
  let ordered := fun (o : Ord4) (c : Scope) => s.orderAct s.cur.wave w.core (s.pairTeam w) o c
  match i with
  | .ldg gd _ a o c wd _ => some (gd, a, wd.bytes, false, .load, some false, ordered o c)
  | .stg gd _ a o c wd _ => some (gd, a, wd.bytes, true, .store, some true, ordered o c)
  | .atom gd _ a o c op => some (gd, a, atomSize op, true, .atomic, some false, ordered o c)
  | .redm gd _ a o c op => some (gd, a, atomSize op, true, .atomic, some true, ordered o c)
  | .waitc gd _ a o c _ w64 => some (gd, a, if w64 = true then 8 else 4, false, .load, none,
      if o = .rel ∨ o = .acqrel then s.releaseAt s.cur.wave w.core (s.pairTeam w) c else s)
  | _ => none

/-- The fault of an access below 2^57 of grid `g`: its kind, and the base and size code of its page (R260, R268). -/
def faultOf (s : State) (g : Grid) (wr : Bool) (va : Nat) : Option (FaultKind × Nat × BitVec 2) :=
  match s.findPage g.asid va with
  | none => some (.notMapped, va / 65536 * 65536, 0)
  | some p =>
    let of := fun (k : FaultKind) => some (k, p.va, p.sz)
    if p.priv = true ∧ g.priv = false then of .priv
    else if p.rd = false then of .noRd
    else if wr = true ∧ p.wr = false then of .noWr
    else if wr = true ∧ 0 < s.frozenAt (p.key va) then of .wFix
    else none

/-- The outstanding record that a fault of a wave on core `core` joins (R268). -/
def joins (s : State) (g : Grid) (core : Nat) (x : FaultKind × Nat × BitVec 2) : Option FaultRec :=
  s.records.find? fun r => r.die == core / 16 && r.asid == g.asid && r.page == x.2.1 && r.kind == x.1

/-- The fault mailbox of a grid's space (R268). -/
def faultBox (s : State) (g : Grid) : Option Nat := (s.spaces.find? fun x => x.asid == g.asid).bind (·.mbx)

/-- A global access either finds its place, or traps or faults in a way that the rules name. -/
abbrev settled (s : State) (g : Grid) (wr : Bool) (n : Nat) (va : DWord) : Prop :=
  (s.lands g wr n va).isSome = true ∨ va.toNat % n ≠ 0 ∨ 2 ^ 57 ≤ va.toNat ∨ (faultOf s g wr va.toNat).isSome = true

/-- The trap of a lane whose global access finds no place, in a space without a fault mailbox (R227, R258, R271). -/
def globalWhy (s : State) (g : Grid) (z : Bool) (wr : Bool) (n : Nat) (a : Reg) (_ : Nat) (f : Fibre) : Option TrapInfo :=
  let va := s.ea z f a
  if (s.lands g wr n va).isSome = true then none
  else some (trapWith (if va.toNat % n ≠ 0 then 0x08 else if 2 ^ 57 ≤ va.toNat then 0x04
    else if (faultOf s g wr va.toNat).map (·.1) = some .wFix then 0x05 else 0x04) (lo32 va))

end Sys2Proof.Machine

/-- R217, R226, R227, R258, R268 to R271: LDG loads bytes of its width into each executing fibre's register, and
changes nothing but the memory system's own copies; with every byte at its home they are the bytes of memory, and no
byte of memory changes. And for LDG, STG, ATOM, REDM and WAITC alike: a misaligned address traps 0x08, one of 2^57 or
above 0x04; a fault on translation traps at once in a space without a fault mailbox, 0x05 for a fixed block and else
0x04; with one it parks its fibre, the instruction still counted, on the record of its page and kind, an outstanding
one or a new one; and with all 4,096 records of the die in use it waits. The fibres of an LDG that can complete do so
beside those that trap (R38) and those that park. Where it rests on the model's own choice, not on a rule: log 9, 12.
-/
def Obligations.GlobalLoad : Prop :=
  (∀ (i : Instr) (gd : Guard) (a : Reg) (n : Nat) (wr : Bool) (cls : AccessClass) (ctr : Option Bool) (s s1 : State)
    (w : Wave) (g : Grid),
    globalAccess s w i = some (gd, a, n, wr, cls, ctr, s1) → Ready i gd s w g → g.det = false → w.loads < 63 →
    w.stores < 63 → s.loadWaits s.cur.wave w = false →
    let ks := kindsOf s i gd w g
    let on := execLanes ks
    let va := fun (f : Fibre) => s.ea w.zen f a
    let mbx := (s.spaces.find? fun x => x.asid == g.asid).bind (·.mbx)
    let parked := fun (id : Nat) (h : Nat → Word) (l : Nat) (f : Fibre) => ({ f with
      owed := some { counter := ctr, id := id, psn := false }
      park := some { why := .record (h l) (va f), next := s.nextPc, last := s.lastPc, word := encode i } } : Fibre)
    Fresh s w on →
    (∀ entry, CanTrap ks w g entry →
      (∀ l ∈ on, (va (w.lane l)).toNat % n ≠ 0 ∨ 2 ^ 57 ≤ (va (w.lane l)).toNat ∨
        mbx = none ∧ (faultOf s g wr (va (w.lane l)).toNat).isSome = true) →
      ∃ t k, exec i s = .next t ∧ Trapped { s1 with freeCtr := k } t ks entry g.trapwin fun _ f =>
        trapWith (if (va f).toNat % n ≠ 0 then 0x08 else if 2 ^ 57 ≤ (va f).toNat then 0x04
          else if (faultOf s g wr (va f).toNat).map (·.1) = some .wFix then 0x05 else 0x04) (lo32 (va f))) ∧
    (∀ rec_ : Nat → FaultRec, mbx ≠ none →
      (∀ l ∈ on, (va (w.lane l)).toNat % n = 0 ∧ (va (w.lane l)).toNat < 2 ^ 57 ∧
        ∃ x, faultOf s g wr (va (w.lane l)).toNat = some x ∧ joins s g w.core x = some (rec_ l)) →
      ∃ (t : State) (w' : Wave) (id : Nat), exec i s = .next t ∧ t.waves[s.cur.wave]? = some w' ∧
        w'.fibres = w.fibres.mapIdx (laneAfter s ks (parked id fun l => (rec_ l).handle)) ∧
        w'.loads = w.loads + (if ctr = some false then 1 else 0) ∧
        w'.stores = w.stores + (if ctr = some true then 1 else 0) ∧ w'.fpflags = w.fpflags ∧
        t.records.map (·.handle) = s.records.map (·.handle) ∧ t.pages = s.pages ∧ t.mem = s1.mem ∧ t.poison = s1.poison) ∧
    ∀ l x, mbx ≠ none → on = [l] → (va (w.lane l)).toNat % n = 0 → (va (w.lane l)).toNat < 2 ^ 57 →
      faultOf s g wr (va (w.lane l)).toNat = some x → joins s g w.core x = none →
      let used := fun (k : Nat) => s.records.any fun r => r.die == w.core / 16 && r.index == k
      ((∀ k < 4096, used k = true) → ∃ t, exec i s = .next t ∧ Waits s t) ∧
      ∀ k < 4096, used k = false → (∀ j < k, used j = true) →
        ∃ (t : State) (w' : Wave) (id : Nat) (r : FaultRec), exec i s = .next t ∧ t.waves[s.cur.wave]? = some w' ∧
          t.records = s.records ++ [r] ∧
          r = { die := w.core / 16, index := k, seq := s.recSeq.getD (w.core / 16) 0, kind := x.1, cls := cls,
                asid := g.asid, va := va (w.lane l), page := x.2.1, sz := x.2.2, merged := 0, count := 1,
                time := s.time.toNat, region := r.region, posted := false } ∧
          w'.fibres = w.fibres.mapIdx (laneAfter s ks (parked id fun _ => r.handle)) ∧
          w'.loads = w.loads + (if ctr = some false then 1 else 0) ∧
          w'.stores = w.stores + (if ctr = some true then 1 else 0) ∧ w'.fpflags = w.fpflags ∧
          t.pages = s.pages ∧ t.mem = s1.mem ∧ t.poison = s1.poison) ∧
  (∀ (gd : Guard) (d a : Reg) (o : Ord4) (c : Scope) (wd : Width) (ch : CacheHint) (s : State) (w : Wave) (g : Grid)
    (key : Nat → Page × Nat),
    let i := Instr.ldg gd d a o c wd ch
    let ks := kindsOf s i gd w g
    Ready i gd s w g → w.loads < 63 → s.loadWaits s.cur.wave w = false → Fresh s w (execLanes ks) →
    (∀ l ∈ execLanes ks, s.lands g false wd.bytes (s.ea w.zen (w.lane l) a) = some (key l)) →
    ∃ (t : State) (w' : Wave) (bs : Nat → List Byte), exec i s = .next t ∧ MemStep s t w w' ∧
      w'.fibres = w.fibres.mapIdx (laneAfter s ks fun l f => (f.setBytes w.zen d.toNat (bs l)).advance s.nextPc s.lastPc) ∧
      w'.stores = w.stores ∧ w'.loads = w.loads ∧ t.poison = s.poison ∧ (∀ l, (bs l).length = wd.bytes) ∧
      (Quiet s → t.mem = s.mem ∧ ∀ l ∈ execLanes ks, bs l = s.homeRead (key l).2 wd.bytes)) ∧
  ∀ (gd : Guard) (d a : Reg) (o : Ord4) (c : Scope) (wd : Width) (ch : CacheHint) (s : State) (w : Wave) (g : Grid),
    let i := Instr.ldg gd d a o c wd ch
    let n := wd.bytes
    let ks := kindsOf s i gd w g
    let on := execLanes ks
    let va := fun (f : Fibre) => s.ea w.zen f a
    let done := fun (bs : Nat → List Byte) (l : Nat) (f : Fibre) => (f.setBytes w.zen d.toNat (bs l)).advance s.nextPc s.lastPc
    let right := fun (t : State) (bs : Nat → List Byte) => (∀ l, (bs l).length = n) ∧
      (Quiet s → t.mem = s.mem ∧ ∀ l ∈ on, ∀ p k, s.lands g false n (va (w.lane l)) = some (p, k) → bs l = s.homeRead k n)
    w.loads < 63 → s.loadWaits s.cur.wave w = false → Fresh s w on →
    (∀ entry, Begins i gd s w g → CanTrap ks w g entry → faultBox s g = none →
      (∀ l ∈ on, settled s g false n (va (w.lane l))) →
      ∃ (t : State) (w' : Wave) (bs : Nat → List Byte), exec i s = .next t ∧ MemStep s t w w' ∧
        w'.fibres = w.fibres.mapIdx (laneParted s ks w.zen entry g.trapwin (globalWhy s g w.zen false n a) (done bs)) ∧
        w'.stores = w.stores ∧ w'.loads = w.loads ∧ t.poison = s.poison ∧ right t bs) ∧
    ∀ rec_ : Nat → FaultRec, Ready i gd s w g → faultBox s g ≠ none → (∃ l ∈ on, s.lands g false n (va (w.lane l)) = none) →
      (∀ l ∈ on, s.lands g false n (va (w.lane l)) = none → (va (w.lane l)).toNat % n = 0 ∧ (va (w.lane l)).toNat < 2 ^ 57 ∧
        ∃ x, faultOf s g false (va (w.lane l)).toNat = some x ∧ joins s g w.core x = some (rec_ l)) →
      ∃ (t : State) (w' : Wave) (bs : Nat → List Byte) (id : Nat) (psn : Bool), exec i s = .next t ∧
        MemStep { s with records := t.records } t w w' ∧ t.records.map (·.handle) = s.records.map (·.handle) ∧
        w'.fibres = w.fibres.mapIdx (laneAfter s ks fun l f =>
          if (s.lands g false n (va f)).isSome = true then done bs l f
          else { f with
            owed := some { counter := some false, id := id, psn := psn }
            park := some { why := .record (rec_ l).handle (va f), next := s.nextPc, last := s.lastPc, word := encode i } }) ∧
        w'.stores = w.stores ∧ w'.loads = w.loads + 1 ∧ t.poison = s.poison ∧ right t bs

/-- R217, R226, R227, R229: STG stores each executing fibre's bytes at its address and counts one store; memory keeps
every other byte, and a tracked line has the highest lane's bytes at once. STG.clrpoison of one whole line clears its
poison. The fibres of an STG that can complete do so beside those that trap (R38). In a DET launch an STG of a team
without the turn stages its bytes, in lane order, and memory does not change; it waits where the stage has no room
(R289, R291). Where it rests on the model's own choice, not on a rule: log 9. -/
def Obligations.GlobalStore : Prop :=
  (∀ (i : Instr) (gd : Guard) (d a : Reg) (o : Ord4) (c : Scope) (wd : Width) (ch : CacheHint) (s : State) (w : Wave)
    (g : Grid) (key : Nat → Page × Nat),
    let ks := kindsOf s i gd w g
    let on := execLanes ks
    let clr := i = Instr.stgClrpoison gd d a o c wd ch
    (i = Instr.stg gd d a o c wd ch ∨
      clr ∧ coversLine (on.map fun l => (s.ea w.zen (w.lane l) a).toNat) wd.bytes = true) →
    Ready i gd s w g → g.det = false → w.stores < 63 → Fresh s w on →
    (∀ l ∈ on, s.lands g true wd.bytes (s.ea w.zen (w.lane l) a) = some (key l)) →
    ∃ t w', exec i s = .next t ∧ MemStep s t w w' ∧
      w'.fibres = w.fibres.mapIdx (laneAfter s ks fun _ f => f.advance s.nextPc s.lastPc) ∧
      w'.stores = w.stores + 1 ∧ w'.loads = w.loads ∧
      (∀ y, y ∈ t.poison ↔ y ∈ s.poison ∧ (clr → y ≠ (key (on.headD 0)).2 / 128)) ∧
      (Quiet s →
        (∀ x, (∀ l ∈ on, x < (key l).2 ∨ (key l).2 + wd.bytes ≤ x) → t.mem.read x = s.mem.read x) ∧
        ((∀ p ∈ s.pages, p.coh = 0) → (∀ x ∈ s.leaders, x.coh = 0) → ∀ x, t.mem.read x =
          (lastLane on fun l =>
            if (key l).2 ≤ x ∧ x < (key l).2 + wd.bytes then
              ((w.lane l).getBytes w.zen d.toNat wd.bytes)[x - (key l).2]? else none).getD (s.mem.read x)))) ∧
  ∀ (gd : Guard) (d a : Reg) (o : Ord4) (c : Scope) (wd : Width) (ch : CacheHint) (s : State) (w : Wave) (g : Grid),
    let i := Instr.stg gd d a o c wd ch
    let n := wd.bytes
    let ks := kindsOf s i gd w g
    let on := execLanes ks
    let at_ := fun (l : Nat) => s.lands g true n (s.ea w.zen (w.lane l) a)
    let bytes := fun (l : Nat) => (w.lane l).getBytes w.zen d.toNat n
    w.stores < 63 → Fresh s w on →
    (∀ entry, Begins i gd s w g → CanTrap ks w g entry → g.det = false → faultBox s g = none →
      (∀ l ∈ on, settled s g true n (s.ea w.zen (w.lane l) a)) →
      ∃ (t : State) (w' : Wave), exec i s = .next t ∧ MemStep s t w w' ∧
        w'.fibres = w.fibres.mapIdx (laneParted s ks w.zen entry g.trapwin (globalWhy s g w.zen true n a)
          fun _ f => f.advance s.nextPc s.lastPc) ∧
        w'.stores = w.stores + (if ∃ l ∈ on, (at_ l).isSome = true then 1 else 0) ∧ w'.loads = w.loads ∧
        t.poison = s.poison ∧
        (Quiet s →
          (∀ x, (∀ l ∈ on, ∀ p k, at_ l = some (p, k) → x < k ∨ k + n ≤ x) → t.mem.read x = s.mem.read x) ∧
          ((∀ p ∈ s.pages, p.coh = 0) → (∀ x ∈ s.leaders, x.coh = 0) → ∀ x, t.mem.read x =
            (lastLane on fun l => (at_ l).bind fun q =>
              if q.2 ≤ x ∧ x < q.2 + n then (bytes l)[x - q.2]? else none).getD (s.mem.read x)))) ∧
    ∀ (key : Nat → Page × Nat) (tm : Team), Ready i gd s w g → g.det = true → s.staging w.team = true →
      s.teams[w.team]? = some tm → (∀ l ∈ on, at_ l = some (key l)) →
      let stage := tm.stage ++ on.map fun l => .store (key l).2 (bytes l)
      (2048 < stageUsed stage → ∃ t, exec i s = .next t ∧ Waits s t) ∧
      (stageUsed stage ≤ 2048 → ∃ t ld, exec i s = .next t ∧
        (let s1 := s.orderAct s.cur.wave w.core (s.pairTeam w) o c
         Retired (({ s1 with
           leaders := ld, freeCtr := s1.freeCtr + 1, teams := s1.teams.set w.team { tm with stage := stage } } :
             State).oweStore s.cur.wave s1.freeCtr ([], [])) t ks 0 fun _ f => f.advance s.nextPc s.lastPc))

/-- R228, R298: STG.msg sends the 64-byte block that its executing fibres fill, zeros elsewhere, to the mapping port,
to the Orrery port, or to the mailbox or the peer's mailbox at its address, with a share of the lowest executing
fibre's weight, and counts one store. In a DET launch the message of a team without the turn goes into its stage, with
the team's number, and waits where that has no room (R289, R291). -/
def Obligations.MessageStore : Prop :=
  ∀ (gd : Guard) (d a : Reg) (o : Ord4) (c : Scope) (wd : Width) (ch : CacheHint) (s : State) (w : Wave) (g : Grid)
    (t0 : Team) (base : Nat) (tgt : Target),
    let i := Instr.stgMsg gd d a o c wd ch
    let ks := kindsOf s i gd w g
    let on := execLanes ks
    let ea := fun (l : Nat) => (s.ea w.zen (w.lane l) a).toNat
    Ready i gd s w g → w.stores < 63 → Fresh s w on → s.teams[w.team]? = some t0 →
    (∀ l ∈ on, ea l % wd.bytes = 0 ∧ ea l / 64 * 64 = base) →
    (base = 0x01FFFFFFFFFF0000 ∧ g.priv = true ∧ tgt = .mapping t0.grid ∨
      base = 0x01FFFFFFFFFF0040 ∧ g.priv = true ∧ tgt = .orrery t0.grid ∨
      base ≠ 0x01FFFFFFFFFF0000 ∧ base ≠ 0x01FFFFFFFFFF0040 ∧ ∃ p k,
        s.translate g.asid g.priv false needStore (BitVec.ofNat 64 base) = .ok p k ∧
        ((∃ n, s.mailboxAt k = some n ∧ tgt = .mailbox n) ∨
          s.mailboxAt k = none ∧ keyLoc k = 2 ∧ tgt = .peer (p.tgt.toNat / 2 ^ 52 % 64) k)) →
    let r := (s.orderAct s.cur.wave w.core (s.pairTeam w) o c).splitFrom s.cur.wave (on.headD 0) g.phase
    let msg := fun (words : List DWord) (tm : Option Nat) =>
      ({ target := tgt, words := words, weight := some r.2, team := tm, sender := some (s.cur.wave, r.1.freeCtr) } : Flight)
    let sent := fun (x : State) =>
      ({ x with freeCtr := r.1.freeCtr + 1 } : State).oweStore s.cur.wave r.1.freeCtr ([], [])
    ∃ words : List DWord,
      (g.det = false → ∃ t, exec i s = .next t ∧
        Retired (sent { r.1 with flights := r.1.flights ++ [msg words none] }) t ks 0 fun _ f => f.advance s.nextPc s.lastPc) ∧
      (g.det = true → s.staging w.team = true →
        let stage := t0.stage ++ [.message (msg words (some w.team))]
        (2048 < stageUsed stage → ∃ t, exec i s = .next t ∧ Waits s t) ∧
        (stageUsed stage ≤ 2048 → ∃ t, exec i s = .next t ∧
          Retired (sent { r.1 with teams := r.1.teams.set w.team { t0 with stage := stage } }) t ks 0
            fun _ f => f.advance s.nextPc s.lastPc)) ∧
      words.length = 8 ∧
      ∀ x < 64, (dwordBytes words)[x]? = some ((lastLane on fun l =>
        if ea l ≤ base + x ∧ base + x < ea l + wd.bytes then
          ((w.lane l).getBytes w.zen d.toNat wd.bytes)[base + x - ea l]? else none).getD 0)

namespace Sys2Proof.Machine

/-! ### Atomics at the home (R234 to R247) -/

/-- What an atomic leaves in its location, of its width (R239, R240). -/
def atomicResult (op : AtomOp) (old x e : Nat) : Nat :=
  let y := x % 2 ^ 32
  let i32 := fun (n : Nat) => (BitVec.ofNat 32 n).toInt
  match op with
  | .add => (old + y) % 2 ^ 32
  | .sub => (old + 2 ^ 32 - y) % 2 ^ 32
  | .minS => if i32 old ≤ i32 y then old else y
  | .maxS => if i32 old ≤ i32 y then y else old
  | .minU => min old y
  | .maxU => max old y
  | .and => old &&& y
  | .or => old ||| y
  | .xor => old ^^^ y
  | .exch => y
  | .cas => if old = e % 2 ^ 32 then y else old
  | .incw => if y ≤ old then 0 else old + 1
  | .decw => if old = 0 ∨ y < old then y else old - 1
  | .addD => (old + x) % 2 ^ 64
  | .exchD => x
  | .casD => if old = e then x else old
  | .faddF32 => (fpAdd .f32 homeMode false old y).1
  | .fminF32 => (fpMinMax .f32 false false false old y).1
  | .fmaxF32 => (fpMinMax .f32 false true false old y).1
  | .faddBf16 | .faddB8p4 | .faddB8p5 => narrowAdd op old y

/-- The operands x and e of an atomic in a fibre, and its location's bytes (R24, R238, R242). -/
def atomicOperands (z : Bool) (f : Fibre) (d : Reg) (op : AtomOp) : Nat × Nat :=
  match op with
  | .addD | .exchD => ((f.getPair z d.toNat).toNat, 0)
  | .casD => ((f.getPair z d.toNat).toNat, (f.getPair z (d.toNat + 2)).toNat)
  | .cas => ((f.get z d.toNat).toNat, (f.get z (d.toNat + 1)).toNat)
  | _ => ((f.get z d.toNat).toNat, 0)

/-- Memory after the atomics of lanes, each at its key. -/
def atomicFold (z : Bool) (w : Wave) (d : Reg) (op : AtomOp) (key : Nat → Page × Nat) (m : Memory) (ls : List Nat) : Memory :=
  ls.foldl (fun m l =>
    let k := (key l).2
    let n := atomSize op
    let x := atomicOperands z (w.lane l) d op
    m.writeN k (leBytes n (atomicResult op (leNat (m.readN k n)) x.1 x.2))) m

end Sys2Proof.Machine

/-- R234, R236, R238 to R242, R244: ATOM returns the old value, zero-extended, to each executing fibre and changes no
other register; with every byte at its home, the operations happen in lane order, each at once, and no other byte of
memory changes. The fibres that can complete do so beside those that trap (R38). REDM completes like a store and
returns nothing; a narrow reduction leaves memory as it was, and alone it starts an FP32 sum in the line's shadow; in
a DET launch a team without the turn stages its operations in lane order, passes the token on, and waits where the
stage has no room (R289, R291, R295). Where it rests on the model's own choice, not on a rule: log 9. -/
def Obligations.GlobalAtomic : Prop :=
  (∀ (gd : Guard) (d a : Reg) (o : Ord4) (c : Scope) (op : AtomOp) (s : State) (w : Wave) (g : Grid)
    (key : Nat → Page × Nat),
    let i := Instr.atom gd d a o c op
    let ks := kindsOf s i gd w g
    let on := execLanes ks
    let n := atomSize op
    Ready i gd s w g → g.det = false → s.defer = false → w.loads < 63 → s.loadWaits s.cur.wave w = false → Fresh s w on →
    (∀ l ∈ on, s.lands g true n (s.ea w.zen (w.lane l) a) = some (key l)) →
    ∃ (t : State) (w' : Wave) (old : Nat → Nat), exec i s = .next t ∧ MemStep s t w w' ∧
      w'.fibres = w.fibres.mapIdx (laneAfter s ks fun l f =>
        (f.setBytes w.zen d.toNat (leBytes (max n 4) (old l))).advance s.nextPc s.lastPc) ∧
      w'.stores = w.stores ∧ w'.loads = w.loads ∧ t.poison = s.poison ∧
      (Quiet s → (∀ l ∈ on, plainKey (key l).2) →
        t.mem = atomicFold w.zen w d op key s.mem on ∧
        ∀ j l, on[j]? = some l →
          old l = leNat ((atomicFold w.zen w d op key s.mem (on.take j)).readN (key l).2 n))) ∧
  (∀ (gd : Guard) (d a : Reg) (o : Ord4) (c : Scope) (op : AtomOp) (s : State) (w : Wave) (g : Grid) (entry : Pc),
    let i := Instr.atom gd d a o c op
    let ks := kindsOf s i gd w g
    let n := atomSize op
    let at_ := fun (l : Nat) => s.lands g true n (s.ea w.zen (w.lane l) a)
    let act := (execLanes ks).filter fun l => (at_ l).isSome
    Begins i gd s w g → CanTrap ks w g entry → g.det = false → s.defer = false → w.loads < 63 →
    s.loadWaits s.cur.wave w = false → Fresh s w (execLanes ks) → faultBox s g = none →
    (∀ l ∈ execLanes ks, settled s g true n (s.ea w.zen (w.lane l) a)) →
    ∀ key : Nat → Page × Nat, (∀ l ∈ act, at_ l = some (key l)) →
    ∃ (t : State) (w' : Wave) (old : Nat → Nat), exec i s = .next t ∧ MemStep s t w w' ∧
      w'.fibres = w.fibres.mapIdx (laneParted s ks w.zen entry g.trapwin (globalWhy s g w.zen true n a) fun l f =>
        (f.setBytes w.zen d.toNat (leBytes (max n 4) (old l))).advance s.nextPc s.lastPc) ∧
      w'.stores = w.stores ∧ w'.loads = w.loads ∧ t.poison = s.poison ∧
      (Quiet s → (∀ l ∈ act, plainKey (key l).2) →
        t.mem = atomicFold w.zen w d op key s.mem act ∧
        ∀ j l, act[j]? = some l →
          old l = leNat ((atomicFold w.zen w d op key s.mem (act.take j)).readN (key l).2 n))) ∧
  (∀ (gd : Guard) (d a : Reg) (o : Ord4) (c : Scope) (op : AtomOp) (s : State) (w : Wave) (g : Grid)
    (key : Nat → Page × Nat) (tm : Team),
    let i := Instr.redm gd d a o c op
    let ks := kindsOf s i gd w g
    let on := execLanes ks
    Ready i gd s w g → g.det = true → s.staging w.team = true → s.tokenHere w g = true → w.stores < 63 → Fresh s w on →
    s.teams[w.team]? = some tm →
    (∀ l ∈ on, s.lands g true (atomSize op) (s.ea w.zen (w.lane l) a) = some (key l)) →
    let s1 := s.orderAct s.cur.wave w.core (s.pairTeam w) o c
    let stage := tm.stage ++ on.map fun l => .redm (key l).2 op
      (BitVec.ofNat 64 (atomicOperands w.zen (w.lane l) d op).1) (some s.cur.wave) s1.freeCtr
    (2048 < stageUsed stage → ∃ t, exec i s = .next t ∧ Waits s t) ∧
    (stageUsed stage ≤ 2048 → ∃ t ld, exec i s = .next t ∧
      Retired (({ s1 with
        leaders := ld, freeCtr := s1.freeCtr + 1
        teams := s1.teams.set w.team { tm with
          stage := stage
          token := if w.zen = false ∧ w.held = false then (w.idx + 1) % max 1 tm.waves.length else tm.token } } :
            State).oweStore s.cur.wave s1.freeCtr ([], [])) t ks 0 fun _ f => f.advance s.nextPc s.lastPc)) ∧
  (∀ (gd : Guard) (d a : Reg) (o : Ord4) (c : Scope) (op : AtomOp) (s : State) (w : Wave) (g : Grid)
    (key : Nat → Page × Nat),
    let i := Instr.redm gd d a o c op
    let ks := kindsOf s i gd w g
    let on := execLanes ks
    Ready i gd s w g → g.det = false → w.stores < 63 → Fresh s w on →
    (∀ l ∈ on, s.lands g true (atomSize op) (s.ea w.zen (w.lane l) a) = some (key l)) →
    ∃ (t : State) (w' : Wave), exec i s = .next t ∧ MemStep s t w w' ∧
      w'.fibres = w.fibres.mapIdx (laneAfter s ks fun _ f => f.advance s.nextPc s.lastPc) ∧
      w'.stores = w.stores + 1 ∧ w'.loads = w.loads ∧ t.poison = s.poison ∧
      (Quiet s → (∀ l ∈ on, plainKey (key l).2) →
        (isNarrow op = false → t.mem = atomicFold w.zen w d op key s.mem on ∧ t.shadows = []) ∧
        (isNarrow op = true → t.mem = s.mem ∧ ∀ l, on = [l] →
          let k := (key l).2
          let sz := narrowSize op
          let sum := (fpAdd .f32 homeMode false (widenCode op (leNat (s.mem.readN k sz)))
            ((w.lane l).get w.zen d.toNat).toNat).1
          t.shadows = [{ line := k / 128, op := op,
                         elts := [{ idx := k % 128 / sz, val := BitVec.ofNat 32 sum, touched := true }] }])))

namespace Sys2Proof.Machine

/-- Whether the condition of a WAITC holds for the location's value m and the operand x, of n bits (R248). -/
def waitHolds (c : WCond) (n m x : Nat) : Bool :=
  let si := fun (v : Nat) => (BitVec.ofNat n v).toInt
  match c with
  | .eq => m == x
  | .ne => m != x
  | .geu => decide (x ≤ m)
  | .ltu => decide (m < x)
  | .ges => decide (si x ≤ si m)
  | .lts => decide (si m < si x)
  | .anyset => m &&& x != 0
  | .allclr => m &&& x == 0

/-- Chip time at which a WAITC that parks now gives up: its XIMM payload in microseconds; 0 and none set no bound (R248). -/
def waitBound (s : State) : Option Nat :=
  match s.hintXimm with
  | some p => if p.toNat = 0 then none else some (s.time.toNat + 1000 * p.toNat)
  | none => none

end Sys2Proof.Machine

/-- R248, R249: WAITC completes in each executing fibre whose location satisfies the condition, with the value read,
and parks the others with what they wait for; with every byte at its home memory does not change. Where it rests on
the model's own choice, not on a rule: log 9. -/
def Obligations.MonitorWait : Prop :=
  ∀ (gd : Guard) (d a : Reg) (o : Ord4) (c : Scope) (cc : WCond) (w64 : Bool) (s : State) (w : Wave) (g : Grid)
    (key : Nat → Page × Nat),
    let i := Instr.waitc gd d a o c cc w64
    let ks := kindsOf s i gd w g
    let n := if w64 then 8 else 4
    let x := fun (f : Fibre) => if w64 then f.getPair w.zen d.toNat else (f.get w.zen d.toNat).setWidth 64
    Ready i gd s w g → Fresh s w (execLanes ks) →
    (∀ l ∈ execLanes ks, s.lands g false n (s.ea w.zen (w.lane l) a) = some (key l)) →
    ∃ (t : State) (w' : Wave) (v : Nat → List Byte) (m : Nat → Monitor), exec i s = .next t ∧ MemStep s t w w' ∧
      w'.fibres = w.fibres.mapIdx (laneAfter s ks fun l f =>
        if waitHolds cc (8 * n) (leNat (v l)) (x f).toNat then
          (f.setBytes w.zen d.toNat (v l)).advance s.nextPc s.lastPc
        else { f with park := some {
          why := .monitor { m l with
            d := d, va := s.ea w.zen f a, key := (key l).2, cond := cc, w64 := w64, x := x f, ord := o, scp := c
            deadline := waitBound s, next := s.time.toNat + 1000, met := none }
          next := s.nextPc, last := s.lastPc, word := encode i } }) ∧
      w'.stores = w.stores ∧ w'.loads = w.loads ∧ (∀ l, (v l).length = n) ∧
      (Quiet s → t.mem = s.mem ∧ ∀ l ∈ execLanes ks, v l = s.homeRead (key l).2 n)

/-- R255 to R257: SCATB of one fibre into a bucket with room puts its index among the entries, counts it, and changes
no other byte; on a final bucket only the late count rises; on one with no capacity or a reserved field set, and where
the entries or the drop list cannot be reached, ERR is set and the index is dropped. A full bucket keeps the cap
lowest of its entries and the index, and drops the greatest of them; the drop list keeps the dcap lowest dropped.
SCATF makes a bucket final: it answers the count in every executing fibre, sorts the entries and the drop list, sets
FINAL; on a bucket that is final already it only answers. In a DET launch a team without the turn stages its SCATBs,
in lane order (R289, R291, R295). That the operation acts on memory in the step of its own instruction (log 9), and on
which lines of the array (log 54), is the model's choice. Where it rests on the model's own choice, not on a rule: log
9, 54. -/
def Obligations.BucketReduction : Prop :=
  (∀ (gd : Guard) (a b : Reg) (s : State) (w : Wave) (g : Grid) (key : Nat → Page × Nat) (tm : Team),
    let i := Instr.scatb gd a b
    let ks := kindsOf s i gd w g
    let on := execLanes ks
    Ready i gd s w g → g.det = true → s.staging w.team = true → s.tokenHere w g = true → Fresh s w on →
    s.teams[w.team]? = some tm → (∀ l ∈ on, s.lands g true 64 ((w.lane l).getPair w.zen a.toNat) = some (key l)) →
    let stage := tm.stage ++ on.map fun l =>
      .scatb g.asid (key l).2 ((w.lane l).get w.zen b.toNat) (some s.cur.wave) s.freeCtr false
    (2048 < stageUsed stage → ∃ t, exec i s = .next t ∧ Waits s t) ∧
    (stageUsed stage ≤ 2048 → ∃ t ld, exec i s = .next t ∧
      Retired { s with
        leaders := ld, freeCtr := s.freeCtr + 1
        teams := s.teams.set w.team { tm with
          stage := stage
          token := if w.zen = false ∧ w.held = false then (w.idx + 1) % max 1 tm.waves.length else tm.token } } t ks 0
        fun _ f => f.advance s.nextPc s.lastPc)) ∧
  (∀ (gd : Guard) (a b : Reg) (s : State) (w : Wave) (g : Grid) (l k : Nat) (p : Page) (ents : List Nat),
    let i := Instr.scatb gd a b
    let ks := kindsOf s i gd w g
    let m := s.mem
    let field := fun (o n : Nat) => leNat (m.readN (k + o) n)
    let x := ((w.lane l).get w.zen b.toNat).toNat
    Ready i gd s w g → g.det = false → Quiet s → plainKey k → execLanes ks = [l] → Fresh s w [l] →
    s.lands g true 64 ((w.lane l).getPair w.zen a.toNat) = some (p, k) →
    (field 32 4 % 2 = 1 → field 36 4 < 2 ^ 32 - 1 →
      ∃ (t : State) (w' : Wave), exec i s = .next t ∧ t.waves[s.cur.wave]? = some w' ∧
        w'.fibres = w.fibres.mapIdx (laneAfter s ks fun _ f => f.advance s.nextPc s.lastPc) ∧
        leNat (t.mem.readN (k + 36) 4) = field 36 4 + 1 ∧ ∀ y, (y < k + 36 ∨ k + 40 ≤ y) → t.mem.read y = m.read y) ∧
    (field 32 4 = 0 → field 40 24 = 0 → field 24 4 < field 0 4 →
      (s.arrayTry g.asid g.priv .loses (BitVec.ofNat 64 (field 8 8)) (field 24 4 + 1) = .keys ents) →
      (∀ e ∈ ents, plainKey e ∧ (e + 4 ≤ k ∨ k + 64 ≤ e)) → ents.Pairwise (fun e f => e + 4 ≤ f ∨ f + 4 ≤ e) →
      ∃ (t : State) (w' : Wave) (new : List Nat), exec i s = .next t ∧ t.waves[s.cur.wave]? = some w' ∧
        w'.fibres = w.fibres.mapIdx (laneAfter s ks fun _ f => f.advance s.nextPc s.lastPc) ∧
        new.Perm (x :: (ents.take (field 24 4)).map fun e => leNat (m.readN e 4)) ∧
        new = ents.map (fun e => leNat (t.mem.readN e 4)) ∧
        leNat (t.mem.readN (k + 24) 4) = field 24 4 + 1 ∧
        ∀ y, (y < k + 24 ∨ k + 28 ≤ y) → (∀ e ∈ ents, y < e ∨ e + 4 ≤ y) → t.mem.read y = m.read y) ∧
    (field 32 4 % 2 = 0 → field 0 4 = 0 ∨ field 40 24 ≠ 0 ∨ 4 ≤ field 32 4 → field 28 4 < 2 ^ 32 - 1 →
      ∃ (t : State) (w' : Wave), exec i s = .next t ∧ t.waves[s.cur.wave]? = some w' ∧
        w'.fibres = w.fibres.mapIdx (laneAfter s ks fun _ f => f.advance s.nextPc s.lastPc) ∧
        leNat (t.mem.readN (k + 28) 4) = field 28 4 + 1 ∧ leNat (t.mem.readN (k + 32) 4) = (field 32 4 ||| 2) ∧
        ∀ y, (y < k + 28 ∨ k + 36 ≤ y) → t.mem.read y = m.read y) ∧
    (field 32 4 = 0 → field 40 24 = 0 → field 0 4 ≠ 0 → field 28 4 < 2 ^ 32 - 1 →
      let words := fun (m : Memory) (es : List Nat) => es.map fun e => leNat (m.readN e 4)
      let ranked := fun (xs : List Nat) => xs.mergeSort (fun a b => decide (a ≤ b))
      let held := min (field 4 4) (field 28 4)
      let list := s.arrayTry g.asid g.priv .loses (BitVec.ofNat 64 (field 16 8)) (min (field 4 4) (held + 1))
      let leaves := fun (ents drops keep kept : List Nat) (st : Nat) =>
        (∀ e ∈ ents ++ drops, plainKey e ∧ (e + 4 ≤ k ∨ k + 64 ≤ e)) →
        (ents ++ drops).Pairwise (fun e f => e + 4 ≤ f ∨ f + 4 ≤ e) →
        ∃ (t : State) (w' : Wave), exec i s = .next t ∧ t.waves[s.cur.wave]? = some w' ∧
          w'.fibres = w.fibres.mapIdx (laneAfter s ks fun _ f => f.advance s.nextPc s.lastPc) ∧
          (words t.mem ents).Perm keep ∧ (words t.mem drops).Perm kept ∧
          leNat (t.mem.readN (k + 28) 4) = field 28 4 + 1 ∧ leNat (t.mem.readN (k + 32) 4) = st ∧
          ∀ y, (y < k + 28 ∨ k + 36 ≤ y) → (∀ e ∈ ents ++ drops, y < e ∨ e + 4 ≤ y) → t.mem.read y = m.read y
      let dropped := fun (ents keep : List Nat) (y st : Nat) =>
        (∀ drops, list = .keys drops → leaves ents drops keep
          ((ranked (y :: words m (drops.take held))).take (min (field 4 4) (held + 1))) st) ∧
        (list = .lost → leaves ents [] keep [] 2)
      (s.arrayTry g.asid g.priv .loses (BitVec.ofNat 64 (field 8 8)) (min (field 0 4) (field 24 4 + 1)) = .lost →
        dropped [] [] x 2) ∧
      (field 24 4 = field 0 4 → s.arrayTry g.asid g.priv .loses (BitVec.ofNat 64 (field 8 8)) (field 0 4) = .keys ents →
        let r := ranked (x :: words m ents)
        dropped ents (r.take (field 0 4)) (r.getD (field 0 4) 0) 0))) ∧
  (∀ (gd : Guard) (d a : Reg) (s : State) (w : Wave) (g : Grid) (k : Nat) (p : Page) (ents : List Nat),
    let i := Instr.scatf gd d a
    let ks := kindsOf s i gd w g
    let m := s.mem
    let field := fun (o n : Nat) => leNat (m.readN (k + o) n)
    let put := fun (_ : Nat) (f : Fibre) => (f.set w.zen d.toNat (BitVec.ofNat 32 (field 24 4))).advance s.nextPc s.lastPc
    Ready i gd s w g → g.det = false → Quiet s → plainKey k →
    s.lands g true 64 ((lowLane i gd s w g).getPair w.zen a.toNat) = some (p, k) →
    (field 32 4 % 2 = 1 →
      ∃ (t : State) (w' : Wave), exec i s = .next t ∧ t.waves[s.cur.wave]? = some w' ∧
        w'.fibres = w.fibres.mapIdx (laneAfter s ks put) ∧ t.mem = m) ∧
    (field 32 4 % 2 = 0 → ∀ drops,
      s.arrayTry g.asid g.priv .traps (BitVec.ofNat 64 (field 8 8)) (field 24 4) = .keys ents →
      s.arrayTry g.asid g.priv .traps (BitVec.ofNat 64 (field 16 8)) (min (field 4 4) (field 28 4)) = .keys drops →
      (∀ e ∈ ents ++ drops, plainKey e ∧ (e + 4 ≤ k ∨ k + 64 ≤ e)) →
      (ents ++ drops).Pairwise (fun e f => e + 4 ≤ f ∨ f + 4 ≤ e) →
      ∃ (t : State) (w' : Wave), exec i s = .next t ∧ t.waves[s.cur.wave]? = some w' ∧
        w'.fibres = w.fibres.mapIdx (laneAfter s ks put) ∧
        (∀ es, es = ents ∨ es = drops →
          (es.map fun e => leNat (t.mem.readN e 4)).Perm (es.map fun e => leNat (m.readN e 4)) ∧
          (es.map fun e => leNat (t.mem.readN e 4)).Pairwise (· ≤ ·)) ∧
        leNat (t.mem.readN (k + 32) 4) = field 32 4 + 1 ∧
        ∀ y, (y < k + 32 ∨ k + 36 ≤ y) → (∀ e ∈ ents ++ drops, y < e ∨ e + 4 ≤ y) → t.mem.read y = m.read y))

/-- R357, R358: what one fibre's STEPP answers: no pair, an ended episode, a full queue, or an action posted with the
record of its 64 bytes, the pair, the sequence and the time, and a share of the fibre's weight. That the record is
read from memory in the step of the instruction itself is the model's choice (log 9). Where it rests on the model's
own choice, not on a rule: log 9, 36. -/
def Obligations.StepPost : Prop :=
  ∀ (gd : Guard) (d a b : Reg) (s : State) (w : Wave) (g : Grid) (l : Nat),
    let i := Instr.stepp gd d a b
    let ks := kindsOf s i gd w g
    let ea := (w.lane l).getPair w.zen a.toNat
    let n := ((w.lane l).get w.zen b.toNat).toNat % 8192
    let put := fun (c : Word) (_ : Nat) (f : Fibre) => (f.set w.zen d.toNat c).advance s.nextPc s.lastPc
    let s0 := { s with freeCtr := s.freeCtr + 1 }
    Ready i gd s w g → w.zen = false → g.det = false → execLanes ks = [l] → Fresh s w [l] → ea.toNat % 64 = 0 →
    ((∀ p, s.pairOf n = some p → p.asid ≠ g.asid) →
      ∃ t, exec i s = .next t ∧ Retired s0 t ks 0 (put 10)) ∧
    ∀ p, s.pairOf n = some p → p.asid = g.asid →
      ((∀ e, s.episodeOf p.ep = some e → e.st = .ended) → ∃ t, exec i s = .next t ∧ Retired s0 t ks 0 (put 12)) ∧
      ∀ e, s.episodeOf p.ep = some e → e.st ≠ .ended →
        (16 ≤ p.unanswered + p.m + s.stagedActions n → ∃ t, exec i s = .next t ∧ Retired s0 t ks 0 (put 11)) ∧
        (p.unanswered + p.m + s.stagedActions n < 16 → Quiet s →
          ∀ pg k f, s.translate g.asid g.priv false needLoad ea = .ok pg k → w.fibres[l]? = some f →
          ∃ (t : State) (w' : Wave) (q : StepPair), exec i s = .next t ∧ t.mem = s.mem ∧ t.waves[s.cur.wave]? = some w' ∧
            w'.fibres = w.fibres.mapIdx (laneAfter s ks fun l f =>
              put 0 l { f with weight := (splitWeight f.weight).1 }) ∧
            t.pairOf n = some q ∧
            q = { p with
              ring := p.ring.set (p.atail.toNat % 16) (actionBytes (s.homeRead k 64) n p.atail.toNat s.time.toNat)
              atail := p.atail + 1
              weights := p.weights ++ [{ phase := g.phase, amount := (splitWeight f.weight).2.1 }] })

/-- R357, R359: what one fibre's STEPR answers: no pair; parked on an empty queue while its step is unanswered, NOSTEP
where it is not; ORDER at another step's record; else the queue's head, stored at its address, with its status. That
the record is in memory in the step of the instruction itself is the model's choice (log 9). Where it rests on the
model's own choice, not on a rule: log 9. -/
def Obligations.StepReceive : Prop :=
  ∀ (gd : Guard) (d a b : Reg) (s : State) (w : Wave) (g : Grid) (l : Nat) (pg : Page) (k : Nat),
    let i := Instr.stepr gd d a b
    let ks := kindsOf s i gd w g
    let ea := (w.lane l).getPair w.zen a.toNat
    let n := ((w.lane l).get w.zen b.toNat).toNat % 8192
    let x := (w.lane l).get w.zen d.toNat
    let put := fun (c : Word) (_ : Nat) (f : Fibre) => (f.set w.zen d.toNat c).advance s.nextPc s.lastPc
    Ready i gd s w g → w.zen = false → g.det = false → execLanes ks = [l] → s.lands g true 64 ea = some (pg, k) →
    ((∀ p, s.pairOf n = some p → p.asid ≠ g.asid) → ∃ t, exec i s = .next t ∧ Retired s t ks 0 (put 10)) ∧
    ∀ p, s.pairOf n = some p → p.asid = g.asid →
      (p.obs = [] → (∀ y ∈ p.open_, leNat (y.take 4) ≠ x.toNat) →
        ∃ t, exec i s = .next t ∧ Retired s t ks 0 (put 9)) ∧
      (p.obs = [] → (∃ y ∈ p.open_, leNat (y.take 4) = x.toNat) →
        ∃ t w', exec i s = .next t ∧ t.waves[s.cur.wave]? = some w' ∧
          w'.fibres = w.fibres.mapIdx (laneAfter s ks fun _ f => { f with park := some {
            why := .steps { d := d, ea := ea, pair := n, n := x }, next := s.nextPc, last := s.lastPc, word := encode i } })) ∧
      ∀ h rest, p.obs = h :: rest →
        (h.status ≠ 1 → h.step ≠ x.toNat → ∃ t, exec i s = .next t ∧ Retired s t ks 0 (put 8)) ∧
        (h.status = 1 ∨ h.step = x.toNat → Quiet s → h.bytes.length = 64 →
          ∃ (t : State) (w' : Wave), exec i s = .next t ∧ t.waves[s.cur.wave]? = some w' ∧
            w'.fibres = w.fibres.mapIdx (laneAfter s ks (put (BitVec.ofNat 32 h.status))) ∧
            t.pairOf n = some { p with obs := rest } ∧ t.mem = s.mem.writeN k h.bytes)

namespace Sys2Proof.Machine

/-! ### Queries (R179, R281, R361) -/

/-- The word of FQUERY for an address (R281). Devices that hold replicas count: this one too while an L1 line of its own is
a replica of the page (R275, R277). -/
def freezeWord (s : State) (asid : Nat) (va : DWord) : Word :=
  match (if va.toNat < 2 ^ 57 then s.findPage asid va.toNat else none) with
  | none => 0xF
  | some p =>
    let here := s.l1.any fun x => x.replica && decide (p.tgt.toNat ≤ x.line * 128 ∧ x.line * 128 < p.tgt.toNat + p.size)
    let reps := p.reps.length + if here = true ∧ s.devNum.toNat % 64 ∉ p.reps then 1 else 0
    let st := match p.st with | .owned => 0 | .thawing => 3 | .fixed | .readDup => if reps = 0 then 1 else 2
    BitVec.ofNat 32 (2 ^ 24 * ((s.frozenAt (p.key va.toNat)) % 256) + 2 ^ 16 * (reps % 256)
      + 2 ^ 8 * p.sz.toNat + st)

/-- The pair of STEPQ for a pair number (R361). -/
def pairWord (s : State) (asid n : Nat) : DWord :=
  match s.pairOf n with
  | some p =>
    if p.asid = asid then match s.episodeOf p.ep with
      | some e =>
        let est := match e.st with | .stopped => 1 | .running => 2 | .ended => 3 + e.cause
        let step := match p.obs with | h :: _ => h.step % 2 ^ 32 | [] => 2 ^ 32 - 1
        BitVec.ofNat 64 (2 ^ 32 * step + 2 ^ 29 * (est % 8) + 2 ^ 24 * (p.unanswered % 32) + 2 ^ 18 * (p.obs.length % 64)
          + 2 ^ 13 * (p.sd % 32))
      | none => 0
    else 0
  | none => 0

/-- What MSTAT says of a wave x of the team with the number tid (R179): by bit, the failed tiles of its slice, the armed
registers, those that hold its signature, frozen, and a restore under way. -/
def matrixBit (s : State) (tid : Nat) (x : Wave) (n : Nat) : Bool :=
  match s.quads[x.quadIndex]? with
  | none => false
  | some q =>
    if q.owner ≠ some tid then false
    else if n < 8 then q.failed.any fun f => f.tile == n && f.slice == x.quadPos
    else if n < 16 then match q.conv[n - 8]? with | some c => 0 < c.remaining | none => false
    else if n < 24 then match q.conv[n - 16]? with
      | some c => c.set[x.quadPos]? = some x.idx ∧ (c.signed.getD x.quadPos none).isSome | none => false
    else if n = 30 then q.frozen
    else if n = 31 then s.restoring x.quadIndex
    else false

end Sys2Proof.Machine

/-- R179, R281, R361: FQUERY, STEPQ and MSTAT report and change nothing else, but that an FQUERY which finds a page
Owned orders what follows at system scope (R280). Where it rests on the model's own choice, not on a rule: log 38, 48.
-/
def Obligations.StateQueries : Prop :=
  ∀ (gd : Guard) (d a : Reg) (s : State) (w : Wave) (g : Grid) (t0 : Team), s.teamOf w = some t0 → t0.grid < s.grids.length →
    (∀ i, i = Instr.fquery gd d a → Ready i gd s w g →
      let sees := (execLanes (kindsOf s i gd w g)).any fun l => s.findsOwned g.asid ((w.lane l).getPair w.zen a.toNat)
      ∃ t, exec i s = .next t ∧
        Retired (if sees then s.acquireAt w.core true .system else s) t (kindsOf s i gd w g) 0 fun _ f =>
        (f.setZ w.zen d.toNat (freezeWord s g.asid (f.getPair w.zen a.toNat))).advance s.nextPc s.lastPc) ∧
    (∀ i, i = Instr.stepq gd d a → Ready i gd s w g →
      ∃ t, exec i s = .next t ∧ Retired s t (kindsOf s i gd w g) 0 fun _ f =>
        (f.setPair w.zen d.toNat (pairWord s g.asid ((f.get w.zen a.toNat).toNat % 8192))).advance s.nextPc s.lastPc) ∧
    (∀ i, i = Instr.mstat gd d a → Ready i gd s w g →
      ∃ (t : State) (v : Nat → Word), exec i s = .next t ∧
        (Retired s t (kindsOf s i gd w g) 0 fun _ f =>
          (f.setZ w.zen d.toNat (v ((f.get w.zen a.toNat).toNat % 256))).advance s.nextPc s.lastPc) ∧
        ∀ n, (s.liveWave t0 n = none → v n = 0xFFFFFFFF#32) ∧
          ∀ wid x, s.liveWave t0 n = some wid → s.waves[wid]? = some x → x.team = w.team →
            ∀ k < 32, (v n).getLsbD k = matrixBit s w.team x k)

/-- R164, R165: SIGNSET arms a convergence register for four waves of one quad in partition order, or adds to its
count up to 65,535, and waits while the register is armed for another set; it traps 0x01 where W is 16, the count 0,
or the four do not name live waves in the four partitions of one quad; SIGNCLR discards the signatures and counts of
its register in the team's quads, and takes them back from the tiles counters of the waves that signed. Where it rests
on the model's own choice, not on a rule: log 48. -/
def Obligations.ConvergenceRegisters : Prop :=
  ∀ (gd : Guard) (c : BitVec 3) (a b : Reg) (s : State) (w : Wave) (g : Grid) (t0 : Team), s.teamOf w = some t0 →
    (∀ i, i = Instr.signset gd c a b → Ready i gd s w g → ∀ q quad cv,
      let ids := (List.range 4).map fun k => ((lowLane i gd s w g).getPair w.zen a.toNat).toNat / 256 ^ k % 256
      let m := ((lowLane i gd s w g).getPair w.zen b.toNat).toNat % 65536
      g.width ≠ 16 → m ≠ 0 → s.quads[q]? = some quad → quad.conv[c.toNat]? = some cv →
      (∀ k < 4, ∃ wid x, s.liveWave t0 (ids.getD k 0) = some wid ∧ s.waves[wid]? = some x ∧ x.quadPos = k ∧ x.quadIndex = q) →
      (quad.owner ≠ some w.team ∨ 0 < cv.remaining ∧ cv.set ≠ ids → ∃ t, exec i s = .next t ∧ Waits s t) ∧
      (quad.owner = some w.team → (cv.remaining = 0 ∨ cv.set = ids) →
      ∃ t, exec i s = .next t ∧
        Retired { s with quads := s.quads.set q { quad with conv := quad.conv.set c.toNat { cv with
            set := ids, remaining := min (cv.remaining + m) 65535 } } } t (kindsOf s i gd w g) 0
          fun _ f => f.advance s.nextPc s.lastPc)) ∧
    (∀ i entry, i = Instr.signset gd c a b → Ready i gd s w g → CanTrap (kindsOf s i gd w g) w g entry →
      let ids := (List.range 4).map fun k => ((lowLane i gd s w g).getPair w.zen a.toNat).toNat / 256 ^ k % 256
      g.width = 16 ∨ ((lowLane i gd s w g).getPair w.zen b.toNat).toNat % 65536 = 0 ∨
        (¬ ∃ q, ∀ k < 4, ∃ wid x, s.liveWave t0 (ids.getD k 0) = some wid ∧ s.waves[wid]? = some x ∧ x.quadPos = k ∧
          x.quadIndex = q) →
      ∃ t, exec i s = .next t ∧ Trapped s t (kindsOf s i gd w g) entry g.trapwin fun _ _ => trapWith 0x01 (encode i)) ∧
    (∀ i, i = Instr.signclr gd c → Ready i gd s w g →
      ∃ (t : State) (w' : Wave), exec i s = .next t ∧ t.waves[s.cur.wave]? = some w' ∧
        w'.fibres = w.fibres.mapIdx (laneAfter s (kindsOf s i gd w g) fun _ f => f.advance s.nextPc s.lastPc) ∧
        (∀ (q : Nat) (quad : Quad), s.quads[q]? = some quad → t.quads[q]? = some (
          if quad.owner = some w.team then match quad.conv[c.toNat]? with
            | some cv => { quad with
                conv := quad.conv.set c.toNat { cv with remaining := 0, signed := [none, none, none, none] }
                ready := quad.ready.filter (· != c.toNat) }
            | none => quad
          else quad)) ∧
        ∀ (wid : Nat) (x : Wave) (quad : Quad) (cv : Conv), s.waves[wid]? = some x → x.zen = false → s.quads[x.quadIndex]? = some quad →
          quad.owner = some x.team → x.team = w.team → quad.conv[c.toNat]? = some cv →
          (t.waves[wid]?).map (fun (y : Wave) => y.tiles) = some (x.tiles -
            ((List.range 4).filter fun k => cv.set[k]? = some x.idx ∧ (cv.signed.getD k none).isSome = true).length))

/-- R166, R167, R172: an MMQ that all 32 lanes execute signs its convergence register, which latches the header at its
descriptor and the B quarter of its registers; the last of four signatures makes the register ready. It traps 0x01
where W is 16, a slot of 0 to 31 has no executing fibre, or another accumulator or type is signed already. Instead it
traps 0x08 at a misaligned descriptor, 0x09 where its header lies outside the allotment, 0x10 at a bad header and 0x07
at a failed slice of its tile. Where it rests on the model's own choice, not on a rule: log 20. -/
def Obligations.MatrixSigning : Prop :=
  (∀ (gd : Guard) (c acc : BitVec 3) (sa vb : Reg) (ty : MmqTy) (s : State) (w : Wave) (g : Grid) (t0 : Team) (q : Quad)
    (cv : Conv),
    let i := Instr.mmq gd c acc sa vb ty
    let off := ((s.teamSregs t0).getD sa.toNat 0).toNat
    let h := (t0.scr (t0.pair && w.core != t0.core)).readN off 64
    Ready i gd s w g → s.teams[w.team]? = some t0 → s.quads[w.quadIndex]? = some q → q.conv[c.toNat]? = some cv →
    w.tiles < 63 → s.signWait w.quadIndex = false → g.width ≠ 16 →
    (∀ l < 32, l ∈ execLanes (kindsOf s i gd w g)) → 0 < cv.remaining → cv.set[w.quadPos]? = some w.idx →
    cv.signed.length = 4 → cv.signed.getD w.quadPos none = none →
    ((∀ y ∈ cv.signed, y = none) ∨ cv.acc = acc ∧ cv.ty = ty) →
    off % 64 = 0 → off + 64 ≤ g.scratch → mmqInside g.scratch off h ty = true → mmqHeaderOk h ty = true →
    (∀ f ∈ q.failed, f.tile = acc.toNat → f.slice ≠ w.quadPos) →
    ∃ (t : State) (x : Signature), exec i s = .next t ∧
      (let signed := cv.signed.set w.quadPos (some x)
       Retired { s with
         quads := s.quads.set w.quadIndex { q with
           conv := q.conv.set c.toNat { cv with signed := signed, acc := acc, ty := ty }
           ready := if signed.any (·.isNone) then q.ready else q.ready ++ [c.toNat] }
         waves := s.waves.set s.cur.wave { w with tiles := w.tiles + 1 } } t (kindsOf s i gd w g) 0
           fun _ f => f.advance s.nextPc s.lastPc) ∧
      x.off = BitVec.ofNat 64 off ∧ x.header = h ∧ x.b.length = 1536 ∧
      ∀ j < 12, ∀ l < 32, ∀ k < 4,
        x.b[128 * j + 4 * l + k]? = some (byteOf ((w.lane l).get false (vb.toNat + j)) k)) ∧
  (∀ (gd : Guard) (c acc : BitVec 3) (sa vb : Reg) (ty : MmqTy) (s : State) (w : Wave) (g : Grid) (t0 : Team) (q : Quad)
    (cv : Conv) (entry : Pc),
    let i := Instr.mmq gd c acc sa vb ty
    Ready i gd s w g → s.teams[w.team]? = some t0 → s.quads[w.quadIndex]? = some q → q.conv[c.toNat]? = some cv →
    w.tiles < 63 → s.signWait w.quadIndex = false → CanTrap (kindsOf s i gd w g) w g entry →
    g.width = 16 ∨ (∃ l < 32, l ∉ execLanes (kindsOf s i gd w g)) ∨
      ((∃ y ∈ cv.signed, y ≠ none) ∧ (cv.acc ≠ acc ∨ cv.ty ≠ ty)) →
    ∃ t, exec i s = .next t ∧ Trapped s t (kindsOf s i gd w g) entry g.trapwin fun _ _ => trapWith 0x01 (encode i)) ∧
  (∀ (gd : Guard) (c acc : BitVec 3) (sa vb : Reg) (ty : MmqTy) (s : State) (w : Wave) (g : Grid) (t0 : Team) (q : Quad)
    (cv : Conv) (entry : Pc) (e : TrapInfo),
    let i := Instr.mmq gd c acc sa vb ty
    let off := ((s.teamSregs t0).getD sa.toNat 0).toNat
    let h := (t0.scr (t0.pair && w.core != t0.core)).readN off 64
    Ready i gd s w g → s.teams[w.team]? = some t0 → s.quads[w.quadIndex]? = some q → q.conv[c.toNat]? = some cv →
    w.tiles < 63 → s.signWait w.quadIndex = false → g.width ≠ 16 →
    (∀ l < 32, l ∈ execLanes (kindsOf s i gd w g)) → 0 < cv.remaining → cv.set[w.quadPos]? = some w.idx →
    (∀ y ∈ cv.signed, y = none) → CanTrap (kindsOf s i gd w g) w g entry →
    (off % 64 ≠ 0 ∧ e = trapWith 0x08 (BitVec.ofNat 32 off) ∨
      off % 64 = 0 ∧ g.scratch < off + 64 ∧ e = trapWith 0x09 (BitVec.ofNat 32 off) ∨
      off % 64 = 0 ∧ off + 64 ≤ g.scratch ∧ mmqInside g.scratch off h ty = true ∧ mmqHeaderOk h ty = false ∧
        e = trapWith 0x10 (BitVec.ofNat 32 (leNat (h.take 4))) ∨
      off % 64 = 0 ∧ off + 64 ≤ g.scratch ∧ mmqInside g.scratch off h ty = true ∧ mmqHeaderOk h ty = true ∧
        ∃ f, q.failOf acc.toNat w.quadPos = some f ∧ e = trapSilent (failRecord w.quadIndex f)) →
    ∃ t, exec i s = .next t ∧ Trapped s t (kindsOf s i gd w g) entry g.trapwin fun _ _ => e)

/-- R174 to R176: ACCZ clears its wave's slice of a tile and its failed flag; ACCRD reads what each descriptor names
of the slice; ACCWR writes one element for each executing fibre, the highest lane's where two name one. A lane with a
bad descriptor traps 0x01 with it, and beside it the others complete: an ACCRD that raises NV with trap 0x03 enabled
traps 0x03 with the element, an ACCWR of a marker in a CHECKREG launch traps 0x02; a failed slice traps every lane of
an ACCRD with a good descriptor 0x07. -/
def Obligations.AccumulatorAccess : Prop :=
  ∀ (gd : Guard) (d a : Reg) (tile : BitVec 3) (s : State) (w : Wave) (g : Grid) (q : Quad),
    s.quads[w.quadIndex]? = some q → s.accWait w.quadIndex tile.toNat = false →
    let k := w.quadPos
    let elt := fun (x : Word) => 6144 * tile.toNat + 96 * (16 * k + x.toNat % 16) + x.toNat / 256 % 128
    (∀ i, i = Instr.accz gd tile → Ready i gd s w g →
      ∃ (t : State) (acc : WordMap), exec i s = .next t ∧
        Retired { s with quads := s.quads.set w.quadIndex { q with
            acc := acc, failed := q.failed.filter fun f => f.tile != tile.toNat || f.slice != k } } t (kindsOf s i gd w g) 0
          (fun _ f => f.advance s.nextPc s.lastPc) ∧
        ∀ x, acc.get x = if x / 1536 = 4 * tile.toNat + k then 0 else q.acc.get x) ∧
    (∀ i, i = Instr.accrd gd d a tile → Ready i gd s w g → q.failOf tile.toNat k = none →
      let r := fun (f : Fibre) => accRead s.hintRnd s.hintSat
        ((List.range 1536).map fun x => q.acc.get (6144 * tile.toNat + 1536 * k + x)) (f.get false a.toNat)
      (∀ l f, w.fibres[l]? = some f → (kindsOf s i gd w g).getD l .out = .exec → accBad false (f.get false a.toNat) = false ∧
        (s.invOn w = true → ∀ fl ∈ (r f).1, fl.getLsbD 0 = false)) →
      (∃ t, exec i s = .next t ∧
        Retired s t (kindsOf s i gd w g) (raised (kindsOf s i gd w g) w.fibres fun f => (r f).1.foldl (· ||| ·) 0)
          fun _ f => (f.set false d.toNat (r f).2).advance s.nextPc s.lastPc) ∧
      ∀ f, accCv (f.get false a.toNat) = 0 → (f.get false a.toNat).toNat / 256 % 128 < 96 →
        r f = ([0], q.acc.get (elt (f.get false a.toNat)))) ∧
    (∀ i entry, i = Instr.accrd gd d a tile → Begins i gd s w g → CanTrap (kindsOf s i gd w g) w g entry →
      let desc := fun (f : Fibre) => f.get false a.toNat
      let r := fun (f : Fibre) => accRead s.hintRnd s.hintSat
        ((List.range 1536).map fun x => q.acc.get (6144 * tile.toNat + 1536 * k + x)) (desc f)
      let why : Nat → Fibre → Option TrapInfo := fun _ f =>
        if accBad false (desc f) = true then some (trapWith 0x01 (desc f))
        else if s.invOn w = true then
          ((r f).1.findIdx? fun fl => fl.getLsbD 0).map fun n => trapWith 0x03 (BitVec.ofNat 32 n) else none
      (q.failOf tile.toNat k = none →
        ∃ t, exec i s = .next t ∧ PartTrapped s t (kindsOf s i gd w g)
          (raised (kindsOf s i gd w g) w.fibres fun f => if (why 0 f).isSome = true then 0 else (r f).1.foldl (· ||| ·) 0)
          entry g.trapwin why fun _ f => (f.set false d.toNat (r f).2).advance s.nextPc s.lastPc) ∧
      ∀ x, q.failOf tile.toNat k = some x →
        ∃ (t : State) (w' : Wave), exec i s = .next t ∧ t.waves[s.cur.wave]? = some w' ∧
          (Trapped s t (kindsOf s i gd w g) entry g.trapwin fun _ f =>
            if accBad false (desc f) = true then trapWith 0x01 (desc f) else trapSilent (failRecord w.quadIndex x)) ∧
          ((∃ l ∈ execLanes (kindsOf s i gd w g), accBad false (desc (w.lane l)) = false) →
            w'.etr = true ∧ w'.err = failRecord w.quadIndex x)) ∧
    (∀ i entry, i = Instr.accwr gd d a tile → Begins i gd s w g → CanTrap (kindsOf s i gd w g) w g entry →
      let why : Nat → Fibre → Option TrapInfo := fun _ f =>
        if accBad true (f.get false a.toNat) = true then some (trapWith 0x01 (f.get false a.toNat))
        else if g.checkreg = true ∧ isMarker (f.get false d.toNat) = true then some (markedBy (f.get false d.toNat))
        else none
      ∃ (t : State) (acc : WordMap), exec i s = .next t ∧
        PartTrapped { s with quads := s.quads.set w.quadIndex { q with acc := acc } } t (kindsOf s i gd w g) 0 entry g.trapwin
          why (fun _ f => f.advance s.nextPc s.lastPc) ∧
        ∀ x, acc.get x = (lastLane (execLanes (kindsOf s i gd w g)) fun l =>
          if why l (w.lane l) = none ∧ elt ((w.lane l).get false a.toNat) = x then some ((w.lane l).get false d.toNat)
          else none).getD (q.acc.get x)) ∧
    (∀ i, i = Instr.accwr gd d a tile → Ready i gd s w g →
      (∀ l f, w.fibres[l]? = some f → (kindsOf s i gd w g).getD l .out = .exec → accBad true (f.get false a.toNat) = false ∧
        (g.checkreg = true → isMarker (f.get false d.toNat) = false)) →
      ∃ (t : State) (acc : WordMap), exec i s = .next t ∧
        Retired { s with quads := s.quads.set w.quadIndex { q with acc := acc } } t (kindsOf s i gd w g) 0
          (fun _ f => f.advance s.nextPc s.lastPc) ∧
        ∀ x, acc.get x = (lastLane (execLanes (kindsOf s i gd w g)) fun l =>
          if elt ((w.lane l).get false a.toNat) = x then some ((w.lane l).get false d.toNat) else none).getD (q.acc.get x))

/-- R177 to R180, R208: ACCCV, MDRAIN and MREST each start one tile operation and count it; ACCCV's converted bytes
are taken when it retires, MDRAIN and MREST take an address that is a multiple of 256 and trap 0x08 on another, and
MREST consumes the poison of the line whose status it reads. ACCCV traps 0x08 at a misaligned offset, 0x10 at a bad
header, 0x09 outside the allotment, 0x07 at a failed slice and 0x03 with the first element that raises NV; MREST traps
0x10 at a status block that is not a save area's, with its first word, and 0x01 at one of another wave or partition.
That MDRAIN carries its wave's own earlier stores home is the model's choice (log 9). An MDRAIN retires whatever lies
at its address: what its range meets there, cause 0x04 of R258 included, it meets as it moves (O45). Where it rests on
the model's own choice, not on a rule: log 9, 20, 22. -/
def Obligations.TileOperations : Prop :=
  ∀ (gd : Guard) (a : Reg) (tile : BitVec 3) (s : State) (w : Wave) (g : Grid) (t0 : Team) (q : Quad),
    s.teams[w.team]? = some t0 → s.quads[w.quadIndex]? = some q → w.tiles < 63 →
    let start := fun (i : Instr) (s : State) (w : Wave) (work : TileWork) (psn : Bool) => { s with
      waves := s.waves.set s.cur.wave { w with tiles := w.tiles + 1 }
      tileOps := s.tileOps ++ [{ wave := s.cur.wave, lanes := execLanes (kindsOf s i gd w g), work := work, record := none,
                                 unread := none, psn := psn }] }
    (∀ i, i = Instr.acccv gd a tile → Ready i gd s w g → s.accWait w.quadIndex tile.toNat = false →
      let off := ((lowLane i gd s w g).getPair false a.toNat).toNat
      let h := (t0.scr (t0.pair && w.core != t0.core)).readN off 64
      let e := hdrSize (hdrNat h 0 1)
      let rs := (List.range 1536).map fun x =>
        acccvElt (hdrNat h 0 1) (hdrNat h 1 1) s.hintRnd s.hintSat (q.acc.get (6144 * tile.toNat + 1536 * w.quadPos + x))
      off % 64 = 0 → off + 64 + 6144 * e ≤ g.scratch → acccvHeaderOk h = true → q.failOf tile.toNat w.quadPos = none →
      (s.invOn w = true → ∀ r ∈ rs, r.2.getLsbD 0 = false) →
      ∃ t, exec i s = .next t ∧
        Retired (start i s w (.convert ((rs.flatMap fun r => leBytes e r.1).mapIdx fun n b =>
            (off + 64 + 1536 * w.quadPos * e + n, b))) false) t (kindsOf s i gd w g)
          (raised (kindsOf s i gd w g) w.fibres fun _ => (rs.map (·.2)).foldl (· ||| ·) 0)
          fun _ f => f.advance s.nextPc s.lastPc) ∧
    (∀ i entry x, i = Instr.acccv gd a tile → Ready i gd s w g → s.accWait w.quadIndex tile.toNat = false →
      CanTrap (kindsOf s i gd w g) w g entry →
      let off := ((lowLane i gd s w g).getPair false a.toNat).toNat
      let h := (t0.scr (t0.pair && w.core != t0.core)).readN off 64
      let size := 64 + 6144 * hdrSize (hdrNat h 0 1)
      let nv := fun (n : Nat) => (acccvElt (hdrNat h 0 1) (hdrNat h 1 1) s.hintRnd s.hintSat
        (q.acc.get (6144 * tile.toNat + 1536 * w.quadPos + n))).2.getLsbD 0
      (off % 64 ≠ 0 ∧ x = trapWith 0x08 (BitVec.ofNat 32 off) ∨
        off % 64 = 0 ∧ g.scratch < off + 64 ∧ x = trapWith 0x09 (BitVec.ofNat 32 off) ∨
        off % 64 = 0 ∧ off + 64 ≤ g.scratch ∧ acccvHeaderOk h = false ∧
          x = trapWith 0x10 (BitVec.ofNat 32 (leNat (h.take 4))) ∨
        off % 64 = 0 ∧ off + 64 ≤ g.scratch ∧ g.scratch < off + size ∧ acccvHeaderOk h = true ∧
          x = trapWith 0x09 (BitVec.ofNat 32 off) ∨
        off % 64 = 0 ∧ off + size ≤ g.scratch ∧ acccvHeaderOk h = true ∧
          ((∃ y, q.failOf tile.toNat w.quadPos = some y ∧ x = trapSilent (failRecord w.quadIndex y)) ∨
            q.failOf tile.toNat w.quadPos = none ∧ s.invOn w = true ∧
              ∃ n < 1536, nv n = true ∧ (∀ j < n, nv j = false) ∧ x = trapWith 0x03 (BitVec.ofNat 32 n))) →
      ∃ t, exec i s = .next t ∧ Trapped s t (kindsOf s i gd w g) entry g.trapwin fun _ _ => x) ∧
    (∀ i, i = Instr.mdrain gd a → Ready i gd s w g →
      let va := (lowLane i gd s w g).getPair false a.toNat
      (va.toNat % 256 = 0 →
        ∃ t, exec i s = .next t ∧ Retired (start i (s.releaseAct s.cur.wave w.core true) w (.drain va) false) t
          (kindsOf s i gd w g) 0 fun _ f => f.advance s.nextPc s.lastPc) ∧
      ∀ entry, va.toNat % 256 ≠ 0 → CanTrap (kindsOf s i gd w g) w g entry →
        ∃ t, exec i s = .next t ∧ Trapped s t (kindsOf s i gd w g) entry g.trapwin fun _ _ => trapWith 0x08 (lo32 va)) ∧
    (∀ i, i = Instr.mrest gd a → Ready i gd s w g → s.restoring w.quadIndex = false →
      let va := (lowLane i gd s w g).getPair false a.toNat
      (∀ entry, va.toNat % 256 ≠ 0 → CanTrap (kindsOf s i gd w g) w g entry →
        ∃ t, exec i s = .next t ∧ Trapped s t (kindsOf s i gd w g) entry g.trapwin fun _ _ => trapWith 0x08 (lo32 va)) ∧
      (∀ entry, va.toNat % 256 = 0 → 2 ^ 57 ≤ (va + 0xC000).toNat → CanTrap (kindsOf s i gd w g) w g entry →
        ∃ t, exec i s = .next t ∧ Trapped s t (kindsOf s i gd w g) entry g.trapwin fun _ _ =>
          trapWith 0x04 (lo32 (va + 0xC000))) ∧
      (∀ entry p k, Quiet s → va.toNat % 256 = 0 →
        s.translate g.asid g.priv false needLoad (va + 0xC000) = .ok p k → CanTrap (kindsOf s i gd w g) w g entry →
        let form := leNat (s.homeRead k 4)
        form ≠ 1 ∨ leNat (s.homeRead (k + 4) 1) ≠ w.idx % 256 ∨ leNat (s.homeRead (k + 5) 1) % 4 ≠ w.quadPos →
        ∃ t m ld, exec i s = .next t ∧
          Trapped { s with modified := m, leaders := ld } t (kindsOf s i gd w g) entry g.trapwin fun _ _ =>
            if form ≠ 1 then trapWith 0x10 (BitVec.ofNat 32 form) else trapWith 0x01 (encode i)) ∧
      ∀ p k, Quiet s → va.toNat % 256 = 0 → s.translate g.asid g.priv false needLoad (va + 0xC000) = .ok p k →
      s.homeRead k 6 = [1, 0, 0, 0, BitVec.ofNat 8 w.idx, BitVec.ofNat 8 w.quadPos] →
      let w1 := if s.poisoned k then { w with psn := true, pcnt := if w.pcnt = 0xFFFF then w.pcnt else w.pcnt + 1 } else w
      ∃ t m ld, exec i s = .next t ∧
        Retired (start i { s with modified := m, leaders := ld } w1 (.restore va) (s.poisoned k)) t (kindsOf s i gd w g) 0
          fun _ f => f.advance s.nextPc s.lastPc)

/-- R272 to R274, R276, R278 to R280: FREEZE answers a misaligned range with status 1; else it takes the lowest free
region, answers its number with status 0, and raises the freeze count of each block of the range by one; memory does
not change. THAW answers 5 for a region that is not taken, 6 for one of another space, 7 for one that thaws already;
else 0, and the freeze count of each block that the region still holds falls by one. That an atomic, and a FREEZE, may
stay in flight (s.defer) or act in its own step is the model's choice (log 9). Where it rests on the model's own
choice, not on a rule: log 9, 33. -/
def Obligations.FreezeAndThaw : Prop :=
  (∀ (gd : Guard) (d a b : Reg) (s : State) (w : Wave) (g : Grid) (bs : List Nat) (id : Nat),
    let i := Instr.freeze gd d a b
    let base := ((lowLane i gd s w g).getPair w.zen a.toNat).toNat
    let size := ((lowLane i gd s w g).getPair w.zen b.toNat).toNat
    let ok := base % 65536 = 0 ∧ size % 65536 = 0 ∧ size ≠ 0 ∧ base + size ≤ 2 ^ 57
    Ready i gd s w g → g.det = false →
    (¬ ok → ∃ t, exec i s = .next t ∧ Retired s t (kindsOf s i gd w g) 0
      fun _ f => (f.setPair w.zen d.toNat 0x100000000#64).advance s.nextPc s.lastPc) ∧
    (ok → s.defer = true →
      ∃ (t : State) (w' : Wave) (n : Nat), exec i s = .next t ∧ t.waves[s.cur.wave]? = some w' ∧
        w'.fibres = w.fibres.mapIdx (laneAfter s (kindsOf s i gd w g) fun _ f => { f with park := some {
          why := .freeze n, next := s.nextPc, last := s.lastPc, word := encode i } }) ∧ t.frozen = s.frozen) ∧
    (ok → s.defer = false →
      (∀ n < size / 65536, ∃ p k, s.translate g.asid g.priv true needLoad (BitVec.ofNat 64 (base + 65536 * n)) = .ok p k) →
      s.rangeBlocks g.asid base size = some bs → (∀ x ∈ bs, (s.frozen.get x).toNat < 255) →
      (∀ p ∈ s.pages, p.st ≠ .thawing) → s.atomicIn bs = false →
      id < 65536 → (s.regionWord id).toNat % 4 = 0 → (∀ n < id, (s.regionWord n).toNat % 4 ≠ 0) →
      ∃ (t : State) (w' : Wave), exec i s = .next t ∧ t.waves[s.cur.wave]? = some w' ∧
        w'.fibres = w.fibres.mapIdx (laneAfter s (kindsOf s i gd w g) fun _ f =>
          (f.setPair w.zen d.toNat (BitVec.ofNat 64 id)).advance s.nextPc s.lastPc) ∧
        (∀ x, (t.frozen.get x).toNat = (s.frozen.get x).toNat + if x ∈ bs then 1 else 0) ∧
        (t.regionWord id).toNat = ((s.regionWord id).toNat / 65536 + 1) % 65536 * 65536 + 1 ∧
        (∀ r ∈ t.regions, r.id = id → r.asid = g.asid ∧ r.blocks = bs) ∧
        (Quiet s → t.mem = s.mem))) ∧
  (∀ (gd : Guard) (d a : Reg) (s : State) (w : Wave) (g : Grid),
    let i := Instr.thaw gd d a
    let id := ((lowLane i gd s w g).get w.zen a.toNat).toNat % 65536
    let put := fun (st v : Nat) (_ : Nat) (f : Fibre) =>
      (f.setPair w.zen d.toNat (BitVec.ofNat 64 (2 ^ 32 * st + v))).advance s.nextPc s.lastPc
    let said := fun (n : Nat) => ∃ t, exec i s = .next t ∧ Retired s t (kindsOf s i gd w g) 0 (put n 0)
    Ready i gd s w g → g.det = false →
    ((s.regionWord id).toNat % 4 = 0 → said 5) ∧
    ∀ r, s.regions.find? (fun r => r.id == id) = some r → r.st ≠ 0 →
      (s.mayThaw g r = false → said 6) ∧ (s.mayThaw g r = true → r.st = 2 → said 7) ∧
      (s.mayThaw g r = true → r.st = 1 → r.blocks.Nodup → (∀ x ∈ r.blocks, x ∉ r.withdrawn → 0 < (s.frozen.get x).toNat) →
        ∃ (t : State) (w' : Wave), exec i s = .next t ∧ t.waves[s.cur.wave]? = some w' ∧
          w'.fibres = w.fibres.mapIdx (laneAfter s (kindsOf s i gd w g) (put 0 (65536 * r.gen.toNat + id))) ∧
          (∀ x, (t.frozen.get x).toNat + (if x ∈ r.blocks ∧ x ∉ r.withdrawn then 1 else 0) = (s.frozen.get x).toNat) ∧
          (∀ p ∈ t.pages, p.st = .thawing ∨ p ∈ s.pages) ∧ (Quiet s → t.mem = s.mem)))

/-- R54, R81, R202, R225, R236, R249 to R252: what completes the waits of a wave. With every byte at its home: a store
leaves the queue of stores with its bytes in memory; an atomic in flight happens and answers; a satisfied or expired
monitor answers, one with an entry by its release, one without at its next microsecond; sleeping fibres go on; a wave
with nothing left ends, its sr.chk in its grid's status; a wave whose fibres all wait may leave its lane slots and
come back. Where it rests on the model's own choice, not on a rule: log 9. -/
def Obligations.WaitEvents : Prop :=
  ∀ (s : State) (wid : Nat) (w : Wave), s.dev = .running → s.waves[wid]? = some w → s.injects = [] → s.faulty = [] →
    (∀ k (p : PendStore) (l id : Nat) (f : Fibre), s.pend[k]? = some p → p.wave = wid → p.selfinv = [] → p.ids = [id] →
      ((∃ x ∈ s.flights, x.sender = some (wid, id)) → exec (.storeCompletion k) s = .next s) ∧
      ((∀ x ∈ s.flights, x.sender ≠ some (wid, id)) →
      (∀ j q, j ≠ k → s.pend[j]? = some q → id ∉ q.ids) → (∀ x ∈ w.fibres, x.counts id = false) →
      s.shadows = [] → (∀ x ∈ s.l1, x.selfinv = false) → s.linkUp = true → w.fibres[l]? = some f → f.live = true →
      ∃ h, exec (.storeCompletion k) s = .next { s with
        mem := p.bytes.foldl (fun (m : Memory) c => m.write c.1 c.2) s.mem
        pend := s.pend.eraseIdx k
        hostMod := h
        waves := s.waves.set wid { w with stores := w.stores - 1 } })) ∧
    (∀ (l : Nat) (f : Fibre) (r : AtomReq), w.fibres[l]? = some f → f.live = true → f.park.map (·.why) = some (.atomic r) →
      Quiet s → plainKey r.key → s.poisoned r.key = false →
      (∀ (k : Nat) (x : Fibre), w.fibres[k]? = some x → k ≠ l → x.counts r.id = false ∧
        ∀ q, x.park.map (·.why) = some (.atomic q) → q.id ≠ r.id) →
      let old := leNat (s.mem.readN r.key (atomSize r.op))
      (s.frozenAt r.key = 0 → s.thawingAt r.key = true → exec (.atomicCompletion wid l) s = .next s) ∧
      (0 < s.frozenAt r.key ∨ s.thawingAt r.key = false →
      ∃ m c h ld, exec (.atomicCompletion wid l) s = .next { s with
        leaders := ld
        modified := m
        l1 := c
        hostMod := h
        mem := s.mem.writeN r.key (leBytes (atomSize r.op) (atomicResult r.op old r.x.toNat r.e.toNat))
        waves := s.waves.set wid { w with
          loads := w.loads - 1
          fibres := w.fibres.set l
            ({ f.setBytes w.zen r.d.toNat (leBytes (max (atomSize r.op) 4) old) with owed := none } : Fibre).resume } })) ∧
    (∀ (l : Nat) (f : Fibre) (pk : Parked) (x : Monitor) g p k, w.fibres[l]? = some f → f.park = some pk →
      pk.why = .monitor x → s.gridOf w = some g →
      (w.stat = .resident ∨ w.stat = .swapped) →
      s.translate g.asid g.priv false needLoad x.va = .ok p k → Quiet s → s.poisoned k = false →
      let n := if x.w64 then 8 else 4
      let v := s.homeRead k n
      let y := if x.w64 then x.x.toNat else x.x.toNat % 2 ^ 32
      let out := fun (m : List Modified) (h : List Nat) (ld : List Leader) => { s with
        modified := m, hostMod := h, leaders := ld, waves := s.waves.set wid { w with fibres := w.fibres.set l (f.setBytes w.zen x.d.toNat v).resume } }
      (waitHolds x.cond (8 * n) (leNat v) y = true → ∀ i, i = Instr.waitcRelease wid l ∧ x.entry = true ∨
          i = Instr.monitorPoll wid l ∧ x.entry = false ∧ x.next ≤ s.time.toNat →
        ∃ m h ld, exec i s = .next (out m h ld)) ∧
      (waitHolds x.cond (8 * n) (leNat v) y = false →
        (∃ m h ld, exec (.waitcRelease wid l) s = .next { s with modified := m, hostMod := h, leaders := ld }) ∧
        (x.entry = false → x.next ≤ s.time.toNat → ∃ m h ld, exec (.monitorPoll wid l) s = .next { s with
          modified := m, hostMod := h, leaders := ld
          waves := s.waves.set wid { w with fibres := w.fibres.set l { f with park := some { pk with
            why := .monitor { x with next := s.time.toNat + 1000 } } } } })) ∧
      (∀ d, x.deadline = some d → d ≤ s.time.toNat → ∃ m h ld, exec (.waitcTimeout wid l) s = .next (out m h ld)) ∧
      ((∀ d, x.deadline = some d → s.time.toNat < d) → exec (.waitcTimeout wid l) s = .next s)) ∧
    (w.stat = .resident → s.missed wid = none →
      let woken := fun (f : Fibre) => f.live = true ∧ ∃ x, f.park.map (·.why) = some (.sleep x) ∧ (lo32 s.time - x).toNat < 2 ^ 31
      (∃ f ∈ w.fibres, woken f) →
      ∃ w' : Wave, exec (.sleeptWake wid) s = .next { s with waves := s.waves.set wid w' } ∧
        w' = { w with fibres := w'.fibres, perf := w'.perf, nopre := w'.nopre } ∧
        ∀ (l : Nat) (f : Fibre), w.fibres[l]? = some f → (woken f → w'.fibres[l]? = some f.resume) ∧ (¬ woken f → w'.fibres[l]? = some f)) ∧
    ((∃ f ∈ w.fibres, f.live = true) → exec (.waveEnd wid) s = .next s) ∧
    (w.stat ≠ .ended → (∀ f ∈ w.fibres, f.live = false ∧ f.park = none) → w.loads = 0 → w.stores = 0 → w.copies = 0 → w.tiles = 0 →
      ∀ tm g, s.teams[w.team]? = some tm → s.grids[tm.grid]? = some g →
      ∃ (t : State) (w' : Wave) (g' : Grid), exec (.waveEnd wid) s = .next t ∧ t.waves[wid]? = some w' ∧ w'.stat = .ended ∧
        t.grids[tm.grid]? = some g' ∧ g'.psn = (g.psn || w.psn) ∧ g'.etr = (g.etr || w.etr) ∧ g'.xq = (g.xq || w.xq)) ∧
    (w.zen = false → w.stat = .resident → w.allWaiting = true →
      exec (.waveSwapOut wid) s = .next { s with
        waves := s.waves.set wid { w with stat := .swapped, score := 0, victims := [] } }) ∧
    (∀ p, s.parts[w.partIndex]? = some p → w.stat = .swapped → (∃ f ∈ w.fibres, f.live = true ∧ f.park = none) →
      p.inService = true → p.halt = .none → s.lanesUsed w.core w.part + w.width ≤ 512 →
      s.regsUsed w.core w.part + w.width * w.allot ≤ 98304 → s.quadTakes w.partIndex w = true →
      let u := { s with
        waves := s.waves.set wid { w with
          stat := .resident, streak := 0, waits := [], yielded := false, quota := if 32 ≤ w.quota then 32 else 0
          score := 0, victims := [] } }
      ∃ t, exec (.waveReturn wid) s = .next t ∧ t.waves = u.waves ∧
        ((∀ g q, s.gridOf w = some g → s.quads[w.quadIndex]? = some q → g.matrix = false ∨ q.owner ≠ none) → t = u))

/-- R168, R170 to R172, R178, R198, R200, R268: a complete MMQ issues with what it pinned; an issued one commits its
sums to its tile or, when its checks fail, leaves the tile and marks the four slices; a conversion puts its bytes; a
copy completes with its status, in order, and moves the bytes of its rows, or of the rows that its index list names,
expanded or packed as its format says; an engine's fault joins a record. Where it rests on the model's own choice, not
on a rule: log 2, 6. -/
def Obligations.EngineEvents : Prop :=
  ∀ (s : State), s.dev = .running → s.injects = [] →
    (∀ q quad n rest tid tm cv, s.quads[q]? = some quad → quad.ready = n :: rest → quad.frozen = false →
      s.signWait q = false → quad.owner = some tid → s.teams[tid]? = some tm → quad.conv[n]? = some cv →
      ∃ x : Issued, exec (.mmqIssue q) s = .next { s with quads := s.quads.set q { quad with
          conv := quad.conv.set n { cv with remaining := cv.remaining - 1, signed := [none, none, none, none] }
          ready := rest, pipe := quad.pipe ++ [x] } } ∧
        x.acc = cv.acc ∧ x.ty = cv.ty ∧ x.set = cv.set ∧ x.sigs = cv.signed.filterMap id ∧ x.force = 0 ∧
        ∀ k sg, x.sigs[k]? = some sg →
          (x.a.getD k []).take (16 * (cv.ty.k * cv.ty.size)) =
            (tm.scr (tm.pair && q / 2 != tm.core)).readN (sg.off.toNat + 64 + 16 * k * (cv.ty.k * cv.ty.size))
              (16 * (cv.ty.k * cv.ty.size))) ∧
    (∀ q (quad : Quad) x rest tid (tm : Team) c, s.quads[q]? = some quad → quad.pipe = x :: rest → x.force = 0 →
      quad.owner = some tid → s.teams[tid]? = some tm →
      (∀ (n wid : Nat), tm.waves[n]? = some wid → ∃ (w : Wave) (f : Fibre), s.waves[wid]? = some w ∧ f ∈ w.fibres ∧ f.live = true) →
      ∃ (t : State) (quad' : Quad), exec (.mmqCommit q c) s = .next t ∧ t.quads[q]? = some quad' ∧ quad'.pipe = rest ∧
        (c = .agree ∨ c = .replayAgrees → quad'.failed = quad.failed ∧ ∀ e, quad'.acc.get e =
          if e / 6144 = x.acc.toNat then mmqElt x (e / 96 % 64) (e % 96) (quad.acc.get e) else quad.acc.get e) ∧
        (∀ col, c = .columnFails col ∨ (∃ row, c = .residueFails row col) → quad'.acc = quad.acc ∧
          ∀ k < 4, ∃ f ∈ quad'.failed, f.tile = x.acc.toNat ∧ f.slice = k ∧ f.col = col % 96)) ∧
    (∀ k o w tm g ws, s.tileOps[k]? = some o → o.record = none → s.waves[o.wave]? = some w → s.teams[w.team]? = some tm →
      s.grids[tm.grid]? = some g → o.work = .convert ws → ws ≠ [] → (∃ f ∈ w.fibres, f.live = true) →
      exec (.tilesOperationComplete k) s = .next { s with
        tileOps := s.tileOps.eraseIdx k
        teams := s.teams.set w.team (tm.scrWrite g.scratch w.core (ws.headD (0, 0)).1 (ws.map Prod.snd))
        waves := s.waves.set o.wave { w with tiles := w.tiles - 1 } }) ∧
    (∀ k o w g va va' ps, s.tileOps[k]? = some o → o.record = none → s.waves[o.wave]? = some w → s.gridOf w = some g →
      o.work = .drain va → s.reach g.asid g.priv needStore (cutLines va.toNat 62528) = (ps, some (.far va')) →
      (∃ f ∈ w.fibres, f.live = true) →
      exec (.asynchronousEngineFault (.tiles k)) s = .next { s with
        tileOps := s.tileOps.eraseIdx k
        waves := s.waves.set o.wave { w with
          tiles := w.tiles - 1
          fibres := w.fibres.mapIdx fun l f =>
            if l ∈ o.lanes ∧ f.live = true then { f with due := f.due ++ [(0x04#6, lo32 va')] } else f } }) ∧
    (∀ k c, s.engine[k]? = some c → c.done = none → c.record = none → c.stop = none → (readCmd c.cw).dkind = 1 → (readCmd c.cw).x = false →
      (readCmd c.cw).skind = 1 → (∃ j c', j < k ∧ s.engine[j]? = some c' ∧ c'.charged = c.charged ∧ c'.done = none ∧
        ∀ i x, i < j → s.engine[i]? = some x → x.charged ≠ c.charged) →
      ∀ w tm g bs, s.waves[c.issuer]? = some w → s.teams[w.team]? = some tm → s.grids[tm.grid]? = some g →
      tm.scrRead g.scratch c.core (readCmd c.cw).off1 ((readCmd c.cw).rows * (readCmd c.cw).cols) = some bs →
      exec (.copyCompletion k .moved) s = .next { s with
        teams := s.teams.set w.team (tm.scrWrite g.scratch c.core (readCmd c.cw).off2 bs)
        engine := s.engine.set k { c with done := some (0, 0, 0), doneAt := s.time.toNat } }) ∧
    (∀ k c w tm g, s.engine[k]? = some c → c.done = none → c.record = none → c.stop = none →
      (∃ j c', j < k ∧ s.engine[j]? = some c' ∧ c'.charged = c.charged ∧ c'.done = none ∧
        ∀ i x, i < j → s.engine[i]? = some x → x.charged ≠ c.charged) →
      s.waves[c.issuer]? = some w → s.teams[w.team]? = some tm → s.grids[tm.grid]? = some g → Quiet s →
      let m := readCmd c.cw
      let done := fun (st : Byte) (tm' : Team) (t : State) =>
        t.engine = s.engine.set k { c with done := some (st, 0, 0), doneAt := s.time.toNat } ∧
          t.teams = s.teams.set w.team tm'
      -- from global memory to the scratchpad: rows in order, or in that of an index list
      (∀ list ps, m.dkind = 1 → m.skind = 0 ∨ m.skind = 3 ∧ m.scl = false →
        (m.skind = 3 → tm.scrRead g.scratch c.core m.list (4 * m.rows) = some list) →
        let row := fun r => m.va1 + (if m.skind = 3 then leNat ((list.drop (4 * r)).take 4) else r) * m.stride
        s.reach c.asid c.priv needLoad ((List.range m.rows).flatMap (fun r => cutLines (row r) m.rowLen) ++
          if m.scl then cutLines (m.va1 + m.rows * m.stride) m.scales else []) = (ps, none) →
        let bs := ps.flatMap fun p => s.homeRead p.1 p.2
        let st : Byte := if ps.any (fun p => s.poisoned p.1) then 8 else 0
        let e := widen m.sfmt (m.sparam % 2 == 1) (bs.take (m.rows * m.rowLen))
        ∃ t, exec (.copyCompletion k .moved) s = .next t ∧
          (m.x = false → done st (tm.scrWrite g.scratch c.core m.off2 bs) t) ∧
          (m.x = true → e.2 = true → done 1 (tm.scrWrite g.scratch c.core (m.off2 + 64) e.1) t) ∧
          (m.x = true → e.2 = false →
            done st ((tm.scrWrite g.scratch c.core (m.off2 + 64) (e.1 ++ bs.drop (m.rows * m.rowLen))).scrWrite g.scratch
              c.core m.off2 m.header) t)) ∧
      -- from the scratchpad to global memory: the bytes, or a packed tile
      (∀ ps bs h, m.dkind = 0 → m.skind = 1 → s.discards w.team = false → s.staging w.team = false →
        s.reach c.asid c.priv needStore ((List.range m.rows).flatMap (fun r => cutLines (m.va2 + r * m.stride) m.rowLen) ++
          if m.scl then cutLines (m.va2 + m.rows * m.stride) m.scales else []) = (ps, none) →
        (m.x = false → tm.scrRead g.scratch c.core m.off1 (m.rows * m.cols) = some bs) →
        let n := m.rows * m.cols * m.elt
        (m.x = true → tm.scrRead g.scratch c.core m.off1 64 = some h ∧
          tm.scrRead g.scratch c.core (m.off1 + 64) (n + m.scales) = some bs) →
        let out := if m.x then narrow m.sfmt (bs.take n) ++ bs.drop n else bs
        ∃ t, exec (.copyCompletion k .moved) s = .next t ∧
          (m.x = false ∨ h.take 7 = m.header.take 7 → done 0 tm t ∧
            t.mem = (ps.foldl (fun (x : Memory × List Byte) p => (x.1.writeN p.1 (x.2.take p.2), x.2.drop p.2)) (s.mem, out)).1) ∧
          (m.x = true → h.take 7 ≠ m.header.take 7 → done 2 tm t ∧ t.mem = s.mem))) ∧
    (∀ k c w f, s.engine[k]? = some c → c.done = none → c.record = none → c.stop = none → (readCmd c.cw).skind = 2 →
      (∀ j c', s.engine[j]? = some c' → c'.charged = c.charged → j = k) →
      s.waves[c.charged]? = some w → f ∈ w.fibres → f.live = true → s.takes c.issuer = true →
      ((readCmd c.cw).dkind = 1 ∨ s.staging (s.teamId c.issuer) = false ∧
        ∀ tm, s.teams[s.teamId c.issuer]? = some tm → tm.stage = []) →
      ((readCmd c.cw).mb = true → s.staging (s.teamId c.charged) = false ∧
        ∀ tm, s.teams[s.teamId c.charged]? = some tm → tm.stage = []) → ∀ sct sc n,
      ∃ (t : State) (w' : Wave), exec (.copyCompletion k (.ioError sct sc n)) s = .next t ∧ t.engine = s.engine.eraseIdx k ∧
        t.waves[c.charged]? = some w' ∧ w'.copies = w.copies - 1 ∧
        ((readCmd c.cw).note = false → w'.fails = w.fails ++ [{ tag := (readCmd c.cw).tag, status := 6, cause := 0x04,
                                                                younger := 0 }])) ∧
    (∀ k c va kd page sz key r src, s.engine[k]? = some c → c.done = none → c.record = none → c.stop = none →
      (let x := s.copySource (s.teamId c.issuer) c
       s.copyStop (s.teamId c.issuer) c x.2.1 x.2.2.1 = .block (.fault va kd page sz key) src) →
      (∃ x m, s.spaces.find? (fun x => x.asid == c.asid) = some x ∧ x.mbx = some m) →
      s.records.find? (fun x => x.die == c.core / 16 && x.asid == c.asid && x.page == page && x.kind == kd) = some r →
      exec (.asynchronousEngineFault (.copy k)) s = .next { s with
        records := s.records.map fun x => if x = r then { x with count := x.count + 1 } else x
        engine := s.engine.set k { c with record := some r.handle } })

/-! ### The host port and the device's states (10 R253, R254; 14 R340 to R344) -/

/-- R250, R253, R254, R272, R339, R340: arming a watch fixes what it watches, and it takes a monitor entry where none
is taken; disarming forgets it; arming reads the word at once; a watch whose word satisfies its condition fires: it is
disarmed with FIRED set, its sequence counts on, and its 16-byte record (value, sequence, 1) is written, but not to a
fixed block; one with W 2 or 3, a misaligned address or one of 2^57 or above fails, with the record (0, sequence, 2);
a word that does not satisfy the condition leaves it armed, and without an entry it is read again a microsecond later.
What a host write to each register leaves; an enabled ring with an entry, no error and nothing in execution reads its
next 64 bytes as a command, or sets ERR where the entry is poisoned. Where it rests on the model's own choice, not on
a rule: log 14, 55. -/
def Obligations.HostPort : Prop :=
  (∀ (s : State) (i : Nat) (x : Watch), s.dev = .running → s.watches[i]? = some x →
    (x.en = true → exec (.watchArm i) s = .next s) ∧
    (x.en = false →
      let a0 : Armed := { va := x.waddr, val := x.wval, dest := x.wdest, cond := x.cond, w := x.w, asid := x.wasid,
                          vec := x.vec, msi := x.msi, key := 0, entry := false, next := s.time.toNat, met := none }
      ∃ t, exec (.watchArm i) s = .next t ∧ exec (.watchFire i)
        { s with watches := s.watches.set i { x with en := true, record := none, armed := some a0 } } = .next t) ∧
    exec (.watchDisarm i) s =
      .next { s with watches := s.watches.set i { x with en := false, armed := none, record := none } } ∧
    (∀ a, x.en = true → x.record = none → x.armed = some a →
      2 ≤ a.w.toNat ∨ a.va.toNat % (if a.w = 1 then 8 else 4) ≠ 0 ∨
        (2 ^ 57 ≤ a.va.toNat ∧ (a.entry = true ∨ a.next ≤ s.time.toNat)) →
      let rec_ := hostKey (a.dest.toNat / 16 * 16)
      ∃ t : State, exec (.watchFire i) s = .next t ∧ t.outputs = s.outputs ∧
        t.watches = s.watches.set i { x with en := false, armed := none, record := none, seq := x.seq + 1, err := true } ∧
        (s.shadows = [] → s.linkUp = true →
          (∀ y, rec_ ≤ y → y < rec_ + 16 → s.frozenAt y = 0 ∧ s.codeAt y = false ∧ s.thawingAt y = false) →
          t.mem.readN rec_ 16 = leBytes 8 0 ++ leBytes 4 (x.seq + 1).toNat ++ leBytes 4 2)) ∧
    ∀ a p k, x.en = true → x.record = none → x.armed = some a → (a.w = 0 ∨ a.w = 1) →
      let n := if a.w = 1 then 8 else 4
      a.va.toNat % n = 0 → s.translate a.asid.toNat true false needLoad a.va = .ok p k → s.shadows = [] → s.linkUp = true →
      let v := leNat (s.homeRead k n)
      let rec_ := hostKey (a.dest.toNat / 16 * 16)
      (a.entry = false → s.time.toNat < a.next → exec (.watchFire i) s = .next s) ∧
      (a.entry = true ∨ a.next ≤ s.time.toNat → ∃ t : State, exec (.watchFire i) s = .next t ∧
        (waitHolds (watchCond a.cond) (8 * n) v (a.val.toNat % 2 ^ (8 * n)) = false →
          t.mem = s.mem ∧ t.outputs = s.outputs ∧ (a.entry = true → t.watches = s.watches) ∧
          (a.entry = false → ∃ e, t.watches = s.watches.set i { x with
            armed := some { a with key := k, entry := e, next := s.time.toNat + 1000 } })) ∧
        (waitHolds (watchCond a.cond) (8 * n) v (a.val.toNat % 2 ^ (8 * n)) = true →
          t.watches = s.watches.set i { x with en := false, armed := none, record := none, seq := x.seq + 1, fired := true } ∧
          ((∀ y, rec_ ≤ y → y < rec_ + 16 → s.frozenAt y = 0 ∧ s.codeAt y = false ∧ s.thawingAt y = false) →
            t.mem.readN rec_ 16 = leBytes 8 v ++ leBytes 4 (x.seq + 1).toNat ++ leBytes 4 1) ∧
          ((∀ y, rec_ ≤ y → y < rec_ + 16 → 0 < s.frozenAt y) → t.mem = s.mem) ∧
          (∀ y, y < rec_ ∨ rec_ + 16 ≤ y → t.mem.read y = s.mem.read y) ∧
          t.outputs = s.outputs ++ if a.msi then [.msix a.vec.toNat] else []))) ∧
  (∀ (s : State) (v : DWord), s.dev = .running → s.linkUp = true →
    (∀ i x, s.watches[i]? = some x →
      exec (.registerWrite (.waddr i) v) s =
        .next { s with watches := s.watches.set i { x with waddr := v &&& 0x01FFFFFFFFFFFFFF } } ∧
      exec (.registerWrite (.wval i) v) s = .next { s with watches := s.watches.set i { x with wval := v } } ∧
      exec (.registerWrite (.wdest i) v) s =
        .next { s with watches := s.watches.set i { x with wdest := v &&& 0xFFFFFFFFFFFFFFF0 } } ∧
      exec (.registerWrite (.wasid i) v) s = .next { s with watches := s.watches.set i { x with wasid := v.extractLsb' 0 16 } } ∧
      let y := { x with
        fired := x.fired && !v.getLsbD 30, err := x.err && !v.getLsbD 29, vec := v.extractLsb' 17 11
        msi := v.getLsbD 16, cond := v.extractLsb' 2 3, w := v.extractLsb' 0 2 }
      (v.getLsbD 31 = true → ∃ t, exec (.registerWrite (.wctl i) v) s = .next t ∧
        exec (.watchArm i) { s with watches := s.watches.set i y } = .next t) ∧
      (v.getLsbD 31 = false → exec (.registerWrite (.wctl i) v) s =
        .next { s with watches := s.watches.set i { y with en := false, armed := none, record := none } })) ∧
    exec (.registerWrite .ringBase v) s = .next { s with ring := { s.ring with base := v &&& 0xFFFFFFFFFFFFF000 } } ∧
    exec (.registerWrite .ringSize v) s = .next { s with ring := { s.ring with lsize := v.extractLsb' 0 5 } } ∧
    exec (.registerWrite .ringHead v) s = .next s ∧ (∀ k, exec (.registerWrite (.identity k) v) s = .next s) ∧
    (v.getLsbD 0 = false → exec (.registerWrite .ringCtl v) s =
      .next { s with ring := { s.ring with err := s.ring.err && !v.getLsbD 1, en := false } }) ∧
    exec (.commandRingEnable false) s = .next { s with ring := { s.ring with en := false } } ∧
    (∀ tail, s.ring.en = false → exec (.commandRingTail tail) s = .next { s with ring := { s.ring with tail := tail } }) ∧
    ∀ (i : Instr) (r : Ring),
      (i = .commandRingEnable true ∧ r = { s.ring with en := true }) ∨
        (∃ tail, i = .commandRingTail tail ∧ s.ring.en = true ∧ r = { s.ring with tail := tail }) →
      let n := 2 ^ r.lsize.toNat
      let k := hostKey (r.base.toNat + 64 * (r.head.toNat % n))
      r.err = false → r.head.toNat % n ≠ r.tail.toNat % n → (∀ c ∈ s.commands, c.queue ≠ 0) → s.shadows = [] →
      ∃ t : State, exec i s = .next t ∧
        (s.poisoned k = false → t.ring = r ∧ t.commands = s.commands ++ [{
          queue := 0, words := bytesDwords (s.homeRead k 64) 8, asid := 0, weight := none, scan := none, done := none }]) ∧
        (s.poisoned k = true → t.ring = { r with err := true } ∧ t.commands = s.commands))

/-- R231, R271, R328, R342 to R344: snoops of the host, the loss of its link, reset, power gating, a fatal error, the
death of an agent, a peer that leaves, the signed measurements, and a request from outside to a line of device memory.
That a request from outside is judged as a privileged access is the model's choice (log 14). Where it rests on the
model's own choice, not on a rule: log 2, 4, 14, 41, 45. -/
def Obligations.DeviceEvents : Prop :=
  ∀ (s : State),
    (∀ line, s.linkUp = true →
      (s.dev = .running → s.shadows = [] →
        let key := hostKey (line * 128)
        let held := s.hostMod.contains (lineOf key)
        exec (.hostSnoop line) s = .next { s with
          modified := s.modified.filter fun m => m.line != lineOf key
          hostMod := s.hostMod.filter (· != lineOf key)
          outputs := s.outputs ++ [.snoop line held (if held then s.homeRead key 128 else [])] }) ∧
      (s.dev ≠ .running → exec (.hostSnoop line) s = .next { s with outputs := s.outputs ++ [.snoop line false []] })) ∧
    (s.linkUp = true → ∃ t : State, exec .hostLinkLoss s = .next t ∧ t.linkUp = false ∧ t.hostMod = [] ∧
      (∀ x ∈ t.l1, keyLoc (x.line * 128) ≠ 3) ∧ (∀ x ∈ t.shadows, keyLoc (x.line * 128) ≠ 3) ∧
      (∀ p ∈ t.pend, ∀ c ∈ p.bytes, keyLoc c.1 ≠ 3) ∧
      ∀ m ∈ s.modified, m.agent = .hostCache → keyLoc (m.line * 128) ≠ 3 → m.line ∈ t.poison) ∧
    (s.dev = .running → ∀ a, ∃ t : State, exec (.agentDeath a) s = .next t ∧
      (∀ m ∈ s.modified, m.agent = a → m.line ∈ t.poison) ∧ (∀ y ∈ s.poison, y ∈ t.poison) ∧
      t.modified = s.modified.filter (fun m => m.agent != a) ∧
      ∀ m, s.modified.filter (fun m => m.agent == a) = [m] → s.linkUp = true →
        t.mem = m.home.foldl (fun (x : Memory) c => x.write (m.line * 128 + c.1) c.2) s.mem) ∧
    (∃ t : State, exec .reset s = .next t ∧ t.dev = .inReset ∧ t.waves = [] ∧ t.teams = [] ∧ t.grids = [] ∧ t.spaces = [] ∧
      t.pages = [] ∧ t.regions = [] ∧ t.records = [] ∧ t.commands = [] ∧ t.mailboxes = [] ∧ t.episodes = [] ∧ t.pairs = [] ∧
      t.hostMod = [] ∧ t.quads = List.replicate 64 Quad.clear ∧ t.parts = List.replicate 256 Part.clear ∧
      t.clusters = List.replicate 8 { Cluster.clear with nextSample := (s.time.toNat / 10000 + 1) * 10000 } ∧ t.watches = List.replicate 256 Watch.clear ∧ t.time = s.time ∧
      t.firmware = s.firmware ∧ t.image = s.image ∧ (Quiet s → t.mem = s.mem)) ∧
    (s.dev = .running → ∃ t : State, exec .powerGating s = .next t ∧ t.dev = .gated ∧ t.hostMod = [] ∧ t.bundle = [] ∧
      (Quiet s → t = { s with
        dev := .gated, hostMod := [], bundle := []
        modified := s.modified.filter fun m => keyLoc (m.line * 128) != 3
        l1 := s.l1.filter fun x => keyLoc (x.line * 128) != 3 })) ∧
    (s.dev = .running → (s.isFatal s.failing = false → exec .fatalError s = .next s) ∧
      (s.isFatal s.failing = true →
        let im : Image := { source := s.failing, time := s.time.toNat, waves := s.waves.filter (·.stat != .ended),
                            teams := s.teams, quads := s.quads }
        ∃ t : State, exec .fatalError s = .next t ∧ t.dev = .fatal ∧ t.hostMod = [] ∧ t.bundle = [] ∧ t.failing = .other ∧
          t.image = some im ∧ (Quiet s → t.mem = s.mem ∧ t.outputs = s.outputs ++ [.dump im]))) ∧
    (s.dev = .running → ∀ p, p < 64 → s.peers.getLsbD p = true → ∃ t : State, exec (.peerLeave p) s = .next t ∧
      (∀ q, t.peers.getLsbD q = (s.peers.getLsbD q && q != p)) ∧ (∀ f ∈ t.flights, f ∈ s.flights ∧ ∀ m, f.target ≠ .peer p m) ∧
      (∀ y ∈ t.pages, p ∉ y.reps) ∧ ∀ m ∈ s.modified, m.agent = .peer p → m.line ∈ t.poison) ∧
    (∀ nonce, ∃ sig, exec (.spdmRequest nonce) s = .next { s with
      freeCtr := s.freeCtr + 1
      outputs := s.outputs ++
        [.attest nonce Config.certificates (s.firmware.map (·.hash) ++ [Config.securityHash]) sig] }) ∧
    (s.dev = .running → ∀ r p k, r.episode = none → s.parkedReqs = [] → Quiet s → 0 < reqSize r →
      r.va.toNat % 128 + reqSize r ≤ 128 →
      s.translate r.asid true true (if r.wr.isSome then needStore else needLoad) r.va = .ok p k →
      ∃ t : State, exec (.hostOrPeerRequest r) s = .next t ∧
        (r.wr = none → t.mem = s.mem ∧ t.outputs = s.outputs ++ [.requestDone true (s.homeRead k r.n)]) ∧
        ∀ bs, r.wr = some bs → t.mem = s.mem.writeN k bs ∧ t.outputs = s.outputs ++ [.requestDone true []])

/-! ### Mapping and host commands (11 R259 to R265, R269 to R271, R276, R283, R386; 01 R35; 14 R329 to R331, R340, R341) -/

namespace Sys2Proof.Machine

/-- The page starts inside the range of a command. -/
def Page.inRange (c : Cmd) (p : Page) : Bool := p.asid == c.asid && decide (c.va ≤ p.va ∧ p.va < c.va + c.size)

/-- R36: what a page keeps beside pages that have become writable, or executable, where they share memory with it. -/
def Page.yield (new : List Page) (p : Page) : Page :=
  let beside := fun (b : Page → Bool) =>
    new.any fun q => b q && decide (p.tgt.toNat < q.tgt.toNat + q.size ∧ q.tgt.toNat < p.tgt.toNat + p.size)
  { p with x := p.x && !beside (·.wr), wr := p.wr && !beside (·.x) }

/-- The head command of queue q has been executed with a status and a detail. -/
def State.answered (s : State) (q : Nat) (st : Word) (d : DWord) : Prop :=
  (s.headCommand q).map (·.done) = some (some (st, d))

end Sys2Proof.Machine

/-- R35, R263 to R265, R269, R271, R276, R278, R283, R386: a mapping command that fails a check answers that check's
status and changes nothing; MAP adds pages in order, or answers the scan's offence; UNMAP, PROTECT and SPLIT change
the pages of their range and no byte; and what UNFIX, RESOLVE, ASIDNEW, ASIDFREE, the completion record of a command,
and the post of a fault record do. Where it rests on the model's own choice, not on a rule: log 18, 31, 43, 51. -/
def Obligations.MappingPort : Prop :=
  (∀ (s : State) (q : Nat) (c : Cmd), s.dev = .running → q ≠ 1 →
    (∀ op ev, s.pendingCmd q op = some c →
      (op, ev) ∈ [(1, Instr.map q), (2, .unmap q), (3, .protect q), (4, .split q), (5, .unfix q), (6, .resolve q),
        (7, .asidnew q), (8, .asidfree q)] →
      (∀ st, s.checkMapping c = some st → exec ev s = .next (s.finishCommand q st 0)) ∧
      (c.zero ≠ 0 ∨ c.asid = 0 ∨ (op ≠ 7 ∧ ∀ x ∈ s.spaces, x.asid ≠ c.asid) → exec ev s = .next (s.finishCommand q 1 0))) ∧
    (∀ ps, s.scanWanted q = some ps →
      let s1 := s.drainBlocks (pieceBlocks ps)
      exec (.codePageScan q) s = .next (s1.modCommand q fun h => { h with scan := some (s1.scanPages ps) })) ∧
    (s.checkMapping c = none → s.scanWanted q = none →
      (s.pendingCmd q 1 = some c → (attrX c.attr = true → s.still (pieceBlocks (mapPieces c)) = true) →
        let z := szBytes (BitVec.ofNat 2 (attrSz c.attr))
        (∀ r o, s.scanResult q (mapPieces c) = some (r, o) →
          exec (.map q) s = .next (s.finishCommand q 5 (BitVec.ofNat 64 (r + 256 * o)))) ∧
        (s.scanResult q (mapPieces c) = none → ∃ (ps : List Page) (t : State), exec (.map q) s = .next t ∧
          (attrX c.attr = false → t = ({ s with pages := s.pages.map (Page.yield ps) ++ ps } : State).finishCommand q 0 0) ∧
          (Quiet s → t.pages = s.pages.map (Page.yield ps) ++ ps ∧ t.mem = s.mem ∧ t.answered q 0 0) ∧
          ps.length = c.size / z ∧
          ∀ i p, ps[i]? = some p →
            p.asid = c.asid ∧ p.va = c.va + i * z ∧ p.sz = BitVec.ofNat 2 (attrSz c.attr) ∧
            p.tgt = BitVec.ofNat 64 (c.target + i * z) ∧ p.rd = attrRd c.attr ∧ p.wr = attrWr c.attr ∧ p.x = attrX c.attr ∧
            p.priv = attrPriv c.attr ∧ p.coh = BitVec.ofNat 2 (attrCoh c.attr) ∧ p.reps = [] ∧
            p.st = if p.blocks.all (fun b => decide (0 < (s.frozen.get b).toNat)) then .fixed else .owned)) ∧
      (s.pendingCmd q 2 = some c → s.quiet c = true →
        ((∃ b ∈ s.blocksIn c, 0 < (s.frozen.get b).toNat) → exec (.unmap q) s = .next (s.finishCommand q 4 0)) ∧
        ((∀ b ∈ s.blocksIn c, (s.frozen.get b).toNat = 0) → Quiet s → ∃ t : State, exec (.unmap q) s = .next t ∧
          t.pages = s.pages.filter (fun p => !p.inRange c) ∧ t.mem = s.mem ∧ t.answered q 0 0)) ∧
      (s.pendingCmd q 3 = some c → s.quiet c = true →
        (s.protectAgrees c = false → exec (.protect q) s = .next (s.finishCommand q 1 0)) ∧
        (s.protectAgrees c = true → s.scanResult q (s.rangePieces c) = none → Quiet s →
          let new := fun (p : Page) => ({ p with
            rd := attrRd c.attr, wr := attrWr c.attr, x := attrX c.attr && !attrWr c.attr, priv := attrPriv c.attr } : Page)
          ∃ t : State, exec (.protect q) s = .next t ∧ t.pages = s.pages.map (fun p => if p.inRange c then new p
            else p.yield ((s.pages.filter (·.inRange c)).map new)) ∧ t.mem = s.mem ∧ t.answered q 0 0)) ∧
      (s.pendingCmd q 4 = some c → ∃ t : State, exec (.split q) s = .next t ∧ t.mem = s.mem ∧ t.answered q 0 0 ∧
        (∀ p ∈ s.pages, p.inRange c = false → p.va + p.size ≤ c.va ∨ c.va + c.size ≤ p.va ∨ p.asid ≠ c.asid → p ∈ t.pages) ∧
        ∀ p ∈ s.pages, p.inRange c = true → 0 < c.size → (p.sz = 0 → p ∈ t.pages) ∧
          (p.sz = 1 ∨ p.sz = 2 → let z := szBytes (p.sz - 1)
            ∀ i, i < p.size / z →
              { p with va := p.va + i * z, sz := p.sz - 1, tgt := p.tgt + BitVec.ofNat 64 (i * z) } ∈ t.pages)))) ∧
  (∀ (s : State) (q : Nat) (c : Cmd), s.dev = .running → q ≠ 1 →
    (s.checkMapping c = none → s.scanWanted q = none →
      (s.pendingCmd q 5 = some c → ∀ p, s.findPage c.asid c.va = some p →
        let b := blockOf (p.key c.va)
        let counts := fun (r : Region) => r.st = 1 ∧ b ∈ r.blocks ∧ b ∉ r.withdrawn
        (p.sz ≠ 0 → exec (.unfix q) s = .next (s.finishCommand q 7 0)) ∧
        (p.sz = 0 → (s.frozen.get b).toNat = 0 → exec (.unfix q) s = .next (s.finishCommand q 0 0)) ∧
        (p.sz = 0 → 0 < (s.frozen.get b).toNat → (∃ r ∈ s.regions, counts r ∧ 256 ≤ r.withdrawn.length) →
          exec (.unfix q) s = .next (s.finishCommand q 8 0)) ∧
        (p.sz = 0 → 0 < (s.frozen.get b).toNat → (∀ r ∈ s.regions, counts r → r.withdrawn.length < 256) →
          ∃ t : State, exec (.unfix q) s = .next t ∧ t.answered q 0 0 ∧
            (∀ x, t.frozen.get x = if x = b then 0 else s.frozen.get x) ∧
            (∀ y ∈ t.pages, y.hasBlock b = true → y.st = .thawing) ∧
            ∀ r ∈ t.regions, r.st = 1 → b ∈ r.blocks → b ∈ r.withdrawn)) ∧
      (s.pendingCmd q 6 = some c →
        ((∀ r ∈ s.records, r.handle.toNat ≠ c.target) → exec (.resolve q) s = .next (s.finishCommand q 9 0)) ∧
        ∀ r, s.records.find? (fun r => decide (r.handle.toNat = c.target)) = some r →
          ∃ t : State, exec (.resolve q) s = .next t ∧ t.records = s.records.erase r ∧
            (c.attr = 0 → ∀ (wid l : Nat) (w : Wave) (f : Fibre), s.waves[wid]? = some w → w.fibres[l]? = some f →
              (f.onRecord r.handle).isSome = true →
              ∃ w' : Wave, t.waves[wid]? = some w' ∧ w'.fibres[l]? = some { f with park := none }) ∧
            (c.attr = 1 → s.engine = [] → s.tileOps = [] → s.freezes = [] → s.parkedReqs = [] →
              (∀ x ∈ s.watches, x.record = none) →
              (∀ w ∈ s.waves, ∀ f ∈ w.fibres, f.completes w.zen r.handle = false) →
              ∀ (wid l : Nat) (w : Wave) (f : Fibre) (g : Grid) (va : DWord), s.waves[wid]? = some w →
                w.fibres[l]? = some f → s.gridOf w = some g → f.live = true → f.onRecord r.handle = some va →
                ∃ w' : Wave, t.waves[wid]? = some w' ∧ w'.fibres[l]? = some { f with
                  park := none, owed := none
                  due := f.due ++ [(if r.kind = .wFix then 0x05 else 0x04, lo32 va)] })) ∧
      (s.pendingCmd q 7 = some c → exec (.asidnew q) s = .next (({ s with
        spaces := s.spaces ++ [{ asid := c.asid, mbx := if c.arg.testBit 12 then none else some c.arg,
                                 table := BitVec.ofNat 64 c.va }]
        pages := s.pages ++ (List.range 4).map fun i =>
          { asid := c.asid, va := c.va + i * 65536, sz := 0, tgt := tableTarget + BitVec.ofNat 64 (i * 65536), rd := true,
            wr := false, x := false, priv := false, coh := 2, st := .owned, reps := [] } } : State).finishCommand q 0 0)) ∧
      (s.pendingCmd q 8 = some c →
        ((∃ g ∈ s.grids, g.asid = c.asid ∧ g.final = false) ∨ (∃ r ∈ s.records, r.asid = c.asid) ∨
            (∃ r ∈ s.regions, r.asid = c.asid ∧ r.st ≠ 0) → exec (.asidfree q) s = .next (s.finishCommand q 6 0)) ∧
        (s.spaceBusy c.asid = false → Quiet s → ∃ t : State, exec (.asidfree q) s = .next t ∧ t.answered q 0 0 ∧
          t.pages = s.pages.filter (·.asid != c.asid) ∧ t.spaces = s.spaces.filter (·.asid != c.asid) ∧ t.mem = s.mem))) ∧
    (∀ h st d p, 2 ≤ q → s.headCommand q = some h → h.done = some (st, d) → h.weight = none → Quiet s →
      let m := readCommand h.words
      m.status < 2 ^ 57 → (∀ i < 16, s.findPage h.asid (m.status + i) = some p ∧ s.frozenAt (p.key (m.status + i)) = 0 ∧
        s.thawingAt (p.key (m.status + i)) = false ∧ s.codeAt (p.key (m.status + i)) = false) →
      ∃ l l',
      exec (.mappingCompletion q) s = .next { s with
        hostMod := s.hostMod.filter fun l => s.lineCoh l != some 1
        mem := s.mem.writeN (p.key m.status) (leBytes 4 st.toNat ++ leBytes 4 m.tag ++ leBytes 8 d.toNat)
        commands := s.commands.eraseP (·.queue == q)
        modified := l
        leaders := l' }) ∧
    ∀ k r, s.canPost k = true → s.records[k]? = some r → ∃ t n m m', exec (.faultRecordPost k) s = .next t ∧
      t.records = s.records.set k { r with posted := true, merged := r.count } ∧
      s.faultMbx r.asid = some n ∧ s.mailboxOf n = some m ∧ t.mailboxOf n = some m' ∧
      m'.pending = m.pending ++ [{
        words := s.recordWords { r with posted := true, merged := r.count }, weight := none, seq := s.arrivals }])

/-- R233, R321, R322, R329 to R331, R340, R341: what each command of the host's ring does. Where it rests on the
model's own choice, not on a rule: log 18, 19. -/
def Obligations.RingCommands : Prop :=
  ∀ (s : State) (c : Cmd), s.dev = .running →
    (s.pendingCmd 0 0x100 = some c → ∀ p, c.zero = 0 → c.arg < 4096 → c.attr < 512 → 0 < c.attr / 16 → c.attr / 16 ≤ 16 →
      c.va % 64 = 0 → (c.attr.testBit 3 = true → c.target = 0) → (∃ x ∈ s.spaces, x.asid = c.asid) →
      (∀ m, s.mailboxOf c.arg = some m → exec .mbbind s = .next (s.finishCommand 0 6 0)) ∧
      (s.mailboxOf c.arg = none → s.findPage c.asid c.va = none → exec .mbbind s = .next (s.finishCommand 0 3 0)) ∧
      (s.mailboxOf c.arg = none → s.findPage c.asid c.va = some p → ∃ t : State, exec .mbbind s = .next t ∧ t.answered 0 0 0 ∧
        t.mailboxes = s.mailboxes ++ [{
          num := c.arg, asid := c.asid, addr := BitVec.ofNat 64 c.va, slots := c.attr / 16, gridMode := c.attr.testBit 3,
          record := BitVec.ofNat 64 c.target, prio := c.attr % 4, priv := c.attr.testBit 2,
          status := BitVec.ofNat 64 c.size, pending := [], launched := [], drops := 0 }])) ∧
    (s.pendingCmd 0 0x101 = some c → plainArg c = true →
      (s.mailboxOf c.arg = none → exec .mbfree s = .next (s.finishCommand 0 1 0)) ∧
      ∀ m, s.mailboxOf c.arg = some m →
        (0 < m.pending.length + m.launched.length → exec .mbfree s = .next (s.finishCommand 0 6 0)) ∧
        (m.pending = [] → m.launched = [] → exec .mbfree s = .next (({ s with
          mailboxes := s.mailboxes.filter (·.num != c.arg) } : State).finishCommand 0 0 0))) ∧
    (s.pendingCmd 0 0x102 = some c → c.zero = 0 → bits c.arg 12 4 = 0 → bits c.arg 28 36 = 0 → bits c.arg 16 12 ≠ 0 →
      bits c.attr 48 16 ≤ 3 →
      (∀ w, s.windowOf (bits c.arg 0 12) = some w → exec .swbind s = .next (s.finishCommand 0 6 0)) ∧
      (s.windowOf (bits c.arg 0 12) = none → exec .swbind s = .next (({ s with windows := s.windows ++ [{
        num := bits c.arg 0 12, depth := bits c.arg 16 12 + 1, va := BitVec.ofNat 64 c.va,
        doorbell := BitVec.ofNat 64 c.target, route := BitVec.ofNat 16 c.attr, nsid := BitVec.ofNat 32 (c.attr / 65536),
        code := bits c.attr 48 4, cap := c.size }] } : State).finishCommand 0 0 0))) ∧
    (s.pendingCmd 0 0x103 = some c → plainArg c = true →
      (s.windowOf c.arg = none → exec .swfree s = .next (s.finishCommand 0 1 0)) ∧
      ∀ w, s.windowOf c.arg = some w → (∀ x ∈ s.engine, usesWindow c.arg x = false) → exec .swfree s = .next (({ s with
        windows := s.windows.filter (·.num != c.arg) } : State).finishCommand 0 0 0)) ∧
    (s.pendingCmd 0 0x104 = some c → plainArg c = true → (∃ x ∈ s.spaces, x.asid = c.asid) → c.va % 128 = 0 →
      c.size % 128 = 0 → c.va + c.size ≤ 2 ^ 57 → ∀ key : Nat → Nat,
      (∀ i < c.size / 128, ∃ p, s.findPage c.asid (c.va + 128 * i) = some p ∧ p.key (c.va + 128 * i) = key i) →
      ((∃ i < c.size / 128, 0 < s.frozenAt (key i)) → exec .scrub s = .next (s.finishCommand 0 4 0)) ∧
      ((∀ i < c.size / 128, s.frozenAt (key i) = 0) → (∃ i < c.size / 128, s.thawingAt (key i) = true) →
        exec .scrub s = .next s) ∧
      ((∀ i < c.size / 128, s.frozenAt (key i) = 0 ∧ s.thawingAt (key i) = false) → Quiet s → ∃ t : State, exec .scrub s = .next t ∧ t.answered 0 0 0 ∧
        (∀ i < c.size / 128, lineOf (key i) ∉ t.poison ∧ ∀ o < 128, t.mem.read (key i + o) = 0) ∧
        ∀ y, (∀ i < c.size / 128, y < key i ∨ key i + 128 ≤ y) → t.mem.read y = s.mem.read y)) ∧
    (s.pendingCmd 0 0x105 = some c → plainArg c = true →
      ((∀ g ∈ s.grids, g.handle ≠ c.arg % 2 ^ 32) → exec .kill s = .next (s.finishCommand 0 1 0)) ∧
      ∀ k g, s.grids.findIdx? (fun g => g.handle == c.arg % 2 ^ 32) = some k → s.grids[k]? = some g →
        let i := c.arg / 2 ^ 32
        let dies := fun (t : State) (g' : Grid) (j tid : Nat) (tm : Team) =>
          j ∈ g'.killed ∧ (∃ tm' : Team, t.teams[tid]? = some tm' ∧ tm'.killed = true ∧ tm'.stage = []) ∧
          ∀ n ∈ tm.waves ++ tm.zen.toList, ∀ w : Wave, t.waves[n]? = some w → ∀ f ∈ w.fibres, f.live = false
        (g.total ≤ i → i ≠ 2 ^ 32 - 1 → exec .kill s = .next (s.finishCommand 0 1 0)) ∧
        (i < g.total ∨ i = 2 ^ 32 - 1 → g.stat ≠ .running → exec .kill s = .next (s.finishCommand 0 0 0)) ∧
        (i < g.total → i < 2 ^ 32 - 1 → g.stat = .running → ∀ tid tm, s.teamAt k i = some tid → s.teams[tid]? = some tm →
          tm.ended = false → tm.killed = false →
          let lives := fun (n : Nat) => (s.waves[n]?).any fun w => w.fibres.any (·.live)
          ∃ (t : State) (g' : Grid), exec .kill s = .next t ∧ t.answered 0 0 0 ∧ t.grids[k]? = some g' ∧ dies t g' i tid tm ∧
            g'.terms = g.terms + (tm.waves ++ tm.zen.toList).countP lives ∧
            (g.term ≠ none → g'.term = g.term) ∧
            ∀ n w f, g.term = none → (tm.waves ++ tm.zen.toList).find? lives = some n → s.waves[n]? = some w →
              w.fibres.find? (·.live) = some f → g'.term = some {
                team := i, wave := if w.zen then 0xFFFF else w.idx, cause := 0, nested := false, epc := f.epc }) ∧
        (i = 2 ^ 32 - 1 → g.stat = .running →
          (∀ (tid : Nat) (tm : Team), s.teams[tid]? = some tm → ∀ n ∈ tm.waves ++ tm.zen.toList, ∀ w : Wave,
            s.waves[n]? = some w → w.team = tid) →
          ∃ (t : State) (g' : Grid), exec .kill s = .next t ∧ t.answered 0 0 0 ∧ t.grids[k]? = some g' ∧
            ∀ j < g.total, (s.teamAt k j = none → j ∈ g'.killed) ∧
              ∀ tid tm, s.teamAt k j = some tid → s.teams[tid]? = some tm → tm.ended = false → tm.killed = false →
                dies t g' j tid tm) ∧
        (i < g.total → i < 2 ^ 32 - 1 → g.stat = .running → s.teamAt k i = none → i ∉ g.killed → exec .kill s =
          .next (({ s with grids := s.grids.set k { g with killed := g.killed ++ [i] } } : State).finishCommand 0 0 0)) ∧
        (i < g.total → i < 2 ^ 32 - 1 → g.stat = .running → ∀ tid tm, s.teamAt k i = some tid → s.teams[tid]? = some tm →
          tm.ended = true → exec .kill s = .next (s.finishCommand 0 0 0))) ∧
    (s.pendingCmd 0 0x106 = some c → plainArg c = true → c.arg < 2 ^ 32 →
      let w := BitVec.ofNat 32 c.arg
      (injValid w = false → exec .inject s = .next (s.finishCommand 0 1 0)) ∧
      (injValid w = true → ∃ xs, exec .inject s = .next (({ s with injects := xs } : State).finishCommand 0 0 0) ∧
        ∀ x, x ∈ xs ↔ (x = w &&& 0x7FFFFFFF ∧ w.getLsbD 31 = true) ∨ (x ∈ s.injects ∧ x ≠ w &&& 0x7FFFFFFF))) ∧
    (s.pendingCmd 0 0x107 = some c → plainArg c = true →
      (256 ≤ c.arg → exec .preempt s = .next (s.finishCommand 0 1 0)) ∧
      ∀ x quad, c.arg < 256 → s.parts[c.arg]? = some x → s.quads[c.arg / 4]? = some quad → quad.owner = none →
        s.handlers11 c.arg = false →
        (x.halt = .none ∨ x.halt = .requested ∨ (x.halt = .halted ∧ x.whole = false) → exec .preempt s = .next (({ s with
          parts := s.parts.set c.arg { x with halt := .requested, whole := true } } : State).finishCommand 0 0 0)) ∧
        (x.halt = .saved ∨ (x.halt = .halted ∧ x.whole = true) → exec .preempt s = .next (s.finishCommand 0 0 0)))

/-! ### Replicas, launches, grids (11 R273 to R280; 12 R288 to R294, R301; 14 R330 to R338) -/

/-- R273, R275 to R277, R280: a FREEZE in flight that can complete raises the counts and answers its fibres; replicas
are made, dropped and collected, those of this device leaving its L1s with them; a page with no replicas left ends its
thawing. That one with every count above 0 is Fixed then, not Owned, is read from the meanings that R276 gives the
states (log 32). Where it rests on the model's own choice, not on a rule: log 32, 33. -/
def Obligations.FixedStarEvents : Prop :=
  ∀ (s : State), s.dev = .running →
    (∀ k r w g bs id, s.freezes[k]? = some r → r.record = none → s.waves[r.wave]? = some w → s.gridOf w = some g →
      let base := r.base.toNat
      let size := r.size.toNat
      base + size ≤ 2 ^ 57 →
      (∀ n < size / 65536, ∃ p x, s.translate r.asid g.priv true needLoad (BitVec.ofNat 64 (base + 65536 * n)) = .ok p x) →
      s.rangeBlocks r.asid base size = some bs → (∀ x ∈ bs, (s.frozen.get x).toNat < 255) →
      (∀ p ∈ s.pages, p.st ≠ .thawing) → s.atomicIn bs = false →
      id < 65536 → (s.regionWord id).toNat % 4 = 0 → (∀ n < id, (s.regionWord n).toNat % 4 ≠ 0) →
      ∃ (t : State) (w' : Wave), exec (.freezeComplete k) s = .next t ∧ t.waves[r.wave]? = some w' ∧
        (∀ (l : Nat) (f : Fibre), w.fibres[l]? = some f → f.park.map (·.why) = some (.freeze r.num) →
          w'.fibres[l]? = some (f.setPair w.zen r.d.toNat (BitVec.ofNat 64 id)).resume) ∧
        (∀ x, (t.frozen.get x).toNat = (s.frozen.get x).toNat + if x ∈ bs then 1 else 0) ∧
        (∀ y ∈ t.freezes, y ∈ s.freezes ∧ y.num ≠ r.num) ∧ (Quiet s → t.mem = s.mem)) ∧
    (∀ n p dev, s.pages[n]? = some p →
      let own := s.devNum.toNat % 64
      let here := fun (x : L1Line) =>
        x.replica && decide (p.tgt.toNat ≤ x.line * 128 ∧ x.line * 128 < p.tgt.toNat + p.size)
      let held := dev ∈ p.reps ∨ dev = own ∧ ∃ x ∈ s.l1, here x = true
      let kept := if dev = own then s.l1.filter (fun x => !here x) else s.l1
      (dev = own ∨ (dev < 64 ∧ s.peers.getLsbD dev = true) → p.st ≠ .thawing → dev ∉ p.reps →
        (∃ b ∈ p.blocks, 0 < (s.frozen.get b).toNat) →
        exec (.replicaMake n dev) s = .next { s with pages := s.pages.set n { p with
          reps := p.reps ++ [dev], st := if p.st = .fixed then .readDup else p.st } }) ∧
      (held → p.st ≠ .thawing → exec (.replicaDrop n dev) s = .next { s with
        l1 := kept
        pages := s.pages.set n { p with
          reps := p.reps.erase dev, st := if p.st = .readDup ∧ p.reps.erase dev = [] then .fixed else p.st } }) ∧
      (held → p.st = .thawing → exec (.replicaCollect n dev) s = .next { s with
        l1 := kept
        pages := s.pages.set n { p with reps := p.reps.erase dev } })) ∧
    ∀ n p, s.pages[n]? = some p → p.st = .thawing → p.reps = [] →
      (∀ x ∈ s.l1, x.replica = true → x.line * 128 < p.tgt.toNat ∨ p.tgt.toNat + p.size ≤ x.line * 128) →
      ∃ t : State, exec (.thawComplete n) s = .next t ∧
        t.pages[n]? = some { p with
          st := if p.blocks.all (fun b => decide (0 < (s.frozen.get b).toNat)) then .fixed else .owned } ∧
        (∀ (j : Nat) (r : Region), s.regions[j]? = some r → r.st = 2 → r.thaw = [(p.asid, p.va)] →
          t.regions[j]? = some { r with st := 0, thaw := [] }) ∧
        t.mem = s.mem ∧ t.frozen = s.frozen

/-- R148, R290, R330, R331, R334 to R336, R339, R343: MAILBOX_MESSAGE, LAUNCH, TEAM_PLACEMENT and
SCRATCHPAD_ALLOTMENT_CLEARED complete in every state of a running device that meets their conditions. A message, of
the device, the host or a peer, joins its mailbox, is dropped by a full one, waits for a full fault mailbox, or goes
unheard; one under way to a command port or a peer gets there; one of a deterministic team comes after the team's
earlier ones; a mailbox's first message becomes a launch, running or refused; the distributor places the next team, or
a pre-empted one again, on the best core; and an allotment is cleared. Where it rests on the model's own choice, not
on a rule: log 7, 8, 50. -/
def Obligations.LaunchEvents : Prop :=
  ∀ (s : State), s.dev = .running →
    (∀ k f, s.flights[k]? = some f →
      let s0 : State := { s with flights := s.flights.eraseIdx k }
      let asid := fun (g : Nat) => ((s.grids[g]?).map (·.asid)).getD 0
      let behind := ∃ j < k, ∃ x, s.flights[j]? = some x ∧ ((f.team ≠ none ∧ x.team = f.team) ∨
        (f.sender ≠ none ∧ x.sender.map (·.1) = f.sender.map (·.1) ∧ (x.target = f.target ∨ s.flightCalled x = true)))
      (behind → exec (.mailboxMessage (.inFlight k)) s = .next s) ∧
      (¬ behind →
      (∀ n, f.target = .mailbox n → s.mailboxOf n = none → f.weight = none →
        exec (.mailboxMessage (.inFlight k)) s = .next { s0 with outputs := s.outputs ++
          [.report "message to an unbound mailbox" n ((f.words.headD 0).toNat % 256)] }) ∧
      (∀ n m, f.target = .mailbox n → s.mailboxOf n = some m →
        (m.pending.length + m.launched.length < m.slots →
          ∃ t m', exec (.mailboxMessage (.inFlight k)) s = .next t ∧ t.flights = s0.flights ∧ t.mailboxOf n = some m' ∧
            m' = { m with pending := m.pending ++ [{ words := f.words, weight := f.weight, seq := s.arrivals }] }) ∧
        (m.slots ≤ m.pending.length + m.launched.length → (∀ x ∈ s.spaces, x.mbx ≠ some n) →
          ∃ t m', exec (.mailboxMessage (.inFlight k)) s = .next t ∧ t.flights = s0.flights ∧ t.mailboxOf n = some m' ∧
            m' = { m with drops := m.drops + 1 }) ∧
        (m.slots ≤ m.pending.length + m.launched.length → (∃ x ∈ s.spaces, x.mbx = some n) →
          exec (.mailboxMessage (.inFlight k)) s = .next s)) ∧
      (∀ g, f.target = .mapping g → exec (.mailboxMessage (.inFlight k)) s = .next { s0 with commands := s.commands ++ [{
        queue := g + 2, words := f.words, asid := asid g, weight := f.weight, scan := none, done := none }] }) ∧
      (∀ g, f.target = .orrery g → exec (.mailboxMessage (.inFlight k)) s = .next { s0 with commands := s.commands ++ [{
        queue := 1, words := f.words, asid := asid g, weight := f.weight, scan := none, done := none }] }) ∧
      ∀ p m, f.target = .peer p m → f.weight = none → exec (.mailboxMessage (.inFlight k)) s = .next { s0 with
        outputs := s.outputs ++ if p < 64 ∧ s.peers.getLsbD p = true then [.toPeer p m f.words] else [] })) ∧
    (∀ n off bs m, s.mailboxOf n = some m → n < 4096 → off < 64 → bs ≠ [] → s.linkUp = true →
      (off + bs.length ≤ 64 → m.pending.length + m.launched.length < m.slots →
        let all := List.replicate off 0 ++ bs ++ List.replicate (64 - off - bs.length) 0
        ∃ t m', exec (.mailboxMessage (.host n off bs)) s = .next t ∧ t.mailboxOf n = some m' ∧
          m' = { m with pending := m.pending ++ [{ words := bytesDwords all 8, weight := none, seq := s.arrivals }] }) ∧
      (64 < off + bs.length → ∃ t m', exec (.mailboxMessage (.host n off bs)) s = .next t ∧ t.mailboxOf n = some m' ∧
        m' = { m with drops := m.drops + 1 })) ∧
    (∀ n ws m, s.mailboxOf n = some m → n < 4096 → m.pending.length + m.launched.length < m.slots →
      ∃ t m', exec (.mailboxMessage (.peer n ws)) s = .next t ∧ t.mailboxOf n = some m' ∧
        m' = { m with pending := m.pending ++ [{ words := wordsMessage ws, weight := none, seq := s.arrivals }] }) ∧
    (∀ n m x rest, s.mailboxOf n = some m → m.pending = x :: rest →
      ∃ (t : State) (g : Grid) (m' : Mailbox), exec (.launch n) s = .next t ∧ t.grids = s.grids ++ [g] ∧
        t.serial = s.serial + 1 ∧ t.mailboxOf n = some m' ∧ m'.pending = rest ∧ g.handle = s.serial ∧ g.asid = m.asid ∧
        g.prio = m.prio ∧ g.priv = m.priv ∧ g.mbx = m.num ∧ g.msg = x.words ∧ g.arrival = x.seq ∧
        g.isRoot = x.weight.isNone ∧
        (x.weight = none → g.phase = s.phases.length ∧ t.phases.length = s.phases.length + 1) ∧
        (∀ c, x.weight = some c → g.phase = c.phase ∧ t.phases.length = s.phases.length) ∧
        (g.stat = .running ∧ m'.launched = m.launched ++ [s.grids.length] ∨
          g.stat = .refused ∧ 0 < g.refusal ∧ m'.launched = m.launched) ∧
        (m.gridMode = true → g.gx = fieldAt (dwordBytes x.words) 8 4 ∧
          (s.readVa m.asid (BitVec.ofNat 64 (fieldAt (dwordBytes x.words) 0 8)) 64 = none →
            g.stat = .refused ∧ g.refusal = 1))) ∧
    (∀ tid tm g c, s.head = some (.again tid) → s.teams[tid]? = some tm → s.grids[tm.grid]? = some g →
      s.waveFirst g.prio = none → s.bestCore g (some tid) = some c →
      ∃ (t : State) (tm' : Team), exec .teamPlacement s = .next t ∧ t.requeue = s.requeue.erase tid ∧
        t.teams[tid]? = some tm' ∧ tm' = { tm with placed := true, core := c, saved := tm'.saved } ∧
        ∀ (n : Nat) (w : Wave), s.waves[n]? = some w → w.team = tid → w.zen = false → w.stat = .saved →
          ∃ w' : Wave, t.waves[n]? = some w' ∧ w' = { w with
            core := if tm.pair then c + w.idx / 8 % 2 else c
            stat := .arriving, age := s.placings, victims := w'.victims }) ∧
    (∀ k g c, s.head = some (.next k) → s.grids[k]? = some g → s.waveFirst g.prio = none → s.bestCore g none = some c →
      let zn := if g.zenEntry.isSome then 1 else 0
      ∃ (t : State) (tm : Team), exec .teamPlacement s = .next t ∧ t.teams = s.teams ++ [tm] ∧ tm.grid = k ∧
        tm.idx = g.advance ∧ tm.core = c ∧ tm.pair = g.pair ∧ tm.placed = true ∧ tm.cleared = false ∧ tm.scratch = [] ∧
        tm.waves = (List.range g.teamSize).map (s.waves.length + ·) ∧
        t.waves.length = s.waves.length + g.teamSize + zn ∧
        ∀ j < g.teamSize, ∃ w : Wave, t.waves[s.waves.length + j]? = some w ∧ w.team = s.teams.length ∧ w.idx = j ∧
          w.zen = false ∧ w.stat = .resident ∧ w.part = j % 8 ∧ w.core = (if g.pair then c + j / 8 % 2 else c) ∧
          w.width = g.width ∧ w.fibres.length = g.width ∧
          ∀ f ∈ w.fibres, f.live = true ∧ f.pc = g.entry ∧ f.regs.length = g.allot ∧ f.preds = 0 ∧ f.park = none ∧
            f.intrap = false) ∧
    ∀ (n : Nat) tm, s.teams[n]? = some tm →
      exec (.scratchpadAllotmentCleared n) s = .next { s with teams := s.teams.set n { tm with cleared := true } }

/-- R215, R276, R288 to R290, R294, R301, R337, R338: the holder of the turn releases its stage, but for a write to a
block of a page that is Thawing, which waits; an ended team passes the turn, once no message of it is under way; the
watchdog sends waiting fibres to trap 0x0F; a grid whose teams are over is done, or killed; a phase whose weight is
home ends with its root's status and message, a release at system scope. Where it rests on the model's own choice, not
on a rule: log 44, 49. -/
def Obligations.GridEvents : Prop :=
  ∀ (s : State), s.dev = .running →
    (∀ (n : Nat) tm g, s.teams[n]? = some tm → s.grids[tm.grid]? = some g → g.det = true → g.turn = tm.idx →
      tm.passed = false → tm.drain = none →
      (∀ key bs, tm.stage = [.store key bs] → s.frozenAt key = 0 → s.shadows = [] → s.linkUp = true →
        ∃ t : State, exec (.stageRelease n) s = .next t ∧
          t.mem = (if s.thawingAt key = true then s.mem else s.mem.writeN key bs) ∧
          ∃ tm' : Team, t.teams[n]? = some tm' ∧ tm'.stage = if s.thawingAt key = true then tm.stage else []) ∧
      (tm.stage = [] → tm.ended = true → s.teamAt tm.grid g.turn = some n →
        (∀ h ∈ s.homing, ∀ w, s.waves[h.1]? = some w → w.team ≠ n) → (∀ f ∈ s.flights, f.team ≠ some n) →
        ∃ t : State, exec (.stageRelease n) s = .next t ∧
          (∃ tm' : Team, t.teams[n]? = some tm' ∧ tm'.passed = true) ∧
          ∃ g' : Grid, t.grids[tm.grid]? = some g' ∧ g.turn < g'.turn) ∧
      (tm.ended = false → tm.lastRetire + 1000000 ≤ s.time.toNat →
        (∃ wid ∈ tm.waves, ∃ (w : Wave) (f : Fibre) (x : Monitor), s.waves[wid]? = some w ∧ f ∈ w.fibres ∧ f.live = true ∧
          f.park.map (·.why) = some (.monitor x)) →
        ∃ t : State, exec (.deterministicWatchdog n) s = .next t ∧
          (∃ g' : Grid, t.grids[tm.grid]? = some g' ∧ g' = { g with ow := true }) ∧
          ∀ wid ∈ tm.waves, ∀ (w : Wave) (l : Nat) (f : Fibre) (x : Monitor), s.waves[wid]? = some w →
            w.fibres[l]? = some f → f.live = true → f.park.map (·.why) = some (.monitor x) →
            ∃ w' : Wave, t.waves[wid]? = some w' ∧
              w'.fibres[l]? = some { f with park := none, due := f.due ++ [(0x0F, lo32 x.va)] })) ∧
    (∀ k g, s.grids[k]? = some g → g.stat = .running → g.total ≤ g.next → g.rootHome = true →
      (∀ t ∈ s.teams, t.grid = k → t.ended = true ∧ (g.det = true → t.passed = true)) →
      let g' := { g with stat := if g.total ≤ g.killed.length then .killed else .done }
      (g.isRoot = true → exec (.gridCompletion k) s = .next { s with grids := s.grids.set k g' }) ∧
      (g.isRoot = false → g.cstat = 0 →
        exec (.gridCompletion k) s = .next { s with grids := s.grids.set k { g' with final := true } }) ∧
      (∀ p, g.isRoot = false → g.cstat ≠ 0 → Quiet s → g.cstat.toNat < 2 ^ 57 →
        (∀ i < 128, s.findPage g.asid (g.cstat.toNat + i) = some p ∧ s.frozenAt (p.key (g.cstat.toNat + i)) = 0 ∧
          s.thawingAt (p.key (g.cstat.toNat + i)) = false ∧ s.codeAt (p.key (g.cstat.toNat + i)) = false) →
        ∃ m l, exec (.gridCompletion k) s = .next { s with
          grids := s.grids.set k { g' with final := true }
          hostMod := s.hostMod.filter fun l => s.lineCoh l != some 1
          mem := s.mem.writeN (p.key g.cstat.toNat) (g'.statusBytes s.time.toNat)
          modified := m
          leaders := l })) ∧
    ∀ (n : Nat) ph g, s.phases[n]? = some ph → s.grids[ph.grid]? = some g → ph.ended = false →
      ph.record = none → ph.returned = ph.expected → ph.buckets = [] → g.cstat = 0 →
      (∀ x ∈ s.grids, x.phase = n → x.stat ≠ .running ∧ x.stat ≠ .pending ∧ (x.isRoot = true ∨ x.final = true)) →
      exec (.phaseEnd n) s = .next { s with
        phases := s.phases.set n { ph with ended := true }
        grids := s.grids.set ph.grid { g with final := true }
        hostMod := if g.cmbx = 0xFFFF then s.hostMod else s.hostMod.filter fun l => s.lineCoh l != some 1
        flights := s.flights ++ if g.cmbx = 0xFFFF then [] else
          [{ target := .mailbox g.cmbx.toNat
             words := [0x41, g.cstat, BitVec.ofNat 64 (g.handle % 2 ^ 32), 0, 0, 0, 0, 0], weight := none, team := none,
             sender := none }] }

/-! ### Pre-emption, tests, power (02 R64; 13 R322 to R327; 16 R366 to R374) -/

/-- R322 to R327: a requested halt halts the waves outside a window, and is complete when none is left; halted waves
are saved and come back; a window that overruns sends its fibres to trap 0x0D; tests start, pass and fail; a halving
of the scores moves the load-issue limit (R64). Which waves a halt takes, those of the chosen teams or all of the
partition, is the model's choice (log 8). Where it rests on the model's own choice, not on a rule: log 8, 15, 17, 46,
54. -/
def Obligations.PartitionEvents : Prop :=
  ∀ (s : State) (p : Nat) (x : Part), s.dev = .running → s.parts[p]? = some x →
    let mine := fun (w : Wave) => w.zen = false ∧ 8 * w.core + w.part = p
    let asked := fun (w : Wave) => mine w ∧ w.stat = .resident ∧
      (x.whole = true ∨ ∃ tm, s.teams[w.team]? = some tm ∧ tm.evict = true)
    (∀ q, s.quads[p / 4]? = some q → q.owner = none → x.halt = .requested →
      ∃ t : State, exec (.partitionHalt p) s = .next t ∧
        (∀ (n : Nat) (w : Wave), s.waves[n]? = some w →
          (asked w → w.nopre = none → t.waves[n]? = some { w with stat := .halted }) ∧
          (¬ asked w ∨ w.nopre ≠ none → t.waves[n]? = some w)) ∧
        ((∃ w ∈ s.waves, asked w ∧ w.nopre ≠ none) → t.parts = s.parts) ∧
        ((∀ w ∈ s.waves, asked w → w.nopre = none) → t.parts = s.parts.set p { x with halt := .halted }) ∧
        t = { s with waves := t.waves, parts := t.parts }) ∧
    (∀ q, s.quads[p / 4]? = some q → q.owner = none → s.canSave p = true →
      ∃ t : State, exec (.contextSave p) s = .next t ∧
        (x.whole = true → ∃ x', t.parts[p]? = some x' ∧ x'.halt = .saved) ∧
        (x.whole = false → (∀ tm ∈ s.teams, tm.evict = false) → ∃ x', t.parts[p]? = some x' ∧ x'.halt = .none) ∧
        ∀ (n : Nat) (w : Wave), s.waves[n]? = some w → mine w → w.stat = .halted →
          t.waves[n]? = some { w with stat := .saved, score := 0, victims := [] }) ∧
    (s.canRestore p = true →
      ∃ t : State, exec (.contextRestore p) s = .next t ∧ (∃ x', t.parts[p]? = some x' ∧ x'.halt = .none) ∧
        ∀ (n : Nat) (w : Wave), n ∈ s.savedIn p → s.waves[n]? = some w →
          (∀ f ∈ w.fibres, ∀ m, f.park.map (·.why) ≠ some (.monitor m)) →
          t.waves[n]? = some { w with
            stat := .resident, streak := 0, waits := [], yielded := false, quota := if 32 ≤ w.quota then 32 else 0
            score := 0, victims := []
            fibres := w.fibres.map fun f =>
              if f.live = true ∧ f.mtrap = .saved then
                { f with mtrap := .restoring, due := (0x12, BitVec.ofNat 32 (p % 4)) :: f.due }
              else f }) ∧
    (∀ (n : Nat) (w : Wave) (b : NoPre), s.waves[n]? = some w → w.stat = .resident → w.nopre = some b →
      b.left = 0 ∨ b.until_ ≤ s.time.toNat →
      let v : Word := (if b.left = 0 then 1 else 0) + (if b.until_ ≤ s.time.toNat then 2 else 0)
      ∃ t : State, exec (.nopreOverrun n) s = .next t ∧ t.waves = s.waves.set n { w with
        nopre := none, stat := .halted
        fibres := w.fibres.map fun f => if f.live = true then { f with due := f.due ++ [(0x0D, v)] } else f }) ∧
    (x.inService = true → x.testing = false → x.bankTest = none → x.halt = .none →
      exec (.inFieldTest p) s =
        .next { s with parts := s.parts.set p { x with testing := true, led := x.led ||| 0x80 } } ∧
      ∀ b < 2, exec (.vesperBankTest p b) s = .next { s with parts := s.parts.set p { x with bankTest := some b } }) ∧
    (x.halt = .halted ∨ x.halt = .saved → ∀ ok, exec (.inFieldTestResult p ok) s = .next s) ∧
    (x.testing = true → x.halt ≠ .halted → x.halt ≠ .saved → exec (.inFieldTestResult p true) s = .next { s with
      parts := s.parts.set p { x with testing := false, led := 0 }, zenLed := s.zenLed.set (p / 8) false }) ∧
    (x.testing = false → x.bankTest ≠ none → x.halt ≠ .halted → x.halt ≠ .saved →
      exec (.inFieldTestResult p true) s = .next { s with parts := s.parts.set p { x with bankTest := none } }) ∧
    (x.testing = true ∨ x.bankTest ≠ none → x.halt ≠ .halted → x.halt ≠ .saved → ∃ (t : State) (x' : Part), exec (.inFieldTestResult p false) s = .next t ∧
      t.parts[p]? = some x' ∧ x'.inService = false ∧ x'.testing = false ∧ x'.bankTest = none ∧ x'.led = x.led &&& 0x7F ∧
      t.outputs.length = s.outputs.length + 1) ∧
    let ids := s.residents (p / 8) (p % 8)
    let score := fun (n : Nat) => (s.waves[n]?.map (·.score)).getD 0
    ∃ (t : State) (x' : Part), exec (.throttleHalving p) s = .next t ∧ t.parts[p]? = some x' ∧
      (∀ (n : Nat) (w : Wave), n ∈ ids → s.waves[n]? = some w → t.waves[n]? = some { w with score := w.score / 2 }) ∧
      x' = { x with limit := x'.limit } ∧
      ((∃ n ∈ ids, 32 ≤ score n) → 3 ≤ ids.length → x'.limit = max 2 (min x.limit ids.length - 1)) ∧
      ((∀ n ∈ ids, score n < 8) → x.limit < 32 → x'.limit = if ids.length ≤ x.limit + 1 then 32 else x.limit + 1) ∧
      (((∃ n ∈ ids, 32 ≤ score n) → ids.length < 3) → ((∀ n ∈ ids, score n < 8) → 32 ≤ x.limit) → x'.limit = x.limit)

/-- R366 to R374: what a sample, a level change, the power checks and the heat rule do to a cluster while no
deterministic grid is resident; while one is, no clock switches and no level changes (R302, R373). F is the floor, C
the cap, T the target; a raise starts with the voltage, and its clock switches later. Where it rests on the model's
own choice, not on a rule: log 39, 40, 47. -/
def Obligations.PowerEvents : Prop :=
  (∀ (s : State) (k : Nat), (∃ g ∈ s.grids, g.det = true ∧ g.stat = .running) →
    exec (.clockSwitch k) s = .next s ∧ exec (.levelChangeComplete k) s = .next s) ∧
  ∀ (s : State) (k : Nat) (c : Cluster), s.dev = .running → s.clusters[k]? = some c →
    (∀ g ∈ s.grids, g.det = false ∨ g.stat ≠ .running) →
    let now := s.time.toNat
    let put := fun (c' : Cluster) => { s with clusters := s.clusters.set k c' }
    let cap := fun (pr hr : Nat) => max c.floor (15 - pr - hr)
    (∀ (x : Sample) (r : Nat), c.nextSample ≤ now →
      (if c.busy = true ∨ ∃ w ∈ s.waves, w.zen = false ∧ w.core / 4 = k ∧ (w.stat = .resident ∨ w.stat = .halted)
        then r = max (c.stalls.1 * 256 / (32 * c.span)) (min x.ratio (c.stalls.2 * 256 / (32 * c.span))) else r = 0) →
      ∃ (t : State) (c' : Cluster), exec (.stallSample k x) s = .next t ∧ t.clusters = s.clusters.set k c' ∧
      c'.temp = x.temp ∧ c'.mv = x.mv ∧ c'.osc = x.osc ∧ c'.stall = r ∧ c'.level = c.level ∧ c'.clock = c.clock ∧
      c'.clk = c.clk ∧ c'.busy = false ∧ c'.shown = (c.level, c'.target) ∧ c'.floor = c.floor ∧ c'.pr = c.pr ∧
      c'.hold = c.hold ∧ c'.span = 0 ∧ c'.stalls = (0, 0) ∧ c'.bubble = c.bubble ∧
      now < c'.nextSample ∧ c'.nextSample ≤ now + 10000 ∧
      (840 ≤ x.temp.toInt → c'.hot = true ∧ c'.hr = min 15 (c.hr + 1)) ∧
      (x.temp.toInt < 800 → c'.hot = false ∧ c'.hr = c.hr) ∧
      (let C := cap c.pr c'.hr
       let T := min c.target C
       let free := ∀ t0, c.hold = some t0 → t0 ≤ now
       (free → 154 ≤ r → c'.target = max c.floor (min (T - 1) C)) ∧
       (free → r ≤ 51 → c'.target = max c.floor (min (T + 1) C)) ∧
       (free → 51 < r → r < 154 → c'.target = max c.floor T) ∧
       (¬ free → c'.target = T) ∧
       let u := if C < c.target ∧ C ≠ c.level then C else if free then c'.target else c.level
       (c.change = none → u = c.level → c'.change = none ∧ c'.volt = c.volt) ∧
       (c.change = none → u ≠ c.level → c'.change = some { target := u, start := now, switched := none, resynced := false } ∧
         c'.volt = max c.volt (levelMv u))) ∧
      (c.change ≠ none → c'.change = c.change ∧ c'.volt = c.volt) ∧
      (x.temp.toInt < 920 → t.dev = .running) ∧ (920 ≤ x.temp.toInt → t.dev = .fatal)) ∧
    (∀ h, c.change = some h →
      (h.switched = none → (h.target < c.level ∨ h.start < now → exec (.clockSwitch k) s =
          .next (put { c with change := some { h with switched := some now }, clock := levelMHz h.target })) ∧
        (c.level ≤ h.target → now ≤ h.start → exec (.clockSwitch k) s = .next s)) ∧
      (∀ t0, h.switched = some t0 → h.resynced = false → t0 + 500 ≤ now → exec (.crossingResync k) s =
        .next (put { c with change := some { h with resynced := true } })) ∧
      (h.resynced = true → exec (.levelChangeComplete k) s = .next (put { c with
        level := h.target
        volt := if c.target = h.target then levelMv h.target else max (levelMv h.target) (levelMv c.target)
        change := if c.target = h.target then none
          else some { target := c.target, start := now, switched := none, resynced := false } }))) ∧
    (∀ t0, c.hold = some t0 → t0 ≤ now → exec (.perfqHoldExpiry k) s = .next (put { c with hold := none })) ∧
    (∀ t0, 0 < c.hr → c.coolSince = some t0 → t0 + 1000000 ≤ now → exec (.heatReductionFall k) s =
      .next (put { c with hr := c.hr - 1, coolSince := some now })) ∧
    let done := fun (w : Nat) (t : State) => { t with nextCheck := (now / 1000000 + 1) * 1000000, watts := w }
    (∀ w, now < s.nextCheck → exec (.powerLimitCheck w) s = .next s) ∧
    (∀ w, s.nextCheck ≤ now → s.limit < w → c.floor < cap c.pr c.hr →
      (∀ (j : Nat) (y : Cluster), s.clusters[j]? = some y → y.floor < max y.floor (15 - y.pr - y.hr) →
        y.level < c.level ∨ (y.level = c.level ∧ k ≤ j)) →
      ∃ c' : Cluster, exec (.powerLimitCheck w) s = .next { done w (put c') with lowSince := none } ∧ c'.pr = min 15 (c.pr + 1) ∧
        c'.target = min c.target (cap (min 15 (c.pr + 1)) c.hr) ∧ c'.level = c.level ∧ c'.hr = c.hr) ∧
    (∀ w, s.nextCheck ≤ now → w ≤ s.limit → s.limit * 95 < w * 100 →
      exec (.powerLimitCheck w) s = .next { done w s with lowSince := none }) ∧
    (∀ w t0, s.nextCheck ≤ now → w ≤ s.limit → w * 100 ≤ s.limit * 95 → s.lowSince = some t0 → t0 + 10000000 ≤ now → 0 < c.pr →
      (∀ (j : Nat) (y : Cluster), s.clusters[j]? = some y → 0 < y.pr → y.pr < c.pr ∨ (y.pr = c.pr ∧ k ≤ j)) →
      exec (.powerLimitCheck w) s = .next (done w (put { c with pr := c.pr - 1 }))) ∧
    ∀ w, exec (.powerLimitSet w) s = .next
      (if w ≤ 2600 ∧ (s.isModule = true → 1000 ≤ w) then { s with limit := w } else s)

/-! ### The Orrery cluster (15 R345 to R362) -/

/-- An episode with a value in a0, which is x10 (R350). -/
def Sys2Proof.Machine.Episode.withA0 (e : Episode) (v : DWord) : Episode :=
  { e with hart := { e.hart with x := e.hart.x.set 10 v } }

/-- An episode behind an ECALL. -/
def Sys2Proof.Machine.Episode.called (e : Episode) : Episode := { e with hart := { e.hart with pc := e.hart.pc + 4 } }

/-- R347 to R356, R360 to R362: what each command of the control port answers and does; the calls of an episode that
runs on a core, by the function in its a7 and the argument in its a0, the ends of its waits and turns, what kills it,
its budget, and the posts of observations, which release at system scope. Where it rests on the model's own choice,
not on a rule: log 18, 34, 35. -/
def Obligations.Orrery : Prop :=
  (∀ (s : State) (c : Cmd), s.dev = .running →
    (s.pendingCmd 1 1 = some c →
      (epnewOk c = false ∨ (∀ x ∈ s.spaces, x.asid ≠ c.asid) → exec .epnew s = .next (s.finishCommand 1 1 0)) ∧
      (epnewOk c = true → (∃ x ∈ s.spaces, x.asid = c.asid) →
        ((∀ n < 4096, (s.episodeOf n).isSome = true) → exec .epnew s = .next (s.finishCommand 1 8 0)) ∧
        ∀ n < 4096, s.episodeOf n = none → (∀ j < n, (s.episodeOf j).isSome = true) →
          (s.allMapped c.asid c.va c.size = false → exec .epnew s = .next (s.finishCommand 1 3 0)) ∧
          (s.allMapped c.asid c.va c.size = true → exec .epnew s = .next (({ s with
            episodes := s.episodes ++ [newEpisode n c] } : State).finishCommand 1 0 (BitVec.ofNat 64 n))))) ∧
    (s.pendingCmd 1 2 = some c → onlyEpisode c = true →
      (s.episodeOf c.arg = none → exec .epgo s = .next (s.finishCommand 1 6 0)) ∧
      ∀ e, s.episodeOf c.arg = some e →
        (e.st ≠ .stopped → exec .epgo s = .next (s.finishCommand 1 6 0)) ∧
        (e.st = .stopped → ∃ (t : State) (e' : Episode), exec .epgo s = .next t ∧ t.answered 1 0 0 ∧
          t.episodeOf c.arg = some e' ∧ e' = { e with
            st := .running
            hart := { pc := 0x0000400000000000 + e.entry
                      x := (((List.replicate 32 0).set 10 (BitVec.ofNat 64 c.arg)).set 11 0x00007FFF00000000).set 2
                        (0x0000400000000000 + e.size)
                      f := List.replicate 32 0
                      v := List.replicate 32 0
                      fcsr := 0, vl := 0, vtype := 0x8000000000000000, vstart := 0, vcsr := 0 }
            clock := 0, active := e.budget, onCore := e'.onCore, ran := e'.ran })) ∧
    (s.pendingCmd 1 3 = some c → onlyEpisode c = true →
      (s.episodeOf c.arg = none → exec .epkill s = .next (s.finishCommand 1 1 0)) ∧
      ∀ e, s.episodeOf c.arg = some e →
        (e.st = .ended → exec .epkill s = .next (s.finishCommand 1 0 0)) ∧
        (e.st ≠ .ended → (s.pairs.map (·.num)).Nodup → (∀ y ∈ s.pairs, ∀ a ∈ y.ring, a.length = 64) →
          ∃ (t : State) (e' : Episode), exec .epkill s = .next t ∧
          t.answered 1 0 0 ∧ t.episodeOf c.arg = some e' ∧ e'.st = .ended ∧ e'.cause = 1 ∧ e'.code = 0 ∧ e'.onCore = false ∧
          ∀ y ∈ s.pairs, y.ep = c.arg → ∃ y' ∈ t.pairs, y'.num = y.num ∧ y'.ahead = y.atail ∧ y'.atail = y.atail ∧
            y'.obs.length = y.obs.length + y.unanswered ∧ ∀ o ∈ y'.obs.drop y.obs.length, o.status = 3)) ∧
    (s.pendingCmd 1 4 = some c → onlyEpisode c = true → ∀ e, s.episodeOf c.arg = some e →
      (e.st ≠ .ended ∨ (∃ y ∈ s.pairs, y.ep = e.num) → exec .epfree s = .next (s.finishCommand 1 6 0)) ∧
      (e.st = .ended → (∀ y ∈ s.pairs, y.ep ≠ e.num) → exec .epfree s = .next (({ s with
        episodes := s.episodes.filter (·.num != e.num) } : State).finishCommand 1 0
          (pair64 (BitVec.ofNat 32 e.cause) (lo32 e.code))))) ∧
    (s.pendingCmd 1 5 = some c → noWindow c = true → c.attr = 0 → bits c.arg 13 3 = 0 → bits c.arg 28 4 = 0 →
      bits c.arg 38 26 = 0 → (∃ x ∈ s.spaces, x.asid = c.asid) →
      let n := bits c.arg 0 13
      let ep := bits c.arg 16 12
      let slot := bits c.arg 32 6
      ((s.pairOf n).isSome = true → exec .pairbind s = .next (s.finishCommand 1 6 0)) ∧
      (s.pairOf n = none → (∃ y ∈ s.pairs, y.ep = ep ∧ y.slot = slot) →
        exec .pairbind s = .next (s.finishCommand 1 2 0)) ∧
      (s.pairOf n = none → (∀ y ∈ s.pairs, ¬ (y.ep = ep ∧ y.slot = slot)) →
        (s.episodeOf ep = none ∨ (∃ e, s.episodeOf ep = some e ∧ e.st = .ended) →
          exec .pairbind s = .next (s.finishCommand 1 6 0)) ∧
        ∀ e, s.episodeOf ep = some e → e.st ≠ .ended → exec .pairbind s = .next (({ s with
          pairs := s.pairs ++ [newPair n ep slot c.asid] } : State).finishCommand 1 0 0))) ∧
    (s.pendingCmd 1 6 = some c → noWindow c = true → c.asid = 0 → c.attr = 0 → c.arg < 8192 →
      (s.pairOf c.arg = none → exec .pairfree s = .next (s.finishCommand 1 1 0)) ∧
      ∀ y, s.pairOf c.arg = some y →
        (∀ e, s.episodeOf y.ep = some e → e.st ≠ .ended → exec .pairfree s = .next (s.finishCommand 1 6 0)) ∧
        (∀ e, s.episodeOf y.ep = some e → e.st = .ended → ∃ t : State, exec .pairfree s = .next t ∧ t.answered 1 0 0 ∧
          t.pairs = s.pairs.filter (·.num != c.arg) ∧
          ∀ (n l : Nat) (w : Wave) (f : Fibre) (x : StepWait), s.waves[n]? = some w → w.fibres[l]? = some f →
            f.park.map (·.why) = some (.steps x) → x.pair = c.arg →
            ∃ w' : Wave, t.waves[n]? = some w' ∧ w'.fibres[l]? = some (f.set w.zen x.d.toNat 10).resume)) ∧
    (s.pendingCmd 1 7 = some c → noWindow c = true → c.asid = 0 → c.attr < 2 ^ 48 → c.arg < 4096 →
      (s.episodeOf c.arg = none → exec .epbudget s = .next (s.finishCommand 1 1 0)) ∧
      ((s.episodeOf c.arg).isSome = true → exec .epbudget s = .next (({ s with
        episodes := s.episodes.map fun e => if e.num = c.arg then { e with budget := c.attr } else e } :
          State).finishCommand 1 0 0)))) ∧
  (∀ (s : State) (n : Nat) (e : Episode), s.dev = .running → s.episodeOf n = some e →
    (e.st = .running → e.onCore = true → e.waiting = none → e.record = none →
      let a7 := (e.hart.x.getD 17 0).toNat
      let a0 := e.hart.x.getD 10 0
      (∀ slot, a7 = 0 → s.pendingSlot n = some slot → ∃ (t : State) (e' : Episode),
        exec (.ecallWait n a0.toNat) s = .next t ∧ t.episodeOf n = some e' ∧ e' = e.called.withA0 (BitVec.ofNat 64 slot)) ∧
      (a7 = 0 → s.pendingSlot n = none → ∃ (t : State) (e' : Episode), exec (.ecallWait n a0.toNat) s = .next t ∧
        t.episodeOf n = some e' ∧ e' = { e.called with
          onCore := false, waiting := some (if a0 = 0 then none else some (s.time.toNat + a0.toNat)) }) ∧
      (a7 = 1 → ∃ (t : State) (e' : Episode), exec (.ecallExit n a0) s = .next t ∧ t.episodeOf n = some e' ∧
        e'.st = .ended ∧ e'.cause = 0 ∧ e'.code = a0 ∧ e'.onCore = false) ∧
      (∀ x, (a7 ≠ 0 ∨ x ≠ a0 → exec (.ecallWait n x.toNat) s = .next s) ∧
        (a7 ≠ 1 ∨ x ≠ a0 → exec (.ecallExit n x) s = .next s)) ∧
      (∀ i e0, i = Instr.ecallYield n ∧ a7 = 2 ∧ e0 = e.called ∨
          (i = .episodeQuantum n ∧ 1000000 ≤ e.ran ∧ s.ready ≠ [] ∧ e0 = e) →
        ∃ (t : State) (e' : Episode), exec i s = .next t ∧ t.episodeOf n = some e' ∧
          e' = { e0 with onCore := e'.onCore, ran := e'.ran } ∧
          (s.ready = [] → (s.episodes.filter (·.onCore)).length ≤ 128 → e'.onCore = true ∧ e'.ran = 0 ∧ t.ready = []) ∧
          ∀ r rest, s.ready = r :: rest → n ∉ s.ready → (s.episodes.map (·.num)).Nodup →
            (s.episodes.filter (·.onCore)).length = 128 → (∃ x, s.episodeOf r = some x ∧ x.onCore = false) →
            e'.onCore = false ∧ t.ready = rest ++ [n]) ∧
      (2 < a7 → exec (.ecallOther n) s = .next { s with
        episodes := s.episodes.map fun x => if x.num = n then x.called.withA0 0xFFFFFFFFFFFFFFFF else x })) ∧
    (∀ t0, e.waiting = some (some t0) → t0 ≤ s.time.toNat →
      ∃ (t : State) (e' : Episode), exec (.episodeWaitLimit n) s = .next t ∧ t.episodeOf n = some e' ∧
        e' = { e.withA0 0xFFFFFFFFFFFFFFFF with waiting := none, onCore := e'.onCore, ran := e'.ran }) ∧
    (∀ i, i = Instr.episodeAccessDenied n ∨ i = .episodeException n →
      e.st ≠ .running ∨ e.onCore = false ∨ e.waiting ≠ none ∨ e.record ≠ none → exec i s = .next s) ∧
    (e.st = .running → ∀ i cause, ((i = Instr.episodeAccessDenied n ∨ i = .episodeException n) ∧ cause = 1 ∧
          e.onCore = true ∧ e.waiting = none ∧ e.record = none) ∨
        (i = .stepWatchdog n ∧ cause = 2 ∧ 0 < e.active ∧ e.active ≤ e.clock) →
      ∃ (t : State) (e' : Episode), exec i s = .next t ∧ t.episodeOf n = some e' ∧ e'.st = .ended ∧ e'.cause = cause ∧
        e'.onCore = false ∧ e'.waiting = none) ∧
    (e.st = .running → e.active = 0 → exec (.stepWatchdog n) s = .next s) ∧
    ∀ k y, s.pairOf k = some y → y.ep = n → e.st = .running → e.onCore = true → e.waiting = none → e.record = none →
      let hit := y.unanswered ≠ 0 ∧ y.staging.take 8 = (y.action y.ahead.toNat).take 8
      ∃ (t : State) (y' : StepPair), exec (.observationPost k) s = .next t ∧ t.pairOf k = some y' ∧
        t.hostMod = s.hostMod.filter (fun l => s.lineCoh l != some 1) ∧
        (hit → y'.ahead = y.ahead + 1 ∧ y'.last = 1 ∧ y'.weights = y.weights.drop 1 ∧
          y'.obs = y.obs ++ [{ bytes := y.observation 0 s.time.toNat, weight := y.weights.head? }] ∧
          ∃ e' : Episode, t.episodeOf n = some e' ∧ e' = { e with clock := 0, active := e.budget }) ∧
        (¬ hit → y.sd < 16 → y' = { y with
          obs := y.obs ++ [{ bytes := y.observation 1 s.time.toNat, weight := none }], last := 2 }) ∧
        (¬ hit → 16 ≤ y.sd → y' = { y with sdrop := y.sdrop + 1, last := 3 }))

/-! ### The step, the words, the invariants -/

/-- R19, R28, R35, R36, R66: a step fetches the next word of the path whose turn it is, at its code base and index,
and runs what it decodes to, while no scan of its page or of its address's range is under way. Whose turn it is, is
the model's choice (log 1): a bundle in progress goes on, else the agenda names a path that may be chosen, else the
machine moves by itself (with an empty agenda after a tick, or at a moment that chip time may not pass), no event can
happen and a path is next. Around the instruction, the step elects the leader of the line that it fetches from (R267),
and restores what holds between steps (`State.settle`) and, where no wait ended the bundle, the list of paths that had
to wait (`State.retry`). Where it rests on the model's own choice, not on a rule: log 1. -/
def Obligations.StepRunsDecoded : Prop :=
  ∀ (s s1 : State) (back : State → State), s.dev = .running →
    ((s.bundle ≠ [] ∧ s1 = s ∧ back = s.retry) ∨
      (s.bundle = [] ∧ ∃ w pc rest, s.agenda = .issue w pc :: rest ∧ s.choosable w pc = true ∧
        back = ({ s with agenda := rest } : State).retry ∧
        s1 = { s with agenda := rest, cur := { wave := w, pc := pc } }) ∨
      (s.bundle = [] ∧ ∃ u, back = u.retry ∧
        (s.agenda = [] ∧ u = s.elapse 1 ∨ (∃ n rest, s.agenda = .tick n :: rest ∧ n ≠ 0 ∧ s.room n = 0) ∧ u = s) ∧
        u.autoEvent = none ∧ ∃ k w pc, u.nextPath = some (k, w, pc) ∧
          s1 = { u with cur := { wave := w, pc := pc }, turn := k + 1 })) →
    ∀ (w : Wave) (g : Grid) (p : Page) (key : Nat) (i : Instr),
      s1.waves[s1.cur.wave]? = some w → s1.gridOf w = some g → s1.dueLanes w = [] →
      s1.translate g.asid g.priv false needFetch
        (g.codeBase + BitVec.ofNat 64 (4 * (s1.cur.pc + BitVec.ofNat 24 s1.bundle.length).toNat)) = .ok p key →
      s1.becoming g.asid
        (g.codeBase + BitVec.ofNat 64 (4 * (s1.cur.pc + BitVec.ofNat 24 s1.bundle.length).toNat)).toNat = false →
      s1.scanning key = false → decode (s1.wordAt key) = some i →
      let va := g.codeBase + BitVec.ofNat 64 (4 * (s1.cur.pc + BitVec.ofNat 24 s1.bundle.length).toNat)
      let hs := s1.bundle.map encode
      let runs := fun (j : Instr) => step s =
        (match exec j (s1.leadVia p va.toNat key) with
          | .next t => .next (s.settle (back t)) | .fault e => .fault e | .refused r => .refused r)
      (isHintWord (s1.wordAt key) = true → hs.length < 3 → hintKind (s1.wordAt key) ∉ hs.map hintKind → runs i) ∧
      (isHintWord (s1.wordAt key) = false → runs (s1.refine i))

/-- R19, R22 to R34: words written out from the tables of the spec, and the instructions that they stand for; words of
the reserved classes stand for none. -/
def Obligations.DecodeWords : Prop :=
  decodeTableWord 32 0x72410830 = some (.iadd 7 1 2 3) ∧
  decodeTableWord 32 0x32841464 = some (.iaddi 3 4 5 100) ∧
  decodeTableWord 32 0x73841607 = some (.shfi 7 4 5 .sar 7) ∧
  decodeTableWord 32 0x7541083A = some (.sel 7 1 2 3 true 2) ∧
  decodeTableWord 32 0x758A1052 = some (.icmp 7 1 2 4 5 .lt) ∧
  decodeTableWord 32 0x70000002 = some (.rte 7) ∧
  decodeTableWord 32 0x7000005A = some (.livetile 7 5) ∧
  decodeTableWord 32 0x70400003 = some (.bra 7 3) ∧
  decodeTableWord 32 0xF0000123 = some (.ximm 0x123) ∧
  decodeTableWord 32 0xF2000001 = some (.mod false false false false .rtz) ∧
  decodeTableWord 32 0x7E800000 = none ∧ decodeTableWord 32 0x7000000C = none ∧ decodeTableWord 32 0xF5000000 = none

/-- R19 to R34: the word of a well-formed instruction decodes to it, every operand included. -/
def Obligations.EncodeDecode : Prop := ∀ i : Instr, i.wf = true → i.isWord = true → decode (encode i) = some i

/-- R42, R43, R64, R182, R183: every step keeps the canonical form of the memory lists, that of global memory and
those of the scratchpads, and that every name of an unfinished wave instruction is one given out before; after every
step, a lowered load-issue limit lies below the number of resident waves, and a frozen quad has a pre-emption under
way in a partition, positions whose state has left it, a wave of its team away, or a handler of trap 0x12. -/
def Obligations.StepInvariant : Prop :=
  ∀ (s s' : State), step s = .next s' →
    (s.canonical → s'.canonical) ∧
    ((∀ w ∈ s.waves, w.named s.freeCtr) → ∀ w ∈ s'.waves, w.named s'.freeCtr) ∧
    (∀ (n : Nat) (x : Part), s'.parts[n]? = some x → x.limit < 32 → x.limit < (s'.residents (n / 8) (n % 8)).length) ∧
    ∀ (n : Nat) (q : Quad), s'.quads[n]? = some q → q.frozen = true →
      (∃ (k : Nat) (x : Part), k < 4 ∧ s'.parts[4 * n + k]? = some x ∧ x.halt ≠ .none) ∨ q.out ≠ [] ∨
      (∃ w ∈ s'.waves, w.zen = false ∧ w.quadIndex = n ∧ q.owner = some w.team ∧
        (w.stat = .saved ∨ w.stat = .halted ∨ w.stat = .arriving)) ∨
      (∃ w ∈ s'.waves, ∃ f ∈ w.fibres, w.zen = false ∧ w.quadIndex = n ∧ q.owner = some w.team ∧ w.stat ≠ .ended ∧
        f.live = true ∧ (f.mtrap = .restoring ∨ f.mtrap = .saved))

/-- R64, R159, R253, R309, R340, R366, R372, R374: what reset leaves, as far as the spec gives it; and the invariants
of `StepInvariant` and the canonical form of memory hold there. Where it rests on the model's own choice, not on a
rule: log 4. -/
def Obligations.ResetState : Prop :=
  let s := State.reset
  s.parts.length = 256 ∧ s.quads.length = 64 ∧ s.clusters.length = 8 ∧ s.watches.length = 256 ∧
  (∀ x ∈ s.parts, x.limit = 32 ∧ x.cnt = 0 ∧ x.led = 0 ∧ x.halt = .none ∧ x.inService = true) ∧
  (∀ q ∈ s.quads, q.frozen = false ∧ q.pipe = [] ∧ q.failed = [] ∧ (∀ e, q.acc.get e = 0) ∧
    ∀ c ∈ q.conv, c.set = [] ∧ c.remaining = 0) ∧
  (∀ c ∈ s.clusters, c.level = 15 ∧ c.target = 15 ∧ c.pr = 0 ∧ c.hr = 0 ∧ c.hot = false ∧ c.stall = 0) ∧
  (∀ x ∈ s.watches, x.en = false ∧ x.fired = false ∧ x.err = false ∧ x.seq = 0) ∧
  s.ring.en = false ∧ s.ring.err = false ∧ s.ring.head = 0 ∧ s.ring.tail = 0 ∧
  s.waves = [] ∧ s.teams = [] ∧ s.grids = [] ∧ s.mailboxes = [] ∧ s.spaces = [] ∧ s.pages = [] ∧ s.records = [] ∧
  s.episodes = [] ∧ s.pairs = [] ∧ s.windows = [] ∧ s.l1 = [] ∧ s.poison = [] ∧ s.canonical ∧
  ∀ w ∈ s.waves, w.named s.freeCtr
end

