-- ==== Sys2Proof/Laws/Encode.lean ====
section
/-! SUPPORT. The fields of a word from its layout, and what the decoder reads from a laid-out word (01 R19, R22). -/

namespace Sys2Proof

/-- Concatenation as a number. -/
theorem toNat_append_eq {m n : Nat} (x : BitVec m) (y : BitVec n) : (x ++ y).toNat = x.toNat * 2 ^ n + y.toNat := by
  rw [BitVec.toNat_append, ← Nat.shiftLeft_add_eq_or_of_lt y.isLt, Nat.shiftLeft_eq]

section
variable (g : Guard) (maj d a b : BitVec 6) (f : BitVec 4) (low : BitVec 10)

theorem toNat_layout : (layout g maj d a low).toNat =
    (((g.toNat * 64 + maj.toNat) * 64 + d.toNat) * 64 + a.toNat) * 1024 + low.toNat := by
  unfold layout
  erw [toNat_append_eq, toNat_append_eq, toNat_append_eq, toNat_append_eq]
  omega

@[simp] theorem guardOf_layout : guardOf (layout g maj d a low) = g := by
  have := g.isLt; have := maj.isLt; have := d.isLt; have := a.isLt; have := low.isLt
  apply BitVec.eq_of_toNat_eq
  rw [guardOf, BitVec.extractLsb'_toNat, toNat_layout, Nat.shiftRight_eq_div_pow]
  omega

@[simp] theorem majorOf_layout : majorOf (layout g maj d a low) = maj := by
  have := g.isLt; have := maj.isLt; have := d.isLt; have := a.isLt; have := low.isLt
  apply BitVec.eq_of_toNat_eq
  rw [majorOf, BitVec.extractLsb'_toNat, toNat_layout, Nat.shiftRight_eq_div_pow]
  omega

@[simp] theorem dOf_layout : dOf (layout g maj d a low) = d := by
  have := g.isLt; have := maj.isLt; have := d.isLt; have := a.isLt; have := low.isLt
  apply BitVec.eq_of_toNat_eq
  rw [dOf, BitVec.extractLsb'_toNat, toNat_layout, Nat.shiftRight_eq_div_pow]
  omega

@[simp] theorem aOf_layout : aOf (layout g maj d a low) = a := by
  have := g.isLt; have := maj.isLt; have := d.isLt; have := a.isLt; have := low.isLt
  apply BitVec.eq_of_toNat_eq
  rw [aOf, BitVec.extractLsb'_toNat, toNat_layout, Nat.shiftRight_eq_div_pow]
  omega

@[simp] theorem lowOf_layout : lowOf (layout g maj d a low) = low := by
  have := low.isLt
  apply BitVec.eq_of_toNat_eq
  rw [lowOf, BitVec.extractLsb'_toNat, toNat_layout, Nat.shiftRight_eq_div_pow]
  omega

theorem toNat_rLow : (rLow b f).toNat = b.toNat * 16 + f.toNat := by
  unfold rLow
  erw [toNat_append_eq]
  omega

@[simp] theorem bOf_rLow : bOf (rLow b f) = b := by
  have := b.isLt; have := f.isLt
  apply BitVec.eq_of_toNat_eq
  rw [bOf, BitVec.extractLsb'_toNat, toNat_rLow, Nat.shiftRight_eq_div_pow]
  omega

@[simp] theorem fOf_rLow : fOf (rLow b f) = f := by
  have := f.isLt
  apply BitVec.eq_of_toNat_eq
  rw [fOf, BitVec.extractLsb'_toNat, toNat_rLow, Nat.shiftRight_eq_div_pow]
  omega

/-- What the decoder reads from an ordinary word is its parts. -/
theorem decode_layout (h : g ≠ 0xF#4) : decode (layout g maj d a low) = decodeOrdinary g maj.toNat d a low := by
  simp [decode, h]

end

end Sys2Proof
end

