-- ==== Sys2Proof/Laws/Fields.lean ====
section
/-! SUPPORT. The fields that an encoding packs into d, a, b and f, and how the decoder reads them back (01 R22 to R34,
R25). -/

namespace Sys2Proof

section
variable (g : Guard) (m : Nat) (maj d a b : BitVec 6) (f : BitVec 4)

theorem decode_encR (h : g ≠ 0xF#4) : decode (encR g maj d a b f) = decodeOrdinary g maj.toNat d a (rLow b f) :=
  decode_layout g maj d a _ h

/-- A major of the R format reads its low bits as b and f. -/
theorem major (r : BitVec 6 → BitVec 4 → Option Instr)
    (h : decodeOrdinary g m d a (rLow b f) = r (bOf (rLow b f)) (fOf (rLow b f))) :
    decodeOrdinary g m d a (rLow b f) = r b f := by
  rw [h, bOf_rLow, fOf_rLow]

theorem major00 : decodeOrdinary g (0x00#6).toNat d a (rLow b f) = decodeSys g d a (rLow b f) := rfl
theorem major03 : decodeOrdinary g (0x03#6).toNat d a (rLow b f) =
    (fun (b : BitVec 6) (f : BitVec 4) =>
    match f.toNat with
    | 0 => only (d == 0#6 && b == 0#6) (.jmpi g a)
    | 1 => only (d == 0#6) (.calli g a b)
    | 2 => only (d == 0#6 && a == 0#6 && b == 0#6) (.ret g)
    | _ => none) b f :=
  major g (0x03#6).toNat d a b f (fun (b : BitVec 6) (f : BitVec 4) =>
    match f.toNat with
    | 0 => only (d == 0#6 && b == 0#6) (.jmpi g a)
    | 1 => only (d == 0#6) (.calli g a b)
    | 2 => only (d == 0#6 && a == 0#6 && b == 0#6) (.ret g)
    | _ => none) rfl
theorem major05 : decodeOrdinary g (0x05#6).toNat d a (rLow b f) =
    (fun (b : BitVec 6) (f : BitVec 4) =>
    if d.extractLsb' 0 2 == 0#2 && a == 0#6 && b == 0#6 then
      match f.toNat with
      | 0 => some (.join g (d.extractLsb' 2 4)) | 1 => some (.waitj g (d.extractLsb' 2 4))
      | 2 => some (.jclr g (d.extractLsb' 2 4)) | _ => none
    else none) b f :=
  major g (0x05#6).toNat d a b f (fun (b : BitVec 6) (f : BitVec 4) =>
    if d.extractLsb' 0 2 == 0#2 && a == 0#6 && b == 0#6 then
      match f.toNat with
      | 0 => some (.join g (d.extractLsb' 2 4)) | 1 => some (.waitj g (d.extractLsb' 2 4))
      | 2 => some (.jclr g (d.extractLsb' 2 4)) | _ => none
    else none) rfl
theorem major08 : decodeOrdinary g (0x08#6).toNat d a (rLow b f) =
    (fun (b : BitVec 6) (f : BitVec 4) =>
    match f.toNat with
    | 0 => only (a == 0#6 && b == 0#6) (.popd g d)
    | 1 => some (.dpush g d a b)
    | 2 => only (b == 0#6) (.dcnt g d a)
    | _ => none) b f :=
  major g (0x08#6).toNat d a b f (fun (b : BitVec 6) (f : BitVec 4) =>
    match f.toNat with
    | 0 => only (a == 0#6 && b == 0#6) (.popd g d)
    | 1 => some (.dpush g d a b)
    | 2 => only (b == 0#6) (.dcnt g d a)
    | _ => none) rfl
theorem major09 : decodeOrdinary g (0x09#6).toNat d a (rLow b f) =
    (fun (b : BitVec 6) (f : BitVec 4) =>
    decodeIalu g d a b f.toNat) b f :=
  major g (0x09#6).toNat d a b f (fun (b : BitVec 6) (f : BitVec 4) =>
    decodeIalu g d a b f.toNat) rfl
theorem major11 : decodeOrdinary g (0x11#6).toNat d a (rLow b f) =
    (fun (b : BitVec 6) (f : BitVec 4) =>
    decodeImul g d a b f.toNat) b f :=
  major g (0x11#6).toNat d a b f (fun (b : BitVec 6) (f : BitVec 4) =>
    decodeImul g d a b f.toNat) rfl
theorem major12 : decodeOrdinary g (0x12#6).toNat d a (rLow b f) =
    (fun (b : BitVec 6) (f : BitVec 4) =>
    decodeIbit g d a b f.toNat) b f :=
  major g (0x12#6).toNat d a b f (fun (b : BitVec 6) (f : BitVec 4) =>
    decodeIbit g d a b f.toNat) rfl
theorem major13 : decodeOrdinary g (0x13#6).toNat d a (rLow b f) =
    (fun (b : BitVec 6) (f : BitVec 4) =>
    decodeI64 g d a b f.toNat) b f :=
  major g (0x13#6).toNat d a b f (fun (b : BitVec 6) (f : BitVec 4) =>
    decodeI64 g d a b f.toNat) rfl
theorem major14 : decodeOrdinary g (0x14#6).toNat d a (rLow b f) =
    (fun (b : BitVec 6) (f : BitVec 4) =>
    decodeMovx g d a b f.toNat) b f :=
  major g (0x14#6).toNat d a b f (fun (b : BitVec 6) (f : BitVec 4) =>
    decodeMovx g d a b f.toNat) rfl
theorem major15 : decodeOrdinary g (0x15#6).toNat d a (rLow b f) =
    (fun (b : BitVec 6) (f : BitVec 4) =>
    some (.sel g d a b (f.getLsbD 3) (f.extractLsb' 0 3))) b f :=
  major g (0x15#6).toNat d a b f (fun (b : BitVec 6) (f : BitVec 4) =>
    some (.sel g d a b (f.getLsbD 3) (f.extractLsb' 0 3))) rfl
theorem major16 : decodeOrdinary g (0x16#6).toNat d a (rLow b f) =
    (fun (b : BitVec 6) (f : BitVec 4) =>
    (ICond.ofCode f).map (.icmp g (d.extractLsb' 3 3) (d.extractLsb' 0 3) a b)) b f :=
  major g (0x16#6).toNat d a b f (fun (b : BitVec 6) (f : BitVec 4) =>
    (ICond.ofCode f).map (.icmp g (d.extractLsb' 3 3) (d.extractLsb' 0 3) a b)) rfl
theorem major17 : decodeOrdinary g (0x17#6).toNat d a (rLow b f) =
    (fun (b : BitVec 6) (f : BitVec 4) =>
    (FCond.ofCode f).map (.fcmp g (d.extractLsb' 3 3) (d.extractLsb' 0 3) a b)) b f :=
  major g (0x17#6).toNat d a b f (fun (b : BitVec 6) (f : BitVec 4) =>
    (FCond.ofCode f).map (.fcmp g (d.extractLsb' 3 3) (d.extractLsb' 0 3) a b)) rfl
theorem major18 : decodeOrdinary g (0x18#6).toNat d a (rLow b f) =
    (fun (b : BitVec 6) (f : BitVec 4) =>
    if a.extractLsb' 3 3 == 0#3 && b.extractLsb' 3 3 == 0#3 then
      (PlopOp.ofCode f).map
        (.plop g (d.extractLsb' 3 3) (d.extractLsb' 0 3) (a.extractLsb' 0 3) (b.extractLsb' 0 3))
    else none) b f :=
  major g (0x18#6).toNat d a b f (fun (b : BitVec 6) (f : BitVec 4) =>
    if a.extractLsb' 3 3 == 0#3 && b.extractLsb' 3 3 == 0#3 then
      (PlopOp.ofCode f).map
        (.plop g (d.extractLsb' 3 3) (d.extractLsb' 0 3) (a.extractLsb' 0 3) (b.extractLsb' 0 3))
    else none) rfl
theorem major19 : decodeOrdinary g (0x19#6).toNat d a (rLow b f) =
    (fun (b : BitVec 6) (f : BitVec 4) =>
    decodeFadd g d a b f) b f :=
  major g (0x19#6).toNat d a b f (fun (b : BitVec 6) (f : BitVec 4) =>
    decodeFadd g d a b f) rfl
theorem major1A : decodeOrdinary g (0x1A#6).toNat d a (rLow b f) =
    (fun (b : BitVec 6) (f : BitVec 4) =>
    decodeFmul g d a b f) b f :=
  major g (0x1A#6).toNat d a b f (fun (b : BitVec 6) (f : BitVec 4) =>
    decodeFmul g d a b f) rfl
theorem major1B : decodeOrdinary g (0x1B#6).toNat d a (rLow b f) =
    (fun (b : BitVec 6) (f : BitVec 4) =>
    decodeFma g d a b f) b f :=
  major g (0x1B#6).toNat d a b f (fun (b : BitVec 6) (f : BitVec 4) =>
    decodeFma g d a b f) rfl
theorem major1C : decodeOrdinary g (0x1C#6).toNat d a (rLow b f) =
    (fun (b : BitVec 6) (f : BitVec 4) =>
    decodeFmnx g d a b f) b f :=
  major g (0x1C#6).toNat d a b f (fun (b : BitVec 6) (f : BitVec 4) =>
    decodeFmnx g d a b f) rfl
theorem major1E : decodeOrdinary g (0x1E#6).toNat d a (rLow b f) =
    (fun (b : BitVec 6) (f : BitVec 4) =>
    decodeSfu g d a b f.toNat) b f :=
  major g (0x1E#6).toNat d a b f (fun (b : BitVec 6) (f : BitVec 4) =>
    decodeSfu g d a b f.toNat) rfl
theorem major1F : decodeOrdinary g (0x1F#6).toNat d a (rLow b f) =
    (fun (b : BitVec 6) (f : BitVec 4) =>
    (ShflMode.ofCode f).map (.shfl g d a b)) b f :=
  major g (0x1F#6).toNat d a b f (fun (b : BitVec 6) (f : BitVec 4) =>
    (ShflMode.ofCode f).map (.shfl g d a b)) rfl
theorem major20 : decodeOrdinary g (0x20#6).toNat d a (rLow b f) =
    (fun (b : BitVec 6) (f : BitVec 4) =>
    decodeVote g d a b f.toNat) b f :=
  major g (0x20#6).toNat d a b f (fun (b : BitVec 6) (f : BitVec 4) =>
    decodeVote g d a b f.toNat) rfl
theorem major21 : decodeOrdinary g (0x21#6).toNat d a (rLow b f) =
    (fun (b : BitVec 6) (f : BitVec 4) =>
    if b == 0#6 then
      (ScanOp.ofCode (f.getLsbD 3) (f.extractLsb' 0 2)).map fun o => .scan g d a o (f.getLsbD 2)
    else none) b f :=
  major g (0x21#6).toNat d a b f (fun (b : BitVec 6) (f : BitVec 4) =>
    if b == 0#6 then
      (ScanOp.ofCode (f.getLsbD 3) (f.extractLsb' 0 2)).map fun o => .scan g d a o (f.getLsbD 2)
    else none) rfl
theorem major22 : decodeOrdinary g (0x22#6).toNat d a (rLow b f) =
    (fun (b : BitVec 6) (f : BitVec 4) =>
    if b == 0#6 && !f.getLsbD 2 then
      (ScanOp.ofCode (f.getLsbD 3) (f.extractLsb' 0 2)).map (.wred g d a)
    else none) b f :=
  major g (0x22#6).toNat d a b f (fun (b : BitVec 6) (f : BitVec 4) =>
    if b == 0#6 && !f.getLsbD 2 then
      (ScanOp.ofCode (f.getLsbD 3) (f.extractLsb' 0 2)).map (.wred g d a)
    else none) rfl
theorem major23 : decodeOrdinary g (0x23#6).toNat d a (rLow b f) =
    (fun (b : BitVec 6) (f : BitVec 4) =>
    some (.dist g d a b (DistTy.ofCode (f.extractLsb' 2 2)) (DistMetric.ofCode (f.extractLsb' 0 2)))) b f :=
  major g (0x23#6).toNat d a b f (fun (b : BitVec 6) (f : BitVec 4) =>
    some (.dist g d a b (DistTy.ofCode (f.extractLsb' 2 2)) (DistMetric.ofCode (f.extractLsb' 0 2)))) rfl
theorem major24 : decodeOrdinary g (0x24#6).toNat d a (rLow b f) =
    (fun (b : BitVec 6) (f : BitVec 4) =>
    only (f.extractLsb' 1 3 == 0#3) (.topk g d a b (f.getLsbD 0))) b f :=
  major g (0x24#6).toNat d a b f (fun (b : BitVec 6) (f : BitVec 4) =>
    only (f.extractLsb' 1 3 == 0#3) (.topk g d a b (f.getLsbD 0))) rfl
theorem major27 : decodeOrdinary g (0x27#6).toNat d a (rLow b f) =
    (fun (b : BitVec 6) (f : BitVec 4) =>
    (AtomsOp.ofCode f).map (.atoms g d a b)) b f :=
  major g (0x27#6).toNat d a b f (fun (b : BitVec 6) (f : BitVec 4) =>
    (AtomsOp.ofCode f).map (.atoms g d a b)) rfl
theorem major28 : decodeOrdinary g (0x28#6).toNat d a (rLow b f) =
    (fun (b : BitVec 6) (f : BitVec 4) =>
    decodeBar g d a b f.toNat) b f :=
  major g (0x28#6).toNat d a b f (fun (b : BitVec 6) (f : BitVec 4) =>
    decodeBar g d a b f.toNat) rfl
theorem major2F : decodeOrdinary g (0x2F#6).toNat d a (rLow b f) =
    (fun (b : BitVec 6) (f : BitVec 4) =>
    match f.toNat with
    | 0 => only (d == 0#6) (.scatb g a b)
    | 1 => only (b == 0#6) (.scatf g d a)
    | _ => none) b f :=
  major g (0x2F#6).toNat d a b f (fun (b : BitVec 6) (f : BitVec 4) =>
    match f.toNat with
    | 0 => only (d == 0#6) (.scatb g a b)
    | 1 => only (b == 0#6) (.scatf g d a)
    | _ => none) rfl
theorem major30 : decodeOrdinary g (0x30#6).toNat d a (rLow b f) =
    (fun (b : BitVec 6) (f : BitVec 4) =>
    decodeQop g d a b f.toNat) b f :=
  major g (0x30#6).toNat d a b f (fun (b : BitVec 6) (f : BitVec 4) =>
    decodeQop g d a b f.toNat) rfl
theorem major32 : decodeOrdinary g (0x32#6).toNat d a (rLow b f) =
    (fun (b : BitVec 6) (f : BitVec 4) =>
    only (d == 0#6 && b == 0#6 && f == 0#4) (.sleept g a)) b f :=
  major g (0x32#6).toNat d a b f (fun (b : BitVec 6) (f : BitVec 4) =>
    only (d == 0#6 && b == 0#6 && f == 0#4) (.sleept g a)) rfl
theorem major33 : decodeOrdinary g (0x33#6).toNat d a (rLow b f) =
    (fun (b : BitVec 6) (f : BitVec 4) =>
    if d.extractLsb' 3 3 == 0#3 then
      match f.toNat with
      | 0 => some (.signset g (d.extractLsb' 0 3) a b)
      | 1 => only (a == 0#6 && b == 0#6) (.signclr g (d.extractLsb' 0 3))
      | _ => none
    else none) b f :=
  major g (0x33#6).toNat d a b f (fun (b : BitVec 6) (f : BitVec 4) =>
    if d.extractLsb' 3 3 == 0#3 then
      match f.toNat with
      | 0 => some (.signset g (d.extractLsb' 0 3) a b)
      | 1 => only (a == 0#6 && b == 0#6) (.signclr g (d.extractLsb' 0 3))
      | _ => none
    else none) rfl
theorem major34 : decodeOrdinary g (0x34#6).toNat d a (rLow b f) =
    (fun (b : BitVec 6) (f : BitVec 4) =>
    (MmqTy.ofCode f).map (.mmq g (d.extractLsb' 3 3) (d.extractLsb' 0 3) a b)) b f :=
  major g (0x34#6).toNat d a b f (fun (b : BitVec 6) (f : BitVec 4) =>
    (MmqTy.ofCode f).map (.mmq g (d.extractLsb' 3 3) (d.extractLsb' 0 3) a b)) rfl
theorem major35 : decodeOrdinary g (0x35#6).toNat d a (rLow b f) =
    (fun (b : BitVec 6) (f : BitVec 4) =>
    decodeAcc g d a b f.toNat) b f :=
  major g (0x35#6).toNat d a b f (fun (b : BitVec 6) (f : BitVec 4) =>
    decodeAcc g d a b f.toNat) rfl
theorem major36 : decodeOrdinary g (0x36#6).toNat d a (rLow b f) =
    (fun (b : BitVec 6) (f : BitVec 4) =>
    if b == 0#6 then
      match f.toNat with
      | 0 => only (d == 0#6) (.mdrain g a) | 1 => only (d == 0#6) (.mrest g a) | 2 => some (.mstat g d a)
      | _ => none
    else none) b f :=
  major g (0x36#6).toNat d a b f (fun (b : BitVec 6) (f : BitVec 4) =>
    if b == 0#6 then
      match f.toNat with
      | 0 => only (d == 0#6) (.mdrain g a) | 1 => only (d == 0#6) (.mrest g a) | 2 => some (.mstat g d a)
      | _ => none
    else none) rfl
theorem major37 : decodeOrdinary g (0x37#6).toNat d a (rLow b f) =
    (fun (b : BitVec 6) (f : BitVec 4) =>
    match f.toNat with
    | 0 => some (.freeze g d a b)
    | 1 => only (b == 0#6) (.thaw g d a)
    | 2 => only (b == 0#6) (.fquery g d a)
    | _ => none) b f :=
  major g (0x37#6).toNat d a b f (fun (b : BitVec 6) (f : BitVec 4) =>
    match f.toNat with
    | 0 => some (.freeze g d a b)
    | 1 => only (b == 0#6) (.thaw g d a)
    | 2 => only (b == 0#6) (.fquery g d a)
    | _ => none) rfl
theorem major38 : decodeOrdinary g (0x38#6).toNat d a (rLow b f) =
    (fun (b : BitVec 6) (f : BitVec 4) =>
    if d == 0#6 && a == 0#6 && b == 0#6 then
      match f.toNat with | 0 => some (.tokw g) | 1 => some (.tokp g) | _ => none
    else none) b f :=
  major g (0x38#6).toNat d a b f (fun (b : BitVec 6) (f : BitVec 4) =>
    if d == 0#6 && a == 0#6 && b == 0#6 then
      match f.toNat with | 0 => some (.tokw g) | 1 => some (.tokp g) | _ => none
    else none) rfl
theorem major39 : decodeOrdinary g (0x39#6).toNat d a (rLow b f) =
    (fun (b : BitVec 6) (f : BitVec 4) =>
    match f.toNat with
    | 0 => some (.stepp g d a b) | 1 => some (.stepr g d a b) | 2 => only (a == 0#6) (.stepq g d b) | _ => none) b f :=
  major g (0x39#6).toNat d a b f (fun (b : BitVec 6) (f : BitVec 4) =>
    match f.toNat with
    | 0 => some (.stepp g d a b) | 1 => some (.stepr g d a b) | 2 => only (a == 0#6) (.stepq g d b) | _ => none) rfl

end

/-! ### Small fields -/

theorem pred_hi (p : PredNo) : (predField p).extractLsb' 3 3 = 0#3 := by revert p; decide
theorem pred_lo (p : PredNo) : (predField p).extractLsb' 0 3 = p := by revert p; decide
theorem pp_hi (x y : BitVec 3) : BitVec.extractLsb' (n := 6) 3 3 (x ++ y) = x := by revert x y; decide
theorem pp_lo (x y : BitVec 3) : BitVec.extractLsb' (n := 6) 0 3 (x ++ y) = y := by revert x y; decide
theorem b4_hi (b : BitVec 4) : (b4Field b).extractLsb' 4 2 = 0#2 := by revert b; decide
theorem b4_lo (b : BitVec 4) : (b4Field b).extractLsb' 0 4 = b := by revert b; decide
theorem j_hi (j : BitVec 4) : BitVec.extractLsb' (n := 6) 2 4 (j ++ 0#2) = j := by revert j; decide
theorem j_lo (j : BitVec 4) : BitVec.extractLsb' (n := 6) 0 2 (j ++ 0#2) = 0#2 := by revert j; decide
theorem c_hi (c : BitVec 2) : BitVec.extractLsb' (n := 6) 2 4 (0#4 ++ c) = 0#4 := by revert c; decide
theorem c_lo (c : BitVec 2) : BitVec.extractLsb' (n := 6) 0 2 (0#4 ++ c) = c := by revert c; decide
theorem np_hi (n : Bool) (p : BitVec 3) : BitVec.getLsbD (w := 4) (bit1 n ++ p) 3 = n := by revert n p; decide
theorem np_lo (n : Bool) (p : BitVec 3) : BitVec.extractLsb' (n := 4) 0 3 (bit1 n ++ p) = p := by revert n p; decide
theorem live_hi (m : BitVec 8) : BitVec.extractLsb' (n := 6) 2 4 (0#4 ++ m.extractLsb' 6 2) = 0#4 := by
  revert m; decide
theorem live_parts (m : BitVec 8) :
    BitVec.extractLsb' (n := 6) 0 2 (0#4 ++ m.extractLsb' 6 2) ++ m.extractLsb' 0 6 = m := by revert m; decide

/-- A 12-bit number from its two halves. -/
theorem halves (c : BitVec 12) : (c.extractLsb' 6 6 ++ c.extractLsb' 0 6 : BitVec 12) = c := by
  apply BitVec.eq_of_toNat_eq
  erw [toNat_append_eq]
  simp only [BitVec.extractLsb'_toNat, Nat.shiftRight_eq_div_pow]
  have := c.isLt
  omega
/-- A 16-bit number from its a and low fields. -/
theorem parts16 (c : BitVec 16) : (c.extractLsb' 10 6 ++ c.extractLsb' 0 10 : BitVec 16) = c := by
  apply BitVec.eq_of_toNat_eq
  erw [toNat_append_eq]
  simp only [BitVec.extractLsb'_toNat, Nat.shiftRight_eq_div_pow]
  have := c.isLt
  omega
/-- A 22-bit number from its d, a and low fields. -/
theorem parts22 (c : BitVec 22) : (c.extractLsb' 16 6 ++ c.extractLsb' 10 6 ++ c.extractLsb' 0 10 : BitVec 22) = c := by
  apply BitVec.eq_of_toNat_eq
  erw [toNat_append_eq, toNat_append_eq]
  simp only [BitVec.extractLsb'_toNat, Nat.shiftRight_eq_div_pow]
  have := c.isLt
  omega

section
variable (o : BitVec 2) (s w : BitVec 3) (h : BitVec 2) (p : BitVec 5)

theorem toNat_mLow : (mLow o s w h).toNat = ((o.toNat * 8 + s.toNat) * 8 + w.toNat) * 4 + h.toNat := by
  unfold mLow
  erw [toNat_append_eq, toNat_append_eq, toNat_append_eq]
  omega
theorem ord_mLow : ordOf (mLow o s w h) = o := by
  have := o.isLt; have := s.isLt; have := w.isLt; have := h.isLt
  apply BitVec.eq_of_toNat_eq
  rw [ordOf, BitVec.extractLsb'_toNat, toNat_mLow, Nat.shiftRight_eq_div_pow]
  omega
theorem scp_mLow : scpOf (mLow o s w h) = s := by
  have := o.isLt; have := s.isLt; have := w.isLt; have := h.isLt
  apply BitVec.eq_of_toNat_eq
  rw [scpOf, BitVec.extractLsb'_toNat, toNat_mLow, Nat.shiftRight_eq_div_pow]
  omega
theorem wid_mLow : widOf (mLow o s w h) = w := by
  have := o.isLt; have := s.isLt; have := w.isLt; have := h.isLt
  apply BitVec.eq_of_toNat_eq
  rw [widOf, BitVec.extractLsb'_toNat, toNat_mLow, Nat.shiftRight_eq_div_pow]
  omega
theorem ch_mLow : chOf (mLow o s w h) = h := by
  have := h.isLt
  apply BitVec.eq_of_toNat_eq
  rw [chOf, BitVec.extractLsb'_toNat, toNat_mLow, Nat.shiftRight_eq_div_pow]
  omega
theorem toNat_aLow : (aLow o s p).toNat = (o.toNat * 8 + s.toNat) * 32 + p.toNat := by
  unfold aLow
  erw [toNat_append_eq, toNat_append_eq]
  omega
theorem ord_aLow : ordOf (aLow o s p) = o := by
  have := o.isLt; have := s.isLt; have := p.isLt
  apply BitVec.eq_of_toNat_eq
  rw [ordOf, BitVec.extractLsb'_toNat, toNat_aLow, Nat.shiftRight_eq_div_pow]
  omega
theorem scp_aLow : scpOf (aLow o s p) = s := by
  have := o.isLt; have := s.isLt; have := p.isLt
  apply BitVec.eq_of_toNat_eq
  rw [scpOf, BitVec.extractLsb'_toNat, toNat_aLow, Nat.shiftRight_eq_div_pow]
  omega
theorem op_aLow : opOf (aLow o s p) = p := by
  have := p.isLt
  apply BitVec.eq_of_toNat_eq
  rw [opOf, BitVec.extractLsb'_toNat, toNat_aLow, Nat.shiftRight_eq_div_pow]
  omega
/-- The bits of the op field in `low`. -/
theorem op_bits (l : BitVec 10) : widOf l = (opOf l).extractLsb' 2 3 ∧ l.getLsbD 1 = (opOf l).getLsbD 1 ∧
    l.getLsbD 0 = (opOf l).getLsbD 0 := by
  refine ⟨?_, ?_, ?_⟩
  · apply BitVec.eq_of_toNat_eq
    simp only [widOf, opOf, BitVec.extractLsb'_toNat, Nat.shiftRight_eq_div_pow]
    omega
  · simp [opOf, BitVec.getLsbD_extractLsb']
  · simp [opOf, BitVec.getLsbD_extractLsb']

end

theorem ofCode_ord (o : Ord4) : Ord4.ofCode o.code = o := by cases o <;> rfl
theorem ofCode_scp (s : Scope) : Scope.ofCode s.code = some s := by cases s <;> rfl
theorem ofCode_wid (w : Width) : Width.ofCode w.code = some w := by cases w <;> rfl
theorem ofCode_ch (h : CacheHint) : CacheHint.ofCode h.code = h := by cases h <;> rfl
theorem ofCode_atom (p : AtomOp) : AtomOp.ofCode p.code = some p := by cases p <;> rfl

/-- The M format's fields come back. -/
theorem decodeM_mLow (k : Ord4 → Scope → Width → CacheHint → Instr) (o : Ord4) (s : Scope) (w : Width) (h : CacheHint) :
    decodeM k (mLow o.code s.code w.code h.code) = some (k o s w h) := by
  simp only [decodeM, ord_mLow, scp_mLow, wid_mLow, ch_mLow, ofCode_ord, ofCode_scp, ofCode_wid, ofCode_ch,
    Option.bind_some, Option.map_some]

theorem cvt_round (o : CvtOp) (h : o.parOk = true) : CvtOp.ofCode o.code = some o := by
  cases o with
  | f32ToB8 p => obtain ⟨p, u, f⟩ := p; revert h; revert p u f; decide
  | b8ToF32 p => obtain ⟨p, u, f⟩ := p; revert h; revert p u f; decide
  | f16x2ToB8x2 p => obtain ⟨p, u, f⟩ := p; revert h; revert p u f; decide
  | _ => rfl

section
variable (a b c d : BitVec 5)

theorem waitn_ld : BitVec.extractLsb' (n := 6) 1 5 (a ++ b.extractLsb' 4 1) = a := by revert a b; decide
theorem waitn_st : (BitVec.extractLsb' (n := 6) 0 1 (a ++ b.extractLsb' 4 1) ++
    BitVec.extractLsb' (n := 6) 2 4 (b.extractLsb' 0 4 ++ c.extractLsb' 3 2) : BitVec 5) = b := by
  have h1 : BitVec.extractLsb' (n := 6) 0 1 (a ++ b.extractLsb' 4 1) = b.extractLsb' 4 1 := by revert a b; decide
  have h2 : BitVec.extractLsb' (n := 6) 2 4 (b.extractLsb' 0 4 ++ c.extractLsb' 3 2) = b.extractLsb' 0 4 := by
    clear h1; revert c b; decide
  rw [h1, h2]; clear h1 h2; revert b; decide
theorem toNat_waitn (x : BitVec 3) (y : BitVec 5) : BitVec.toNat (w := 10) (x ++ y ++ (0#2)) = (x.toNat * 32 + y.toNat) * 4 := by
  erw [toNat_append_eq, toNat_append_eq]
  simp only [BitVec.toNat_ofNat]
  omega
theorem waitn_x (x : BitVec 3) (y : BitVec 5) : BitVec.extractLsb' (n := 10) 7 3 (x ++ y ++ (0#2)) = x := by
  have := x.isLt; have := y.isLt
  apply BitVec.eq_of_toNat_eq
  rw [BitVec.extractLsb'_toNat, toNat_waitn, Nat.shiftRight_eq_div_pow]
  omega
theorem waitn_y (x : BitVec 3) (y : BitVec 5) : BitVec.extractLsb' (n := 10) 2 5 (x ++ y ++ (0#2)) = y := by
  have := x.isLt; have := y.isLt
  apply BitVec.eq_of_toNat_eq
  rw [BitVec.extractLsb'_toNat, toNat_waitn, Nat.shiftRight_eq_div_pow]
  omega
theorem waitn_z (x : BitVec 3) (y : BitVec 5) : BitVec.extractLsb' (n := 10) 0 2 (x ++ y ++ (0#2)) = 0#2 := by
  have := x.isLt; have := y.isLt
  apply BitVec.eq_of_toNat_eq
  rw [BitVec.extractLsb'_toNat, toNat_waitn, Nat.shiftRight_eq_div_pow]
  simp only [BitVec.toNat_ofNat]
  omega
theorem waitn_cp : (BitVec.extractLsb' (n := 6) 0 2 (b.extractLsb' 0 4 ++ c.extractLsb' 3 2) ++
    c.extractLsb' 0 3 : BitVec 5) = c := by revert b c; decide

end

section
variable (k : BitVec 2) (n : BitVec 5)

theorem toNat_shfi : BitVec.toNat (w := 10) (k ++ 0#3 ++ n) = k.toNat * 256 + n.toNat := by
  erw [toNat_append_eq, toNat_append_eq]
  simp only [BitVec.toNat_ofNat]
  omega
theorem shfi_k : BitVec.extractLsb' (n := 10) 8 2 (k ++ 0#3 ++ n) = k := by
  have := k.isLt; have := n.isLt
  apply BitVec.eq_of_toNat_eq
  rw [BitVec.extractLsb'_toNat, toNat_shfi, Nat.shiftRight_eq_div_pow]
  omega
theorem shfi_z : BitVec.extractLsb' (n := 10) 5 3 (k ++ 0#3 ++ n) = 0#3 := by
  have := k.isLt; have := n.isLt
  apply BitVec.eq_of_toNat_eq
  rw [BitVec.extractLsb'_toNat, toNat_shfi, Nat.shiftRight_eq_div_pow]
  simp only [BitVec.toNat_ofNat]
  omega
theorem shfi_n : BitVec.extractLsb' (n := 10) 0 5 (k ++ 0#3 ++ n) = n := by
  have := k.isLt; have := n.isLt
  apply BitVec.eq_of_toNat_eq
  rw [BitVec.extractLsb'_toNat, toNat_shfi, Nat.shiftRight_eq_div_pow]
  omega

end

theorem ofCode_shf (k : ShfKind) : ShfKind.ofCode k.code = k := by cases k <;> rfl

/-! ### Hint words (R25) -/

theorem hint_hi (x : Byte) (p : BitVec 24) : BitVec.toNat (w := 32) (x ++ p) = x.toNat * 2 ^ 24 + p.toNat :=
  toNat_append_eq x p
theorem hint_guard (x : Byte) (p : BitVec 24) : guardOf (x ++ p) = x.extractLsb' 4 4 := by
  have := p.isLt
  apply BitVec.eq_of_toNat_eq
  rw [guardOf, BitVec.extractLsb'_toNat, BitVec.extractLsb'_toNat, hint_hi, Nat.shiftRight_eq_div_pow,
    Nat.shiftRight_eq_div_pow]
  omega
theorem hint_kind (x : Byte) (p : BitVec 24) :
    (BitVec.extractLsb' (n := 32) 24 4 (x ++ p)) = x.extractLsb' 0 4 := by
  have := p.isLt
  apply BitVec.eq_of_toNat_eq
  rw [BitVec.extractLsb'_toNat, BitVec.extractLsb'_toNat, hint_hi, Nat.shiftRight_eq_div_pow,
    Nat.shiftRight_eq_div_pow]
  omega
theorem hint_pay (x : Byte) (p : BitVec 24) : BitVec.extractLsb' (n := 32) 0 24 (x ++ p) = p := by
  have := p.isLt
  apply BitVec.eq_of_toNat_eq
  rw [BitVec.extractLsb'_toNat, hint_hi, Nat.shiftRight_eq_div_pow]
  omega

section
variable (y : Bool) (u t : BitVec 4)

/-- The payload of SCHED. -/
theorem sched_pay : (0xF3#8 ++ (0#15) ++ bit1 y ++ u ++ t : Word) = (0xF3#8 : Byte) ++ ((0#15) ++ bit1 y ++ u ++ t : BitVec 24) := by
  apply BitVec.eq_of_toNat_eq
  rw [hint_hi]
  erw [toNat_append_eq, toNat_append_eq, toNat_append_eq, toNat_append_eq, toNat_append_eq, toNat_append_eq, toNat_append_eq]
  simp only [BitVec.toNat_ofNat]
  omega
theorem toNat_sched : BitVec.toNat (w := 24) ((0#15) ++ bit1 y ++ u ++ t) = ((bit1 y).toNat * 16 + u.toNat) * 16 + t.toNat := by
  erw [toNat_append_eq, toNat_append_eq, toNat_append_eq]
  simp only [BitVec.toNat_ofNat]
  omega
/-- A field of the payload is that field of the word. -/
theorem hint_field (x : Byte) (p : BitVec 24) (i n : Nat) (h : i + n ≤ 24) :
    BitVec.extractLsb' (n := 32) i n (x ++ p) = p.extractLsb' i n := by
  apply BitVec.eq_of_toNat_eq
  simp only [BitVec.extractLsb'_toNat, Nat.shiftRight_eq_div_pow]
  rw [hint_hi]
  have e : 2 ^ 24 = 2 ^ n * 2 ^ (24 - i - n) * 2 ^ i := by
    rw [← Nat.pow_add, ← Nat.pow_add]; congr 1; omega
  rw [e, ← Nat.mul_assoc, Nat.add_comm, Nat.add_mul_div_right _ _ (Nat.two_pow_pos i), ← Nat.mul_assoc, Nat.mul_right_comm,
    Nat.add_mul_mod_self_right]
theorem sched_z : BitVec.extractLsb' (n := 24) 9 15 ((0#15) ++ bit1 y ++ u ++ t) = 0#15 := by
  have := (bit1 y).isLt; have := u.isLt; have := t.isLt
  apply BitVec.eq_of_toNat_eq
  rw [BitVec.extractLsb'_toNat, toNat_sched, Nat.shiftRight_eq_div_pow]
  simp only [BitVec.toNat_ofNat]
  omega
theorem sched_u : BitVec.extractLsb' (n := 24) 4 4 ((0#15) ++ bit1 y ++ u ++ t) = u := by
  have := (bit1 y).isLt; have := u.isLt; have := t.isLt
  apply BitVec.eq_of_toNat_eq
  rw [BitVec.extractLsb'_toNat, toNat_sched, Nat.shiftRight_eq_div_pow]
  omega
theorem sched_t : BitVec.extractLsb' (n := 24) 0 4 ((0#15) ++ bit1 y ++ u ++ t) = t := by
  have := (bit1 y).isLt; have := u.isLt; have := t.isLt
  apply BitVec.eq_of_toNat_eq
  rw [BitVec.extractLsb'_toNat, toNat_sched, Nat.shiftRight_eq_div_pow]
  omega
theorem sched_y : BitVec.extractLsb' (n := 24) 8 1 ((0#15) ++ bit1 y ++ u ++ t) = bit1 y := by
  have := (bit1 y).isLt; have := u.isLt; have := t.isLt
  apply BitVec.eq_of_toNat_eq
  rw [BitVec.extractLsb'_toNat, toNat_sched, Nat.shiftRight_eq_div_pow]
  omega

end

end Sys2Proof
end

