-- ==== Sys2Proof/Laws/Memory.lean ====
section
/-! SUPPORT. Memory and word maps: a write is read back, leaves every other place alone, and keeps the canonical form
(log 3). -/

namespace Sys2Proof.Machine

/-! ### Memory -/

theorem Memory.read_cons (k a : Nat) (b : Byte) (m : Memory) :
    Memory.read ((k, b) :: m) a = if k = a then b else Memory.read m a := rfl

theorem Memory.read_of_not_mem {m : Memory} {a : Nat} (h : ∀ c ∈ m, c.1 ≠ a) : m.read a = Memory.unlisted := by
  induction m with
  | nil => rfl
  | cons c m ih =>
    obtain ⟨k, b⟩ := c
    rw [Memory.read_cons, if_neg (h (k, b) (by simp))]
    exact ih fun c hc => h c (by simp [hc])

theorem Memory.read_drop_self (m : Memory) (a : Nat) : (m.drop a).read a = Memory.unlisted :=
  Memory.read_of_not_mem (by simp [Memory.drop])

theorem Memory.read_drop_ne {m : Memory} {a x : Nat} (h : x ≠ a) : (m.drop a).read x = m.read x := by
  induction m with
  | nil => rfl
  | cons c m ih =>
    obtain ⟨k, b⟩ := c
    rw [Memory.read_cons]
    by_cases hk : k = a
    · subst hk
      rw [if_neg (Ne.symm h), ← ih]
      simp [Memory.drop]
    · simp only [Memory.drop, List.filter_cons, bne_iff_ne, ne_eq, hk, not_false_eq_true, if_true]
      rw [Memory.read_cons]
      split
      · rfl
      · exact ih

theorem Memory.read_insert_self (m : Memory) (a : Nat) (v : Byte) (h : ∀ c ∈ m, c.1 ≠ a) :
    (m.insert a v).read a = v := by
  induction m with
  | nil => simp [Memory.insert, Memory.read_cons]
  | cons c m ih =>
    rw [Memory.insert]
    split
    · simp [Memory.read_cons]
    · obtain ⟨k, b⟩ := c
      rw [Memory.read_cons, if_neg (h (k, b) (by simp))]
      exact ih fun c hc => h c (by simp [hc])

theorem Memory.read_insert_ne {m : Memory} {a x : Nat} (v : Byte) (h : x ≠ a) :
    (m.insert a v).read x = m.read x := by
  induction m with
  | nil => simp [Memory.insert, Memory.read, Ne.symm h]
  | cons c m ih =>
    obtain ⟨k, b⟩ := c
    rw [Memory.insert]
    split
    · rw [Memory.read_cons, if_neg (Ne.symm h)]
    · rw [Memory.read_cons, Memory.read_cons, ih]

/-- A byte written is read back. -/
@[simp] theorem Memory.read_write_self (m : Memory) (a : Nat) (v : Byte) : (m.write a v).read a = v := by
  rw [Memory.write]
  split
  · next h => rw [Memory.read_drop_self, h]
  · exact Memory.read_insert_self _ _ _ (by simp [Memory.drop])

/-- A write leaves every other byte. -/
theorem Memory.read_write_ne {m : Memory} {a x : Nat} (v : Byte) (h : x ≠ a) : (m.write a v).read x = m.read x := by
  rw [Memory.write]
  split
  · exact Memory.read_drop_ne h
  · rw [Memory.read_insert_ne v h, Memory.read_drop_ne h]

/-- A write of bytes leaves every byte outside them. -/
theorem Memory.read_writeN_ne {m : Memory} {a x : Nat} {bs : List Byte} (h : x < a ∨ a + bs.length ≤ x) :
    (m.writeN a bs).read x = m.read x := by
  induction bs generalizing m a with
  | nil => rfl
  | cons b bs ih =>
    simp only [List.length_cons] at h
    rw [Memory.writeN, ih (by omega), Memory.read_write_ne _ (by omega)]

/-- Bytes written are read back. -/
theorem Memory.read_writeN {m : Memory} {a : Nat} {bs : List Byte} {i : Nat} (h : i < bs.length) :
    (m.writeN a bs).read (a + i) = bs[i] := by
  induction bs generalizing m a i with
  | nil => simp at h
  | cons b bs ih =>
    rw [Memory.writeN]
    cases i with
    | zero => rw [Memory.read_writeN_ne (by omega)]; simp
    | succ i =>
      have := ih (m := m.write a b) (a := a + 1) (i := i) (by simpa using h)
      rw [show a + (i + 1) = a + 1 + i by omega]
      simpa using this

theorem Memory.readN_writeN (m : Memory) (a : Nat) (bs : List Byte) : (m.writeN a bs).readN a bs.length = bs := by
  apply List.ext_getElem
  · simp [Memory.readN]
  · intro i h1 h2
    simpa [Memory.readN] using Memory.read_writeN h2

/-! ### The canonical form -/

theorem Memory.wf_cons {k : Nat} {b : Byte} {m : Memory} :
    Memory.wf ((k, b) :: m) = true ↔ b ≠ Memory.unlisted ∧ (∀ c ∈ m, k < c.1) ∧ Memory.wf m = true := by
  simp [Memory.wf, and_assoc]

theorem Memory.wf_drop {m : Memory} (a : Nat) (h : m.wf = true) : (m.drop a).wf = true := by
  induction m with
  | nil => rfl
  | cons c m ih =>
    obtain ⟨k, b⟩ := c
    obtain ⟨hb, hk, hm⟩ := Memory.wf_cons.mp h
    have h2 : ∀ c ∈ Memory.drop m a, k < c.1 := fun c hc => hk c (List.mem_of_mem_filter hc)
    by_cases hka : k = a
    · simpa [Memory.drop, hka] using ih hm
    · have : Memory.drop ((k, b) :: m) a = (k, b) :: Memory.drop m a := by simp [Memory.drop, hka]
      rw [this]
      exact Memory.wf_cons.mpr ⟨hb, h2, ih hm⟩

theorem Memory.mem_insert {m : Memory} {a : Nat} {v : Byte} {c : Host.Cell} (h : c ∈ m.insert a v) :
    c = (a, v) ∨ c ∈ m := by
  induction m with
  | nil => simpa [Memory.insert] using h
  | cons d m ih =>
    rw [Memory.insert] at h
    split at h
    · simpa using h
    · rcases List.mem_cons.mp h with h | h
      · simp [h]
      · rcases ih h with h | h <;> simp [h]

theorem Memory.wf_insert {m : Memory} {a : Nat} {v : Byte} (hv : v ≠ Memory.unlisted) (hn : ∀ c ∈ m, c.1 ≠ a)
    (h : m.wf = true) : (m.insert a v).wf = true := by
  induction m with
  | nil => exact Memory.wf_cons.mpr ⟨hv, by simp, rfl⟩
  | cons c m ih =>
    obtain ⟨k, b⟩ := c
    obtain ⟨hb, hk, hm⟩ := Memory.wf_cons.mp h
    have hka : k ≠ a := hn (k, b) (by simp)
    rw [Memory.insert]
    split
    · next hlt =>
      refine Memory.wf_cons.mpr ⟨hv, ?_, h⟩
      intro c hc
      rcases List.mem_cons.mp hc with hc | hc
      · simpa [hc] using hlt
      · exact lt_trans hlt (hk c hc)
    · next hlt =>
      refine Memory.wf_cons.mpr ⟨hb, ?_, ih (fun c hc => hn c (by simp [hc])) hm⟩
      intro c hc
      rcases Memory.mem_insert hc with hc | hc
      · rw [hc]
        simp only at hlt ⊢
        omega
      · exact hk c hc

/-- A write keeps the canonical form. -/
theorem Memory.wf_write {m : Memory} (a : Nat) (v : Byte) (h : m.wf = true) : (m.write a v).wf = true := by
  rw [Memory.write]
  split
  · exact Memory.wf_drop a h
  · next hv => exact Memory.wf_insert hv (by simp [Memory.drop]) (Memory.wf_drop a h)

theorem Memory.wf_writeN {m : Memory} (a : Nat) (bs : List Byte) (h : m.wf = true) : (m.writeN a bs).wf = true := by
  induction bs generalizing m a with
  | nil => exact h
  | cons b bs ih => exact ih (a + 1) (Memory.wf_write a b h)

/-- Every write of the machine's memory goes through this one. -/
theorem State.wf_homeWrite {s : State} (key : Nat) (bs : List Byte) (h : s.mem.wf = true) :
    (s.homeWrite key bs).mem.wf = true := by
  rw [State.homeWrite]
  split
  · exact h
  · exact Memory.wf_writeN key bs h

theorem reset_mem_wf : State.reset.mem.wf = true := rfl

/-! ### Word maps -/

theorem WordMap.get_nil (k : Nat) : WordMap.get [] k = 0 := rfl

theorem WordMap.get_cons (i k : Nat) (x : Word) (m : WordMap) :
    WordMap.get ((i, x) :: m) k = if k = i then x else WordMap.get m k := by
  by_cases h : k = i
  · simp [WordMap.get, List.lookup_cons, h]
  · simp [WordMap.get, List.lookup_cons, h, beq_eq_false_iff_ne.mpr h]

theorem WordMap.get_filter_ne (m : WordMap) {k x : Nat} (h : x ≠ k) :
    WordMap.get (m.filter fun c => c.1 != k) x = WordMap.get m x := by
  induction m with
  | nil => rfl
  | cons c m ih =>
    obtain ⟨i, v⟩ := c
    by_cases hk : i = k
    · subst hk
      rw [WordMap.get_cons, if_neg h, ← ih]
      simp
    · rw [WordMap.get_cons, ← ih]
      simp [hk, WordMap.get_cons]

theorem WordMap.get_filter_self (m : WordMap) (k : Nat) : WordMap.get (m.filter fun c => c.1 != k) k = 0 := by
  induction m with
  | nil => rfl
  | cons c m ih =>
    obtain ⟨i, v⟩ := c
    by_cases hk : i = k
    · subst hk; simpa using ih
    · simpa [hk, WordMap.get_cons, Ne.symm hk] using ih

theorem WordMap.get_insert_self (m : WordMap) (k : Nat) (v : Word) (h : ∀ c ∈ m, c.1 ≠ k) :
    WordMap.get (WordMap.insert m k v) k = v := by
  induction m with
  | nil => simp [WordMap.insert, WordMap.get_cons]
  | cons c m ih =>
    obtain ⟨i, x⟩ := c
    rw [WordMap.insert]
    split
    · simp [WordMap.get_cons]
    · rw [WordMap.get_cons, if_neg (Ne.symm (h (i, x) (by simp)))]
      exact ih fun c hc => h c (by simp [hc])

theorem WordMap.get_insert_ne (m : WordMap) {k x : Nat} (v : Word) (h : x ≠ k) :
    WordMap.get (WordMap.insert m k v) x = WordMap.get m x := by
  induction m with
  | nil => simp [WordMap.insert, WordMap.get_cons, WordMap.get_nil, h]
  | cons c m ih =>
    obtain ⟨i, y⟩ := c
    rw [WordMap.insert]
    split
    · rw [WordMap.get_cons, if_neg h]
    · rw [WordMap.get_cons, WordMap.get_cons, ih]

/-- A word put is got. -/
@[simp] theorem WordMap.get_put_self (m : WordMap) (k : Nat) (v : Word) : WordMap.get (WordMap.put m k v) k = v := by
  simp only [WordMap.put]
  split
  · next h => rw [WordMap.get_filter_self, h]
  · exact WordMap.get_insert_self _ _ _ (by simp)

/-- Putting one word leaves the others. -/
theorem WordMap.get_put_ne (m : WordMap) {k x : Nat} (v : Word) (h : x ≠ k) :
    WordMap.get (WordMap.put m k v) x = WordMap.get m x := by
  simp only [WordMap.put]
  split
  · exact WordMap.get_filter_ne m h
  · rw [WordMap.get_insert_ne _ v h, WordMap.get_filter_ne m h]

theorem WordMap.wf_cons {k : Nat} {b : Word} {m : WordMap} :
    WordMap.wf ((k, b) :: m) = true ↔ b ≠ 0 ∧ (∀ c ∈ m, k < c.1) ∧ WordMap.wf m = true := by
  simp [WordMap.wf, and_assoc]

theorem WordMap.wf_filter {m : WordMap} (p : Nat × Word → Bool) (h : WordMap.wf m = true) :
    WordMap.wf (m.filter p) = true := by
  induction m with
  | nil => rfl
  | cons c m ih =>
    obtain ⟨k, b⟩ := c
    obtain ⟨hb, hk, hm⟩ := WordMap.wf_cons.mp h
    by_cases hp : p (k, b) = true
    · rw [List.filter_cons_of_pos hp]
      exact WordMap.wf_cons.mpr ⟨hb, fun c hc => hk c (List.mem_of_mem_filter hc), ih hm⟩
    · rw [List.filter_cons_of_neg hp]
      exact ih hm

theorem WordMap.mem_insert {m : WordMap} {a : Nat} {v : Word} {c : Nat × Word} (h : c ∈ WordMap.insert m a v) :
    c = (a, v) ∨ c ∈ m := by
  induction m with
  | nil => simpa [WordMap.insert] using h
  | cons d m ih =>
    rw [WordMap.insert] at h
    split at h
    · simpa using h
    · rcases List.mem_cons.mp h with h | h
      · simp [h]
      · rcases ih h with h | h <;> simp [h]

theorem WordMap.wf_insert {m : WordMap} {a : Nat} {v : Word} (hv : v ≠ 0) (hn : ∀ c ∈ m, c.1 ≠ a)
    (h : WordMap.wf m = true) : WordMap.wf (WordMap.insert m a v) = true := by
  induction m with
  | nil => exact WordMap.wf_cons.mpr ⟨hv, by simp, rfl⟩
  | cons c m ih =>
    obtain ⟨k, b⟩ := c
    obtain ⟨hb, hk, hm⟩ := WordMap.wf_cons.mp h
    have hka : k ≠ a := hn (k, b) (by simp)
    rw [WordMap.insert]
    split
    · next hlt =>
      refine WordMap.wf_cons.mpr ⟨hv, ?_, h⟩
      intro c hc
      rcases List.mem_cons.mp hc with hc | hc
      · simpa [hc] using hlt
      · exact lt_trans hlt (hk c hc)
    · next hlt =>
      refine WordMap.wf_cons.mpr ⟨hb, ?_, ih (fun c hc => hn c (by simp [hc])) hm⟩
      intro c hc
      rcases WordMap.mem_insert hc with hc | hc
      · rw [hc]
        simp only at hlt ⊢
        omega
      · exact hk c hc

/-- Putting a word keeps the canonical form. -/
theorem WordMap.wf_put {m : WordMap} (k : Nat) (v : Word) (h : WordMap.wf m = true) :
    WordMap.wf (WordMap.put m k v) = true := by
  simp only [WordMap.put]
  split
  · exact WordMap.wf_filter _ h
  · next hv => exact WordMap.wf_insert hv (by simp) (WordMap.wf_filter _ h)

end Sys2Proof.Machine
end

