-- ==== Sys2Proof/Laws/Path.lean ====
section
/-! SUPPORT. What the frame of a wave instruction does (01 R20, R38, R42): `runPath`, and the retirement of a bundle
that traps and ends no fibre. -/

namespace Sys2Proof.Machine

/-! ### Lists of lane kinds and lane ends -/

theorem getD_of_mem_execLanes {ks : List LaneKind} {l : Nat} (h : l ∈ execLanes ks) : ks.getD l .out = .exec := by
  simp only [execLanes, List.mem_filterMap] at h
  obtain ⟨⟨k, n⟩, hm, hk⟩ := h
  rw [List.mem_zipIdx_iff_getElem?] at hm
  split at hk
  · cases hk; simp_all [List.getD_eq_getElem?_getD]
  · cases hk

theorem mem_execLanes {ks : List LaneKind} {l : Nat} (h : ks.getD l .out = .exec) : l ∈ execLanes ks := by
  simp only [execLanes, List.mem_filterMap]
  refine ⟨(.exec, l), ?_, by simp⟩
  rw [List.mem_zipIdx_iff_getElem?]
  cases hk : ks[l]? with
  | none => simp [List.getD_eq_getElem?_getD, hk] at h
  | some k => simp [List.getD_eq_getElem?_getD, hk] at h; simp [h]

theorem kindsOf_length (s : State) (i : Instr) (gd : Guard) (w : Wave) (g : Grid) :
    (kindsOf s i gd w g).length = w.fibres.length := by simp [kindsOf]

theorem lt_of_mem_execLanes {s : State} {i : Instr} {gd : Guard} {w : Wave} {g : Grid} {l : Nat}
    (h : l ∈ execLanes (kindsOf s i gd w g)) : l < w.fibres.length := by
  have h1 := getD_of_mem_execLanes h
  by_contra hc
  rw [List.getD_eq_getElem?_getD, List.getElem?_eq_none (by rw [kindsOf_length]; omega)] at h1
  simp at h1

/-- An end that neither traps, nor ends the fibre, nor waits with its bundle still to retire. -/
def LaneEnd.plain : LaneEnd → Bool
  | .done _ _ | .jump _ _ => true
  | .park f w => !(LaneEnd.park f w).waits
  | _ => false

/-- Flags that a bundle raises (R121). -/
def flagsOf (ks : List LaneKind) (ends : Nat → Fibre → LaneEnd) (fs : List Fibre) : BitVec 6 :=
  ((laneEnds ks ends fs).map LaneEnd.flags).foldl (· ||| ·) 0

theorem getElem?_laneEnds (ks : List LaneKind) (ends : Nat → Fibre → LaneEnd) (fs : List Fibre) (l : Nat) :
    (laneEnds ks ends fs)[l]? = (fs[l]?).map fun f => endOf (ks.getD l .out) ends l f := by
  simp [laneEnds]

theorem mem_laneEnds {ks : List LaneKind} {ends : Nat → Fibre → LaneEnd} {fs : List Fibre} {e : LaneEnd}
    (h : e ∈ laneEnds ks ends fs) : ∃ l f, fs[l]? = some f ∧ e = endOf (ks.getD l .out) ends l f := by
  obtain ⟨l, hl⟩ := List.mem_iff_getElem?.mp h
  rw [getElem?_laneEnds] at hl
  cases hf : fs[l]? with
  | none => simp [hf] at hl
  | some f => exact ⟨l, f, hf, by simpa [hf] using hl.symm⟩

theorem not_bad_of_legal {ks : List LaneKind} (h : ks.any LaneKind.isBad = false) (l : Nat) (t : TrapInfo) :
    ks.getD l .out ≠ .bad t := by
  intro hk
  cases hl : ks[l]? with
  | none => simp [List.getD_eq_getElem?_getD, hl] at hk
  | some k =>
    simp [List.getD_eq_getElem?_getD, hl] at hk
    have := List.any_eq_false.mp h k (List.mem_of_getElem? hl)
    simp [hk, LaneKind.isBad] at this

section
variable {s : State} {w : Wave} {ks : List LaneKind} {ends : Nat → Fibre → LaneEnd}

theorem trapsOf_laneEnds (hk : ks.any LaneKind.isBad = false)
    (he : ∀ l f, w.fibres[l]? = some f → ks.getD l .out = .exec → ∀ f' t, ends l f ≠ .trap f' t) :
    trapsOf (laneEnds ks ends w.fibres) = [] := by
  simp only [trapsOf, List.filterMap_eq_nil_iff]
  rintro ⟨e, l⟩ hm
  rw [List.mem_zipIdx_iff_getElem?] at hm
  simp only [getElem?_laneEnds] at hm
  cases hf : w.fibres[l]? with
  | none => simp [hf] at hm
  | some f =>
    simp only [hf, Option.map_some, Option.some.injEq] at hm
    subst hm
    have hb := not_bad_of_legal hk l
    have h1 := he l f hf
    cases hkl : ks.getD l .out with
    | out => simp [endOf]
    | skip => simp [endOf]
    | bad t => exact absurd hkl (hb t)
    | exec =>
      simp only [endOf]
      split
      · next t heq => exact absurd heq (h1 hkl _ _)
      · rfl

theorem finsOf_laneEnds
    (he : ∀ l f, w.fibres[l]? = some f → ks.getD l .out = .exec → ∀ f', ends l f ≠ .fin f') :
    finsOf (laneEnds ks ends w.fibres) = [] := by
  simp only [finsOf, List.filterMap_eq_nil_iff]
  rintro ⟨e, l⟩ hm
  rw [List.mem_zipIdx_iff_getElem?] at hm
  simp only [getElem?_laneEnds] at hm
  cases hf : w.fibres[l]? with
  | none => simp [hf] at hm
  | some f =>
    simp only [hf, Option.map_some, Option.some.injEq] at hm
    subst hm
    have h1 := he l f hf
    cases hkl : ks.getD l .out with
    | out => simp [endOf]
    | skip => simp [endOf]
    | bad t => simp [endOf]
    | exec =>
      simp only [endOf]
      split
      · next heq => exact absurd heq (h1 hkl _)
      · rfl

/-- The fields of a wave that the scheduler does not touch. -/
theorem Wave.schedule_eq (w : Wave) (pc : Pc) (cont : Option Pc) (yld point : Bool) (n : Nat) :
    w.schedule pc cont yld point n = { w with
      rot := (w.schedule pc cont yld point n).rot
      streak := (w.schedule pc cont yld point n).streak
      waits := (w.schedule pc cont yld point n).waits
      yielded := (w.schedule pc cont yld point n).yielded
      serial := (w.schedule pc cont yld point n).serial
      quota := (w.schedule pc cont yld point n).quota } := by
  cases hz : w.zen <;> cases hs : w.serial <;>
    simp [Wave.schedule, Wave.rotate, Wave.switch, Wave.enterSerial, hz, hs] <;> (repeat' split) <;> rfl

theorem commit_fibres :
    (laneEnds ks ends w.fibres).map (commitFibre s.nextPc s.lastPc word) =
      w.fibres.mapIdx (fun l f => commitFibre s.nextPc s.lastPc word (endOf (ks.getD l .out) ends l f)) := by
  apply List.ext_getElem?
  intro l
  simp only [List.getElem?_map, getElem?_laneEnds, List.getElem?_mapIdx, Option.map_map]
  rfl

/-- A bundle whose executing lanes all go on, jump or park without waiting: what it leaves. -/
theorem retire_plain {word : Word} {yld point : Bool} (hw : s.waves[s.cur.wave]? = some w)
    (hk : ks.any LaneKind.isBad = false)
    (hx : ∃ l f, w.fibres[l]? = some f ∧ ks.getD l .out = .exec)
    (he : ∀ l f, w.fibres[l]? = some f → ks.getD l .out = .exec → (ends l f).plain = true) :
    Retired s (s.retire word ks ends yld point) ks (flagsOf ks ends w.fibres)
      (fun l f => commitFibre s.nextPc s.lastPc word (ends l f)) := by
  have ht := trapsOf_laneEnds (w := w) (ends := ends) hk
    (fun l f hf hl f' t h => by have := he l f hf hl; simp [h, LaneEnd.plain] at this)
  have hfin := finsOf_laneEnds (w := w) (ends := ends) (ks := ks)
    (fun l f hf hl f' h => by have := he l f hf hl; simp [h, LaneEnd.plain] at this)
  have hran : (laneEnds ks ends w.fibres).any (fun e => e.retires && !e.waits) = true := by
    obtain ⟨l, f, hf, hl⟩ := hx
    refine List.any_eq_true.mpr ⟨ends l f, ?_, ?_⟩
    · refine List.mem_iff_getElem?.mpr ⟨l, ?_⟩
      rw [getElem?_laneEnds, hf, hl]
      rfl
    · have := he l f hf hl
      revert this
      cases h : ends l f <;> simp [LaneEnd.plain, LaneEnd.retires, LaneEnd.waits]
  obtain ⟨hlt, -⟩ := List.getElem?_eq_some_iff.mp hw
  simp only [State.retire, hw, ht, hfin, State.takeTraps, State.reschedule, State.modWave, State.setWave, modAt,
    List.modify_eq_set_getElem?]
  simp only [List.getElem?_set_self hlt, Option.map_some, Option.getD_some, List.set_set]
  refine ⟨w, _, hw, rfl, ?_⟩
  rw [Wave.schedule_eq]
  rw [Wave.commit]
  simp only [hran, if_true, flagsOf, commit_fibres]
  congr 1
  refine List.mapIdx_eq_mapIdx_iff.mpr ?_
  intro l hl
  have hb := not_bad_of_legal hk l
  cases hkl : ks.getD l .out with
  | bad t => exact absurd hkl (hb t)
  | out => simp only [laneAfter, hkl, endOf, commitFibre]
  | skip => simp only [laneAfter, hkl, endOf, commitFibre]
  | exec => simp only [laneAfter, hkl, endOf, commitFibre]

end

/-! ### runPath -/

section
variable {i : Instr} {gd : Guard} {s : State} {w : Wave} {g : Grid}

theorem Ready.lane (h : Ready i gd s w g) :
    ∃ l f, w.fibres[l]? = some f ∧ (kindsOf s i gd w g).getD l .out = .exec := by
  cases hl : execLanes (kindsOf s i gd w g) with
  | nil => exact absurd hl h.runs
  | cons l ls =>
    have hm : l ∈ execLanes (kindsOf s i gd w g) := by simp [hl]
    have := lt_of_mem_execLanes hm
    exact ⟨l, w.fibres[l], by simp [this], getD_of_mem_execLanes hm⟩

theorem meetInjects_nil {low : Fibre} (h : s.injects = []) : s.meetInjects i w low = (s, none) := by
  simp [State.meetInjects, h]

/-- Where nothing is uncorrectable, nothing is mended (R315). -/
theorem mend_sound {ls : List Nat} {ends : Nat → Fibre → LaneEnd} (h : s.faulty = []) : s.mend i w ls ends = s := by
  simp [State.mend, h]

/-- Where nothing is uncorrectable, no fibre meets an error (R315). -/
theorem metError_sound {l : Nat} {f : Fibre} {b : Bool} (h : s.faulty = []) : s.metError i w g l f b = none := by
  simp [State.metError, h]

/-- Where the path can run, `runPath` is the retirement of what the operation answers. -/
theorem runPath_go {op : State → Wave → Grid → List Nat → PathRes} {s2 : State} {ends : Nat → Fibre → LaneEnd}
    (h : Ready i gd s w g) (hop : op s w g (execLanes (kindsOf s i gd w g)) = .go s2 ends) (hs : s2.faulty = []) :
    runPath i gd op s = .next (s2.retire (encode i) (kindsOf s i gd w g) ends (isYield i || s.hintYld) (isPoint i)) := by
  unfold runPath
  simp only [h.wave, h.grid]
  cases hl : execLanes (kindsOf s i gd w g) with
  | nil => exact absurd hl h.runs
  | cons l ls =>
    rw [hl] at hop
    simp [meetInjects_nil h.calm, hop, mend_sound hs]

theorem runPath_stall {op : State → Wave → Grid → List Nat → PathRes} {b : Bool}
    (h : Ready i gd s w g) (hop : op s w g (execLanes (kindsOf s i gd w g)) = .stall b) :
    runPath i gd op s = .next (s.stall b) := by
  unfold runPath
  simp only [h.wave, h.grid]
  cases hl : execLanes (kindsOf s i gd w g) with
  | nil => exact absurd hl h.runs
  | cons l ls =>
    rw [hl] at hop
    simp [meetInjects_nil h.calm, hop]

theorem flagsOf_zero {ks : List LaneKind} {ends : Nat → Fibre → LaneEnd} {fs : List Fibre}
    (h : ∀ l f, fs[l]? = some f → (endOf (ks.getD l .out) ends l f).flags = 0) : flagsOf ks ends fs = 0 := by
  have : (laneEnds ks ends fs).map LaneEnd.flags = List.replicate (laneEnds ks ends fs).length 0 := by
    rw [List.eq_replicate_iff]
    refine ⟨by simp, ?_⟩
    intro b hb
    obtain ⟨e, he, rfl⟩ := List.mem_map.mp hb
    obtain ⟨l, f, hf, rfl⟩ := mem_laneEnds he
    exact h l f hf
  rw [flagsOf, this]
  generalize (laneEnds ks ends fs).length = n
  induction n with
  | zero => rfl
  | succ n ih => simpa [List.replicate_succ] using ih

/-- What `runPath` leaves when every executing lane of its operation goes on, jumps or parks for good. -/
theorem runPath_retired {op : State → Wave → Grid → List Nat → PathRes} {s2 : State} {w2 : Wave}
    {ends : Nat → Fibre → LaneEnd} (h : Ready i gd s w g)
    (hop : op s w g (execLanes (kindsOf s i gd w g)) = .go s2 ends)
    (hs : s2.faulty = []) (hw2 : s2.waves[s2.cur.wave]? = some w2) (hlen : w2.fibres.length = w.fibres.length)
    (he : ∀ l f, w2.fibres[l]? = some f → (kindsOf s i gd w g).getD l .out = .exec → (ends l f).plain = true) :
    ∃ t, runPath i gd op s = .next t ∧
      Retired s2 t (kindsOf s i gd w g) (flagsOf (kindsOf s i gd w g) ends w2.fibres)
        (fun l f => commitFibre s2.nextPc s2.lastPc (encode i) (ends l f)) := by
  refine ⟨_, runPath_go h hop hs, retire_plain hw2 h.legal ?_ he⟩
  obtain ⟨l, f, hf, hk⟩ := h.lane
  have hl : l < w2.fibres.length := hlen ▸ (List.getElem?_eq_some_iff.mp hf).1
  exact ⟨l, w2.fibres[l], by simp [hl], hk⟩

/-- The flags of a bundle that raises none. -/
theorem flagsOf_quiet {ks : List LaneKind} {ends : Nat → Fibre → LaneEnd} {fs : List Fibre}
    (h : ∀ l f, fs[l]? = some f → ks.getD l .out = .exec → (ends l f).flags = 0) : flagsOf ks ends fs = 0 := by
  refine flagsOf_zero fun l f hf => ?_
  have := h l f hf
  cases hk : ks.getD l .out with
  | exec => exact this hk
  | _ => rfl

/-- An operation that changes no more of the state than a new state `s2`, and one fibre each in the executing lanes
that go on. -/
theorem runPath_done {op : State → Wave → Grid → List Nat → PathRes} {s2 : State} {w2 : Wave}
    {after : Nat → Fibre → Fibre} (h : Ready i gd s w g)
    (hop : op s w g (execLanes (kindsOf s i gd w g)) = .go s2 fun l f => .done (after l f) 0)
    (hs : s2.faulty = []) (hw2 : s2.waves[s2.cur.wave]? = some w2) (hlen : w2.fibres.length = w.fibres.length) :
    ∃ t, runPath i gd op s = .next t ∧
      Retired s2 t (kindsOf s i gd w g) 0 (fun l f => (after l f).advance s2.nextPc s2.lastPc) := by
  have := runPath_retired h hop hs hw2 hlen (fun _ _ _ _ => rfl)
  rwa [flagsOf_quiet (fun _ _ _ _ => rfl)] at this

/-- An instruction that changes nothing but registers of executing lanes, and goes on (R94). -/
theorem runPure_retired {op : Bool → Fibre → Fibre} (h : Ready i gd s w g) :
    ∃ t, runPure i gd op s = .next t ∧
      Retired s t (kindsOf s i gd w g) 0 (fun _ f => (op w.zen f).advance s.nextPc s.lastPc) := by
  unfold runPure runLanes
  exact runPath_done (after := fun _ f => op w.zen f) h rfl h.sound h.wave rfl

end

end Sys2Proof.Machine
end

