-- ==== Sys2Proof/Laws/PerInstr.lean ====
section
/-! SUPPORT. The round trip of each instruction: its word decodes to it (01 R19 to R34). -/

namespace Sys2Proof

/-- A well-formed instruction that one word encodes is what its word decodes to. -/
def Laws.RoundTrip.Statement (i : Instr) : Prop := i.wf = true → i.isWord = true → decode (encode i) = some i

theorem guardNe {i : Instr} {g : Guard} (hw : i.wf = true) (hg : i.guard? = some g) : g ≠ 0xF#4 := by
  intro h
  simp [Instr.wf, Instr.guardOk, hg, h] at hw

theorem Laws.RoundTrip.nop (g : Guard) : Laws.RoundTrip.Statement (.nop g) :=
  fun hw _ =>
  (decode_encR _ _ _ _ _ _ (guardNe hw rfl)).trans (major00 ..)
theorem Laws.RoundTrip.trap (g : Guard) (code : BitVec 12) : Laws.RoundTrip.Statement (.trap g code) :=
  fun hw _ =>
  (decode_encR _ _ _ _ _ _ (guardNe hw rfl)).trans ((major00 ..).trans (by
    unfold decodeSys; simp only [bOf_rLow, fOf_rLow]
    show only true (Instr.trap g (BitVec.extractLsb' 6 6 code ++ _)) = _
    rw [halves]; rfl))
theorem Laws.RoundTrip.rte (g : Guard) : Laws.RoundTrip.Statement (.rte g) :=
  fun hw _ =>
  (decode_encR _ _ _ _ _ _ (guardNe hw rfl)).trans (major00 ..)
theorem Laws.RoundTrip.rteReg (g : Guard) (a : Reg) : Laws.RoundTrip.Statement (.rteReg g a) :=
  fun hw _ =>
  (decode_encR _ _ _ _ _ _ (guardNe hw rfl)).trans (major00 ..)
theorem Laws.RoundTrip.brk (g : Guard) : Laws.RoundTrip.Statement (.brk g) :=
  fun hw _ =>
  (decode_encR _ _ _ _ _ _ (guardNe hw rfl)).trans (major00 ..)
theorem Laws.RoundTrip.yield (g : Guard) : Laws.RoundTrip.Statement (.yield g) :=
  fun hw _ =>
  (decode_encR _ _ _ _ _ _ (guardNe hw rfl)).trans (major00 ..)
theorem Laws.RoundTrip.fend (g : Guard) : Laws.RoundTrip.Statement (.fend g) :=
  fun hw _ =>
  (decode_encR _ _ _ _ _ _ (guardNe hw rfl)).trans (major00 ..)
theorem Laws.RoundTrip.chkerr (g : Guard) (d : Reg) : Laws.RoundTrip.Statement (.chkerr g d) :=
  fun hw _ =>
  (decode_encR _ _ _ _ _ _ (guardNe hw rfl)).trans (major00 ..)
theorem Laws.RoundTrip.nopre (g : Guard) : Laws.RoundTrip.Statement (.nopre g) :=
  fun hw _ =>
  (decode_encR _ _ _ _ _ _ (guardNe hw rfl)).trans (major00 ..)
theorem Laws.RoundTrip.preon (g : Guard) : Laws.RoundTrip.Statement (.preon g) :=
  fun hw _ =>
  (decode_encR _ _ _ _ _ _ (guardNe hw rfl)).trans (major00 ..)
theorem Laws.RoundTrip.perfq (g : Guard) (d a : Reg) : Laws.RoundTrip.Statement (.perfq g d a) :=
  fun hw _ =>
  (decode_encR _ _ _ _ _ _ (guardNe hw rfl)).trans (major00 ..)
theorem Laws.RoundTrip.livetile (g : Guard) (m : BitVec 8) : Laws.RoundTrip.Statement (.livetile g m) :=
  fun hw _ =>
  (decode_encR _ _ _ _ _ _ (guardNe hw rfl)).trans ((major00 ..).trans (by
    unfold decodeSys; simp only [bOf_rLow, fOf_rLow]
    show only (true && _ == 0#4) (Instr.livetile g ((_ : BitVec 2) ++ _)) = _
    rw [live_hi, live_parts]; rfl))
theorem Laws.RoundTrip.errinj (g : Guard) (a : Reg) : Laws.RoundTrip.Statement (.errinj g a) :=
  fun hw _ =>
  (decode_encR _ _ _ _ _ _ (guardNe hw rfl)).trans (major00 ..)
theorem Laws.RoundTrip.bra (g : Guard) (off : BitVec 22) : Laws.RoundTrip.Statement (.bra g off) :=
  fun hw _ =>
  (decode_layout _ _ _ _ _ (guardNe hw rfl)).trans (congrArg (fun x => some (Instr.bra g x)) (parts22 off))
theorem Laws.RoundTrip.call (g : Guard) (s : BitVec 6) (off : BitVec 16) : Laws.RoundTrip.Statement (.call g s off) :=
  fun hw _ =>
  (decode_layout _ _ _ _ _ (guardNe hw rfl)).trans (congrArg (fun x => some (Instr.call g s x)) (parts16 off))
theorem Laws.RoundTrip.jmpi (g : Guard) (a : Reg) : Laws.RoundTrip.Statement (.jmpi g a) :=
  fun hw _ =>
  (decode_encR _ _ _ _ _ _ (guardNe hw rfl)).trans (major03 ..)
theorem Laws.RoundTrip.calli (g : Guard) (a : Reg) (s : BitVec 6) : Laws.RoundTrip.Statement (.calli g a s) :=
  fun hw _ =>
  (decode_encR _ _ _ _ _ _ (guardNe hw rfl)).trans (major03 ..)
theorem Laws.RoundTrip.ret (g : Guard) : Laws.RoundTrip.Statement (.ret g) :=
  fun hw _ =>
  (decode_encR _ _ _ _ _ _ (guardNe hw rfl)).trans (major03 ..)
theorem Laws.RoundTrip.fork (g : Guard) (d a : Reg) (imm : BitVec 10) : Laws.RoundTrip.Statement (.fork g d a imm) :=
  fun hw _ =>
  (decode_layout _ _ _ _ _ (guardNe hw rfl)).trans (rfl)
theorem Laws.RoundTrip.join (g : Guard) (j : BitVec 4) : Laws.RoundTrip.Statement (.join g j) :=
  fun hw _ =>
  (decode_encR _ _ _ _ _ _ (guardNe hw rfl)).trans ((major05 ..).trans (by
    dsimp only
    rw [j_lo, j_hi]; rfl))
theorem Laws.RoundTrip.waitj (g : Guard) (j : BitVec 4) : Laws.RoundTrip.Statement (.waitj g j) :=
  fun hw _ =>
  (decode_encR _ _ _ _ _ _ (guardNe hw rfl)).trans ((major05 ..).trans (by
    dsimp only
    rw [j_lo, j_hi]; rfl))
theorem Laws.RoundTrip.jclr (g : Guard) (j : BitVec 4) : Laws.RoundTrip.Statement (.jclr g j) :=
  fun hw _ =>
  (decode_encR _ _ _ _ _ _ (guardNe hw rfl)).trans ((major05 ..).trans (by
    dsimp only
    rw [j_lo, j_hi]; rfl))
theorem Laws.RoundTrip.loop (g : Guard) (c : BitVec 2) (a : Reg) (imm : BitVec 10) : Laws.RoundTrip.Statement (.loop g c a imm) :=
  fun hw _ =>
  (decode_layout _ _ _ _ _ (guardNe hw rfl)).trans (by
    show only (_ == 0#4) (.loop g _ a imm) = _
    rw [c_hi, c_lo]; rfl)
theorem Laws.RoundTrip.ubr (g : Guard) (imm : BitVec 10) : Laws.RoundTrip.Statement (.ubr g imm) :=
  fun hw _ =>
  (decode_layout _ _ _ _ _ (guardNe hw rfl)).trans (rfl)
theorem Laws.RoundTrip.popd (g : Guard) (d : Reg) : Laws.RoundTrip.Statement (.popd g d) :=
  fun hw _ =>
  (decode_encR _ _ _ _ _ _ (guardNe hw rfl)).trans (major08 ..)
theorem Laws.RoundTrip.dpush (g : Guard) (d a b : Reg) : Laws.RoundTrip.Statement (.dpush g d a b) :=
  fun hw _ =>
  (decode_encR _ _ _ _ _ _ (guardNe hw rfl)).trans (major08 ..)
theorem Laws.RoundTrip.dcnt (g : Guard) (d a : Reg) : Laws.RoundTrip.Statement (.dcnt g d a) :=
  fun hw _ =>
  (decode_encR _ _ _ _ _ _ (guardNe hw rfl)).trans (major08 ..)
theorem Laws.RoundTrip.iadd (g : Guard) (d a b : Reg) : Laws.RoundTrip.Statement (.iadd g d a b) :=
  fun hw _ =>
  (decode_encR _ _ _ _ _ _ (guardNe hw rfl)).trans (major09 ..)
theorem Laws.RoundTrip.isub (g : Guard) (d a b : Reg) : Laws.RoundTrip.Statement (.isub g d a b) :=
  fun hw _ =>
  (decode_encR _ _ _ _ _ _ (guardNe hw rfl)).trans (major09 ..)
theorem Laws.RoundTrip.and (g : Guard) (d a b : Reg) : Laws.RoundTrip.Statement (.and g d a b) :=
  fun hw _ =>
  (decode_encR _ _ _ _ _ _ (guardNe hw rfl)).trans (major09 ..)
theorem Laws.RoundTrip.or (g : Guard) (d a b : Reg) : Laws.RoundTrip.Statement (.or g d a b) :=
  fun hw _ =>
  (decode_encR _ _ _ _ _ _ (guardNe hw rfl)).trans (major09 ..)
theorem Laws.RoundTrip.xor (g : Guard) (d a b : Reg) : Laws.RoundTrip.Statement (.xor g d a b) :=
  fun hw _ =>
  (decode_encR _ _ _ _ _ _ (guardNe hw rfl)).trans (major09 ..)
theorem Laws.RoundTrip.andn (g : Guard) (d a b : Reg) : Laws.RoundTrip.Statement (.andn g d a b) :=
  fun hw _ =>
  (decode_encR _ _ _ _ _ _ (guardNe hw rfl)).trans (major09 ..)
theorem Laws.RoundTrip.shl (g : Guard) (d a b : Reg) : Laws.RoundTrip.Statement (.shl g d a b) :=
  fun hw _ =>
  (decode_encR _ _ _ _ _ _ (guardNe hw rfl)).trans (major09 ..)
theorem Laws.RoundTrip.shr (g : Guard) (d a b : Reg) : Laws.RoundTrip.Statement (.shr g d a b) :=
  fun hw _ =>
  (decode_encR _ _ _ _ _ _ (guardNe hw rfl)).trans (major09 ..)
theorem Laws.RoundTrip.sar (g : Guard) (d a b : Reg) : Laws.RoundTrip.Statement (.sar g d a b) :=
  fun hw _ =>
  (decode_encR _ _ _ _ _ _ (guardNe hw rfl)).trans (major09 ..)
theorem Laws.RoundTrip.rotl (g : Guard) (d a b : Reg) : Laws.RoundTrip.Statement (.rotl g d a b) :=
  fun hw _ =>
  (decode_encR _ _ _ _ _ _ (guardNe hw rfl)).trans (major09 ..)
theorem Laws.RoundTrip.imin (g : Guard) (d a b : Reg) : Laws.RoundTrip.Statement (.imin g d a b) :=
  fun hw _ =>
  (decode_encR _ _ _ _ _ _ (guardNe hw rfl)).trans (major09 ..)
theorem Laws.RoundTrip.imax (g : Guard) (d a b : Reg) : Laws.RoundTrip.Statement (.imax g d a b) :=
  fun hw _ =>
  (decode_encR _ _ _ _ _ _ (guardNe hw rfl)).trans (major09 ..)
theorem Laws.RoundTrip.umin (g : Guard) (d a b : Reg) : Laws.RoundTrip.Statement (.umin g d a b) :=
  fun hw _ =>
  (decode_encR _ _ _ _ _ _ (guardNe hw rfl)).trans (major09 ..)
theorem Laws.RoundTrip.umax (g : Guard) (d a b : Reg) : Laws.RoundTrip.Statement (.umax g d a b) :=
  fun hw _ =>
  (decode_encR _ _ _ _ _ _ (guardNe hw rfl)).trans (major09 ..)
theorem Laws.RoundTrip.iadds (g : Guard) (d a b : Reg) : Laws.RoundTrip.Statement (.iadds g d a b) :=
  fun hw _ =>
  (decode_encR _ _ _ _ _ _ (guardNe hw rfl)).trans (major09 ..)
theorem Laws.RoundTrip.iabsd (g : Guard) (d a b : Reg) : Laws.RoundTrip.Statement (.iabsd g d a b) :=
  fun hw _ =>
  (decode_encR _ _ _ _ _ _ (guardNe hw rfl)).trans (major09 ..)
theorem Laws.RoundTrip.iaddi (g : Guard) (d a : Reg) (imm : BitVec 10) : Laws.RoundTrip.Statement (.iaddi g d a imm) :=
  fun hw _ =>
  (decode_layout _ _ _ _ _ (guardNe hw rfl)).trans (rfl)
theorem Laws.RoundTrip.andi (g : Guard) (d a : Reg) (imm : BitVec 10) : Laws.RoundTrip.Statement (.andi g d a imm) :=
  fun hw _ =>
  (decode_layout _ _ _ _ _ (guardNe hw rfl)).trans (rfl)
theorem Laws.RoundTrip.ori (g : Guard) (d a : Reg) (imm : BitVec 10) : Laws.RoundTrip.Statement (.ori g d a imm) :=
  fun hw _ =>
  (decode_layout _ _ _ _ _ (guardNe hw rfl)).trans (rfl)
theorem Laws.RoundTrip.xori (g : Guard) (d a : Reg) (imm : BitVec 10) : Laws.RoundTrip.Statement (.xori g d a imm) :=
  fun hw _ =>
  (decode_layout _ _ _ _ _ (guardNe hw rfl)).trans (rfl)
theorem Laws.RoundTrip.shfi (g : Guard) (d a : Reg) (k : ShfKind) (n : BitVec 5) : Laws.RoundTrip.Statement (.shfi g d a k n) :=
  fun hw _ =>
  (decode_layout _ _ _ _ _ (guardNe hw rfl)).trans (by
    show only (BitVec.extractLsb' 5 3 _ == 0#3) (Instr.shfi g d a (ShfKind.ofCode (BitVec.extractLsb' 8 2 _)) (BitVec.extractLsb' 0 5 _)) = _
    rw [shfi_z, shfi_k, shfi_n, ofCode_shf]; rfl)
theorem Laws.RoundTrip.movi (g : Guard) (d : Reg) (imm : BitVec 16) : Laws.RoundTrip.Statement (.movi g d imm) :=
  fun hw _ =>
  (decode_layout _ _ _ _ _ (guardNe hw rfl)).trans (congrArg (fun x => some (Instr.movi g d x)) (parts16 imm))
theorem Laws.RoundTrip.movhi (g : Guard) (d : Reg) (imm : BitVec 16) : Laws.RoundTrip.Statement (.movhi g d imm) :=
  fun hw _ =>
  (decode_layout _ _ _ _ _ (guardNe hw rfl)).trans (congrArg (fun x => some (Instr.movhi g d x)) (parts16 imm))
theorem Laws.RoundTrip.imul (g : Guard) (d a b : Reg) : Laws.RoundTrip.Statement (.imul g d a b) :=
  fun hw _ =>
  (decode_encR _ _ _ _ _ _ (guardNe hw rfl)).trans (major11 ..)
theorem Laws.RoundTrip.imulhs (g : Guard) (d a b : Reg) : Laws.RoundTrip.Statement (.imulhs g d a b) :=
  fun hw _ =>
  (decode_encR _ _ _ _ _ _ (guardNe hw rfl)).trans (major11 ..)
theorem Laws.RoundTrip.imulhu (g : Guard) (d a b : Reg) : Laws.RoundTrip.Statement (.imulhu g d a b) :=
  fun hw _ =>
  (decode_encR _ _ _ _ _ _ (guardNe hw rfl)).trans (major11 ..)
theorem Laws.RoundTrip.imad (g : Guard) (d a b : Reg) : Laws.RoundTrip.Statement (.imad g d a b) :=
  fun hw _ =>
  (decode_encR _ _ _ _ _ _ (guardNe hw rfl)).trans (major11 ..)
theorem Laws.RoundTrip.idp4s (g : Guard) (d a b : Reg) : Laws.RoundTrip.Statement (.idp4s g d a b) :=
  fun hw _ =>
  (decode_encR _ _ _ _ _ _ (guardNe hw rfl)).trans (major11 ..)
theorem Laws.RoundTrip.idp4u (g : Guard) (d a b : Reg) : Laws.RoundTrip.Statement (.idp4u g d a b) :=
  fun hw _ =>
  (decode_encR _ _ _ _ _ _ (guardNe hw rfl)).trans (major11 ..)
theorem Laws.RoundTrip.popc (g : Guard) (d a : Reg) : Laws.RoundTrip.Statement (.popc g d a) :=
  fun hw _ =>
  (decode_encR _ _ _ _ _ _ (guardNe hw rfl)).trans (major12 ..)
theorem Laws.RoundTrip.clz (g : Guard) (d a : Reg) : Laws.RoundTrip.Statement (.clz g d a) :=
  fun hw _ =>
  (decode_encR _ _ _ _ _ _ (guardNe hw rfl)).trans (major12 ..)
theorem Laws.RoundTrip.brev (g : Guard) (d a : Reg) : Laws.RoundTrip.Statement (.brev g d a) :=
  fun hw _ =>
  (decode_encR _ _ _ _ _ _ (guardNe hw rfl)).trans (major12 ..)
theorem Laws.RoundTrip.bfe (g : Guard) (d a b : Reg) : Laws.RoundTrip.Statement (.bfe g d a b) :=
  fun hw _ =>
  (decode_encR _ _ _ _ _ _ (guardNe hw rfl)).trans (major12 ..)
theorem Laws.RoundTrip.bfes (g : Guard) (d a b : Reg) : Laws.RoundTrip.Statement (.bfes g d a b) :=
  fun hw _ =>
  (decode_encR _ _ _ _ _ _ (guardNe hw rfl)).trans (major12 ..)
theorem Laws.RoundTrip.bfi (g : Guard) (d a b : Reg) : Laws.RoundTrip.Statement (.bfi g d a b) :=
  fun hw _ =>
  (decode_encR _ _ _ _ _ _ (guardNe hw rfl)).trans (major12 ..)
theorem Laws.RoundTrip.bpick (g : Guard) (d a b : Reg) : Laws.RoundTrip.Statement (.bpick g d a b) :=
  fun hw _ =>
  (decode_encR _ _ _ _ _ _ (guardNe hw rfl)).trans (major12 ..)
theorem Laws.RoundTrip.iadd64 (g : Guard) (d a b : Reg) : Laws.RoundTrip.Statement (.iadd64 g d a b) :=
  fun hw _ =>
  (decode_encR _ _ _ _ _ _ (guardNe hw rfl)).trans (major13 ..)
theorem Laws.RoundTrip.isub64 (g : Guard) (d a b : Reg) : Laws.RoundTrip.Statement (.isub64 g d a b) :=
  fun hw _ =>
  (decode_encR _ _ _ _ _ _ (guardNe hw rfl)).trans (major13 ..)
theorem Laws.RoundTrip.lea64s0 (g : Guard) (d a b : Reg) : Laws.RoundTrip.Statement (.lea64s0 g d a b) :=
  fun hw _ =>
  (decode_encR _ _ _ _ _ _ (guardNe hw rfl)).trans (major13 ..)
theorem Laws.RoundTrip.lea64s1 (g : Guard) (d a b : Reg) : Laws.RoundTrip.Statement (.lea64s1 g d a b) :=
  fun hw _ =>
  (decode_encR _ _ _ _ _ _ (guardNe hw rfl)).trans (major13 ..)
theorem Laws.RoundTrip.lea64s2 (g : Guard) (d a b : Reg) : Laws.RoundTrip.Statement (.lea64s2 g d a b) :=
  fun hw _ =>
  (decode_encR _ _ _ _ _ _ (guardNe hw rfl)).trans (major13 ..)
theorem Laws.RoundTrip.lea64s3 (g : Guard) (d a b : Reg) : Laws.RoundTrip.Statement (.lea64s3 g d a b) :=
  fun hw _ =>
  (decode_encR _ _ _ _ _ _ (guardNe hw rfl)).trans (major13 ..)
theorem Laws.RoundTrip.imulw (g : Guard) (d a b : Reg) : Laws.RoundTrip.Statement (.imulw g d a b) :=
  fun hw _ =>
  (decode_encR _ _ _ _ _ _ (guardNe hw rfl)).trans (major13 ..)
theorem Laws.RoundTrip.shl64 (g : Guard) (d a b : Reg) : Laws.RoundTrip.Statement (.shl64 g d a b) :=
  fun hw _ =>
  (decode_encR _ _ _ _ _ _ (guardNe hw rfl)).trans (major13 ..)
theorem Laws.RoundTrip.shr64 (g : Guard) (d a b : Reg) : Laws.RoundTrip.Statement (.shr64 g d a b) :=
  fun hw _ =>
  (decode_encR _ _ _ _ _ _ (guardNe hw rfl)).trans (major13 ..)
theorem Laws.RoundTrip.mov (g : Guard) (d a : Reg) (pair : Bool) : Laws.RoundTrip.Statement (.mov g d a pair) :=
  fun hw _ =>
  (decode_encR _ _ _ _ _ _ (guardNe hw rfl)).trans ((major14 ..).trans (by
    cases pair <;> rfl))
theorem Laws.RoundTrip.movs (g : Guard) (d a : Reg) (part : MovsPart) : Laws.RoundTrip.Statement (.movs g d a part) :=
  fun hw _ =>
  (decode_encR _ _ _ _ _ _ (guardNe hw rfl)).trans ((major14 ..).trans (by
    cases part <;> rfl))
theorem Laws.RoundTrip.movsr (g : Guard) (d a : Reg) (pair : Bool) : Laws.RoundTrip.Statement (.movsr g d a pair) :=
  fun hw _ =>
  (decode_encR _ _ _ _ _ _ (guardNe hw rfl)).trans ((major14 ..).trans (by
    cases pair <;> rfl))
theorem Laws.RoundTrip.movsw (g : Guard) (chk : Bool) (a : Reg) : Laws.RoundTrip.Statement (.movsw g chk a) :=
  fun hw _ =>
  (decode_encR _ _ _ _ _ _ (guardNe hw rfl)).trans ((major14 ..).trans (by
    cases chk <;> rfl))
theorem Laws.RoundTrip.movpw (g : Guard) (d : Reg) : Laws.RoundTrip.Statement (.movpw g d) :=
  fun hw _ =>
  (decode_encR _ _ _ _ _ _ (guardNe hw rfl)).trans (major14 ..)
theorem Laws.RoundTrip.movwp (g : Guard) (a : Reg) : Laws.RoundTrip.Statement (.movwp g a) :=
  fun hw _ =>
  (decode_encR _ _ _ _ _ _ (guardNe hw rfl)).trans (major14 ..)
theorem Laws.RoundTrip.sel (g : Guard) (d a b : Reg) (neg : Bool) (p : PredNo) : Laws.RoundTrip.Statement (.sel g d a b neg p) :=
  fun hw _ =>
  (decode_encR _ _ _ _ _ _ (guardNe hw rfl)).trans ((major15 ..).trans (by
    dsimp only
    rw [np_hi, np_lo]))
theorem Laws.RoundTrip.icmp (g : Guard) (pd pe : PredNo) (a b : Reg) (cc : ICond) : Laws.RoundTrip.Statement (.icmp g pd pe a b cc) :=
  fun hw _ =>
  (decode_encR _ _ _ _ _ _ (guardNe hw rfl)).trans ((major16 ..).trans (by
    dsimp only
    rw [pp_hi, pp_lo]; cases cc <;> rfl))
theorem Laws.RoundTrip.fcmp (g : Guard) (pd pe : PredNo) (a b : Reg) (cc : FCond) : Laws.RoundTrip.Statement (.fcmp g pd pe a b cc) :=
  fun hw _ =>
  (decode_encR _ _ _ _ _ _ (guardNe hw rfl)).trans ((major17 ..).trans (by
    dsimp only
    rw [pp_hi, pp_lo]; cases cc <;> rfl))
theorem Laws.RoundTrip.plop (g : Guard) (pd pe : PredNo) (x y : PredNo) (op : PlopOp) : Laws.RoundTrip.Statement (.plop g pd pe x y op) :=
  fun hw _ =>
  (decode_encR _ _ _ _ _ _ (guardNe hw rfl)).trans ((major18 ..).trans (by
    dsimp only
    rw [pp_hi, pp_lo, pred_hi, pred_hi, pred_lo, pred_lo]; cases op <;> rfl))
theorem Laws.RoundTrip.fadd (g : Guard) (d a b : Reg) (t : FTy) : Laws.RoundTrip.Statement (.fadd g d a b t) :=
  fun hw _ =>
  (decode_encR _ _ _ _ _ _ (guardNe hw rfl)).trans ((major19 ..).trans (by
    cases t <;> rfl))
theorem Laws.RoundTrip.fsub (g : Guard) (d a b : Reg) (t : FTy) : Laws.RoundTrip.Statement (.fsub g d a b t) :=
  fun hw _ =>
  (decode_encR _ _ _ _ _ _ (guardNe hw rfl)).trans ((major19 ..).trans (by
    cases t <;> rfl))
theorem Laws.RoundTrip.fmul (g : Guard) (d a b : Reg) (t : FTy) : Laws.RoundTrip.Statement (.fmul g d a b t) :=
  fun hw _ =>
  (decode_encR _ _ _ _ _ _ (guardNe hw rfl)).trans ((major1A ..).trans (by
    cases t <;> rfl))
theorem Laws.RoundTrip.fma (g : Guard) (d a b : Reg) (t : FTy) : Laws.RoundTrip.Statement (.fma g d a b t) :=
  fun hw _ =>
  (decode_encR _ _ _ _ _ _ (guardNe hw rfl)).trans ((major1B ..).trans (by
    cases t <;> rfl))
theorem Laws.RoundTrip.fnma (g : Guard) (d a b : Reg) (t : FTy) : Laws.RoundTrip.Statement (.fnma g d a b t) :=
  fun hw _ =>
  (decode_encR _ _ _ _ _ _ (guardNe hw rfl)).trans ((major1B ..).trans (by
    cases t <;> rfl))
theorem Laws.RoundTrip.fms (g : Guard) (d a b : Reg) (t : FTy) : Laws.RoundTrip.Statement (.fms g d a b t) :=
  fun hw _ =>
  (decode_encR _ _ _ _ _ _ (guardNe hw rfl)).trans ((major1B ..).trans (by
    cases t <;> rfl))
theorem Laws.RoundTrip.fnms (g : Guard) (d a b : Reg) (t : FTy) : Laws.RoundTrip.Statement (.fnms g d a b t) :=
  fun hw _ =>
  (decode_encR _ _ _ _ _ _ (guardNe hw rfl)).trans ((major1B ..).trans (by
    cases t <;> rfl))
theorem Laws.RoundTrip.fmin (g : Guard) (d a b : Reg) (t : FTy) : Laws.RoundTrip.Statement (.fmin g d a b t) :=
  fun hw _ =>
  (decode_encR _ _ _ _ _ _ (guardNe hw rfl)).trans ((major1C ..).trans (by
    cases t <;> rfl))
theorem Laws.RoundTrip.fmax (g : Guard) (d a b : Reg) (t : FTy) : Laws.RoundTrip.Statement (.fmax g d a b t) :=
  fun hw _ =>
  (decode_encR _ _ _ _ _ _ (guardNe hw rfl)).trans ((major1C ..).trans (by
    cases t <;> rfl))
theorem Laws.RoundTrip.fminn (g : Guard) (d a b : Reg) (t : FTy) : Laws.RoundTrip.Statement (.fminn g d a b t) :=
  fun hw _ =>
  (decode_encR _ _ _ _ _ _ (guardNe hw rfl)).trans ((major1C ..).trans (by
    cases t <;> rfl))
theorem Laws.RoundTrip.fmaxn (g : Guard) (d a b : Reg) (t : FTy) : Laws.RoundTrip.Statement (.fmaxn g d a b t) :=
  fun hw _ =>
  (decode_encR _ _ _ _ _ _ (guardNe hw rfl)).trans ((major1C ..).trans (by
    cases t <;> rfl))
theorem Laws.RoundTrip.cvt (g : Guard) (d a : Reg) (op : CvtOp) : Laws.RoundTrip.Statement (.cvt g d a op) :=
  fun hw _ =>
  (decode_layout _ _ _ _ _ (guardNe hw rfl)).trans (by
    show (CvtOp.ofCode _).map _ = _
    rw [cvt_round op (by simpa [Instr.wf, Instr.limits] using (Bool.and_eq_true_iff.mp (Bool.and_eq_true_iff.mp hw).1).2)]; rfl)
theorem Laws.RoundTrip.rcp (g : Guard) (d a : Reg) : Laws.RoundTrip.Statement (.rcp g d a) :=
  fun hw _ =>
  (decode_encR _ _ _ _ _ _ (guardNe hw rfl)).trans (major1E ..)
theorem Laws.RoundTrip.rsq (g : Guard) (d a : Reg) : Laws.RoundTrip.Statement (.rsq g d a) :=
  fun hw _ =>
  (decode_encR _ _ _ _ _ _ (guardNe hw rfl)).trans (major1E ..)
theorem Laws.RoundTrip.sqrt (g : Guard) (d a : Reg) : Laws.RoundTrip.Statement (.sqrt g d a) :=
  fun hw _ =>
  (decode_encR _ _ _ _ _ _ (guardNe hw rfl)).trans (major1E ..)
theorem Laws.RoundTrip.exp2 (g : Guard) (d a : Reg) : Laws.RoundTrip.Statement (.exp2 g d a) :=
  fun hw _ =>
  (decode_encR _ _ _ _ _ _ (guardNe hw rfl)).trans (major1E ..)
theorem Laws.RoundTrip.log2 (g : Guard) (d a : Reg) : Laws.RoundTrip.Statement (.log2 g d a) :=
  fun hw _ =>
  (decode_encR _ _ _ _ _ _ (guardNe hw rfl)).trans (major1E ..)
theorem Laws.RoundTrip.sinpi (g : Guard) (d a : Reg) : Laws.RoundTrip.Statement (.sinpi g d a) :=
  fun hw _ =>
  (decode_encR _ _ _ _ _ _ (guardNe hw rfl)).trans (major1E ..)
theorem Laws.RoundTrip.cospi (g : Guard) (d a : Reg) : Laws.RoundTrip.Statement (.cospi g d a) :=
  fun hw _ =>
  (decode_encR _ _ _ _ _ _ (guardNe hw rfl)).trans (major1E ..)
theorem Laws.RoundTrip.tanh (g : Guard) (d a : Reg) : Laws.RoundTrip.Statement (.tanh g d a) :=
  fun hw _ =>
  (decode_encR _ _ _ _ _ _ (guardNe hw rfl)).trans (major1E ..)
theorem Laws.RoundTrip.fclass (g : Guard) (d a : Reg) : Laws.RoundTrip.Statement (.fclass g d a) :=
  fun hw _ =>
  (decode_encR _ _ _ _ _ _ (guardNe hw rfl)).trans (major1E ..)
theorem Laws.RoundTrip.shfl (g : Guard) (d a b : Reg) (m : ShflMode) : Laws.RoundTrip.Statement (.shfl g d a b m) :=
  fun hw _ =>
  (decode_encR _ _ _ _ _ _ (guardNe hw rfl)).trans ((major1F ..).trans (by
    cases m <;> rfl))
theorem Laws.RoundTrip.voteAll (g : Guard) (pd pa : PredNo) : Laws.RoundTrip.Statement (.voteAll g pd pa) :=
  fun hw _ =>
  (decode_encR _ _ _ _ _ _ (guardNe hw rfl)).trans ((major20 ..).trans (by
    show (if _ == 0#3 then only (_ == 0#3 && true) (Instr.voteAll g _ _) else none) = _
    rw [pred_hi, pred_hi, pred_lo, pred_lo]; rfl))
theorem Laws.RoundTrip.voteAny (g : Guard) (pd pa : PredNo) : Laws.RoundTrip.Statement (.voteAny g pd pa) :=
  fun hw _ =>
  (decode_encR _ _ _ _ _ _ (guardNe hw rfl)).trans ((major20 ..).trans (by
    show (if _ == 0#3 then only (_ == 0#3 && true) (Instr.voteAny g _ _) else none) = _
    rw [pred_hi, pred_hi, pred_lo, pred_lo]; rfl))
theorem Laws.RoundTrip.voteBallot (g : Guard) (d : Reg) (pa : PredNo) (hi : Bool) : Laws.RoundTrip.Statement (.voteBallot g d pa hi) :=
  fun hw _ =>
  (decode_encR _ _ _ _ _ _ (guardNe hw rfl)).trans ((major20 ..).trans (by
    show (if _ == 0#3 then only _ (Instr.voteBallot g d _ _) else none) = _
    rw [pred_hi, pred_lo]; cases hi <;> rfl))
theorem Laws.RoundTrip.scan (g : Guard) (d a : Reg) (op : ScanOp) (ex : Bool) : Laws.RoundTrip.Statement (.scan g d a op ex) :=
  fun hw _ =>
  (decode_encR _ _ _ _ _ _ (guardNe hw rfl)).trans ((major21 ..).trans (by
    cases op <;> cases ex <;> rfl))
theorem Laws.RoundTrip.wred (g : Guard) (d a : Reg) (op : ScanOp) : Laws.RoundTrip.Statement (.wred g d a op) :=
  fun hw _ =>
  (decode_encR _ _ _ _ _ _ (guardNe hw rfl)).trans ((major22 ..).trans (by
    cases op <;> rfl))
theorem Laws.RoundTrip.dist (g : Guard) (d a b : Reg) (t : DistTy) (m : DistMetric) : Laws.RoundTrip.Statement (.dist g d a b t m) :=
  fun hw _ =>
  (decode_encR _ _ _ _ _ _ (guardNe hw rfl)).trans ((major23 ..).trans (by
    cases t <;> cases m <;> rfl))
theorem Laws.RoundTrip.topk (g : Guard) (d a b : Reg) (desc : Bool) : Laws.RoundTrip.Statement (.topk g d a b desc) :=
  fun hw _ =>
  (decode_encR _ _ _ _ _ _ (guardNe hw rfl)).trans ((major24 ..).trans (by
    cases desc <;> rfl))
theorem Laws.RoundTrip.lds (g : Guard) (d a : Reg) (ord : Ord4) (scp : Scope) (w : Width) (ch : CacheHint) : Laws.RoundTrip.Statement (.lds g d a ord scp w ch) :=
  fun hw _ =>
  (decode_layout _ _ _ _ _ (guardNe hw rfl)).trans (decodeM_mLow _ ord scp w ch)
theorem Laws.RoundTrip.sts (g : Guard) (d a : Reg) (ord : Ord4) (scp : Scope) (w : Width) (ch : CacheHint) : Laws.RoundTrip.Statement (.sts g d a ord scp w ch) :=
  fun hw _ =>
  (decode_layout _ _ _ _ _ (guardNe hw rfl)).trans (decodeM_mLow _ ord scp w ch)
theorem Laws.RoundTrip.atoms (g : Guard) (d a b : Reg) (op : AtomsOp) : Laws.RoundTrip.Statement (.atoms g d a b op) :=
  fun hw _ =>
  (decode_encR _ _ _ _ _ _ (guardNe hw rfl)).trans ((major27 ..).trans (by
    cases op <;> rfl))
theorem Laws.RoundTrip.bara (g : Guard) (b : BitVec 4) : Laws.RoundTrip.Statement (.bara g b) :=
  fun hw _ =>
  (decode_encR _ _ _ _ _ _ (guardNe hw rfl)).trans ((major28 ..).trans (by
    show (if true && _ == 0#2 then only true (Instr.bara g _) else none) = _
    rw [b4_hi, b4_lo]; rfl))
theorem Laws.RoundTrip.barw (g : Guard) (b : BitVec 4) : Laws.RoundTrip.Statement (.barw g b) :=
  fun hw _ =>
  (decode_encR _ _ _ _ _ _ (guardNe hw rfl)).trans ((major28 ..).trans (by
    show (if true && _ == 0#2 then only true (Instr.barw g _) else none) = _
    rw [b4_hi, b4_lo]; rfl))
theorem Laws.RoundTrip.bars (g : Guard) (b : BitVec 4) : Laws.RoundTrip.Statement (.bars g b) :=
  fun hw _ =>
  (decode_encR _ _ _ _ _ _ (guardNe hw rfl)).trans ((major28 ..).trans (by
    show (if true && _ == 0#2 then only true (Instr.bars g _) else none) = _
    rw [b4_hi, b4_lo]; rfl))
theorem Laws.RoundTrip.barc (g : Guard) (a : Reg) (b : BitVec 4) : Laws.RoundTrip.Statement (.barc g a b) :=
  fun hw _ =>
  (decode_encR _ _ _ _ _ _ (guardNe hw rfl)).trans ((major28 ..).trans (by
    show (if true && _ == 0#2 then some (Instr.barc g a _) else none) = _
    rw [b4_hi, b4_lo]; rfl))
theorem Laws.RoundTrip.ldg (g : Guard) (d a : Reg) (ord : Ord4) (scp : Scope) (w : Width) (ch : CacheHint) : Laws.RoundTrip.Statement (.ldg g d a ord scp w ch) :=
  fun hw _ =>
  (decode_layout _ _ _ _ _ (guardNe hw rfl)).trans (decodeM_mLow _ ord scp w ch)
theorem Laws.RoundTrip.stg (g : Guard) (d a : Reg) (ord : Ord4) (scp : Scope) (w : Width) (ch : CacheHint) : Laws.RoundTrip.Statement (.stg g d a ord scp w ch) :=
  fun hw _ =>
  (decode_layout _ _ _ _ _ (guardNe hw rfl)).trans (decodeM_mLow _ ord scp w ch)
theorem Laws.RoundTrip.stgMsg (g : Guard) (d a : Reg) (ord : Ord4) (scp : Scope) (w : Width) (ch : CacheHint) : Laws.RoundTrip.Statement (.stgMsg g d a ord scp w ch) := fun _ h => nomatch h
theorem Laws.RoundTrip.stgClrpoison (g : Guard) (d a : Reg) (ord : Ord4) (scp : Scope) (w : Width) (ch : CacheHint) : Laws.RoundTrip.Statement (.stgClrpoison g d a ord scp w ch) := fun _ h => nomatch h
theorem Laws.RoundTrip.pref (g : Guard) (a : Reg) (scp : Scope) (w : Width) (ch : CacheHint) : Laws.RoundTrip.Statement (.pref g a scp w ch) :=
  fun hw _ =>
  (decode_layout _ _ _ _ _ (guardNe hw rfl)).trans (by
    show (if 0#6 == 0#6 && ordOf _ == 0#2 then decodeM _ _ else none) = _
    rw [ord_mLow]; exact decodeM_mLow (fun _ s w h => .pref g a s w h) .none scp w ch)
theorem Laws.RoundTrip.atom (g : Guard) (d a : Reg) (ord : Ord4) (scp : Scope) (op : AtomOp) : Laws.RoundTrip.Statement (.atom g d a ord scp op) :=
  fun hw _ =>
  (decode_layout _ _ _ _ _ (guardNe hw rfl)).trans (by
    show (Scope.ofCode (scpOf _)).bind _ = _
    rw [scp_aLow, ofCode_scp]
    show (AtomOp.ofCode (opOf _)).map (Instr.atom g d a (Ord4.ofCode (ordOf _)) scp) = _
    rw [op_aLow, ord_aLow, ofCode_ord, ofCode_atom]; rfl)
theorem Laws.RoundTrip.redm (g : Guard) (d a : Reg) (ord : Ord4) (scp : Scope) (op : AtomOp) : Laws.RoundTrip.Statement (.redm g d a ord scp op) :=
  fun hw _ =>
  (decode_layout _ _ _ _ _ (guardNe hw rfl)).trans (by
    have hr : op.returnsOnly = false := by
      simpa [Instr.limits] using (Bool.and_eq_true_iff.mp (Bool.and_eq_true_iff.mp hw).1).2
    show (Scope.ofCode (scpOf _)).bind _ = _
    rw [scp_aLow, ofCode_scp]
    show (AtomOp.ofCode (opOf _)).bind (fun o => only (!o.returnsOnly) (Instr.redm g d a (Ord4.ofCode (ordOf _)) scp o)) = _
    rw [op_aLow, ord_aLow, ofCode_ord, ofCode_atom]
    show only (!op.returnsOnly) _ = _
    rw [hr]; rfl)
theorem Laws.RoundTrip.waitc (g : Guard) (d a : Reg) (ord : Ord4) (scp : Scope) (c : WCond) (w64 : Bool) : Laws.RoundTrip.Statement (.waitc g d a ord scp c w64) :=
  fun hw _ =>
  (decode_layout _ _ _ _ _ (guardNe hw rfl)).trans (by
    show (Scope.ofCode (scpOf _)).bind (fun s => only (!BitVec.getLsbD _ 1)
      (Instr.waitc g d a (Ord4.ofCode (ordOf _)) s (WCond.ofCode (widOf _)) (BitVec.getLsbD _ 0))) = _
    rw [(op_bits _).1, (op_bits _).2.1, (op_bits _).2.2, scp_aLow, ord_aLow, op_aLow, ofCode_scp, ofCode_ord]
    cases c <;> cases w64 <;> rfl)
theorem Laws.RoundTrip.scatb (g : Guard) (a b : Reg) : Laws.RoundTrip.Statement (.scatb g a b) :=
  fun hw _ =>
  (decode_encR _ _ _ _ _ _ (guardNe hw rfl)).trans (major2F ..)
theorem Laws.RoundTrip.scatf (g : Guard) (d a : Reg) : Laws.RoundTrip.Statement (.scatf g d a) :=
  fun hw _ =>
  (decode_encR _ _ _ _ _ _ (guardNe hw rfl)).trans (major2F ..)
theorem Laws.RoundTrip.qpush (g : Guard) (k : BitVec 4) (a : Reg) : Laws.RoundTrip.Statement (.qpush g k a) :=
  fun hw _ =>
  (decode_encR _ _ _ _ _ _ (guardNe hw rfl)).trans ((major30 ..).trans (by
    show (if _ == 0#2 then only true (Instr.qpush g _ a) else none) = _
    rw [b4_hi, b4_lo]; rfl))
theorem Laws.RoundTrip.qpop (g : Guard) (d : Reg) (k : BitVec 4) : Laws.RoundTrip.Statement (.qpop g d k) :=
  fun hw _ =>
  (decode_encR _ _ _ _ _ _ (guardNe hw rfl)).trans ((major30 ..).trans (by
    show (if _ == 0#2 then only true (Instr.qpop g d _) else none) = _
    rw [b4_hi, b4_lo]; rfl))
theorem Laws.RoundTrip.qtry (g : Guard) (d : Reg) (k : BitVec 4) : Laws.RoundTrip.Statement (.qtry g d k) :=
  fun hw _ =>
  (decode_encR _ _ _ _ _ _ (guardNe hw rfl)).trans ((major30 ..).trans (by
    show (if _ == 0#2 then only true (Instr.qtry g d _) else none) = _
    rw [b4_hi, b4_lo]; rfl))
theorem Laws.RoundTrip.qcnt (g : Guard) (d : Reg) (k : BitVec 4) : Laws.RoundTrip.Statement (.qcnt g d k) :=
  fun hw _ =>
  (decode_encR _ _ _ _ _ _ (guardNe hw rfl)).trans ((major30 ..).trans (by
    show (if _ == 0#2 then only true (Instr.qcnt g d _) else none) = _
    rw [b4_hi, b4_lo]; rfl))
theorem Laws.RoundTrip.waitn (g : Guard) (ld st cp tl : BitVec 5) : Laws.RoundTrip.Statement (.waitn g ld st cp tl) :=
  fun hw _ =>
  (decode_layout _ _ _ _ _ (guardNe hw rfl)).trans (by
    show only (BitVec.extractLsb' 0 2 _ == 0#2) (Instr.waitn g (BitVec.extractLsb' 1 5 _)
      (BitVec.extractLsb' 0 1 _ ++ BitVec.extractLsb' 2 4 _) (BitVec.extractLsb' 0 2 _ ++ BitVec.extractLsb' 7 3 _)
      (BitVec.extractLsb' 2 5 _)) = _
    rw [waitn_z, waitn_x, waitn_y, waitn_ld, waitn_st, waitn_cp]; rfl)
theorem Laws.RoundTrip.sleept (g : Guard) (a : Reg) : Laws.RoundTrip.Statement (.sleept g a) :=
  fun hw _ =>
  (decode_encR _ _ _ _ _ _ (guardNe hw rfl)).trans (major32 ..)
theorem Laws.RoundTrip.signset (g : Guard) (c : BitVec 3) (a b : Reg) : Laws.RoundTrip.Statement (.signset g c a b) :=
  fun hw _ =>
  (decode_encR _ _ _ _ _ _ (guardNe hw rfl)).trans ((major33 ..).trans (by
    dsimp only
    rw [pred_hi, pred_lo]; rfl))
theorem Laws.RoundTrip.signclr (g : Guard) (c : BitVec 3) : Laws.RoundTrip.Statement (.signclr g c) :=
  fun hw _ =>
  (decode_encR _ _ _ _ _ _ (guardNe hw rfl)).trans ((major33 ..).trans (by
    dsimp only
    rw [pred_hi, pred_lo]; rfl))
theorem Laws.RoundTrip.mmq (g : Guard) (c acc : BitVec 3) (sa vb : Reg) (t : MmqTy) : Laws.RoundTrip.Statement (.mmq g c acc sa vb t) :=
  fun hw _ =>
  (decode_encR _ _ _ _ _ _ (guardNe hw rfl)).trans ((major34 ..).trans (by
    dsimp only
    rw [pp_hi, pp_lo]; cases t <;> rfl))
theorem Laws.RoundTrip.accz (g : Guard) (t : BitVec 3) : Laws.RoundTrip.Statement (.accz g t) :=
  fun hw _ =>
  (decode_encR _ _ _ _ _ _ (guardNe hw rfl)).trans ((major35 ..).trans (by
    show (if _ == 0#3 then only true (Instr.accz g _) else none) = _
    rw [pred_hi, pred_lo]; rfl))
theorem Laws.RoundTrip.accrd (g : Guard) (d a : Reg) (t : BitVec 3) : Laws.RoundTrip.Statement (.accrd g d a t) :=
  fun hw _ =>
  (decode_encR _ _ _ _ _ _ (guardNe hw rfl)).trans ((major35 ..).trans (by
    show (if _ == 0#3 then some (Instr.accrd g d a _) else none) = _
    rw [pred_hi, pred_lo]; rfl))
theorem Laws.RoundTrip.accwr (g : Guard) (d a : Reg) (t : BitVec 3) : Laws.RoundTrip.Statement (.accwr g d a t) :=
  fun hw _ =>
  (decode_encR _ _ _ _ _ _ (guardNe hw rfl)).trans ((major35 ..).trans (by
    show (if _ == 0#3 then some (Instr.accwr g d a _) else none) = _
    rw [pred_hi, pred_lo]; rfl))
theorem Laws.RoundTrip.acccv (g : Guard) (a : Reg) (t : BitVec 3) : Laws.RoundTrip.Statement (.acccv g a t) :=
  fun hw _ =>
  (decode_encR _ _ _ _ _ _ (guardNe hw rfl)).trans ((major35 ..).trans (by
    show (if _ == 0#3 then only true (Instr.acccv g a _) else none) = _
    rw [pred_hi, pred_lo]; rfl))
theorem Laws.RoundTrip.mdrain (g : Guard) (a : Reg) : Laws.RoundTrip.Statement (.mdrain g a) :=
  fun hw _ =>
  (decode_encR _ _ _ _ _ _ (guardNe hw rfl)).trans (major36 ..)
theorem Laws.RoundTrip.mrest (g : Guard) (a : Reg) : Laws.RoundTrip.Statement (.mrest g a) :=
  fun hw _ =>
  (decode_encR _ _ _ _ _ _ (guardNe hw rfl)).trans (major36 ..)
theorem Laws.RoundTrip.mstat (g : Guard) (d a : Reg) : Laws.RoundTrip.Statement (.mstat g d a) :=
  fun hw _ =>
  (decode_encR _ _ _ _ _ _ (guardNe hw rfl)).trans (major36 ..)
theorem Laws.RoundTrip.freeze (g : Guard) (d a b : Reg) : Laws.RoundTrip.Statement (.freeze g d a b) :=
  fun hw _ =>
  (decode_encR _ _ _ _ _ _ (guardNe hw rfl)).trans (major37 ..)
theorem Laws.RoundTrip.thaw (g : Guard) (d a : Reg) : Laws.RoundTrip.Statement (.thaw g d a) :=
  fun hw _ =>
  (decode_encR _ _ _ _ _ _ (guardNe hw rfl)).trans (major37 ..)
theorem Laws.RoundTrip.fquery (g : Guard) (d a : Reg) : Laws.RoundTrip.Statement (.fquery g d a) :=
  fun hw _ =>
  (decode_encR _ _ _ _ _ _ (guardNe hw rfl)).trans (major37 ..)
theorem Laws.RoundTrip.tokw (g : Guard) : Laws.RoundTrip.Statement (.tokw g) :=
  fun hw _ =>
  (decode_encR _ _ _ _ _ _ (guardNe hw rfl)).trans (major38 ..)
theorem Laws.RoundTrip.tokp (g : Guard) : Laws.RoundTrip.Statement (.tokp g) :=
  fun hw _ =>
  (decode_encR _ _ _ _ _ _ (guardNe hw rfl)).trans (major38 ..)
theorem Laws.RoundTrip.stepp (g : Guard) (d a b : Reg) : Laws.RoundTrip.Statement (.stepp g d a b) :=
  fun hw _ =>
  (decode_encR _ _ _ _ _ _ (guardNe hw rfl)).trans (major39 ..)
theorem Laws.RoundTrip.stepr (g : Guard) (d a b : Reg) : Laws.RoundTrip.Statement (.stepr g d a b) :=
  fun hw _ =>
  (decode_encR _ _ _ _ _ _ (guardNe hw rfl)).trans (major39 ..)
theorem Laws.RoundTrip.stepq (g : Guard) (d b : Reg) : Laws.RoundTrip.Statement (.stepq g d b) :=
  fun hw _ =>
  (decode_encR _ _ _ _ _ _ (guardNe hw rfl)).trans (major39 ..)
theorem Laws.RoundTrip.ximm (p : BitVec 24) : Laws.RoundTrip.Statement (.ximm p) := by
  intro _ _
  show (if guardOf ((0xF0#8 : Byte) ++ p) == 0xF#4 then decodeHint ((0xF0#8 : Byte) ++ p) else _) = _
  rw [hint_guard]
  show decodeHint ((0xF0#8 : Byte) ++ p) = _
  unfold decodeHint
  rw [hint_kind]
  exact congrArg (fun x => some (Instr.ximm x)) (hint_pay _ p)
theorem Laws.RoundTrip.xop (p : BitVec 24) : Laws.RoundTrip.Statement (.xop p) := by
  intro _ _
  show (if guardOf ((0xF1#8 : Byte) ++ p) == 0xF#4 then decodeHint ((0xF1#8 : Byte) ++ p) else _) = _
  rw [hint_guard]
  show decodeHint ((0xF1#8 : Byte) ++ p) = _
  unfold decodeHint
  rw [hint_kind]
  exact congrArg (fun x => some (Instr.xop x)) (hint_pay _ p)
theorem Laws.RoundTrip.mod (inv msg clr sat : Bool) (rm : Rnd) : Laws.RoundTrip.Statement (.mod inv msg clr sat rm) := by
  cases inv <;> cases msg <;> cases clr <;> cases sat <;> cases rm <;> exact fun _ _ => rfl
theorem Laws.RoundTrip.sched (yld : Bool) (reuse stall : BitVec 4) : Laws.RoundTrip.Statement (.sched yld reuse stall) := by
  intro _ _
  show decode (0xF3#8 ++ (0#15) ++ bit1 yld ++ reuse ++ stall) = _
  rw [sched_pay]
  show (if guardOf (_ : Word) == 0xF#4 then decodeHint (_ : Word) else _) = _
  rw [hint_guard]
  show decodeHint (_ : Word) = _
  unfold decodeHint
  rw [hint_kind]
  show only (BitVec.extractLsb' (n := 32) 9 15 _ == 0#15) (Instr.sched (BitVec.getLsbD (w := 32) _ 8)
    (BitVec.extractLsb' (n := 32) 4 4 _) (BitVec.extractLsb' (n := 32) 0 4 _)) = _
  have hy : ∀ w : Word, w.getLsbD 8 = (w.extractLsb' 8 1 == 1#1) := by
    intro w
    rw [← (by simp : (w.extractLsb' 8 1).getLsbD 0 = w.getLsbD 8)]
    generalize w.extractLsb' 8 1 = x; revert x; decide
  rw [hy, hint_field _ _ _ _ (by omega), hint_field _ _ _ _ (by omega), hint_field _ _ _ _ (by omega),
    hint_field _ _ _ _ (by omega), sched_z, sched_u, sched_t, sched_y]
  cases yld <;> rfl
theorem Laws.RoundTrip.xoff (p : BitVec 24) : Laws.RoundTrip.Statement (.xoff p) := by
  intro _ _
  show (if guardOf ((0xF4#8 : Byte) ++ p) == 0xF#4 then decodeHint ((0xF4#8 : Byte) ++ p) else _) = _
  rw [hint_guard]
  show decodeHint ((0xF4#8 : Byte) ++ p) = _
  unfold decodeHint
  rw [hint_kind]
  exact congrArg (fun x => some (Instr.xoff x)) (hint_pay _ p)
theorem Laws.RoundTrip.faultRecordPost (k : Nat) : Laws.RoundTrip.Statement (.faultRecordPost k) :=
  fun _ h => nomatch h
theorem Laws.RoundTrip.waveEnd (w : Nat) : Laws.RoundTrip.Statement (.waveEnd w) :=
  fun _ h => nomatch h
theorem Laws.RoundTrip.mmqIssue (q : Nat) : Laws.RoundTrip.Statement (.mmqIssue q) :=
  fun _ h => nomatch h
theorem Laws.RoundTrip.mmqCommit (q : Nat) (c : MmqCheck) : Laws.RoundTrip.Statement (.mmqCommit q c) :=
  fun _ h => nomatch h
theorem Laws.RoundTrip.tilesOperationComplete (k : Nat) : Laws.RoundTrip.Statement (.tilesOperationComplete k) :=
  fun _ h => nomatch h
theorem Laws.RoundTrip.copyCompletion (k : Nat) (inp : CopyInput) : Laws.RoundTrip.Statement (.copyCompletion k inp) :=
  fun _ h => nomatch h
theorem Laws.RoundTrip.sleeptWake (w : Nat) : Laws.RoundTrip.Statement (.sleeptWake w) :=
  fun _ h => nomatch h
theorem Laws.RoundTrip.waitcRelease (w lane : Nat) : Laws.RoundTrip.Statement (.waitcRelease w lane) :=
  fun _ h => nomatch h
theorem Laws.RoundTrip.waitcTimeout (w lane : Nat) : Laws.RoundTrip.Statement (.waitcTimeout w lane) :=
  fun _ h => nomatch h
theorem Laws.RoundTrip.monitorPoll (w lane : Nat) : Laws.RoundTrip.Statement (.monitorPoll w lane) :=
  fun _ h => nomatch h
theorem Laws.RoundTrip.waveSwapOut (w : Nat) : Laws.RoundTrip.Statement (.waveSwapOut w) :=
  fun _ h => nomatch h
theorem Laws.RoundTrip.waveReturn (w : Nat) : Laws.RoundTrip.Statement (.waveReturn w) :=
  fun _ h => nomatch h
theorem Laws.RoundTrip.watchArm (i : Nat) : Laws.RoundTrip.Statement (.watchArm i) :=
  fun _ h => nomatch h
theorem Laws.RoundTrip.watchDisarm (i : Nat) : Laws.RoundTrip.Statement (.watchDisarm i) :=
  fun _ h => nomatch h
theorem Laws.RoundTrip.watchFire (i : Nat) : Laws.RoundTrip.Statement (.watchFire i) :=
  fun _ h => nomatch h
theorem Laws.RoundTrip.codePageScan (k : Nat) : Laws.RoundTrip.Statement (.codePageScan k) :=
  fun _ h => nomatch h
theorem Laws.RoundTrip.map (q : Nat) : Laws.RoundTrip.Statement (.map q) :=
  fun _ h => nomatch h
theorem Laws.RoundTrip.unmap (q : Nat) : Laws.RoundTrip.Statement (.unmap q) :=
  fun _ h => nomatch h
theorem Laws.RoundTrip.protect (q : Nat) : Laws.RoundTrip.Statement (.protect q) :=
  fun _ h => nomatch h
theorem Laws.RoundTrip.split (q : Nat) : Laws.RoundTrip.Statement (.split q) :=
  fun _ h => nomatch h
theorem Laws.RoundTrip.unfix (q : Nat) : Laws.RoundTrip.Statement (.unfix q) :=
  fun _ h => nomatch h
theorem Laws.RoundTrip.resolve (q : Nat) : Laws.RoundTrip.Statement (.resolve q) :=
  fun _ h => nomatch h
theorem Laws.RoundTrip.asidnew (q : Nat) : Laws.RoundTrip.Statement (.asidnew q) :=
  fun _ h => nomatch h
theorem Laws.RoundTrip.asidfree (q : Nat) : Laws.RoundTrip.Statement (.asidfree q) :=
  fun _ h => nomatch h
theorem Laws.RoundTrip.mappingCompletion (q : Nat) : Laws.RoundTrip.Statement (.mappingCompletion q) :=
  fun _ h => nomatch h
theorem Laws.RoundTrip.freezeComplete (k : Nat) : Laws.RoundTrip.Statement (.freezeComplete k) :=
  fun _ h => nomatch h
theorem Laws.RoundTrip.replicaMake (page dev : Nat) : Laws.RoundTrip.Statement (.replicaMake page dev) :=
  fun _ h => nomatch h
theorem Laws.RoundTrip.replicaDrop (page dev : Nat) : Laws.RoundTrip.Statement (.replicaDrop page dev) :=
  fun _ h => nomatch h
theorem Laws.RoundTrip.replicaCollect (page dev : Nat) : Laws.RoundTrip.Statement (.replicaCollect page dev) :=
  fun _ h => nomatch h
theorem Laws.RoundTrip.thawComplete (page : Nat) : Laws.RoundTrip.Statement (.thawComplete page) :=
  fun _ h => nomatch h
theorem Laws.RoundTrip.agentDeath (a : Agent) : Laws.RoundTrip.Statement (.agentDeath a) :=
  fun _ h => nomatch h
theorem Laws.RoundTrip.stageRelease (t : Nat) : Laws.RoundTrip.Statement (.stageRelease t) :=
  fun _ h => nomatch h
theorem Laws.RoundTrip.deterministicWatchdog (t : Nat) : Laws.RoundTrip.Statement (.deterministicWatchdog t) :=
  fun _ h => nomatch h
theorem Laws.RoundTrip.phaseEnd (p : Nat) : Laws.RoundTrip.Statement (.phaseEnd p) :=
  fun _ h => nomatch h
theorem Laws.RoundTrip.gridCompletion (k : Nat) : Laws.RoundTrip.Statement (.gridCompletion k) :=
  fun _ h => nomatch h
theorem Laws.RoundTrip.mailboxMessage (m : MsgSource) : Laws.RoundTrip.Statement (.mailboxMessage m) :=
  fun _ h => nomatch h
theorem Laws.RoundTrip.launch (m : Nat) : Laws.RoundTrip.Statement (.launch m) :=
  fun _ h => nomatch h
theorem Laws.RoundTrip.scratchpadAllotmentCleared (t : Nat) : Laws.RoundTrip.Statement (.scratchpadAllotmentCleared t) :=
  fun _ h => nomatch h
theorem Laws.RoundTrip.partitionHalt (p : Nat) : Laws.RoundTrip.Statement (.partitionHalt p) :=
  fun _ h => nomatch h
theorem Laws.RoundTrip.contextSave (p : Nat) : Laws.RoundTrip.Statement (.contextSave p) :=
  fun _ h => nomatch h
theorem Laws.RoundTrip.contextRestore (p : Nat) : Laws.RoundTrip.Statement (.contextRestore p) :=
  fun _ h => nomatch h
theorem Laws.RoundTrip.nopreOverrun (w : Nat) : Laws.RoundTrip.Statement (.nopreOverrun w) :=
  fun _ h => nomatch h
theorem Laws.RoundTrip.inFieldTest (p : Nat) : Laws.RoundTrip.Statement (.inFieldTest p) :=
  fun _ h => nomatch h
theorem Laws.RoundTrip.vesperBankTest (p bank : Nat) : Laws.RoundTrip.Statement (.vesperBankTest p bank) :=
  fun _ h => nomatch h
theorem Laws.RoundTrip.inFieldTestResult (p : Nat) (pass : Bool) : Laws.RoundTrip.Statement (.inFieldTestResult p pass) :=
  fun _ h => nomatch h
theorem Laws.RoundTrip.throttleHalving (p : Nat) : Laws.RoundTrip.Statement (.throttleHalving p) :=
  fun _ h => nomatch h
theorem Laws.RoundTrip.stallSample (c : Nat) (x : Sample) : Laws.RoundTrip.Statement (.stallSample c x) :=
  fun _ h => nomatch h
theorem Laws.RoundTrip.clockSwitch (c : Nat) : Laws.RoundTrip.Statement (.clockSwitch c) :=
  fun _ h => nomatch h
theorem Laws.RoundTrip.crossingResync (c : Nat) : Laws.RoundTrip.Statement (.crossingResync c) :=
  fun _ h => nomatch h
theorem Laws.RoundTrip.levelChangeComplete (c : Nat) : Laws.RoundTrip.Statement (.levelChangeComplete c) :=
  fun _ h => nomatch h
theorem Laws.RoundTrip.perfqHoldExpiry (c : Nat) : Laws.RoundTrip.Statement (.perfqHoldExpiry c) :=
  fun _ h => nomatch h
theorem Laws.RoundTrip.powerLimitCheck (watts : Nat) : Laws.RoundTrip.Statement (.powerLimitCheck watts) :=
  fun _ h => nomatch h
theorem Laws.RoundTrip.heatReductionFall (c : Nat) : Laws.RoundTrip.Statement (.heatReductionFall c) :=
  fun _ h => nomatch h
theorem Laws.RoundTrip.hostSnoop (line : Nat) : Laws.RoundTrip.Statement (.hostSnoop line) :=
  fun _ h => nomatch h
theorem Laws.RoundTrip.spdmRequest (nonce : Nat) : Laws.RoundTrip.Statement (.spdmRequest nonce) :=
  fun _ h => nomatch h
theorem Laws.RoundTrip.peerLeave (p : Nat) : Laws.RoundTrip.Statement (.peerLeave p) :=
  fun _ h => nomatch h
theorem Laws.RoundTrip.commandRingEnable (en : Bool) : Laws.RoundTrip.Statement (.commandRingEnable en) :=
  fun _ h => nomatch h
theorem Laws.RoundTrip.commandRingTail (v : BitVec 16) : Laws.RoundTrip.Statement (.commandRingTail v) :=
  fun _ h => nomatch h
theorem Laws.RoundTrip.registerWrite (r : HostReg) (v : DWord) : Laws.RoundTrip.Statement (.registerWrite r v) :=
  fun _ h => nomatch h
theorem Laws.RoundTrip.ecallWait (e limit : Nat) : Laws.RoundTrip.Statement (.ecallWait e limit) :=
  fun _ h => nomatch h
theorem Laws.RoundTrip.ecallExit (e : Nat) (code : DWord) : Laws.RoundTrip.Statement (.ecallExit e code) :=
  fun _ h => nomatch h
theorem Laws.RoundTrip.ecallYield (e : Nat) : Laws.RoundTrip.Statement (.ecallYield e) :=
  fun _ h => nomatch h
theorem Laws.RoundTrip.ecallOther (e : Nat) : Laws.RoundTrip.Statement (.ecallOther e) :=
  fun _ h => nomatch h
theorem Laws.RoundTrip.episodeWaitLimit (e : Nat) : Laws.RoundTrip.Statement (.episodeWaitLimit e) :=
  fun _ h => nomatch h
theorem Laws.RoundTrip.episodeQuantum (e : Nat) : Laws.RoundTrip.Statement (.episodeQuantum e) :=
  fun _ h => nomatch h
theorem Laws.RoundTrip.episodeAccessDenied (e : Nat) : Laws.RoundTrip.Statement (.episodeAccessDenied e) :=
  fun _ h => nomatch h
theorem Laws.RoundTrip.episodeException (e : Nat) : Laws.RoundTrip.Statement (.episodeException e) :=
  fun _ h => nomatch h
theorem Laws.RoundTrip.observationPost (p : Nat) : Laws.RoundTrip.Statement (.observationPost p) :=
  fun _ h => nomatch h
theorem Laws.RoundTrip.stepWatchdog (e : Nat) : Laws.RoundTrip.Statement (.stepWatchdog e) :=
  fun _ h => nomatch h
theorem Laws.RoundTrip.storeCompletion (k : Nat) : Laws.RoundTrip.Statement (.storeCompletion k) :=
  fun _ h => nomatch h
theorem Laws.RoundTrip.atomicCompletion (w lane : Nat) : Laws.RoundTrip.Statement (.atomicCompletion w lane) :=
  fun _ h => nomatch h
theorem Laws.RoundTrip.asynchronousEngineFault (o : EngineOp) : Laws.RoundTrip.Statement (.asynchronousEngineFault o) :=
  fun _ h => nomatch h
theorem Laws.RoundTrip.hostOrPeerRequest (r : OutsideReq) : Laws.RoundTrip.Statement (.hostOrPeerRequest r) :=
  fun _ h => nomatch h
theorem Laws.RoundTrip.powerLimitSet (watts : Nat) : Laws.RoundTrip.Statement (.powerLimitSet watts) :=
  fun _ h => nomatch h
theorem Laws.RoundTrip.teamPlacement : Laws.RoundTrip.Statement (.teamPlacement) :=
  fun _ h => absurd h (by decide)
theorem Laws.RoundTrip.fatalError : Laws.RoundTrip.Statement (.fatalError) :=
  fun _ h => absurd h (by decide)
theorem Laws.RoundTrip.hostLinkLoss : Laws.RoundTrip.Statement (.hostLinkLoss) :=
  fun _ h => absurd h (by decide)
theorem Laws.RoundTrip.reset : Laws.RoundTrip.Statement (.reset) :=
  fun _ h => absurd h (by decide)
theorem Laws.RoundTrip.powerGating : Laws.RoundTrip.Statement (.powerGating) :=
  fun _ h => absurd h (by decide)
theorem Laws.RoundTrip.mbbind : Laws.RoundTrip.Statement (.mbbind) :=
  fun _ h => absurd h (by decide)
theorem Laws.RoundTrip.mbfree : Laws.RoundTrip.Statement (.mbfree) :=
  fun _ h => absurd h (by decide)
theorem Laws.RoundTrip.swbind : Laws.RoundTrip.Statement (.swbind) :=
  fun _ h => absurd h (by decide)
theorem Laws.RoundTrip.swfree : Laws.RoundTrip.Statement (.swfree) :=
  fun _ h => absurd h (by decide)
theorem Laws.RoundTrip.scrub : Laws.RoundTrip.Statement (.scrub) :=
  fun _ h => absurd h (by decide)
theorem Laws.RoundTrip.kill : Laws.RoundTrip.Statement (.kill) :=
  fun _ h => absurd h (by decide)
theorem Laws.RoundTrip.inject : Laws.RoundTrip.Statement (.inject) :=
  fun _ h => absurd h (by decide)
theorem Laws.RoundTrip.preempt : Laws.RoundTrip.Statement (.preempt) :=
  fun _ h => absurd h (by decide)
theorem Laws.RoundTrip.epnew : Laws.RoundTrip.Statement (.epnew) :=
  fun _ h => absurd h (by decide)
theorem Laws.RoundTrip.epgo : Laws.RoundTrip.Statement (.epgo) :=
  fun _ h => absurd h (by decide)
theorem Laws.RoundTrip.epkill : Laws.RoundTrip.Statement (.epkill) :=
  fun _ h => absurd h (by decide)
theorem Laws.RoundTrip.epfree : Laws.RoundTrip.Statement (.epfree) :=
  fun _ h => absurd h (by decide)
theorem Laws.RoundTrip.pairbind : Laws.RoundTrip.Statement (.pairbind) :=
  fun _ h => absurd h (by decide)
theorem Laws.RoundTrip.pairfree : Laws.RoundTrip.Statement (.pairfree) :=
  fun _ h => absurd h (by decide)
theorem Laws.RoundTrip.epbudget : Laws.RoundTrip.Statement (.epbudget) :=
  fun _ h => absurd h (by decide)

end Sys2Proof
end

