-- ==== Sys2Proof/Laws/State.lean ====
section
/-! SUPPORT. One lemma for each field of the state (and of a fibre) under each named update, so that no proof unfolds a
record update; and what trap entry and return leave of a fibre (13 R311, R313). -/

namespace Sys2Proof.Machine

section
variable (s : State)

/-! #### setWave -/

@[simp] theorem State.setWave_waves (n : Nat) (x : Wave) : (s.setWave n x).waves = s.waves.set n x := rfl
@[simp] theorem State.setWave_teams (n : Nat) (x : Wave) : (s.setWave n x).teams = s.teams := rfl
@[simp] theorem State.setWave_grids (n : Nat) (x : Wave) : (s.setWave n x).grids = s.grids := rfl
@[simp] theorem State.setWave_phases (n : Nat) (x : Wave) : (s.setWave n x).phases = s.phases := rfl
@[simp] theorem State.setWave_mailboxes (n : Nat) (x : Wave) : (s.setWave n x).mailboxes = s.mailboxes := rfl
@[simp] theorem State.setWave_flights (n : Nat) (x : Wave) : (s.setWave n x).flights = s.flights := rfl
@[simp] theorem State.setWave_requeue (n : Nat) (x : Wave) : (s.setWave n x).requeue = s.requeue := rfl
@[simp] theorem State.setWave_serial (n : Nat) (x : Wave) : (s.setWave n x).serial = s.serial := rfl
@[simp] theorem State.setWave_quads (n : Nat) (x : Wave) : (s.setWave n x).quads = s.quads := rfl
@[simp] theorem State.setWave_tileOps (n : Nat) (x : Wave) : (s.setWave n x).tileOps = s.tileOps := rfl
@[simp] theorem State.setWave_engine (n : Nat) (x : Wave) : (s.setWave n x).engine = s.engine := rfl
@[simp] theorem State.setWave_slotQueue (n : Nat) (x : Wave) : (s.setWave n x).slotQueue = s.slotQueue := rfl
@[simp] theorem State.setWave_splits (n : Nat) (x : Wave) : (s.setWave n x).splits = s.splits := rfl
@[simp] theorem State.setWave_mem (n : Nat) (x : Wave) : (s.setWave n x).mem = s.mem := rfl
@[simp] theorem State.setWave_poison (n : Nat) (x : Wave) : (s.setWave n x).poison = s.poison := rfl
@[simp] theorem State.setWave_l1 (n : Nat) (x : Wave) : (s.setWave n x).l1 = s.l1 := rfl
@[simp] theorem State.setWave_pend (n : Nat) (x : Wave) : (s.setWave n x).pend = s.pend := rfl
@[simp] theorem State.setWave_homing (n : Nat) (x : Wave) : (s.setWave n x).homing = s.homing := rfl
@[simp] theorem State.setWave_late (n : Nat) (x : Wave) : (s.setWave n x).late = s.late := rfl
@[simp] theorem State.setWave_modified (n : Nat) (x : Wave) : (s.setWave n x).modified = s.modified := rfl
@[simp] theorem State.setWave_leaders (n : Nat) (x : Wave) : (s.setWave n x).leaders = s.leaders := rfl
@[simp] theorem State.setWave_shadows (n : Nat) (x : Wave) : (s.setWave n x).shadows = s.shadows := rfl
@[simp] theorem State.setWave_spaces (n : Nat) (x : Wave) : (s.setWave n x).spaces = s.spaces := rfl
@[simp] theorem State.setWave_pages (n : Nat) (x : Wave) : (s.setWave n x).pages = s.pages := rfl
@[simp] theorem State.setWave_frozen (n : Nat) (x : Wave) : (s.setWave n x).frozen = s.frozen := rfl
@[simp] theorem State.setWave_regions (n : Nat) (x : Wave) : (s.setWave n x).regions = s.regions := rfl
@[simp] theorem State.setWave_records (n : Nat) (x : Wave) : (s.setWave n x).records = s.records := rfl
@[simp] theorem State.setWave_recSeq (n : Nat) (x : Wave) : (s.setWave n x).recSeq = s.recSeq := rfl
@[simp] theorem State.setWave_freezes (n : Nat) (x : Wave) : (s.setWave n x).freezes = s.freezes := rfl
@[simp] theorem State.setWave_parkedReqs (n : Nat) (x : Wave) : (s.setWave n x).parkedReqs = s.parkedReqs := rfl
@[simp] theorem State.setWave_delivered (n : Nat) (x : Wave) : (s.setWave n x).delivered = s.delivered := rfl
@[simp] theorem State.setWave_commands (n : Nat) (x : Wave) : (s.setWave n x).commands = s.commands := rfl
@[simp] theorem State.setWave_parts (n : Nat) (x : Wave) : (s.setWave n x).parts = s.parts := rfl
@[simp] theorem State.setWave_zenCnt (n : Nat) (x : Wave) : (s.setWave n x).zenCnt = s.zenCnt := rfl
@[simp] theorem State.setWave_zenLed (n : Nat) (x : Wave) : (s.setWave n x).zenLed = s.zenLed := rfl
@[simp] theorem State.setWave_injects (n : Nat) (x : Wave) : (s.setWave n x).injects = s.injects := rfl
@[simp] theorem State.setWave_faulty (n : Nat) (x : Wave) : (s.setWave n x).faulty = s.faulty := rfl
@[simp] theorem State.setWave_clusters (n : Nat) (x : Wave) : (s.setWave n x).clusters = s.clusters := rfl
@[simp] theorem State.setWave_limit (n : Nat) (x : Wave) : (s.setWave n x).limit = s.limit := rfl
@[simp] theorem State.setWave_isModule (n : Nat) (x : Wave) : (s.setWave n x).isModule = s.isModule := rfl
@[simp] theorem State.setWave_watts (n : Nat) (x : Wave) : (s.setWave n x).watts = s.watts := rfl
@[simp] theorem State.setWave_bubbles (n : Nat) (x : Wave) : (s.setWave n x).bubbles = s.bubbles := rfl
@[simp] theorem State.setWave_lowSince (n : Nat) (x : Wave) : (s.setWave n x).lowSince = s.lowSince := rfl
@[simp] theorem State.setWave_nextCheck (n : Nat) (x : Wave) : (s.setWave n x).nextCheck = s.nextCheck := rfl
@[simp] theorem State.setWave_watches (n : Nat) (x : Wave) : (s.setWave n x).watches = s.watches := rfl
@[simp] theorem State.setWave_ring (n : Nat) (x : Wave) : (s.setWave n x).ring = s.ring := rfl
@[simp] theorem State.setWave_windows (n : Nat) (x : Wave) : (s.setWave n x).windows = s.windows := rfl
@[simp] theorem State.setWave_hostMod (n : Nat) (x : Wave) : (s.setWave n x).hostMod = s.hostMod := rfl
@[simp] theorem State.setWave_linkUp (n : Nat) (x : Wave) : (s.setWave n x).linkUp = s.linkUp := rfl
@[simp] theorem State.setWave_dev (n : Nat) (x : Wave) : (s.setWave n x).dev = s.dev := rfl
@[simp] theorem State.setWave_failing (n : Nat) (x : Wave) : (s.setWave n x).failing = s.failing := rfl
@[simp] theorem State.setWave_image (n : Nat) (x : Wave) : (s.setWave n x).image = s.image := rfl
@[simp] theorem State.setWave_firmware (n : Nat) (x : Wave) : (s.setWave n x).firmware = s.firmware := rfl
@[simp] theorem State.setWave_devNum (n : Nat) (x : Wave) : (s.setWave n x).devNum = s.devNum := rfl
@[simp] theorem State.setWave_peers (n : Nat) (x : Wave) : (s.setWave n x).peers = s.peers := rfl
@[simp] theorem State.setWave_outputs (n : Nat) (x : Wave) : (s.setWave n x).outputs = s.outputs := rfl
@[simp] theorem State.setWave_episodes (n : Nat) (x : Wave) : (s.setWave n x).episodes = s.episodes := rfl
@[simp] theorem State.setWave_pairs (n : Nat) (x : Wave) : (s.setWave n x).pairs = s.pairs := rfl
@[simp] theorem State.setWave_ready (n : Nat) (x : Wave) : (s.setWave n x).ready = s.ready := rfl
@[simp] theorem State.setWave_time (n : Nat) (x : Wave) : (s.setWave n x).time = s.time := rfl
@[simp] theorem State.setWave_agenda (n : Nat) (x : Wave) : (s.setWave n x).agenda = s.agenda := rfl
@[simp] theorem State.setWave_bundle (n : Nat) (x : Wave) : (s.setWave n x).bundle = s.bundle := rfl
@[simp] theorem State.setWave_cur (n : Nat) (x : Wave) : (s.setWave n x).cur = s.cur := rfl
@[simp] theorem State.setWave_turn (n : Nat) (x : Wave) : (s.setWave n x).turn = s.turn := rfl
@[simp] theorem State.setWave_tried (n : Nat) (x : Wave) : (s.setWave n x).tried = s.tried := rfl
@[simp] theorem State.setWave_defer (n : Nat) (x : Wave) : (s.setWave n x).defer = s.defer := rfl
@[simp] theorem State.setWave_placings (n : Nat) (x : Wave) : (s.setWave n x).placings = s.placings := rfl
@[simp] theorem State.setWave_arrivals (n : Nat) (x : Wave) : (s.setWave n x).arrivals = s.arrivals := rfl
@[simp] theorem State.setWave_freeCtr (n : Nat) (x : Wave) : (s.setWave n x).freeCtr = s.freeCtr := rfl

/-! #### modWave -/

@[simp] theorem State.modWave_waves (n : Nat) (f : Wave → Wave) : (s.modWave n f).waves = modAt s.waves n f := rfl
@[simp] theorem State.modWave_teams (n : Nat) (f : Wave → Wave) : (s.modWave n f).teams = s.teams := rfl
@[simp] theorem State.modWave_grids (n : Nat) (f : Wave → Wave) : (s.modWave n f).grids = s.grids := rfl
@[simp] theorem State.modWave_phases (n : Nat) (f : Wave → Wave) : (s.modWave n f).phases = s.phases := rfl
@[simp] theorem State.modWave_mailboxes (n : Nat) (f : Wave → Wave) : (s.modWave n f).mailboxes = s.mailboxes := rfl
@[simp] theorem State.modWave_flights (n : Nat) (f : Wave → Wave) : (s.modWave n f).flights = s.flights := rfl
@[simp] theorem State.modWave_requeue (n : Nat) (f : Wave → Wave) : (s.modWave n f).requeue = s.requeue := rfl
@[simp] theorem State.modWave_serial (n : Nat) (f : Wave → Wave) : (s.modWave n f).serial = s.serial := rfl
@[simp] theorem State.modWave_quads (n : Nat) (f : Wave → Wave) : (s.modWave n f).quads = s.quads := rfl
@[simp] theorem State.modWave_tileOps (n : Nat) (f : Wave → Wave) : (s.modWave n f).tileOps = s.tileOps := rfl
@[simp] theorem State.modWave_engine (n : Nat) (f : Wave → Wave) : (s.modWave n f).engine = s.engine := rfl
@[simp] theorem State.modWave_slotQueue (n : Nat) (f : Wave → Wave) : (s.modWave n f).slotQueue = s.slotQueue := rfl
@[simp] theorem State.modWave_splits (n : Nat) (f : Wave → Wave) : (s.modWave n f).splits = s.splits := rfl
@[simp] theorem State.modWave_mem (n : Nat) (f : Wave → Wave) : (s.modWave n f).mem = s.mem := rfl
@[simp] theorem State.modWave_poison (n : Nat) (f : Wave → Wave) : (s.modWave n f).poison = s.poison := rfl
@[simp] theorem State.modWave_l1 (n : Nat) (f : Wave → Wave) : (s.modWave n f).l1 = s.l1 := rfl
@[simp] theorem State.modWave_pend (n : Nat) (f : Wave → Wave) : (s.modWave n f).pend = s.pend := rfl
@[simp] theorem State.modWave_homing (n : Nat) (f : Wave → Wave) : (s.modWave n f).homing = s.homing := rfl
@[simp] theorem State.modWave_late (n : Nat) (f : Wave → Wave) : (s.modWave n f).late = s.late := rfl
@[simp] theorem State.modWave_modified (n : Nat) (f : Wave → Wave) : (s.modWave n f).modified = s.modified := rfl
@[simp] theorem State.modWave_leaders (n : Nat) (f : Wave → Wave) : (s.modWave n f).leaders = s.leaders := rfl
@[simp] theorem State.modWave_shadows (n : Nat) (f : Wave → Wave) : (s.modWave n f).shadows = s.shadows := rfl
@[simp] theorem State.modWave_spaces (n : Nat) (f : Wave → Wave) : (s.modWave n f).spaces = s.spaces := rfl
@[simp] theorem State.modWave_pages (n : Nat) (f : Wave → Wave) : (s.modWave n f).pages = s.pages := rfl
@[simp] theorem State.modWave_frozen (n : Nat) (f : Wave → Wave) : (s.modWave n f).frozen = s.frozen := rfl
@[simp] theorem State.modWave_regions (n : Nat) (f : Wave → Wave) : (s.modWave n f).regions = s.regions := rfl
@[simp] theorem State.modWave_records (n : Nat) (f : Wave → Wave) : (s.modWave n f).records = s.records := rfl
@[simp] theorem State.modWave_recSeq (n : Nat) (f : Wave → Wave) : (s.modWave n f).recSeq = s.recSeq := rfl
@[simp] theorem State.modWave_freezes (n : Nat) (f : Wave → Wave) : (s.modWave n f).freezes = s.freezes := rfl
@[simp] theorem State.modWave_parkedReqs (n : Nat) (f : Wave → Wave) : (s.modWave n f).parkedReqs = s.parkedReqs := rfl
@[simp] theorem State.modWave_delivered (n : Nat) (f : Wave → Wave) : (s.modWave n f).delivered = s.delivered := rfl
@[simp] theorem State.modWave_commands (n : Nat) (f : Wave → Wave) : (s.modWave n f).commands = s.commands := rfl
@[simp] theorem State.modWave_parts (n : Nat) (f : Wave → Wave) : (s.modWave n f).parts = s.parts := rfl
@[simp] theorem State.modWave_zenCnt (n : Nat) (f : Wave → Wave) : (s.modWave n f).zenCnt = s.zenCnt := rfl
@[simp] theorem State.modWave_zenLed (n : Nat) (f : Wave → Wave) : (s.modWave n f).zenLed = s.zenLed := rfl
@[simp] theorem State.modWave_injects (n : Nat) (f : Wave → Wave) : (s.modWave n f).injects = s.injects := rfl
@[simp] theorem State.modWave_faulty (n : Nat) (f : Wave → Wave) : (s.modWave n f).faulty = s.faulty := rfl
@[simp] theorem State.modWave_clusters (n : Nat) (f : Wave → Wave) : (s.modWave n f).clusters = s.clusters := rfl
@[simp] theorem State.modWave_limit (n : Nat) (f : Wave → Wave) : (s.modWave n f).limit = s.limit := rfl
@[simp] theorem State.modWave_isModule (n : Nat) (f : Wave → Wave) : (s.modWave n f).isModule = s.isModule := rfl
@[simp] theorem State.modWave_watts (n : Nat) (f : Wave → Wave) : (s.modWave n f).watts = s.watts := rfl
@[simp] theorem State.modWave_bubbles (n : Nat) (f : Wave → Wave) : (s.modWave n f).bubbles = s.bubbles := rfl
@[simp] theorem State.modWave_lowSince (n : Nat) (f : Wave → Wave) : (s.modWave n f).lowSince = s.lowSince := rfl
@[simp] theorem State.modWave_nextCheck (n : Nat) (f : Wave → Wave) : (s.modWave n f).nextCheck = s.nextCheck := rfl
@[simp] theorem State.modWave_watches (n : Nat) (f : Wave → Wave) : (s.modWave n f).watches = s.watches := rfl
@[simp] theorem State.modWave_ring (n : Nat) (f : Wave → Wave) : (s.modWave n f).ring = s.ring := rfl
@[simp] theorem State.modWave_windows (n : Nat) (f : Wave → Wave) : (s.modWave n f).windows = s.windows := rfl
@[simp] theorem State.modWave_hostMod (n : Nat) (f : Wave → Wave) : (s.modWave n f).hostMod = s.hostMod := rfl
@[simp] theorem State.modWave_linkUp (n : Nat) (f : Wave → Wave) : (s.modWave n f).linkUp = s.linkUp := rfl
@[simp] theorem State.modWave_dev (n : Nat) (f : Wave → Wave) : (s.modWave n f).dev = s.dev := rfl
@[simp] theorem State.modWave_failing (n : Nat) (f : Wave → Wave) : (s.modWave n f).failing = s.failing := rfl
@[simp] theorem State.modWave_image (n : Nat) (f : Wave → Wave) : (s.modWave n f).image = s.image := rfl
@[simp] theorem State.modWave_firmware (n : Nat) (f : Wave → Wave) : (s.modWave n f).firmware = s.firmware := rfl
@[simp] theorem State.modWave_devNum (n : Nat) (f : Wave → Wave) : (s.modWave n f).devNum = s.devNum := rfl
@[simp] theorem State.modWave_peers (n : Nat) (f : Wave → Wave) : (s.modWave n f).peers = s.peers := rfl
@[simp] theorem State.modWave_outputs (n : Nat) (f : Wave → Wave) : (s.modWave n f).outputs = s.outputs := rfl
@[simp] theorem State.modWave_episodes (n : Nat) (f : Wave → Wave) : (s.modWave n f).episodes = s.episodes := rfl
@[simp] theorem State.modWave_pairs (n : Nat) (f : Wave → Wave) : (s.modWave n f).pairs = s.pairs := rfl
@[simp] theorem State.modWave_ready (n : Nat) (f : Wave → Wave) : (s.modWave n f).ready = s.ready := rfl
@[simp] theorem State.modWave_time (n : Nat) (f : Wave → Wave) : (s.modWave n f).time = s.time := rfl
@[simp] theorem State.modWave_agenda (n : Nat) (f : Wave → Wave) : (s.modWave n f).agenda = s.agenda := rfl
@[simp] theorem State.modWave_bundle (n : Nat) (f : Wave → Wave) : (s.modWave n f).bundle = s.bundle := rfl
@[simp] theorem State.modWave_cur (n : Nat) (f : Wave → Wave) : (s.modWave n f).cur = s.cur := rfl
@[simp] theorem State.modWave_turn (n : Nat) (f : Wave → Wave) : (s.modWave n f).turn = s.turn := rfl
@[simp] theorem State.modWave_tried (n : Nat) (f : Wave → Wave) : (s.modWave n f).tried = s.tried := rfl
@[simp] theorem State.modWave_defer (n : Nat) (f : Wave → Wave) : (s.modWave n f).defer = s.defer := rfl
@[simp] theorem State.modWave_placings (n : Nat) (f : Wave → Wave) : (s.modWave n f).placings = s.placings := rfl
@[simp] theorem State.modWave_arrivals (n : Nat) (f : Wave → Wave) : (s.modWave n f).arrivals = s.arrivals := rfl
@[simp] theorem State.modWave_freeCtr (n : Nat) (f : Wave → Wave) : (s.modWave n f).freeCtr = s.freeCtr := rfl

/-! #### modTeam -/

@[simp] theorem State.modTeam_waves (n : Nat) (f : Team → Team) : (s.modTeam n f).waves = s.waves := rfl
@[simp] theorem State.modTeam_teams (n : Nat) (f : Team → Team) : (s.modTeam n f).teams = modAt s.teams n f := rfl
@[simp] theorem State.modTeam_grids (n : Nat) (f : Team → Team) : (s.modTeam n f).grids = s.grids := rfl
@[simp] theorem State.modTeam_phases (n : Nat) (f : Team → Team) : (s.modTeam n f).phases = s.phases := rfl
@[simp] theorem State.modTeam_mailboxes (n : Nat) (f : Team → Team) : (s.modTeam n f).mailboxes = s.mailboxes := rfl
@[simp] theorem State.modTeam_flights (n : Nat) (f : Team → Team) : (s.modTeam n f).flights = s.flights := rfl
@[simp] theorem State.modTeam_requeue (n : Nat) (f : Team → Team) : (s.modTeam n f).requeue = s.requeue := rfl
@[simp] theorem State.modTeam_serial (n : Nat) (f : Team → Team) : (s.modTeam n f).serial = s.serial := rfl
@[simp] theorem State.modTeam_quads (n : Nat) (f : Team → Team) : (s.modTeam n f).quads = s.quads := rfl
@[simp] theorem State.modTeam_tileOps (n : Nat) (f : Team → Team) : (s.modTeam n f).tileOps = s.tileOps := rfl
@[simp] theorem State.modTeam_engine (n : Nat) (f : Team → Team) : (s.modTeam n f).engine = s.engine := rfl
@[simp] theorem State.modTeam_slotQueue (n : Nat) (f : Team → Team) : (s.modTeam n f).slotQueue = s.slotQueue := rfl
@[simp] theorem State.modTeam_splits (n : Nat) (f : Team → Team) : (s.modTeam n f).splits = s.splits := rfl
@[simp] theorem State.modTeam_mem (n : Nat) (f : Team → Team) : (s.modTeam n f).mem = s.mem := rfl
@[simp] theorem State.modTeam_poison (n : Nat) (f : Team → Team) : (s.modTeam n f).poison = s.poison := rfl
@[simp] theorem State.modTeam_l1 (n : Nat) (f : Team → Team) : (s.modTeam n f).l1 = s.l1 := rfl
@[simp] theorem State.modTeam_pend (n : Nat) (f : Team → Team) : (s.modTeam n f).pend = s.pend := rfl
@[simp] theorem State.modTeam_homing (n : Nat) (f : Team → Team) : (s.modTeam n f).homing = s.homing := rfl
@[simp] theorem State.modTeam_late (n : Nat) (f : Team → Team) : (s.modTeam n f).late = s.late := rfl
@[simp] theorem State.modTeam_modified (n : Nat) (f : Team → Team) : (s.modTeam n f).modified = s.modified := rfl
@[simp] theorem State.modTeam_leaders (n : Nat) (f : Team → Team) : (s.modTeam n f).leaders = s.leaders := rfl
@[simp] theorem State.modTeam_shadows (n : Nat) (f : Team → Team) : (s.modTeam n f).shadows = s.shadows := rfl
@[simp] theorem State.modTeam_spaces (n : Nat) (f : Team → Team) : (s.modTeam n f).spaces = s.spaces := rfl
@[simp] theorem State.modTeam_pages (n : Nat) (f : Team → Team) : (s.modTeam n f).pages = s.pages := rfl
@[simp] theorem State.modTeam_frozen (n : Nat) (f : Team → Team) : (s.modTeam n f).frozen = s.frozen := rfl
@[simp] theorem State.modTeam_regions (n : Nat) (f : Team → Team) : (s.modTeam n f).regions = s.regions := rfl
@[simp] theorem State.modTeam_records (n : Nat) (f : Team → Team) : (s.modTeam n f).records = s.records := rfl
@[simp] theorem State.modTeam_recSeq (n : Nat) (f : Team → Team) : (s.modTeam n f).recSeq = s.recSeq := rfl
@[simp] theorem State.modTeam_freezes (n : Nat) (f : Team → Team) : (s.modTeam n f).freezes = s.freezes := rfl
@[simp] theorem State.modTeam_parkedReqs (n : Nat) (f : Team → Team) : (s.modTeam n f).parkedReqs = s.parkedReqs := rfl
@[simp] theorem State.modTeam_delivered (n : Nat) (f : Team → Team) : (s.modTeam n f).delivered = s.delivered := rfl
@[simp] theorem State.modTeam_commands (n : Nat) (f : Team → Team) : (s.modTeam n f).commands = s.commands := rfl
@[simp] theorem State.modTeam_parts (n : Nat) (f : Team → Team) : (s.modTeam n f).parts = s.parts := rfl
@[simp] theorem State.modTeam_zenCnt (n : Nat) (f : Team → Team) : (s.modTeam n f).zenCnt = s.zenCnt := rfl
@[simp] theorem State.modTeam_zenLed (n : Nat) (f : Team → Team) : (s.modTeam n f).zenLed = s.zenLed := rfl
@[simp] theorem State.modTeam_injects (n : Nat) (f : Team → Team) : (s.modTeam n f).injects = s.injects := rfl
@[simp] theorem State.modTeam_faulty (n : Nat) (f : Team → Team) : (s.modTeam n f).faulty = s.faulty := rfl
@[simp] theorem State.modTeam_clusters (n : Nat) (f : Team → Team) : (s.modTeam n f).clusters = s.clusters := rfl
@[simp] theorem State.modTeam_limit (n : Nat) (f : Team → Team) : (s.modTeam n f).limit = s.limit := rfl
@[simp] theorem State.modTeam_isModule (n : Nat) (f : Team → Team) : (s.modTeam n f).isModule = s.isModule := rfl
@[simp] theorem State.modTeam_watts (n : Nat) (f : Team → Team) : (s.modTeam n f).watts = s.watts := rfl
@[simp] theorem State.modTeam_bubbles (n : Nat) (f : Team → Team) : (s.modTeam n f).bubbles = s.bubbles := rfl
@[simp] theorem State.modTeam_lowSince (n : Nat) (f : Team → Team) : (s.modTeam n f).lowSince = s.lowSince := rfl
@[simp] theorem State.modTeam_nextCheck (n : Nat) (f : Team → Team) : (s.modTeam n f).nextCheck = s.nextCheck := rfl
@[simp] theorem State.modTeam_watches (n : Nat) (f : Team → Team) : (s.modTeam n f).watches = s.watches := rfl
@[simp] theorem State.modTeam_ring (n : Nat) (f : Team → Team) : (s.modTeam n f).ring = s.ring := rfl
@[simp] theorem State.modTeam_windows (n : Nat) (f : Team → Team) : (s.modTeam n f).windows = s.windows := rfl
@[simp] theorem State.modTeam_hostMod (n : Nat) (f : Team → Team) : (s.modTeam n f).hostMod = s.hostMod := rfl
@[simp] theorem State.modTeam_linkUp (n : Nat) (f : Team → Team) : (s.modTeam n f).linkUp = s.linkUp := rfl
@[simp] theorem State.modTeam_dev (n : Nat) (f : Team → Team) : (s.modTeam n f).dev = s.dev := rfl
@[simp] theorem State.modTeam_failing (n : Nat) (f : Team → Team) : (s.modTeam n f).failing = s.failing := rfl
@[simp] theorem State.modTeam_image (n : Nat) (f : Team → Team) : (s.modTeam n f).image = s.image := rfl
@[simp] theorem State.modTeam_firmware (n : Nat) (f : Team → Team) : (s.modTeam n f).firmware = s.firmware := rfl
@[simp] theorem State.modTeam_devNum (n : Nat) (f : Team → Team) : (s.modTeam n f).devNum = s.devNum := rfl
@[simp] theorem State.modTeam_peers (n : Nat) (f : Team → Team) : (s.modTeam n f).peers = s.peers := rfl
@[simp] theorem State.modTeam_outputs (n : Nat) (f : Team → Team) : (s.modTeam n f).outputs = s.outputs := rfl
@[simp] theorem State.modTeam_episodes (n : Nat) (f : Team → Team) : (s.modTeam n f).episodes = s.episodes := rfl
@[simp] theorem State.modTeam_pairs (n : Nat) (f : Team → Team) : (s.modTeam n f).pairs = s.pairs := rfl
@[simp] theorem State.modTeam_ready (n : Nat) (f : Team → Team) : (s.modTeam n f).ready = s.ready := rfl
@[simp] theorem State.modTeam_time (n : Nat) (f : Team → Team) : (s.modTeam n f).time = s.time := rfl
@[simp] theorem State.modTeam_agenda (n : Nat) (f : Team → Team) : (s.modTeam n f).agenda = s.agenda := rfl
@[simp] theorem State.modTeam_bundle (n : Nat) (f : Team → Team) : (s.modTeam n f).bundle = s.bundle := rfl
@[simp] theorem State.modTeam_cur (n : Nat) (f : Team → Team) : (s.modTeam n f).cur = s.cur := rfl
@[simp] theorem State.modTeam_turn (n : Nat) (f : Team → Team) : (s.modTeam n f).turn = s.turn := rfl
@[simp] theorem State.modTeam_tried (n : Nat) (f : Team → Team) : (s.modTeam n f).tried = s.tried := rfl
@[simp] theorem State.modTeam_defer (n : Nat) (f : Team → Team) : (s.modTeam n f).defer = s.defer := rfl
@[simp] theorem State.modTeam_placings (n : Nat) (f : Team → Team) : (s.modTeam n f).placings = s.placings := rfl
@[simp] theorem State.modTeam_arrivals (n : Nat) (f : Team → Team) : (s.modTeam n f).arrivals = s.arrivals := rfl
@[simp] theorem State.modTeam_freeCtr (n : Nat) (f : Team → Team) : (s.modTeam n f).freeCtr = s.freeCtr := rfl

/-! #### modGrid -/

@[simp] theorem State.modGrid_waves (n : Nat) (f : Grid → Grid) : (s.modGrid n f).waves = s.waves := rfl
@[simp] theorem State.modGrid_teams (n : Nat) (f : Grid → Grid) : (s.modGrid n f).teams = s.teams := rfl
@[simp] theorem State.modGrid_grids (n : Nat) (f : Grid → Grid) : (s.modGrid n f).grids = modAt s.grids n f := rfl
@[simp] theorem State.modGrid_phases (n : Nat) (f : Grid → Grid) : (s.modGrid n f).phases = s.phases := rfl
@[simp] theorem State.modGrid_mailboxes (n : Nat) (f : Grid → Grid) : (s.modGrid n f).mailboxes = s.mailboxes := rfl
@[simp] theorem State.modGrid_flights (n : Nat) (f : Grid → Grid) : (s.modGrid n f).flights = s.flights := rfl
@[simp] theorem State.modGrid_requeue (n : Nat) (f : Grid → Grid) : (s.modGrid n f).requeue = s.requeue := rfl
@[simp] theorem State.modGrid_serial (n : Nat) (f : Grid → Grid) : (s.modGrid n f).serial = s.serial := rfl
@[simp] theorem State.modGrid_quads (n : Nat) (f : Grid → Grid) : (s.modGrid n f).quads = s.quads := rfl
@[simp] theorem State.modGrid_tileOps (n : Nat) (f : Grid → Grid) : (s.modGrid n f).tileOps = s.tileOps := rfl
@[simp] theorem State.modGrid_engine (n : Nat) (f : Grid → Grid) : (s.modGrid n f).engine = s.engine := rfl
@[simp] theorem State.modGrid_slotQueue (n : Nat) (f : Grid → Grid) : (s.modGrid n f).slotQueue = s.slotQueue := rfl
@[simp] theorem State.modGrid_splits (n : Nat) (f : Grid → Grid) : (s.modGrid n f).splits = s.splits := rfl
@[simp] theorem State.modGrid_mem (n : Nat) (f : Grid → Grid) : (s.modGrid n f).mem = s.mem := rfl
@[simp] theorem State.modGrid_poison (n : Nat) (f : Grid → Grid) : (s.modGrid n f).poison = s.poison := rfl
@[simp] theorem State.modGrid_l1 (n : Nat) (f : Grid → Grid) : (s.modGrid n f).l1 = s.l1 := rfl
@[simp] theorem State.modGrid_pend (n : Nat) (f : Grid → Grid) : (s.modGrid n f).pend = s.pend := rfl
@[simp] theorem State.modGrid_homing (n : Nat) (f : Grid → Grid) : (s.modGrid n f).homing = s.homing := rfl
@[simp] theorem State.modGrid_late (n : Nat) (f : Grid → Grid) : (s.modGrid n f).late = s.late := rfl
@[simp] theorem State.modGrid_modified (n : Nat) (f : Grid → Grid) : (s.modGrid n f).modified = s.modified := rfl
@[simp] theorem State.modGrid_leaders (n : Nat) (f : Grid → Grid) : (s.modGrid n f).leaders = s.leaders := rfl
@[simp] theorem State.modGrid_shadows (n : Nat) (f : Grid → Grid) : (s.modGrid n f).shadows = s.shadows := rfl
@[simp] theorem State.modGrid_spaces (n : Nat) (f : Grid → Grid) : (s.modGrid n f).spaces = s.spaces := rfl
@[simp] theorem State.modGrid_pages (n : Nat) (f : Grid → Grid) : (s.modGrid n f).pages = s.pages := rfl
@[simp] theorem State.modGrid_frozen (n : Nat) (f : Grid → Grid) : (s.modGrid n f).frozen = s.frozen := rfl
@[simp] theorem State.modGrid_regions (n : Nat) (f : Grid → Grid) : (s.modGrid n f).regions = s.regions := rfl
@[simp] theorem State.modGrid_records (n : Nat) (f : Grid → Grid) : (s.modGrid n f).records = s.records := rfl
@[simp] theorem State.modGrid_recSeq (n : Nat) (f : Grid → Grid) : (s.modGrid n f).recSeq = s.recSeq := rfl
@[simp] theorem State.modGrid_freezes (n : Nat) (f : Grid → Grid) : (s.modGrid n f).freezes = s.freezes := rfl
@[simp] theorem State.modGrid_parkedReqs (n : Nat) (f : Grid → Grid) : (s.modGrid n f).parkedReqs = s.parkedReqs := rfl
@[simp] theorem State.modGrid_delivered (n : Nat) (f : Grid → Grid) : (s.modGrid n f).delivered = s.delivered := rfl
@[simp] theorem State.modGrid_commands (n : Nat) (f : Grid → Grid) : (s.modGrid n f).commands = s.commands := rfl
@[simp] theorem State.modGrid_parts (n : Nat) (f : Grid → Grid) : (s.modGrid n f).parts = s.parts := rfl
@[simp] theorem State.modGrid_zenCnt (n : Nat) (f : Grid → Grid) : (s.modGrid n f).zenCnt = s.zenCnt := rfl
@[simp] theorem State.modGrid_zenLed (n : Nat) (f : Grid → Grid) : (s.modGrid n f).zenLed = s.zenLed := rfl
@[simp] theorem State.modGrid_injects (n : Nat) (f : Grid → Grid) : (s.modGrid n f).injects = s.injects := rfl
@[simp] theorem State.modGrid_faulty (n : Nat) (f : Grid → Grid) : (s.modGrid n f).faulty = s.faulty := rfl
@[simp] theorem State.modGrid_clusters (n : Nat) (f : Grid → Grid) : (s.modGrid n f).clusters = s.clusters := rfl
@[simp] theorem State.modGrid_limit (n : Nat) (f : Grid → Grid) : (s.modGrid n f).limit = s.limit := rfl
@[simp] theorem State.modGrid_isModule (n : Nat) (f : Grid → Grid) : (s.modGrid n f).isModule = s.isModule := rfl
@[simp] theorem State.modGrid_watts (n : Nat) (f : Grid → Grid) : (s.modGrid n f).watts = s.watts := rfl
@[simp] theorem State.modGrid_bubbles (n : Nat) (f : Grid → Grid) : (s.modGrid n f).bubbles = s.bubbles := rfl
@[simp] theorem State.modGrid_lowSince (n : Nat) (f : Grid → Grid) : (s.modGrid n f).lowSince = s.lowSince := rfl
@[simp] theorem State.modGrid_nextCheck (n : Nat) (f : Grid → Grid) : (s.modGrid n f).nextCheck = s.nextCheck := rfl
@[simp] theorem State.modGrid_watches (n : Nat) (f : Grid → Grid) : (s.modGrid n f).watches = s.watches := rfl
@[simp] theorem State.modGrid_ring (n : Nat) (f : Grid → Grid) : (s.modGrid n f).ring = s.ring := rfl
@[simp] theorem State.modGrid_windows (n : Nat) (f : Grid → Grid) : (s.modGrid n f).windows = s.windows := rfl
@[simp] theorem State.modGrid_hostMod (n : Nat) (f : Grid → Grid) : (s.modGrid n f).hostMod = s.hostMod := rfl
@[simp] theorem State.modGrid_linkUp (n : Nat) (f : Grid → Grid) : (s.modGrid n f).linkUp = s.linkUp := rfl
@[simp] theorem State.modGrid_dev (n : Nat) (f : Grid → Grid) : (s.modGrid n f).dev = s.dev := rfl
@[simp] theorem State.modGrid_failing (n : Nat) (f : Grid → Grid) : (s.modGrid n f).failing = s.failing := rfl
@[simp] theorem State.modGrid_image (n : Nat) (f : Grid → Grid) : (s.modGrid n f).image = s.image := rfl
@[simp] theorem State.modGrid_firmware (n : Nat) (f : Grid → Grid) : (s.modGrid n f).firmware = s.firmware := rfl
@[simp] theorem State.modGrid_devNum (n : Nat) (f : Grid → Grid) : (s.modGrid n f).devNum = s.devNum := rfl
@[simp] theorem State.modGrid_peers (n : Nat) (f : Grid → Grid) : (s.modGrid n f).peers = s.peers := rfl
@[simp] theorem State.modGrid_outputs (n : Nat) (f : Grid → Grid) : (s.modGrid n f).outputs = s.outputs := rfl
@[simp] theorem State.modGrid_episodes (n : Nat) (f : Grid → Grid) : (s.modGrid n f).episodes = s.episodes := rfl
@[simp] theorem State.modGrid_pairs (n : Nat) (f : Grid → Grid) : (s.modGrid n f).pairs = s.pairs := rfl
@[simp] theorem State.modGrid_ready (n : Nat) (f : Grid → Grid) : (s.modGrid n f).ready = s.ready := rfl
@[simp] theorem State.modGrid_time (n : Nat) (f : Grid → Grid) : (s.modGrid n f).time = s.time := rfl
@[simp] theorem State.modGrid_agenda (n : Nat) (f : Grid → Grid) : (s.modGrid n f).agenda = s.agenda := rfl
@[simp] theorem State.modGrid_bundle (n : Nat) (f : Grid → Grid) : (s.modGrid n f).bundle = s.bundle := rfl
@[simp] theorem State.modGrid_cur (n : Nat) (f : Grid → Grid) : (s.modGrid n f).cur = s.cur := rfl
@[simp] theorem State.modGrid_turn (n : Nat) (f : Grid → Grid) : (s.modGrid n f).turn = s.turn := rfl
@[simp] theorem State.modGrid_tried (n : Nat) (f : Grid → Grid) : (s.modGrid n f).tried = s.tried := rfl
@[simp] theorem State.modGrid_defer (n : Nat) (f : Grid → Grid) : (s.modGrid n f).defer = s.defer := rfl
@[simp] theorem State.modGrid_placings (n : Nat) (f : Grid → Grid) : (s.modGrid n f).placings = s.placings := rfl
@[simp] theorem State.modGrid_arrivals (n : Nat) (f : Grid → Grid) : (s.modGrid n f).arrivals = s.arrivals := rfl
@[simp] theorem State.modGrid_freeCtr (n : Nat) (f : Grid → Grid) : (s.modGrid n f).freeCtr = s.freeCtr := rfl

/-! #### modPhase -/

@[simp] theorem State.modPhase_waves (n : Nat) (f : Phase → Phase) : (s.modPhase n f).waves = s.waves := rfl
@[simp] theorem State.modPhase_teams (n : Nat) (f : Phase → Phase) : (s.modPhase n f).teams = s.teams := rfl
@[simp] theorem State.modPhase_grids (n : Nat) (f : Phase → Phase) : (s.modPhase n f).grids = s.grids := rfl
@[simp] theorem State.modPhase_phases (n : Nat) (f : Phase → Phase) : (s.modPhase n f).phases = modAt s.phases n f := rfl
@[simp] theorem State.modPhase_mailboxes (n : Nat) (f : Phase → Phase) : (s.modPhase n f).mailboxes = s.mailboxes := rfl
@[simp] theorem State.modPhase_flights (n : Nat) (f : Phase → Phase) : (s.modPhase n f).flights = s.flights := rfl
@[simp] theorem State.modPhase_requeue (n : Nat) (f : Phase → Phase) : (s.modPhase n f).requeue = s.requeue := rfl
@[simp] theorem State.modPhase_serial (n : Nat) (f : Phase → Phase) : (s.modPhase n f).serial = s.serial := rfl
@[simp] theorem State.modPhase_quads (n : Nat) (f : Phase → Phase) : (s.modPhase n f).quads = s.quads := rfl
@[simp] theorem State.modPhase_tileOps (n : Nat) (f : Phase → Phase) : (s.modPhase n f).tileOps = s.tileOps := rfl
@[simp] theorem State.modPhase_engine (n : Nat) (f : Phase → Phase) : (s.modPhase n f).engine = s.engine := rfl
@[simp] theorem State.modPhase_slotQueue (n : Nat) (f : Phase → Phase) : (s.modPhase n f).slotQueue = s.slotQueue := rfl
@[simp] theorem State.modPhase_splits (n : Nat) (f : Phase → Phase) : (s.modPhase n f).splits = s.splits := rfl
@[simp] theorem State.modPhase_mem (n : Nat) (f : Phase → Phase) : (s.modPhase n f).mem = s.mem := rfl
@[simp] theorem State.modPhase_poison (n : Nat) (f : Phase → Phase) : (s.modPhase n f).poison = s.poison := rfl
@[simp] theorem State.modPhase_l1 (n : Nat) (f : Phase → Phase) : (s.modPhase n f).l1 = s.l1 := rfl
@[simp] theorem State.modPhase_pend (n : Nat) (f : Phase → Phase) : (s.modPhase n f).pend = s.pend := rfl
@[simp] theorem State.modPhase_homing (n : Nat) (f : Phase → Phase) : (s.modPhase n f).homing = s.homing := rfl
@[simp] theorem State.modPhase_late (n : Nat) (f : Phase → Phase) : (s.modPhase n f).late = s.late := rfl
@[simp] theorem State.modPhase_modified (n : Nat) (f : Phase → Phase) : (s.modPhase n f).modified = s.modified := rfl
@[simp] theorem State.modPhase_leaders (n : Nat) (f : Phase → Phase) : (s.modPhase n f).leaders = s.leaders := rfl
@[simp] theorem State.modPhase_shadows (n : Nat) (f : Phase → Phase) : (s.modPhase n f).shadows = s.shadows := rfl
@[simp] theorem State.modPhase_spaces (n : Nat) (f : Phase → Phase) : (s.modPhase n f).spaces = s.spaces := rfl
@[simp] theorem State.modPhase_pages (n : Nat) (f : Phase → Phase) : (s.modPhase n f).pages = s.pages := rfl
@[simp] theorem State.modPhase_frozen (n : Nat) (f : Phase → Phase) : (s.modPhase n f).frozen = s.frozen := rfl
@[simp] theorem State.modPhase_regions (n : Nat) (f : Phase → Phase) : (s.modPhase n f).regions = s.regions := rfl
@[simp] theorem State.modPhase_records (n : Nat) (f : Phase → Phase) : (s.modPhase n f).records = s.records := rfl
@[simp] theorem State.modPhase_recSeq (n : Nat) (f : Phase → Phase) : (s.modPhase n f).recSeq = s.recSeq := rfl
@[simp] theorem State.modPhase_freezes (n : Nat) (f : Phase → Phase) : (s.modPhase n f).freezes = s.freezes := rfl
@[simp] theorem State.modPhase_parkedReqs (n : Nat) (f : Phase → Phase) : (s.modPhase n f).parkedReqs = s.parkedReqs := rfl
@[simp] theorem State.modPhase_delivered (n : Nat) (f : Phase → Phase) : (s.modPhase n f).delivered = s.delivered := rfl
@[simp] theorem State.modPhase_commands (n : Nat) (f : Phase → Phase) : (s.modPhase n f).commands = s.commands := rfl
@[simp] theorem State.modPhase_parts (n : Nat) (f : Phase → Phase) : (s.modPhase n f).parts = s.parts := rfl
@[simp] theorem State.modPhase_zenCnt (n : Nat) (f : Phase → Phase) : (s.modPhase n f).zenCnt = s.zenCnt := rfl
@[simp] theorem State.modPhase_zenLed (n : Nat) (f : Phase → Phase) : (s.modPhase n f).zenLed = s.zenLed := rfl
@[simp] theorem State.modPhase_injects (n : Nat) (f : Phase → Phase) : (s.modPhase n f).injects = s.injects := rfl
@[simp] theorem State.modPhase_faulty (n : Nat) (f : Phase → Phase) : (s.modPhase n f).faulty = s.faulty := rfl
@[simp] theorem State.modPhase_clusters (n : Nat) (f : Phase → Phase) : (s.modPhase n f).clusters = s.clusters := rfl
@[simp] theorem State.modPhase_limit (n : Nat) (f : Phase → Phase) : (s.modPhase n f).limit = s.limit := rfl
@[simp] theorem State.modPhase_isModule (n : Nat) (f : Phase → Phase) : (s.modPhase n f).isModule = s.isModule := rfl
@[simp] theorem State.modPhase_watts (n : Nat) (f : Phase → Phase) : (s.modPhase n f).watts = s.watts := rfl
@[simp] theorem State.modPhase_bubbles (n : Nat) (f : Phase → Phase) : (s.modPhase n f).bubbles = s.bubbles := rfl
@[simp] theorem State.modPhase_lowSince (n : Nat) (f : Phase → Phase) : (s.modPhase n f).lowSince = s.lowSince := rfl
@[simp] theorem State.modPhase_nextCheck (n : Nat) (f : Phase → Phase) : (s.modPhase n f).nextCheck = s.nextCheck := rfl
@[simp] theorem State.modPhase_watches (n : Nat) (f : Phase → Phase) : (s.modPhase n f).watches = s.watches := rfl
@[simp] theorem State.modPhase_ring (n : Nat) (f : Phase → Phase) : (s.modPhase n f).ring = s.ring := rfl
@[simp] theorem State.modPhase_windows (n : Nat) (f : Phase → Phase) : (s.modPhase n f).windows = s.windows := rfl
@[simp] theorem State.modPhase_hostMod (n : Nat) (f : Phase → Phase) : (s.modPhase n f).hostMod = s.hostMod := rfl
@[simp] theorem State.modPhase_linkUp (n : Nat) (f : Phase → Phase) : (s.modPhase n f).linkUp = s.linkUp := rfl
@[simp] theorem State.modPhase_dev (n : Nat) (f : Phase → Phase) : (s.modPhase n f).dev = s.dev := rfl
@[simp] theorem State.modPhase_failing (n : Nat) (f : Phase → Phase) : (s.modPhase n f).failing = s.failing := rfl
@[simp] theorem State.modPhase_image (n : Nat) (f : Phase → Phase) : (s.modPhase n f).image = s.image := rfl
@[simp] theorem State.modPhase_firmware (n : Nat) (f : Phase → Phase) : (s.modPhase n f).firmware = s.firmware := rfl
@[simp] theorem State.modPhase_devNum (n : Nat) (f : Phase → Phase) : (s.modPhase n f).devNum = s.devNum := rfl
@[simp] theorem State.modPhase_peers (n : Nat) (f : Phase → Phase) : (s.modPhase n f).peers = s.peers := rfl
@[simp] theorem State.modPhase_outputs (n : Nat) (f : Phase → Phase) : (s.modPhase n f).outputs = s.outputs := rfl
@[simp] theorem State.modPhase_episodes (n : Nat) (f : Phase → Phase) : (s.modPhase n f).episodes = s.episodes := rfl
@[simp] theorem State.modPhase_pairs (n : Nat) (f : Phase → Phase) : (s.modPhase n f).pairs = s.pairs := rfl
@[simp] theorem State.modPhase_ready (n : Nat) (f : Phase → Phase) : (s.modPhase n f).ready = s.ready := rfl
@[simp] theorem State.modPhase_time (n : Nat) (f : Phase → Phase) : (s.modPhase n f).time = s.time := rfl
@[simp] theorem State.modPhase_agenda (n : Nat) (f : Phase → Phase) : (s.modPhase n f).agenda = s.agenda := rfl
@[simp] theorem State.modPhase_bundle (n : Nat) (f : Phase → Phase) : (s.modPhase n f).bundle = s.bundle := rfl
@[simp] theorem State.modPhase_cur (n : Nat) (f : Phase → Phase) : (s.modPhase n f).cur = s.cur := rfl
@[simp] theorem State.modPhase_turn (n : Nat) (f : Phase → Phase) : (s.modPhase n f).turn = s.turn := rfl
@[simp] theorem State.modPhase_tried (n : Nat) (f : Phase → Phase) : (s.modPhase n f).tried = s.tried := rfl
@[simp] theorem State.modPhase_defer (n : Nat) (f : Phase → Phase) : (s.modPhase n f).defer = s.defer := rfl
@[simp] theorem State.modPhase_placings (n : Nat) (f : Phase → Phase) : (s.modPhase n f).placings = s.placings := rfl
@[simp] theorem State.modPhase_arrivals (n : Nat) (f : Phase → Phase) : (s.modPhase n f).arrivals = s.arrivals := rfl
@[simp] theorem State.modPhase_freeCtr (n : Nat) (f : Phase → Phase) : (s.modPhase n f).freeCtr = s.freeCtr := rfl

/-! #### modQuad -/

@[simp] theorem State.modQuad_waves (n : Nat) (f : Quad → Quad) : (s.modQuad n f).waves = s.waves := rfl
@[simp] theorem State.modQuad_teams (n : Nat) (f : Quad → Quad) : (s.modQuad n f).teams = s.teams := rfl
@[simp] theorem State.modQuad_grids (n : Nat) (f : Quad → Quad) : (s.modQuad n f).grids = s.grids := rfl
@[simp] theorem State.modQuad_phases (n : Nat) (f : Quad → Quad) : (s.modQuad n f).phases = s.phases := rfl
@[simp] theorem State.modQuad_mailboxes (n : Nat) (f : Quad → Quad) : (s.modQuad n f).mailboxes = s.mailboxes := rfl
@[simp] theorem State.modQuad_flights (n : Nat) (f : Quad → Quad) : (s.modQuad n f).flights = s.flights := rfl
@[simp] theorem State.modQuad_requeue (n : Nat) (f : Quad → Quad) : (s.modQuad n f).requeue = s.requeue := rfl
@[simp] theorem State.modQuad_serial (n : Nat) (f : Quad → Quad) : (s.modQuad n f).serial = s.serial := rfl
@[simp] theorem State.modQuad_quads (n : Nat) (f : Quad → Quad) : (s.modQuad n f).quads = modAt s.quads n f := rfl
@[simp] theorem State.modQuad_tileOps (n : Nat) (f : Quad → Quad) : (s.modQuad n f).tileOps = s.tileOps := rfl
@[simp] theorem State.modQuad_engine (n : Nat) (f : Quad → Quad) : (s.modQuad n f).engine = s.engine := rfl
@[simp] theorem State.modQuad_slotQueue (n : Nat) (f : Quad → Quad) : (s.modQuad n f).slotQueue = s.slotQueue := rfl
@[simp] theorem State.modQuad_splits (n : Nat) (f : Quad → Quad) : (s.modQuad n f).splits = s.splits := rfl
@[simp] theorem State.modQuad_mem (n : Nat) (f : Quad → Quad) : (s.modQuad n f).mem = s.mem := rfl
@[simp] theorem State.modQuad_poison (n : Nat) (f : Quad → Quad) : (s.modQuad n f).poison = s.poison := rfl
@[simp] theorem State.modQuad_l1 (n : Nat) (f : Quad → Quad) : (s.modQuad n f).l1 = s.l1 := rfl
@[simp] theorem State.modQuad_pend (n : Nat) (f : Quad → Quad) : (s.modQuad n f).pend = s.pend := rfl
@[simp] theorem State.modQuad_homing (n : Nat) (f : Quad → Quad) : (s.modQuad n f).homing = s.homing := rfl
@[simp] theorem State.modQuad_late (n : Nat) (f : Quad → Quad) : (s.modQuad n f).late = s.late := rfl
@[simp] theorem State.modQuad_modified (n : Nat) (f : Quad → Quad) : (s.modQuad n f).modified = s.modified := rfl
@[simp] theorem State.modQuad_leaders (n : Nat) (f : Quad → Quad) : (s.modQuad n f).leaders = s.leaders := rfl
@[simp] theorem State.modQuad_shadows (n : Nat) (f : Quad → Quad) : (s.modQuad n f).shadows = s.shadows := rfl
@[simp] theorem State.modQuad_spaces (n : Nat) (f : Quad → Quad) : (s.modQuad n f).spaces = s.spaces := rfl
@[simp] theorem State.modQuad_pages (n : Nat) (f : Quad → Quad) : (s.modQuad n f).pages = s.pages := rfl
@[simp] theorem State.modQuad_frozen (n : Nat) (f : Quad → Quad) : (s.modQuad n f).frozen = s.frozen := rfl
@[simp] theorem State.modQuad_regions (n : Nat) (f : Quad → Quad) : (s.modQuad n f).regions = s.regions := rfl
@[simp] theorem State.modQuad_records (n : Nat) (f : Quad → Quad) : (s.modQuad n f).records = s.records := rfl
@[simp] theorem State.modQuad_recSeq (n : Nat) (f : Quad → Quad) : (s.modQuad n f).recSeq = s.recSeq := rfl
@[simp] theorem State.modQuad_freezes (n : Nat) (f : Quad → Quad) : (s.modQuad n f).freezes = s.freezes := rfl
@[simp] theorem State.modQuad_parkedReqs (n : Nat) (f : Quad → Quad) : (s.modQuad n f).parkedReqs = s.parkedReqs := rfl
@[simp] theorem State.modQuad_delivered (n : Nat) (f : Quad → Quad) : (s.modQuad n f).delivered = s.delivered := rfl
@[simp] theorem State.modQuad_commands (n : Nat) (f : Quad → Quad) : (s.modQuad n f).commands = s.commands := rfl
@[simp] theorem State.modQuad_parts (n : Nat) (f : Quad → Quad) : (s.modQuad n f).parts = s.parts := rfl
@[simp] theorem State.modQuad_zenCnt (n : Nat) (f : Quad → Quad) : (s.modQuad n f).zenCnt = s.zenCnt := rfl
@[simp] theorem State.modQuad_zenLed (n : Nat) (f : Quad → Quad) : (s.modQuad n f).zenLed = s.zenLed := rfl
@[simp] theorem State.modQuad_injects (n : Nat) (f : Quad → Quad) : (s.modQuad n f).injects = s.injects := rfl
@[simp] theorem State.modQuad_faulty (n : Nat) (f : Quad → Quad) : (s.modQuad n f).faulty = s.faulty := rfl
@[simp] theorem State.modQuad_clusters (n : Nat) (f : Quad → Quad) : (s.modQuad n f).clusters = s.clusters := rfl
@[simp] theorem State.modQuad_limit (n : Nat) (f : Quad → Quad) : (s.modQuad n f).limit = s.limit := rfl
@[simp] theorem State.modQuad_isModule (n : Nat) (f : Quad → Quad) : (s.modQuad n f).isModule = s.isModule := rfl
@[simp] theorem State.modQuad_watts (n : Nat) (f : Quad → Quad) : (s.modQuad n f).watts = s.watts := rfl
@[simp] theorem State.modQuad_bubbles (n : Nat) (f : Quad → Quad) : (s.modQuad n f).bubbles = s.bubbles := rfl
@[simp] theorem State.modQuad_lowSince (n : Nat) (f : Quad → Quad) : (s.modQuad n f).lowSince = s.lowSince := rfl
@[simp] theorem State.modQuad_nextCheck (n : Nat) (f : Quad → Quad) : (s.modQuad n f).nextCheck = s.nextCheck := rfl
@[simp] theorem State.modQuad_watches (n : Nat) (f : Quad → Quad) : (s.modQuad n f).watches = s.watches := rfl
@[simp] theorem State.modQuad_ring (n : Nat) (f : Quad → Quad) : (s.modQuad n f).ring = s.ring := rfl
@[simp] theorem State.modQuad_windows (n : Nat) (f : Quad → Quad) : (s.modQuad n f).windows = s.windows := rfl
@[simp] theorem State.modQuad_hostMod (n : Nat) (f : Quad → Quad) : (s.modQuad n f).hostMod = s.hostMod := rfl
@[simp] theorem State.modQuad_linkUp (n : Nat) (f : Quad → Quad) : (s.modQuad n f).linkUp = s.linkUp := rfl
@[simp] theorem State.modQuad_dev (n : Nat) (f : Quad → Quad) : (s.modQuad n f).dev = s.dev := rfl
@[simp] theorem State.modQuad_failing (n : Nat) (f : Quad → Quad) : (s.modQuad n f).failing = s.failing := rfl
@[simp] theorem State.modQuad_image (n : Nat) (f : Quad → Quad) : (s.modQuad n f).image = s.image := rfl
@[simp] theorem State.modQuad_firmware (n : Nat) (f : Quad → Quad) : (s.modQuad n f).firmware = s.firmware := rfl
@[simp] theorem State.modQuad_devNum (n : Nat) (f : Quad → Quad) : (s.modQuad n f).devNum = s.devNum := rfl
@[simp] theorem State.modQuad_peers (n : Nat) (f : Quad → Quad) : (s.modQuad n f).peers = s.peers := rfl
@[simp] theorem State.modQuad_outputs (n : Nat) (f : Quad → Quad) : (s.modQuad n f).outputs = s.outputs := rfl
@[simp] theorem State.modQuad_episodes (n : Nat) (f : Quad → Quad) : (s.modQuad n f).episodes = s.episodes := rfl
@[simp] theorem State.modQuad_pairs (n : Nat) (f : Quad → Quad) : (s.modQuad n f).pairs = s.pairs := rfl
@[simp] theorem State.modQuad_ready (n : Nat) (f : Quad → Quad) : (s.modQuad n f).ready = s.ready := rfl
@[simp] theorem State.modQuad_time (n : Nat) (f : Quad → Quad) : (s.modQuad n f).time = s.time := rfl
@[simp] theorem State.modQuad_agenda (n : Nat) (f : Quad → Quad) : (s.modQuad n f).agenda = s.agenda := rfl
@[simp] theorem State.modQuad_bundle (n : Nat) (f : Quad → Quad) : (s.modQuad n f).bundle = s.bundle := rfl
@[simp] theorem State.modQuad_cur (n : Nat) (f : Quad → Quad) : (s.modQuad n f).cur = s.cur := rfl
@[simp] theorem State.modQuad_turn (n : Nat) (f : Quad → Quad) : (s.modQuad n f).turn = s.turn := rfl
@[simp] theorem State.modQuad_tried (n : Nat) (f : Quad → Quad) : (s.modQuad n f).tried = s.tried := rfl
@[simp] theorem State.modQuad_defer (n : Nat) (f : Quad → Quad) : (s.modQuad n f).defer = s.defer := rfl
@[simp] theorem State.modQuad_placings (n : Nat) (f : Quad → Quad) : (s.modQuad n f).placings = s.placings := rfl
@[simp] theorem State.modQuad_arrivals (n : Nat) (f : Quad → Quad) : (s.modQuad n f).arrivals = s.arrivals := rfl
@[simp] theorem State.modQuad_freeCtr (n : Nat) (f : Quad → Quad) : (s.modQuad n f).freeCtr = s.freeCtr := rfl

/-! #### modPart -/

@[simp] theorem State.modPart_waves (n : Nat) (f : Part → Part) : (s.modPart n f).waves = s.waves := rfl
@[simp] theorem State.modPart_teams (n : Nat) (f : Part → Part) : (s.modPart n f).teams = s.teams := rfl
@[simp] theorem State.modPart_grids (n : Nat) (f : Part → Part) : (s.modPart n f).grids = s.grids := rfl
@[simp] theorem State.modPart_phases (n : Nat) (f : Part → Part) : (s.modPart n f).phases = s.phases := rfl
@[simp] theorem State.modPart_mailboxes (n : Nat) (f : Part → Part) : (s.modPart n f).mailboxes = s.mailboxes := rfl
@[simp] theorem State.modPart_flights (n : Nat) (f : Part → Part) : (s.modPart n f).flights = s.flights := rfl
@[simp] theorem State.modPart_requeue (n : Nat) (f : Part → Part) : (s.modPart n f).requeue = s.requeue := rfl
@[simp] theorem State.modPart_serial (n : Nat) (f : Part → Part) : (s.modPart n f).serial = s.serial := rfl
@[simp] theorem State.modPart_quads (n : Nat) (f : Part → Part) : (s.modPart n f).quads = s.quads := rfl
@[simp] theorem State.modPart_tileOps (n : Nat) (f : Part → Part) : (s.modPart n f).tileOps = s.tileOps := rfl
@[simp] theorem State.modPart_engine (n : Nat) (f : Part → Part) : (s.modPart n f).engine = s.engine := rfl
@[simp] theorem State.modPart_slotQueue (n : Nat) (f : Part → Part) : (s.modPart n f).slotQueue = s.slotQueue := rfl
@[simp] theorem State.modPart_splits (n : Nat) (f : Part → Part) : (s.modPart n f).splits = s.splits := rfl
@[simp] theorem State.modPart_mem (n : Nat) (f : Part → Part) : (s.modPart n f).mem = s.mem := rfl
@[simp] theorem State.modPart_poison (n : Nat) (f : Part → Part) : (s.modPart n f).poison = s.poison := rfl
@[simp] theorem State.modPart_l1 (n : Nat) (f : Part → Part) : (s.modPart n f).l1 = s.l1 := rfl
@[simp] theorem State.modPart_pend (n : Nat) (f : Part → Part) : (s.modPart n f).pend = s.pend := rfl
@[simp] theorem State.modPart_homing (n : Nat) (f : Part → Part) : (s.modPart n f).homing = s.homing := rfl
@[simp] theorem State.modPart_late (n : Nat) (f : Part → Part) : (s.modPart n f).late = s.late := rfl
@[simp] theorem State.modPart_modified (n : Nat) (f : Part → Part) : (s.modPart n f).modified = s.modified := rfl
@[simp] theorem State.modPart_leaders (n : Nat) (f : Part → Part) : (s.modPart n f).leaders = s.leaders := rfl
@[simp] theorem State.modPart_shadows (n : Nat) (f : Part → Part) : (s.modPart n f).shadows = s.shadows := rfl
@[simp] theorem State.modPart_spaces (n : Nat) (f : Part → Part) : (s.modPart n f).spaces = s.spaces := rfl
@[simp] theorem State.modPart_pages (n : Nat) (f : Part → Part) : (s.modPart n f).pages = s.pages := rfl
@[simp] theorem State.modPart_frozen (n : Nat) (f : Part → Part) : (s.modPart n f).frozen = s.frozen := rfl
@[simp] theorem State.modPart_regions (n : Nat) (f : Part → Part) : (s.modPart n f).regions = s.regions := rfl
@[simp] theorem State.modPart_records (n : Nat) (f : Part → Part) : (s.modPart n f).records = s.records := rfl
@[simp] theorem State.modPart_recSeq (n : Nat) (f : Part → Part) : (s.modPart n f).recSeq = s.recSeq := rfl
@[simp] theorem State.modPart_freezes (n : Nat) (f : Part → Part) : (s.modPart n f).freezes = s.freezes := rfl
@[simp] theorem State.modPart_parkedReqs (n : Nat) (f : Part → Part) : (s.modPart n f).parkedReqs = s.parkedReqs := rfl
@[simp] theorem State.modPart_delivered (n : Nat) (f : Part → Part) : (s.modPart n f).delivered = s.delivered := rfl
@[simp] theorem State.modPart_commands (n : Nat) (f : Part → Part) : (s.modPart n f).commands = s.commands := rfl
@[simp] theorem State.modPart_parts (n : Nat) (f : Part → Part) : (s.modPart n f).parts = modAt s.parts n f := rfl
@[simp] theorem State.modPart_zenCnt (n : Nat) (f : Part → Part) : (s.modPart n f).zenCnt = s.zenCnt := rfl
@[simp] theorem State.modPart_zenLed (n : Nat) (f : Part → Part) : (s.modPart n f).zenLed = s.zenLed := rfl
@[simp] theorem State.modPart_injects (n : Nat) (f : Part → Part) : (s.modPart n f).injects = s.injects := rfl
@[simp] theorem State.modPart_faulty (n : Nat) (f : Part → Part) : (s.modPart n f).faulty = s.faulty := rfl
@[simp] theorem State.modPart_clusters (n : Nat) (f : Part → Part) : (s.modPart n f).clusters = s.clusters := rfl
@[simp] theorem State.modPart_limit (n : Nat) (f : Part → Part) : (s.modPart n f).limit = s.limit := rfl
@[simp] theorem State.modPart_isModule (n : Nat) (f : Part → Part) : (s.modPart n f).isModule = s.isModule := rfl
@[simp] theorem State.modPart_watts (n : Nat) (f : Part → Part) : (s.modPart n f).watts = s.watts := rfl
@[simp] theorem State.modPart_bubbles (n : Nat) (f : Part → Part) : (s.modPart n f).bubbles = s.bubbles := rfl
@[simp] theorem State.modPart_lowSince (n : Nat) (f : Part → Part) : (s.modPart n f).lowSince = s.lowSince := rfl
@[simp] theorem State.modPart_nextCheck (n : Nat) (f : Part → Part) : (s.modPart n f).nextCheck = s.nextCheck := rfl
@[simp] theorem State.modPart_watches (n : Nat) (f : Part → Part) : (s.modPart n f).watches = s.watches := rfl
@[simp] theorem State.modPart_ring (n : Nat) (f : Part → Part) : (s.modPart n f).ring = s.ring := rfl
@[simp] theorem State.modPart_windows (n : Nat) (f : Part → Part) : (s.modPart n f).windows = s.windows := rfl
@[simp] theorem State.modPart_hostMod (n : Nat) (f : Part → Part) : (s.modPart n f).hostMod = s.hostMod := rfl
@[simp] theorem State.modPart_linkUp (n : Nat) (f : Part → Part) : (s.modPart n f).linkUp = s.linkUp := rfl
@[simp] theorem State.modPart_dev (n : Nat) (f : Part → Part) : (s.modPart n f).dev = s.dev := rfl
@[simp] theorem State.modPart_failing (n : Nat) (f : Part → Part) : (s.modPart n f).failing = s.failing := rfl
@[simp] theorem State.modPart_image (n : Nat) (f : Part → Part) : (s.modPart n f).image = s.image := rfl
@[simp] theorem State.modPart_firmware (n : Nat) (f : Part → Part) : (s.modPart n f).firmware = s.firmware := rfl
@[simp] theorem State.modPart_devNum (n : Nat) (f : Part → Part) : (s.modPart n f).devNum = s.devNum := rfl
@[simp] theorem State.modPart_peers (n : Nat) (f : Part → Part) : (s.modPart n f).peers = s.peers := rfl
@[simp] theorem State.modPart_outputs (n : Nat) (f : Part → Part) : (s.modPart n f).outputs = s.outputs := rfl
@[simp] theorem State.modPart_episodes (n : Nat) (f : Part → Part) : (s.modPart n f).episodes = s.episodes := rfl
@[simp] theorem State.modPart_pairs (n : Nat) (f : Part → Part) : (s.modPart n f).pairs = s.pairs := rfl
@[simp] theorem State.modPart_ready (n : Nat) (f : Part → Part) : (s.modPart n f).ready = s.ready := rfl
@[simp] theorem State.modPart_time (n : Nat) (f : Part → Part) : (s.modPart n f).time = s.time := rfl
@[simp] theorem State.modPart_agenda (n : Nat) (f : Part → Part) : (s.modPart n f).agenda = s.agenda := rfl
@[simp] theorem State.modPart_bundle (n : Nat) (f : Part → Part) : (s.modPart n f).bundle = s.bundle := rfl
@[simp] theorem State.modPart_cur (n : Nat) (f : Part → Part) : (s.modPart n f).cur = s.cur := rfl
@[simp] theorem State.modPart_turn (n : Nat) (f : Part → Part) : (s.modPart n f).turn = s.turn := rfl
@[simp] theorem State.modPart_tried (n : Nat) (f : Part → Part) : (s.modPart n f).tried = s.tried := rfl
@[simp] theorem State.modPart_defer (n : Nat) (f : Part → Part) : (s.modPart n f).defer = s.defer := rfl
@[simp] theorem State.modPart_placings (n : Nat) (f : Part → Part) : (s.modPart n f).placings = s.placings := rfl
@[simp] theorem State.modPart_arrivals (n : Nat) (f : Part → Part) : (s.modPart n f).arrivals = s.arrivals := rfl
@[simp] theorem State.modPart_freeCtr (n : Nat) (f : Part → Part) : (s.modPart n f).freeCtr = s.freeCtr := rfl

/-! #### modCluster -/

@[simp] theorem State.modCluster_waves (n : Nat) (f : Cluster → Cluster) : (s.modCluster n f).waves = s.waves := rfl
@[simp] theorem State.modCluster_teams (n : Nat) (f : Cluster → Cluster) : (s.modCluster n f).teams = s.teams := rfl
@[simp] theorem State.modCluster_grids (n : Nat) (f : Cluster → Cluster) : (s.modCluster n f).grids = s.grids := rfl
@[simp] theorem State.modCluster_phases (n : Nat) (f : Cluster → Cluster) : (s.modCluster n f).phases = s.phases := rfl
@[simp] theorem State.modCluster_mailboxes (n : Nat) (f : Cluster → Cluster) : (s.modCluster n f).mailboxes = s.mailboxes := rfl
@[simp] theorem State.modCluster_flights (n : Nat) (f : Cluster → Cluster) : (s.modCluster n f).flights = s.flights := rfl
@[simp] theorem State.modCluster_requeue (n : Nat) (f : Cluster → Cluster) : (s.modCluster n f).requeue = s.requeue := rfl
@[simp] theorem State.modCluster_serial (n : Nat) (f : Cluster → Cluster) : (s.modCluster n f).serial = s.serial := rfl
@[simp] theorem State.modCluster_quads (n : Nat) (f : Cluster → Cluster) : (s.modCluster n f).quads = s.quads := rfl
@[simp] theorem State.modCluster_tileOps (n : Nat) (f : Cluster → Cluster) : (s.modCluster n f).tileOps = s.tileOps := rfl
@[simp] theorem State.modCluster_engine (n : Nat) (f : Cluster → Cluster) : (s.modCluster n f).engine = s.engine := rfl
@[simp] theorem State.modCluster_slotQueue (n : Nat) (f : Cluster → Cluster) : (s.modCluster n f).slotQueue = s.slotQueue := rfl
@[simp] theorem State.modCluster_splits (n : Nat) (f : Cluster → Cluster) : (s.modCluster n f).splits = s.splits := rfl
@[simp] theorem State.modCluster_mem (n : Nat) (f : Cluster → Cluster) : (s.modCluster n f).mem = s.mem := rfl
@[simp] theorem State.modCluster_poison (n : Nat) (f : Cluster → Cluster) : (s.modCluster n f).poison = s.poison := rfl
@[simp] theorem State.modCluster_l1 (n : Nat) (f : Cluster → Cluster) : (s.modCluster n f).l1 = s.l1 := rfl
@[simp] theorem State.modCluster_pend (n : Nat) (f : Cluster → Cluster) : (s.modCluster n f).pend = s.pend := rfl
@[simp] theorem State.modCluster_homing (n : Nat) (f : Cluster → Cluster) : (s.modCluster n f).homing = s.homing := rfl
@[simp] theorem State.modCluster_late (n : Nat) (f : Cluster → Cluster) : (s.modCluster n f).late = s.late := rfl
@[simp] theorem State.modCluster_modified (n : Nat) (f : Cluster → Cluster) : (s.modCluster n f).modified = s.modified := rfl
@[simp] theorem State.modCluster_leaders (n : Nat) (f : Cluster → Cluster) : (s.modCluster n f).leaders = s.leaders := rfl
@[simp] theorem State.modCluster_shadows (n : Nat) (f : Cluster → Cluster) : (s.modCluster n f).shadows = s.shadows := rfl
@[simp] theorem State.modCluster_spaces (n : Nat) (f : Cluster → Cluster) : (s.modCluster n f).spaces = s.spaces := rfl
@[simp] theorem State.modCluster_pages (n : Nat) (f : Cluster → Cluster) : (s.modCluster n f).pages = s.pages := rfl
@[simp] theorem State.modCluster_frozen (n : Nat) (f : Cluster → Cluster) : (s.modCluster n f).frozen = s.frozen := rfl
@[simp] theorem State.modCluster_regions (n : Nat) (f : Cluster → Cluster) : (s.modCluster n f).regions = s.regions := rfl
@[simp] theorem State.modCluster_records (n : Nat) (f : Cluster → Cluster) : (s.modCluster n f).records = s.records := rfl
@[simp] theorem State.modCluster_recSeq (n : Nat) (f : Cluster → Cluster) : (s.modCluster n f).recSeq = s.recSeq := rfl
@[simp] theorem State.modCluster_freezes (n : Nat) (f : Cluster → Cluster) : (s.modCluster n f).freezes = s.freezes := rfl
@[simp] theorem State.modCluster_parkedReqs (n : Nat) (f : Cluster → Cluster) : (s.modCluster n f).parkedReqs = s.parkedReqs := rfl
@[simp] theorem State.modCluster_delivered (n : Nat) (f : Cluster → Cluster) : (s.modCluster n f).delivered = s.delivered := rfl
@[simp] theorem State.modCluster_commands (n : Nat) (f : Cluster → Cluster) : (s.modCluster n f).commands = s.commands := rfl
@[simp] theorem State.modCluster_parts (n : Nat) (f : Cluster → Cluster) : (s.modCluster n f).parts = s.parts := rfl
@[simp] theorem State.modCluster_zenCnt (n : Nat) (f : Cluster → Cluster) : (s.modCluster n f).zenCnt = s.zenCnt := rfl
@[simp] theorem State.modCluster_zenLed (n : Nat) (f : Cluster → Cluster) : (s.modCluster n f).zenLed = s.zenLed := rfl
@[simp] theorem State.modCluster_injects (n : Nat) (f : Cluster → Cluster) : (s.modCluster n f).injects = s.injects := rfl
@[simp] theorem State.modCluster_faulty (n : Nat) (f : Cluster → Cluster) : (s.modCluster n f).faulty = s.faulty := rfl
@[simp] theorem State.modCluster_clusters (n : Nat) (f : Cluster → Cluster) : (s.modCluster n f).clusters = modAt s.clusters n f := rfl
@[simp] theorem State.modCluster_limit (n : Nat) (f : Cluster → Cluster) : (s.modCluster n f).limit = s.limit := rfl
@[simp] theorem State.modCluster_isModule (n : Nat) (f : Cluster → Cluster) : (s.modCluster n f).isModule = s.isModule := rfl
@[simp] theorem State.modCluster_watts (n : Nat) (f : Cluster → Cluster) : (s.modCluster n f).watts = s.watts := rfl
@[simp] theorem State.modCluster_bubbles (n : Nat) (f : Cluster → Cluster) : (s.modCluster n f).bubbles = s.bubbles := rfl
@[simp] theorem State.modCluster_lowSince (n : Nat) (f : Cluster → Cluster) : (s.modCluster n f).lowSince = s.lowSince := rfl
@[simp] theorem State.modCluster_nextCheck (n : Nat) (f : Cluster → Cluster) : (s.modCluster n f).nextCheck = s.nextCheck := rfl
@[simp] theorem State.modCluster_watches (n : Nat) (f : Cluster → Cluster) : (s.modCluster n f).watches = s.watches := rfl
@[simp] theorem State.modCluster_ring (n : Nat) (f : Cluster → Cluster) : (s.modCluster n f).ring = s.ring := rfl
@[simp] theorem State.modCluster_windows (n : Nat) (f : Cluster → Cluster) : (s.modCluster n f).windows = s.windows := rfl
@[simp] theorem State.modCluster_hostMod (n : Nat) (f : Cluster → Cluster) : (s.modCluster n f).hostMod = s.hostMod := rfl
@[simp] theorem State.modCluster_linkUp (n : Nat) (f : Cluster → Cluster) : (s.modCluster n f).linkUp = s.linkUp := rfl
@[simp] theorem State.modCluster_dev (n : Nat) (f : Cluster → Cluster) : (s.modCluster n f).dev = s.dev := rfl
@[simp] theorem State.modCluster_failing (n : Nat) (f : Cluster → Cluster) : (s.modCluster n f).failing = s.failing := rfl
@[simp] theorem State.modCluster_image (n : Nat) (f : Cluster → Cluster) : (s.modCluster n f).image = s.image := rfl
@[simp] theorem State.modCluster_firmware (n : Nat) (f : Cluster → Cluster) : (s.modCluster n f).firmware = s.firmware := rfl
@[simp] theorem State.modCluster_devNum (n : Nat) (f : Cluster → Cluster) : (s.modCluster n f).devNum = s.devNum := rfl
@[simp] theorem State.modCluster_peers (n : Nat) (f : Cluster → Cluster) : (s.modCluster n f).peers = s.peers := rfl
@[simp] theorem State.modCluster_outputs (n : Nat) (f : Cluster → Cluster) : (s.modCluster n f).outputs = s.outputs := rfl
@[simp] theorem State.modCluster_episodes (n : Nat) (f : Cluster → Cluster) : (s.modCluster n f).episodes = s.episodes := rfl
@[simp] theorem State.modCluster_pairs (n : Nat) (f : Cluster → Cluster) : (s.modCluster n f).pairs = s.pairs := rfl
@[simp] theorem State.modCluster_ready (n : Nat) (f : Cluster → Cluster) : (s.modCluster n f).ready = s.ready := rfl
@[simp] theorem State.modCluster_time (n : Nat) (f : Cluster → Cluster) : (s.modCluster n f).time = s.time := rfl
@[simp] theorem State.modCluster_agenda (n : Nat) (f : Cluster → Cluster) : (s.modCluster n f).agenda = s.agenda := rfl
@[simp] theorem State.modCluster_bundle (n : Nat) (f : Cluster → Cluster) : (s.modCluster n f).bundle = s.bundle := rfl
@[simp] theorem State.modCluster_cur (n : Nat) (f : Cluster → Cluster) : (s.modCluster n f).cur = s.cur := rfl
@[simp] theorem State.modCluster_turn (n : Nat) (f : Cluster → Cluster) : (s.modCluster n f).turn = s.turn := rfl
@[simp] theorem State.modCluster_tried (n : Nat) (f : Cluster → Cluster) : (s.modCluster n f).tried = s.tried := rfl
@[simp] theorem State.modCluster_defer (n : Nat) (f : Cluster → Cluster) : (s.modCluster n f).defer = s.defer := rfl
@[simp] theorem State.modCluster_placings (n : Nat) (f : Cluster → Cluster) : (s.modCluster n f).placings = s.placings := rfl
@[simp] theorem State.modCluster_arrivals (n : Nat) (f : Cluster → Cluster) : (s.modCluster n f).arrivals = s.arrivals := rfl
@[simp] theorem State.modCluster_freeCtr (n : Nat) (f : Cluster → Cluster) : (s.modCluster n f).freeCtr = s.freeCtr := rfl

/-! #### emit -/

@[simp] theorem State.emit_waves (x : Output) : (s.emit x).waves = s.waves := rfl
@[simp] theorem State.emit_teams (x : Output) : (s.emit x).teams = s.teams := rfl
@[simp] theorem State.emit_grids (x : Output) : (s.emit x).grids = s.grids := rfl
@[simp] theorem State.emit_phases (x : Output) : (s.emit x).phases = s.phases := rfl
@[simp] theorem State.emit_mailboxes (x : Output) : (s.emit x).mailboxes = s.mailboxes := rfl
@[simp] theorem State.emit_flights (x : Output) : (s.emit x).flights = s.flights := rfl
@[simp] theorem State.emit_requeue (x : Output) : (s.emit x).requeue = s.requeue := rfl
@[simp] theorem State.emit_serial (x : Output) : (s.emit x).serial = s.serial := rfl
@[simp] theorem State.emit_quads (x : Output) : (s.emit x).quads = s.quads := rfl
@[simp] theorem State.emit_tileOps (x : Output) : (s.emit x).tileOps = s.tileOps := rfl
@[simp] theorem State.emit_engine (x : Output) : (s.emit x).engine = s.engine := rfl
@[simp] theorem State.emit_slotQueue (x : Output) : (s.emit x).slotQueue = s.slotQueue := rfl
@[simp] theorem State.emit_splits (x : Output) : (s.emit x).splits = s.splits := rfl
@[simp] theorem State.emit_mem (x : Output) : (s.emit x).mem = s.mem := rfl
@[simp] theorem State.emit_poison (x : Output) : (s.emit x).poison = s.poison := rfl
@[simp] theorem State.emit_l1 (x : Output) : (s.emit x).l1 = s.l1 := rfl
@[simp] theorem State.emit_pend (x : Output) : (s.emit x).pend = s.pend := rfl
@[simp] theorem State.emit_homing (x : Output) : (s.emit x).homing = s.homing := rfl
@[simp] theorem State.emit_late (x : Output) : (s.emit x).late = s.late := rfl
@[simp] theorem State.emit_modified (x : Output) : (s.emit x).modified = s.modified := rfl
@[simp] theorem State.emit_leaders (x : Output) : (s.emit x).leaders = s.leaders := rfl
@[simp] theorem State.emit_shadows (x : Output) : (s.emit x).shadows = s.shadows := rfl
@[simp] theorem State.emit_spaces (x : Output) : (s.emit x).spaces = s.spaces := rfl
@[simp] theorem State.emit_pages (x : Output) : (s.emit x).pages = s.pages := rfl
@[simp] theorem State.emit_frozen (x : Output) : (s.emit x).frozen = s.frozen := rfl
@[simp] theorem State.emit_regions (x : Output) : (s.emit x).regions = s.regions := rfl
@[simp] theorem State.emit_records (x : Output) : (s.emit x).records = s.records := rfl
@[simp] theorem State.emit_recSeq (x : Output) : (s.emit x).recSeq = s.recSeq := rfl
@[simp] theorem State.emit_freezes (x : Output) : (s.emit x).freezes = s.freezes := rfl
@[simp] theorem State.emit_parkedReqs (x : Output) : (s.emit x).parkedReqs = s.parkedReqs := rfl
@[simp] theorem State.emit_delivered (x : Output) : (s.emit x).delivered = s.delivered := rfl
@[simp] theorem State.emit_commands (x : Output) : (s.emit x).commands = s.commands := rfl
@[simp] theorem State.emit_parts (x : Output) : (s.emit x).parts = s.parts := rfl
@[simp] theorem State.emit_zenCnt (x : Output) : (s.emit x).zenCnt = s.zenCnt := rfl
@[simp] theorem State.emit_zenLed (x : Output) : (s.emit x).zenLed = s.zenLed := rfl
@[simp] theorem State.emit_injects (x : Output) : (s.emit x).injects = s.injects := rfl
@[simp] theorem State.emit_faulty (x : Output) : (s.emit x).faulty = s.faulty := rfl
@[simp] theorem State.emit_clusters (x : Output) : (s.emit x).clusters = s.clusters := rfl
@[simp] theorem State.emit_limit (x : Output) : (s.emit x).limit = s.limit := rfl
@[simp] theorem State.emit_isModule (x : Output) : (s.emit x).isModule = s.isModule := rfl
@[simp] theorem State.emit_watts (x : Output) : (s.emit x).watts = s.watts := rfl
@[simp] theorem State.emit_bubbles (x : Output) : (s.emit x).bubbles = s.bubbles := rfl
@[simp] theorem State.emit_lowSince (x : Output) : (s.emit x).lowSince = s.lowSince := rfl
@[simp] theorem State.emit_nextCheck (x : Output) : (s.emit x).nextCheck = s.nextCheck := rfl
@[simp] theorem State.emit_watches (x : Output) : (s.emit x).watches = s.watches := rfl
@[simp] theorem State.emit_ring (x : Output) : (s.emit x).ring = s.ring := rfl
@[simp] theorem State.emit_windows (x : Output) : (s.emit x).windows = s.windows := rfl
@[simp] theorem State.emit_hostMod (x : Output) : (s.emit x).hostMod = s.hostMod := rfl
@[simp] theorem State.emit_linkUp (x : Output) : (s.emit x).linkUp = s.linkUp := rfl
@[simp] theorem State.emit_dev (x : Output) : (s.emit x).dev = s.dev := rfl
@[simp] theorem State.emit_failing (x : Output) : (s.emit x).failing = s.failing := rfl
@[simp] theorem State.emit_image (x : Output) : (s.emit x).image = s.image := rfl
@[simp] theorem State.emit_firmware (x : Output) : (s.emit x).firmware = s.firmware := rfl
@[simp] theorem State.emit_devNum (x : Output) : (s.emit x).devNum = s.devNum := rfl
@[simp] theorem State.emit_peers (x : Output) : (s.emit x).peers = s.peers := rfl
@[simp] theorem State.emit_outputs (x : Output) : (s.emit x).outputs = s.outputs ++ [x] := rfl
@[simp] theorem State.emit_episodes (x : Output) : (s.emit x).episodes = s.episodes := rfl
@[simp] theorem State.emit_pairs (x : Output) : (s.emit x).pairs = s.pairs := rfl
@[simp] theorem State.emit_ready (x : Output) : (s.emit x).ready = s.ready := rfl
@[simp] theorem State.emit_time (x : Output) : (s.emit x).time = s.time := rfl
@[simp] theorem State.emit_agenda (x : Output) : (s.emit x).agenda = s.agenda := rfl
@[simp] theorem State.emit_bundle (x : Output) : (s.emit x).bundle = s.bundle := rfl
@[simp] theorem State.emit_cur (x : Output) : (s.emit x).cur = s.cur := rfl
@[simp] theorem State.emit_turn (x : Output) : (s.emit x).turn = s.turn := rfl
@[simp] theorem State.emit_tried (x : Output) : (s.emit x).tried = s.tried := rfl
@[simp] theorem State.emit_defer (x : Output) : (s.emit x).defer = s.defer := rfl
@[simp] theorem State.emit_placings (x : Output) : (s.emit x).placings = s.placings := rfl
@[simp] theorem State.emit_arrivals (x : Output) : (s.emit x).arrivals = s.arrivals := rfl
@[simp] theorem State.emit_freeCtr (x : Output) : (s.emit x).freeCtr = s.freeCtr := rfl

/-! #### draw -/

@[simp] theorem State.draw_waves : s.draw.1.waves = s.waves := rfl
@[simp] theorem State.draw_teams : s.draw.1.teams = s.teams := rfl
@[simp] theorem State.draw_grids : s.draw.1.grids = s.grids := rfl
@[simp] theorem State.draw_phases : s.draw.1.phases = s.phases := rfl
@[simp] theorem State.draw_mailboxes : s.draw.1.mailboxes = s.mailboxes := rfl
@[simp] theorem State.draw_flights : s.draw.1.flights = s.flights := rfl
@[simp] theorem State.draw_requeue : s.draw.1.requeue = s.requeue := rfl
@[simp] theorem State.draw_serial : s.draw.1.serial = s.serial := rfl
@[simp] theorem State.draw_quads : s.draw.1.quads = s.quads := rfl
@[simp] theorem State.draw_tileOps : s.draw.1.tileOps = s.tileOps := rfl
@[simp] theorem State.draw_engine : s.draw.1.engine = s.engine := rfl
@[simp] theorem State.draw_slotQueue : s.draw.1.slotQueue = s.slotQueue := rfl
@[simp] theorem State.draw_splits : s.draw.1.splits = s.splits := rfl
@[simp] theorem State.draw_mem : s.draw.1.mem = s.mem := rfl
@[simp] theorem State.draw_poison : s.draw.1.poison = s.poison := rfl
@[simp] theorem State.draw_l1 : s.draw.1.l1 = s.l1 := rfl
@[simp] theorem State.draw_pend : s.draw.1.pend = s.pend := rfl
@[simp] theorem State.draw_homing : s.draw.1.homing = s.homing := rfl
@[simp] theorem State.draw_late : s.draw.1.late = s.late := rfl
@[simp] theorem State.draw_modified : s.draw.1.modified = s.modified := rfl
@[simp] theorem State.draw_leaders : s.draw.1.leaders = s.leaders := rfl
@[simp] theorem State.draw_shadows : s.draw.1.shadows = s.shadows := rfl
@[simp] theorem State.draw_spaces : s.draw.1.spaces = s.spaces := rfl
@[simp] theorem State.draw_pages : s.draw.1.pages = s.pages := rfl
@[simp] theorem State.draw_frozen : s.draw.1.frozen = s.frozen := rfl
@[simp] theorem State.draw_regions : s.draw.1.regions = s.regions := rfl
@[simp] theorem State.draw_records : s.draw.1.records = s.records := rfl
@[simp] theorem State.draw_recSeq : s.draw.1.recSeq = s.recSeq := rfl
@[simp] theorem State.draw_freezes : s.draw.1.freezes = s.freezes := rfl
@[simp] theorem State.draw_parkedReqs : s.draw.1.parkedReqs = s.parkedReqs := rfl
@[simp] theorem State.draw_delivered : s.draw.1.delivered = s.delivered := rfl
@[simp] theorem State.draw_commands : s.draw.1.commands = s.commands := rfl
@[simp] theorem State.draw_parts : s.draw.1.parts = s.parts := rfl
@[simp] theorem State.draw_zenCnt : s.draw.1.zenCnt = s.zenCnt := rfl
@[simp] theorem State.draw_zenLed : s.draw.1.zenLed = s.zenLed := rfl
@[simp] theorem State.draw_injects : s.draw.1.injects = s.injects := rfl
@[simp] theorem State.draw_faulty : s.draw.1.faulty = s.faulty := rfl
@[simp] theorem State.draw_clusters : s.draw.1.clusters = s.clusters := rfl
@[simp] theorem State.draw_limit : s.draw.1.limit = s.limit := rfl
@[simp] theorem State.draw_isModule : s.draw.1.isModule = s.isModule := rfl
@[simp] theorem State.draw_watts : s.draw.1.watts = s.watts := rfl
@[simp] theorem State.draw_bubbles : s.draw.1.bubbles = s.bubbles := rfl
@[simp] theorem State.draw_lowSince : s.draw.1.lowSince = s.lowSince := rfl
@[simp] theorem State.draw_nextCheck : s.draw.1.nextCheck = s.nextCheck := rfl
@[simp] theorem State.draw_watches : s.draw.1.watches = s.watches := rfl
@[simp] theorem State.draw_ring : s.draw.1.ring = s.ring := rfl
@[simp] theorem State.draw_windows : s.draw.1.windows = s.windows := rfl
@[simp] theorem State.draw_hostMod : s.draw.1.hostMod = s.hostMod := rfl
@[simp] theorem State.draw_linkUp : s.draw.1.linkUp = s.linkUp := rfl
@[simp] theorem State.draw_dev : s.draw.1.dev = s.dev := rfl
@[simp] theorem State.draw_failing : s.draw.1.failing = s.failing := rfl
@[simp] theorem State.draw_image : s.draw.1.image = s.image := rfl
@[simp] theorem State.draw_firmware : s.draw.1.firmware = s.firmware := rfl
@[simp] theorem State.draw_devNum : s.draw.1.devNum = s.devNum := rfl
@[simp] theorem State.draw_peers : s.draw.1.peers = s.peers := rfl
@[simp] theorem State.draw_outputs : s.draw.1.outputs = s.outputs := rfl
@[simp] theorem State.draw_episodes : s.draw.1.episodes = s.episodes := rfl
@[simp] theorem State.draw_pairs : s.draw.1.pairs = s.pairs := rfl
@[simp] theorem State.draw_ready : s.draw.1.ready = s.ready := rfl
@[simp] theorem State.draw_time : s.draw.1.time = s.time := rfl
@[simp] theorem State.draw_agenda : s.draw.1.agenda = s.agenda := rfl
@[simp] theorem State.draw_bundle : s.draw.1.bundle = s.bundle := rfl
@[simp] theorem State.draw_cur : s.draw.1.cur = s.cur := rfl
@[simp] theorem State.draw_turn : s.draw.1.turn = s.turn := rfl
@[simp] theorem State.draw_tried : s.draw.1.tried = s.tried := rfl
@[simp] theorem State.draw_defer : s.draw.1.defer = s.defer := rfl
@[simp] theorem State.draw_placings : s.draw.1.placings = s.placings := rfl
@[simp] theorem State.draw_arrivals : s.draw.1.arrivals = s.arrivals := rfl
@[simp] theorem State.draw_freeCtr : s.draw.1.freeCtr = s.freeCtr + 1 := rfl
@[simp] theorem State.draw_index : s.draw.2 = s.freeCtr := rfl

end

section
variable (f : Fibre) (z : Bool) (k : Nat)

/-! #### Registers -/

@[simp] theorem Fibre.set_live (v : Word) : (f.set z k v).live = f.live := by cases z <;> rfl
@[simp] theorem Fibre.set_pc (v : Word) : (f.set z k v).pc = f.pc := by cases z <;> rfl
@[simp] theorem Fibre.set_base (v : Word) : (f.set z k v).base = f.base := by cases z <;> rfl
@[simp] theorem Fibre.set_preds (v : Word) : (f.set z k v).preds = f.preds := by cases z <;> rfl
@[simp] theorem Fibre.set_lc (v : Word) : (f.set z k v).lc = f.lc := by cases z <;> rfl
@[simp] theorem Fibre.set_loops (v : Word) : (f.set z k v).loops = f.loops := by cases z <;> rfl
@[simp] theorem Fibre.set_weight (v : Word) : (f.set z k v).weight = f.weight := by cases z <;> rfl
@[simp] theorem Fibre.set_park (v : Word) : (f.set z k v).park = f.park := by cases z <;> rfl
@[simp] theorem Fibre.set_intrap (v : Word) : (f.set z k v).intrap = f.intrap := by cases z <;> rfl
@[simp] theorem Fibre.set_savedBase (v : Word) : (f.set z k v).savedBase = f.savedBase := by cases z <;> rfl
@[simp] theorem Fibre.set_queued (v : Word) : (f.set z k v).queued = f.queued := by cases z <;> rfl
@[simp] theorem Fibre.set_cause (v : Word) : (f.set z k v).cause = f.cause := by cases z <;> rfl
@[simp] theorem Fibre.set_epc (v : Word) : (f.set z k v).epc = f.epc := by cases z <;> rfl
@[simp] theorem Fibre.set_evalue (v : Word) : (f.set z k v).evalue = f.evalue := by cases z <;> rfl
@[simp] theorem Fibre.set_ureg (v : Word) : (f.set z k v).ureg = f.ureg := by cases z <;> rfl
@[simp] theorem Fibre.set_due (v : Word) : (f.set z k v).due = f.due := by cases z <;> rfl
@[simp] theorem Fibre.set_mtrap (v : Word) : (f.set z k v).mtrap = f.mtrap := by cases z <;> rfl
@[simp] theorem Fibre.set_owed (v : Word) : (f.set z k v).owed = f.owed := by cases z <;> rfl
@[simp] theorem Fibre.set_sregs_wave (v : Word) : (f.set false k v).sregs = f.sregs := rfl
@[simp] theorem Fibre.set_regs_zenith (v : Word) : (f.set true k v).regs = f.regs := rfl
@[simp] theorem Fibre.set_length (v : Word) : (f.set z k v).regs.length = f.regs.length := by
  cases z <;> simp [Fibre.set]

@[simp] theorem Fibre.setZ_live (v : Word) : (f.setZ z k v).live = f.live := by cases z <;> rfl
@[simp] theorem Fibre.setZ_pc (v : Word) : (f.setZ z k v).pc = f.pc := by cases z <;> rfl
@[simp] theorem Fibre.setZ_base (v : Word) : (f.setZ z k v).base = f.base := by cases z <;> rfl
@[simp] theorem Fibre.setZ_preds (v : Word) : (f.setZ z k v).preds = f.preds := by cases z <;> rfl
@[simp] theorem Fibre.setZ_lc (v : Word) : (f.setZ z k v).lc = f.lc := by cases z <;> rfl
@[simp] theorem Fibre.setZ_loops (v : Word) : (f.setZ z k v).loops = f.loops := by cases z <;> rfl
@[simp] theorem Fibre.setZ_weight (v : Word) : (f.setZ z k v).weight = f.weight := by cases z <;> rfl
@[simp] theorem Fibre.setZ_park (v : Word) : (f.setZ z k v).park = f.park := by cases z <;> rfl
@[simp] theorem Fibre.setZ_intrap (v : Word) : (f.setZ z k v).intrap = f.intrap := by cases z <;> rfl
@[simp] theorem Fibre.setZ_savedBase (v : Word) : (f.setZ z k v).savedBase = f.savedBase := by cases z <;> rfl
@[simp] theorem Fibre.setZ_queued (v : Word) : (f.setZ z k v).queued = f.queued := by cases z <;> rfl
@[simp] theorem Fibre.setZ_cause (v : Word) : (f.setZ z k v).cause = f.cause := by cases z <;> rfl
@[simp] theorem Fibre.setZ_epc (v : Word) : (f.setZ z k v).epc = f.epc := by cases z <;> rfl
@[simp] theorem Fibre.setZ_evalue (v : Word) : (f.setZ z k v).evalue = f.evalue := by cases z <;> rfl
@[simp] theorem Fibre.setZ_ureg (v : Word) : (f.setZ z k v).ureg = f.ureg := by cases z <;> rfl
@[simp] theorem Fibre.setZ_due (v : Word) : (f.setZ z k v).due = f.due := by cases z <;> rfl
@[simp] theorem Fibre.setZ_mtrap (v : Word) : (f.setZ z k v).mtrap = f.mtrap := by cases z <;> rfl
@[simp] theorem Fibre.setZ_owed (v : Word) : (f.setZ z k v).owed = f.owed := by cases z <;> rfl
@[simp] theorem Fibre.setZ_sregs_wave (v : Word) : (f.setZ false k v).sregs = f.sregs := rfl
@[simp] theorem Fibre.setZ_regs_zenith (v : Word) : (f.setZ true k v).regs = f.regs := rfl
@[simp] theorem Fibre.setZ_length (v : Word) : (f.setZ z k v).regs.length = f.regs.length := by
  cases z <;> simp [Fibre.setZ]

@[simp] theorem Fibre.setPair_live (v : DWord) : (f.setPair z k v).live = f.live := by cases z <;> rfl
@[simp] theorem Fibre.setPair_pc (v : DWord) : (f.setPair z k v).pc = f.pc := by cases z <;> rfl
@[simp] theorem Fibre.setPair_base (v : DWord) : (f.setPair z k v).base = f.base := by cases z <;> rfl
@[simp] theorem Fibre.setPair_preds (v : DWord) : (f.setPair z k v).preds = f.preds := by cases z <;> rfl
@[simp] theorem Fibre.setPair_lc (v : DWord) : (f.setPair z k v).lc = f.lc := by cases z <;> rfl
@[simp] theorem Fibre.setPair_loops (v : DWord) : (f.setPair z k v).loops = f.loops := by cases z <;> rfl
@[simp] theorem Fibre.setPair_weight (v : DWord) : (f.setPair z k v).weight = f.weight := by cases z <;> rfl
@[simp] theorem Fibre.setPair_park (v : DWord) : (f.setPair z k v).park = f.park := by cases z <;> rfl
@[simp] theorem Fibre.setPair_intrap (v : DWord) : (f.setPair z k v).intrap = f.intrap := by cases z <;> rfl
@[simp] theorem Fibre.setPair_savedBase (v : DWord) : (f.setPair z k v).savedBase = f.savedBase := by cases z <;> rfl
@[simp] theorem Fibre.setPair_queued (v : DWord) : (f.setPair z k v).queued = f.queued := by cases z <;> rfl
@[simp] theorem Fibre.setPair_cause (v : DWord) : (f.setPair z k v).cause = f.cause := by cases z <;> rfl
@[simp] theorem Fibre.setPair_epc (v : DWord) : (f.setPair z k v).epc = f.epc := by cases z <;> rfl
@[simp] theorem Fibre.setPair_evalue (v : DWord) : (f.setPair z k v).evalue = f.evalue := by cases z <;> rfl
@[simp] theorem Fibre.setPair_ureg (v : DWord) : (f.setPair z k v).ureg = f.ureg := by cases z <;> rfl
@[simp] theorem Fibre.setPair_due (v : DWord) : (f.setPair z k v).due = f.due := by cases z <;> rfl
@[simp] theorem Fibre.setPair_mtrap (v : DWord) : (f.setPair z k v).mtrap = f.mtrap := by cases z <;> rfl
@[simp] theorem Fibre.setPair_owed (v : DWord) : (f.setPair z k v).owed = f.owed := by cases z <;> rfl
@[simp] theorem Fibre.setPair_sregs_wave (v : DWord) : (f.setPair false k v).sregs = f.sregs := rfl
@[simp] theorem Fibre.setPair_regs_zenith (v : DWord) : (f.setPair true k v).regs = f.regs := rfl
@[simp] theorem Fibre.setPair_length (v : DWord) : (f.setPair z k v).regs.length = f.regs.length := by
  cases z <;> simp [Fibre.setPair]

@[simp] theorem Fibre.setPred_live (p : PredNo) (b : Bool) : (f.setPred p b).live = f.live := by
  unfold Fibre.setPred; split <;> rfl
@[simp] theorem Fibre.setPred_pc (p : PredNo) (b : Bool) : (f.setPred p b).pc = f.pc := by
  unfold Fibre.setPred; split <;> rfl
@[simp] theorem Fibre.setPred_base (p : PredNo) (b : Bool) : (f.setPred p b).base = f.base := by
  unfold Fibre.setPred; split <;> rfl
@[simp] theorem Fibre.setPred_regs (p : PredNo) (b : Bool) : (f.setPred p b).regs = f.regs := by
  unfold Fibre.setPred; split <;> rfl
@[simp] theorem Fibre.setPred_sregs (p : PredNo) (b : Bool) : (f.setPred p b).sregs = f.sregs := by
  unfold Fibre.setPred; split <;> rfl
@[simp] theorem Fibre.setPred_lc (p : PredNo) (b : Bool) : (f.setPred p b).lc = f.lc := by
  unfold Fibre.setPred; split <;> rfl
@[simp] theorem Fibre.setPred_loops (p : PredNo) (b : Bool) : (f.setPred p b).loops = f.loops := by
  unfold Fibre.setPred; split <;> rfl
@[simp] theorem Fibre.setPred_weight (p : PredNo) (b : Bool) : (f.setPred p b).weight = f.weight := by
  unfold Fibre.setPred; split <;> rfl
@[simp] theorem Fibre.setPred_park (p : PredNo) (b : Bool) : (f.setPred p b).park = f.park := by
  unfold Fibre.setPred; split <;> rfl
@[simp] theorem Fibre.setPred_intrap (p : PredNo) (b : Bool) : (f.setPred p b).intrap = f.intrap := by
  unfold Fibre.setPred; split <;> rfl
@[simp] theorem Fibre.setPred_savedBase (p : PredNo) (b : Bool) : (f.setPred p b).savedBase = f.savedBase := by
  unfold Fibre.setPred; split <;> rfl
@[simp] theorem Fibre.setPred_queued (p : PredNo) (b : Bool) : (f.setPred p b).queued = f.queued := by
  unfold Fibre.setPred; split <;> rfl
@[simp] theorem Fibre.setPred_cause (p : PredNo) (b : Bool) : (f.setPred p b).cause = f.cause := by
  unfold Fibre.setPred; split <;> rfl
@[simp] theorem Fibre.setPred_epc (p : PredNo) (b : Bool) : (f.setPred p b).epc = f.epc := by
  unfold Fibre.setPred; split <;> rfl
@[simp] theorem Fibre.setPred_evalue (p : PredNo) (b : Bool) : (f.setPred p b).evalue = f.evalue := by
  unfold Fibre.setPred; split <;> rfl
@[simp] theorem Fibre.setPred_ureg (p : PredNo) (b : Bool) : (f.setPred p b).ureg = f.ureg := by
  unfold Fibre.setPred; split <;> rfl
@[simp] theorem Fibre.setPred_due (p : PredNo) (b : Bool) : (f.setPred p b).due = f.due := by
  unfold Fibre.setPred; split <;> rfl
@[simp] theorem Fibre.setPred_mtrap (p : PredNo) (b : Bool) : (f.setPred p b).mtrap = f.mtrap := by
  unfold Fibre.setPred; split <;> rfl
@[simp] theorem Fibre.setPred_owed (p : PredNo) (b : Bool) : (f.setPred p b).owed = f.owed := by
  unfold Fibre.setPred; split <;> rfl

/-- A register that is written reads as what was written (R84). -/
theorem Fibre.get_set_same (v : Word) (h : f.base + k < f.regs.length) : (f.set false k v).get false k = v := by
  simp [Fibre.get, Fibre.set, Fibre.phys, h, List.getD_eq_getElem?_getD]

/-- Every other register keeps its value. -/
theorem Fibre.get_set_other (v : Word) (j : Nat) (h : j ≠ k) : (f.set false k v).get false j = f.get false j := by
  simp [Fibre.get, Fibre.set, Fibre.phys, List.getD_eq_getElem?_getD, h.symm]

/-- A predicate that is written reads as what was written; p7 reads 1 and is not written (R20, R91). -/
theorem Fibre.pred_setPred (p : PredNo) (b : Bool) : (f.setPred p b).pred p = if p = 7#3 then true else b := by
  by_cases h : p = 7#3
  · simp [Fibre.pred, h]
  · have hp : p.toNat < 7 := by have := p.isLt; have : p.toNat ≠ 7 := fun e => h (BitVec.eq_of_toNat_eq e); omega
    cases b <;> simp [Fibre.pred, Fibre.setPred, setBit7, h, hp]

/-- Every other predicate keeps its value. -/
theorem Fibre.pred_setPred_other (p q : PredNo) (b : Bool) (h : q ≠ p) : (f.setPred p b).pred q = f.pred q := by
  have hn : q.toNat ≠ p.toNat := fun e => h (BitVec.eq_of_toNat_eq e)
  by_cases hp : p = 7#3
  · simp [Fibre.setPred, hp]
  by_cases hq : q = 7#3
  · simp [Fibre.pred, hq]
  have h7 : q.toNat < 7 := by have := q.isLt; have : q.toNat ≠ 7 := fun e => hq (BitVec.eq_of_toNat_eq e); omega
  cases b <;> simp [Fibre.pred, Fibre.setPred, setBit7, hp, hq] <;> intros <;> omega

/-! #### Going on at the next word -/

/-- Loop end processing touches only the pc, the loop counters and the loop records (R74). -/
theorem loopEndList_eq (e : Pc) (ls : List LoopRec) : ∀ f : Fibre, loopEndList e f ls =
    { f with pc := (loopEndList e f ls).pc, lc := (loopEndList e f ls).lc, loops := (loopEndList e f ls).loops } := by
  induction ls with
  | nil => intro f; rfl
  | cons r rest ih =>
    intro f
    simp only [loopEndList]
    split
    · split
      · rfl
      · rw [ih]
    · exact ih f

@[simp] theorem Fibre.advance_live (next last : Pc) : (f.advance next last).live = f.live := by
  unfold Fibre.advance Fibre.loopEnd; rw [loopEndList_eq]
@[simp] theorem Fibre.advance_base (next last : Pc) : (f.advance next last).base = f.base := by
  unfold Fibre.advance Fibre.loopEnd; rw [loopEndList_eq]
@[simp] theorem Fibre.advance_regs (next last : Pc) : (f.advance next last).regs = f.regs := by
  unfold Fibre.advance Fibre.loopEnd; rw [loopEndList_eq]
@[simp] theorem Fibre.advance_sregs (next last : Pc) : (f.advance next last).sregs = f.sregs := by
  unfold Fibre.advance Fibre.loopEnd; rw [loopEndList_eq]
@[simp] theorem Fibre.advance_preds (next last : Pc) : (f.advance next last).preds = f.preds := by
  unfold Fibre.advance Fibre.loopEnd; rw [loopEndList_eq]
@[simp] theorem Fibre.advance_weight (next last : Pc) : (f.advance next last).weight = f.weight := by
  unfold Fibre.advance Fibre.loopEnd; rw [loopEndList_eq]
@[simp] theorem Fibre.advance_park (next last : Pc) : (f.advance next last).park = f.park := by
  unfold Fibre.advance Fibre.loopEnd; rw [loopEndList_eq]
@[simp] theorem Fibre.advance_intrap (next last : Pc) : (f.advance next last).intrap = f.intrap := by
  unfold Fibre.advance Fibre.loopEnd; rw [loopEndList_eq]
@[simp] theorem Fibre.advance_savedBase (next last : Pc) : (f.advance next last).savedBase = f.savedBase := by
  unfold Fibre.advance Fibre.loopEnd; rw [loopEndList_eq]
@[simp] theorem Fibre.advance_queued (next last : Pc) : (f.advance next last).queued = f.queued := by
  unfold Fibre.advance Fibre.loopEnd; rw [loopEndList_eq]
@[simp] theorem Fibre.advance_cause (next last : Pc) : (f.advance next last).cause = f.cause := by
  unfold Fibre.advance Fibre.loopEnd; rw [loopEndList_eq]
@[simp] theorem Fibre.advance_epc (next last : Pc) : (f.advance next last).epc = f.epc := by
  unfold Fibre.advance Fibre.loopEnd; rw [loopEndList_eq]
@[simp] theorem Fibre.advance_evalue (next last : Pc) : (f.advance next last).evalue = f.evalue := by
  unfold Fibre.advance Fibre.loopEnd; rw [loopEndList_eq]
@[simp] theorem Fibre.advance_ureg (next last : Pc) : (f.advance next last).ureg = f.ureg := by
  unfold Fibre.advance Fibre.loopEnd; rw [loopEndList_eq]
@[simp] theorem Fibre.advance_due (next last : Pc) : (f.advance next last).due = f.due := by
  unfold Fibre.advance Fibre.loopEnd; rw [loopEndList_eq]
@[simp] theorem Fibre.advance_mtrap (next last : Pc) : (f.advance next last).mtrap = f.mtrap := by
  unfold Fibre.advance Fibre.loopEnd; rw [loopEndList_eq]
@[simp] theorem Fibre.advance_owed (next last : Pc) : (f.advance next last).owed = f.owed := by
  unfold Fibre.advance Fibre.loopEnd; rw [loopEndList_eq]

/-- Where no loop ends, a fibre goes on at the next word with its loops as they were. -/
theorem Fibre.advance_of_no_loops (next last : Pc) (h : f.loops = []) : f.advance next last = { f with pc := next } := by
  simp [Fibre.advance, Fibre.loopEnd, h, loopEndList]

/-! #### Taking a trap and returning from one (R311, R313) -/

/-- What entry leaves of a fibre. -/
theorem Fibre.enter_window (t : TrapInfo) (epc entry : Pc) (win : Nat) :
    (f.enter false t epc entry win).base = f.base + win ∧ (f.enter false t epc entry win).savedBase = f.base ∧
    (f.enter false t epc entry win).pc = entry ∧ (f.enter false t epc entry win).epc = epc ∧
    (f.enter false t epc entry win).cause = t.cause ∧ (f.enter false t epc entry win).evalue = t.evalue ∧
    (f.enter false t epc entry win).intrap = true ∧ (f.enter false t epc entry win).regs = f.regs ∧
    (f.enter false t epc entry win).preds = f.preds ∧ (f.enter false t epc entry win).lc = f.lc ∧
    (f.enter false t epc entry win).loops = f.loops ∧ (f.enter false t epc entry win).weight = f.weight :=
  ⟨rfl, rfl, rfl, rfl, rfl, rfl, rfl, rfl, rfl, rfl, rfl, rfl⟩

/-- Return without a queued silent error: the window and the flag of before the trap, on to t. -/
theorem Fibre.rte_plain (t entry : Pc) (win : Nat) (h : f.queued = none) : f.rte z t entry win =
    ({ f with base := f.savedBase, intrap := false, epc := t, pc := t }, none) := by simp [Fibre.rte, h]

end

/-- Trap entry of one fibre outside a trap path, in a launch with a trap section (R311): all it can do. -/
theorem State.takeTrap_entry {s : State} {wid l : Nat} {w : Wave} {f : Fibre} {g : Grid} {t : TrapInfo} {epc entry : Pc}
    (hw : s.waves[wid]? = some w) (hf : w.fibres[l]? = some f) (hg : s.gridOf w = some g) (hl : f.live = true)
    (hi : f.intrap = false) (he : g.trapEntry = some entry) :
    s.takeTrap wid l t epc =
      (let w1 : Wave := { w with fibres := w.fibres.set l (f.enter w.zen t epc entry g.trapwin) }
       s.setWave wid (if t.cause == 0x07#6 then { w1 with etr := true, err := t.err.getD w1.err } else w1)) := by
  simp [State.takeTrap, hw, hf, hg, hl, hi, he]

/-- A trap inside a trap path, other than 0x07, and a trap in a launch without a trap section terminate the wave. -/
theorem State.takeTrap_terminates {s : State} {wid l : Nat} {w : Wave} {f : Fibre} {g : Grid} {t : TrapInfo} {epc : Pc}
    (hw : s.waves[wid]? = some w) (hf : w.fibres[l]? = some f) (hg : s.gridOf w = some g) (hl : f.live = true)
    (h : f.intrap = true ∧ t.cause ≠ 0x07#6 ∨ f.intrap = false ∧ g.trapEntry = none) :
    s.takeTrap wid l t epc = s.terminate wid t.cause f.intrap f.epc := by
  rcases h with ⟨h1, h2⟩ | ⟨h1, h2⟩ <;> simp [State.takeTrap, hw, hf, hg, hl, h1, h2]

/-- No trap reaches a slot that holds no live fibre. -/
theorem State.takeTrap_dead {s : State} {wid l : Nat} {w : Wave} {f : Fibre} {t : TrapInfo} {epc : Pc}
    (hw : s.waves[wid]? = some w) (hf : w.fibres[l]? = some f) (hl : f.live = false) : s.takeTrap wid l t epc = s := by
  cases hg : s.gridOf w <;> simp [State.takeTrap, hw, hf, hg, hl]

/-- A split keeps the weight it splits and the refill it draws (R298, R299). -/
theorem splitWeight_sum (w : Nat) : (splitWeight w).1 + (splitWeight w).2.1 = w + (splitWeight w).2.2 := by
  unfold splitWeight; split <;> simp only <;> omega

/-- Neither share of a split is 0 (R299). -/
theorem splitWeight_pos (w : Nat) : 0 < (splitWeight w).1 ∧ 0 < (splitWeight w).2.1 := by
  unfold splitWeight; split <;> simp only <;> omega

end Sys2Proof.Machine
end

