-- ==== Sys2Proof/Tests/Slice0.lean ====
section
/-! SUPPORT. Tests: ill-formed words, words written out from the spec's encodings, one step of instructions on small
states, and for every statement a state that meets its hypotheses. -/

namespace Sys2Proof.Tests

open Sys2Proof Sys2Proof.Machine

/-! ### Small states -/

/-- A live fibre whose register k holds k. -/
def fib : Fibre := { Fibre.empty with live := true, regs := (List.range 64).map (BitVec.ofNat 32), weight := 8 }
/-- The fibre of the Zenith thread, its s-register k holding k. -/
def zfib : Fibre := { Fibre.empty with live := true, sregs := (List.range 64).map (BitVec.ofNat 64), weight := 1 }
def grd : Grid := { demoGrid 0 1 0 with width := 2, trapEntry := some 0x40 }
def wav (fs : List Fibre) : Wave := launchWave grd 0 0 0 0 0 false fs
def zen (f : Fibre) : Wave := launchWave grd 0 1 0 0 0 true [f]
def team : Team := { demoTeam 0 0 0 with zen := none }
def phase : Phase := { expected := 100, returned := 0, grid := 0, buckets := [], record := none, ended := false }
/-- One team of one wave, in a launch with a trap section; its code page is mapped. -/
def st (w : Wave) : State := { State.reset with
  waves := [w], teams := [team], grids := [grd], phases := [phase]
  spaces := [{ asid := 1, mbx := none, table := 0 }], pages := [demoPage 1] }
/-- A launch in the Zenith context of a team without another wave. -/
def stz (f : Fibre) : State := { st (zen f) with teams := [{ team with waves := [], zen := some 0 }] }
def w1 : Wave := wav [fib]
def s1 : State := st w1
def sz : State := stz zfib

/-- The registers or other numbers that a step leaves in the lanes of the wave 0. -/
def lanes (o : Out) (f : Fibre → Nat) : Option (List Nat) :=
  match o with | .next t => t.waves.head?.map fun w => w.fibres.map f | _ => none
def v (k : Nat) (f : Fibre) : Nat := (f.get false k).toNat
def wv {α : Type} (o : Out) (f : Wave → α) : Option α := match o with | .next t => t.waves.head?.map f | _ => none
def sv {α : Type} (o : Out) (f : State → α) : Option α := match o with | .next t => some (f t) | _ => none

/-- Bytes of memory as numbers. -/
def bytesAt (s : State) (a n : Nat) : List Nat := (s.mem.readN a n).map (·.toNat)

/-- What holds for the only fibre of a wave. -/
theorem one {p : Nat → Fibre → Prop} {f0 : Fibre} (h : p 0 f0) : ∀ (l : Nat) (f : Fibre), [f0][l]? = some f → p l f
  | 0, _, e => by cases e; exact h
  | _ + 1, _, e => by cases e

theorem ready1 {i : Instr} {gd : Guard} (h : execLanes (kindsOf s1 i gd w1 grd) ≠ [])
    (h' : (kindsOf s1 i gd w1 grd).any LaneKind.isBad = false) : Ready i gd s1 w1 grd := ⟨rfl, rfl, rfl, rfl, h, h'⟩
theorem readyz {i : Instr} {gd : Guard} (h : execLanes (kindsOf sz i gd (zen zfib) grd) ≠ [])
    (h' : (kindsOf sz i gd (zen zfib) grd).any LaneKind.isBad = false) : Ready i gd sz (zen zfib) grd :=
  ⟨rfl, rfl, rfl, rfl, h, h'⟩
theorem canTrap1 (ks : List LaneKind) : CanTrap ks w1 grd 0x40 := ⟨rfl, one fun _ => rfl⟩

/-! ### Integer, move, control, trap and floating-point statements -/

theorem wit_IntegerResult : ∃ val, intResult s1 w1.zen (.iadd 7 1 2 3) = some (7, 1, val) ∧ Ready (.iadd 7 1 2 3) 7 s1 w1 grd :=
  ⟨_, rfl, ready1 (by decide) (by decide)⟩
theorem wit_IntegerResult_zen : ∃ val, intResult sz true (.sar 7 1 2 3) = some (7, 1, val) ∧ Ready (.sar 7 1 2 3) 7 sz (zen zfib) grd :=
  ⟨_, rfl, readyz (by decide) (by decide)⟩
theorem wit_IntegerResult_64 : ∃ val, intResult64 w1.zen (.iadd64 7 4 2 6) = some (7, 4, val) ∧ Ready (.iadd64 7 4 2 6) 7 s1 w1 grd :=
  ⟨_, rfl, ready1 (by decide) (by decide)⟩
theorem wit_MoveResult : ∃ op, moveFibre w1.zen (.icmp 7 1 2 3 4 .lt) = some (7, op) ∧ Ready (.icmp 7 1 2 3 4 .lt) 7 s1 w1 grd :=
  ⟨_, rfl, ready1 (by decide) (by decide)⟩
theorem wit_MoveResult_yield : Ready (.yield 7) 7 s1 w1 grd ∧ w1.rot.Nodup ∧ s1.nextPc ∉ w1.rot ∧
    (∀ l f, w1.fibres[l]? = some f → (kindsOf s1 (.yield 7) 7 w1 grd).getD l .out ≠ .out → (f.advance s1.nextPc s1.lastPc).pc = s1.nextPc) :=
  ⟨ready1 (by decide) (by decide), by decide, by decide, one fun _ => by decide⟩
/-- R79: the path of the YIELD stands behind the one that was ready before it. -/
theorem test_yield : let w := { wav [fib, { fib with pc := 9 }] with rot := [0, 9] }
    wv (exec (.yield 7) (st w)) (fun x => x.rot.map (·.toNat)) = some [9, 1] := by decide
theorem wit_SpecialRead : ∃ op, readFibre s1 w1 team grd (.movsr 7 1 3 false) = some (7, op) ∧ s1.teamOf w1 = some team ∧
    Ready (.movsr 7 1 3 false) 7 s1 w1 grd := ⟨_, rfl, rfl, ready1 (by decide) (by decide)⟩
/-- Where a transfer takes a fibre. -/
def taken (s : State) (w : Wave) (i : Instr) (f : Fibre) : Fibre := ((controlFibre s w i).bind fun x => x.2 f).getD f

theorem wit_ControlTransfer_bra : ∃ (op : Fibre → Option Fibre) (after : Fibre → Fibre), controlFibre s1 w1 (.bra 7 5) = some (7, op) ∧ Ready (.bra 7 5) 7 s1 w1 grd ∧
    ∀ l f, w1.fibres[l]? = some f → (kindsOf s1 (.bra 7 5) 7 w1 grd).getD l .out = .exec → op f = some (after f) :=
  ⟨_, taken s1 w1 (.bra 7 5), rfl, ready1 (by decide) (by decide), one fun _ => rfl⟩
theorem wit_ControlTransfer_rte : ∃ (op : Fibre → Option Fibre) (after : Fibre → Fibre), let w := wav [{ fib with intrap := true, epc := 9 }]
    controlFibre (st w) w (.rte 7) = some (7, op) ∧ Ready (.rte 7) 7 (st w) w grd ∧
    ∀ l f, w.fibres[l]? = some f → (kindsOf (st w) (.rte 7) 7 w grd).getD l .out = .exec → op f = some (after f) :=
  ⟨_, taken (st (wav [{ fib with intrap := true, epc := 9 }])) (wav [{ fib with intrap := true, epc := 9 }]) (.rte 7), rfl,
    ⟨rfl, rfl, rfl, rfl, by decide, by decide⟩, one fun _ => rfl⟩
theorem wit_ControlTransfer_call : ∃ (op : Fibre → Option Fibre) (after : Fibre → Fibre), let w := { wav [fib] with allot := 128 }
    controlFibre (st w) w (.call 7 64 8) = some (7, op) ∧ Ready (.call 7 64 8) 7 (st w) w grd ∧
    ∀ l f, w.fibres[l]? = some f → (kindsOf (st w) (.call 7 64 8) 7 w grd).getD l .out = .exec → op f = some (after f) :=
  ⟨_, taken (st { wav [fib] with allot := 128 }) { wav [fib] with allot := 128 } (.call 7 64 8), rfl,
    ⟨rfl, rfl, rfl, rfl, by decide, by decide⟩, one fun _ => rfl⟩
theorem wit_WaveRegisterWrite_chkerr : ∃ r op, waveReg (.chkerr 7 1) s1 w1 grd (lowLane (.chkerr 7 1) 7 s1 w1 grd) = some (7, r, op) ∧
    Ready (.chkerr 7 1) 7 s1 w1 grd := ⟨_, _, rfl, ready1 (by decide) (by decide)⟩
def finj : Fibre := { fib with regs := fib.regs.set 1 0xA0010000 }
/-- Kind 2 on index 0 of class 1: bit 31 arms it. -/
theorem wit_WaveRegisterWrite_errinj : ∃ r op, let w := wav [finj]; let s := st w
    waveReg (.errinj 7 1) s w grd (lowLane (.errinj 7 1) 7 s w grd) = some (7, r, op) ∧ Ready (.errinj 7 1) 7 s w grd :=
  ⟨_, _, rfl, ⟨rfl, rfl, rfl, rfl, by decide, by decide⟩⟩
theorem wit_WaveRegisterWrite_perfq : ∃ r op, waveReg (.perfq 7 1 2) s1 w1 grd (lowLane (.perfq 7 1 2) 7 s1 w1 grd) = some (7, r, op) ∧
    Ready (.perfq 7 1 2) 7 s1 w1 grd := ⟨_, _, rfl, ready1 (by decide) (by decide)⟩
theorem wit_SoftwareTrap : Ready (.trap 7 5) 7 s1 w1 grd ∧ Ready (.brk 7) 7 s1 w1 grd ∧
    CanTrap (kindsOf s1 (.trap 7 5) 7 w1 grd) w1 grd 0x40 :=
  ⟨ready1 (by decide) (by decide), ready1 (by decide) (by decide), canTrap1 _⟩
/-- RTE outside a trap path breaks a context rule (R39). -/
theorem wit_ContextRuleTrap : (Instr.rte 7).guard? = some 7 ∧ s1.waves[s1.cur.wave]? = some w1 ∧ s1.gridOf w1 = some grd ∧
    s1.faulty = [] ∧ grd.trapEntry = some 0x40 ∧ (∀ l f, w1.fibres[l]? = some f → w1.inPath s1.cur.pc l f = true → f.intrap = false) ∧
    (∀ l f, w1.fibres[l]? = some f → w1.inPath s1.cur.pc l f = true → f.guardTrue 7 = true → (brokenRule s1 (.rte 7) w1 grd f).isSome = true) ∧
    (∃ l f, w1.fibres[l]? = some f ∧ w1.inPath s1.cur.pc l f = true ∧ f.guardTrue 7 = true) :=
  ⟨rfl, rfl, rfl, rfl, rfl, one fun _ => rfl, one fun _ _ => by decide, 0, fib, rfl, by decide, by decide⟩
/-- Each row of R39's table, at the last register inside the allotment and the first outside, and R332. -/
theorem wit_ContextRuleTrap_rows : ([.rte 7, .dpush 7 1 0 3, .qpush 7 4 2, .stg 7 4 2 .acq .team .b32 .normal, .iadd 7 1 2 3] : List Instr).map
      (fun i => (brokenRule s1 i w1 grd fib).map (·.toNat)) = [some 1, some 1, some 12, some 1, none] ∧
    brokenRule sz (.fork 7 1 2 3) (zen zfib) grd zfib = some 0x01 ∧
    brokenRule s1 (.livetile 7 5) w1 { grd with priv := false } fib = some 0x01 ∧ brokenRule s1 (.accz 7 3) w1 { grd with matrix := false } fib = some 0x01 ∧
    brokenRule s1 (.iadd 7 1 2 7) { w1 with allot := 8 } grd fib = none ∧ brokenRule s1 (.iadd 7 1 2 8) { w1 with allot := 8 } grd fib = some 0x01 := by decide
theorem wit_FalseGuard : (Instr.iadd 0 1 2 3).guard? = some 0 ∧ (∀ k ∈ kindsOf s1 (.iadd 0 1 2 3) 0 w1 grd, k = .skip ∨ k = .out) ∧
    .skip ∈ kindsOf s1 (.iadd 0 1 2 3) 0 w1 grd :=
  ⟨rfl, by decide, by decide⟩
theorem wit_FloatResult : ∃ reads op, floatFibre s1 w1.zen (.fadd 7 1 2 3 .f32) = some (7, reads, op) ∧
    Ready (.fadd 7 1 2 3 .f32) 7 s1 w1 grd ∧ grd.checkreg = false ∧ s1.invOn w1 = false :=
  ⟨_, _, rfl, ready1 (by decide) (by decide), rfl, rfl⟩
def fmark : Fibre := { fib with regs := fib.regs.set 2 0x7F800105 }
theorem wit_FloatTrap : ∃ (reads : Fibre → List Word) (op : Fibre → List (BitVec 6) × Fibre), let w := wav [fmark]; let g := { grd with checkreg := true }; let s := { st w with grids := [g] }
    floatFibre s w.zen (.fadd 7 1 2 3 .f32) = some (7, reads, op) ∧ Ready (.fadd 7 1 2 3 .f32) 7 s w g ∧
    CanTrap (kindsOf s (.fadd 7 1 2 3 .f32) 7 w g) w g 0x40 ∧
    ∀ (l : Nat) (f : Fibre), w.fibres[l]? = some f → (reads f).find? isMarker = some 0x7F800105 :=
  ⟨_, _, rfl, ⟨rfl, rfl, rfl, rfl, by decide, by decide⟩, ⟨rfl, one fun _ => rfl⟩, one (by decide)⟩
def finf : Fibre := { fib with regs := (fib.regs.set 2 0x7F800000).set 3 0x7F800000 }
theorem wit_FloatTrap_invalid : ∃ (reads : Fibre → List Word) (op : Fibre → List (BitVec 6) × Fibre), let w := { wav [finf] with inven := true }; let s := st w
    floatFibre s w.zen (.fsub 7 1 2 3 .f32) = some (7, reads, op) ∧ Ready (.fsub 7 1 2 3 .f32) 7 s w grd ∧
    CanTrap (kindsOf s (.fsub 7 1 2 3 .f32) 7 w grd) w grd 0x40 ∧ s.invOn w = true ∧
    ∀ (l : Nat) (f : Fibre), w.fibres[l]? = some f → (op f).1.findIdx? (fun x => x.getLsbD 0) = some 0 :=
  ⟨_, _, rfl, ⟨rfl, rfl, rfl, rfl, by decide, by decide⟩, ⟨rfl, one fun _ => rfl⟩, rfl, one (by decide)⟩

/-! ### Cross-lane, fork and join, queues, waits -/

def w2 : Wave := wav [fib, { fib with regs := fib.regs.set 1 0xFFFFFFFF }]
def s2 : State := st w2
theorem ready2 {i : Instr} {gd : Guard} (h : execLanes (kindsOf s2 i gd w2 grd) ≠ [])
    (h' : (kindsOf s2 i gd w2 grd).any LaneKind.isBad = false) : Ready i gd s2 w2 grd := ⟨rfl, rfl, rfl, rfl, h, h'⟩

theorem wit_ShuffleVote : (∃ op, crossFibre w2 (execLanes (kindsOf s2 (.shfl 7 1 2 3 .rot) 7 w2 grd)) (.shfl 7 1 2 3 .rot) = some (7, op)) ∧
    Ready (.shfl 7 1 2 3 .rot) 7 s2 w2 grd ∧ Ready (.voteBallot 7 1 2 false) 7 s2 w2 grd :=
  ⟨⟨_, rfl⟩, ready2 (by decide) (by decide), ready2 (by decide) (by decide)⟩
theorem wit_ScanResult : Ready (.scan 7 1 2 .addS false) 7 s2 w2 grd ∧ Ready (.scan 7 1 2 .addF true) 7 s2 w2 grd ∧
    grd.checkreg = false ∧ s2.invOn w2 = false :=
  ⟨ready2 (by decide) (by decide), ready2 (by decide) (by decide), rfl, rfl⟩
/-- Lane 1 adds infinities of unlike signs, with trap 0x03 enabled. -/
def wnv : Wave := { wav [{ fib with regs := fib.regs.set 2 0x7F800000 }, { fib with regs := fib.regs.set 2 0xFF800000 }] with inven := true }
theorem wit_ScanResult_traps : Ready (.scan 7 1 2 .addF false) 7 (st wnv) wnv grd ∧ grd.checkreg = false ∧ (st wnv).invOn wnv = true ∧
    CanTrap (kindsOf (st wnv) (.scan 7 1 2 .addF false) 7 wnv grd) wnv grd 0x40 ∧
    ((ScanOp.addF).step ((st wnv).fmode .f32) 0x7F800000 0xFF800000).2.getLsbD 0 = true :=
  ⟨⟨rfl, rfl, rfl, rfl, by decide, by decide⟩, rfl, rfl, ⟨rfl, fun l f h _ => by match l, h with | 0, h => cases h; rfl | 1, h => cases h; rfl⟩, by decide⟩
/-- R144: lane 1 alone traps. -/
theorem test_scan_invalid : lanes (exec (.scan 7 1 2 .addF false) (st wnv)) (fun f => f.cause.toNat) = some [0, 3] := by decide +kernel
theorem wit_ReduceResult : Ready (.wred 7 1 2 .addF) 7 s2 w2 grd ∧ grd.checkreg = false ∧ s2.invOn w2 = false ∧
    w2.fibres.length ≤ w2.width ∧ w2.width ≤ 64 := ⟨ready2 (by decide) (by decide), rfl, rfl, by decide, by decide⟩
theorem wit_ReduceResult_traps : let k := (st wnv).fmode .f32; let leaf := fun (l : Nat) => if l ∈ [0, 1] then some ((wnv.lane l).get false 2) else none
    wnv.width = 2 ^ 1 ∧ execLanes (kindsOf (st wnv) (.wred 7 1 2 .addF) 7 wnv grd) = [0, 1] ∧
    (∃ x y, treeNode .addF k leaf 0 (2 * (0 / 2)) = some x ∧ treeNode .addF k leaf 0 (2 * (0 / 2) + 1) = some y ∧
      ((ScanOp.addF).step k x y).2.getLsbD 0 = true) := ⟨rfl, by decide, 0x7F800000, 0xFF800000, by decide, by decide, by decide⟩
/-- R139, R144: the step of the tree above lanes 0 and 1 raises NV, and both trap with the lowest lane. -/
theorem test_wred_invalid : lanes (exec (.wred 7 1 2 .addF) (st wnv)) (fun f => 256 * f.cause.toNat + f.evalue.toNat) = some [0x300, 0x300] := by decide +kernel
theorem wit_DistResult : Ready (.dist 7 1 16 32 .s8 .l2) 7 s1 w1 grd ∧ grd.checkreg = false ∧ s1.invOn w1 = false ∧
    ∀ l f, w1.fibres[l]? = some f → (kindsOf s1 (.dist 7 1 16 32 .s8 .l2) 7 w1 grd).getD l .out = .exec →
      f.base + (16 : Reg).toNat + s1.distRegs .s8 ≤ w1.allot :=
  ⟨ready1 (by decide) (by decide), rfl, rfl, one fun _ => by decide⟩
theorem wit_DistResult_traps : let w := { w1 with inven := true }
    Ready (.dist 7 1 16 32 .f16 .ip) 7 (st w) w grd ∧ (st w).invOn w = true ∧ CanTrap (kindsOf (st w) (.dist 7 1 16 32 .f16 .ip) 7 w grd) w grd 0x40 :=
  ⟨⟨rfl, rfl, rfl, rfl, by decide, by decide⟩, rfl, ⟨rfl, one fun _ => rfl⟩⟩
/-- Without a hint k is 32, above the width of 2; with signalling keys in lane 1, and in slot 1 of the list (R142, R144). -/
def wtop (a p : Word) : Wave := { wav [fib, { fib with regs := (fib.regs.set 2 a).set 8 p }] with inven := true }
def stop_ (a p : Word) : State := { st (wtop a p) with bundle := [.xop 2] }
def snanW (x : Word) : Bool := decide (x.toNat / 2 ^ 23 % 256 = 255 ∧ x.toNat % 2 ^ 23 ≠ 0 ∧ x.getLsbD 22 = false)
theorem wit_TopkResult_traps : Ready (.topk 7 8 2 3 false) 7 (stop_ 0x7F800001 8) (wtop 0x7F800001 8) grd ∧ (wtop 2 8).width < 32 ∧ (stop_ 2 8).invOn (wtop 2 8) = true ∧
    CanTrap (kindsOf (stop_ 2 8) (.topk 7 8 2 3 false) 7 (wtop 2 8) grd) (wtop 2 8) grd 0x40 ∧
    ([0, 1].map fun l => snanW (((wtop 0x7F800001 8).lane l).get false 2)) = [false, true] ∧
    ([0, 1].map fun l => snanW (((wtop 2 0x7F800001).lane l).regs.getD 8 0)) = [false, true] ∧ (lowLane (.topk 7 62 2 3 false) 7 s2 w2 grd).base + (63 : Reg).toNat + 2 > w2.allot :=
  ⟨⟨rfl, rfl, rfl, rfl, by decide, by decide⟩, by decide, rfl, ⟨rfl, fun l f h _ => by match l, h with | 0, h => cases h; rfl | 1, h => cases h; rfl⟩,
    by decide, by decide, by decide⟩
theorem test_topk_k : lanes (exec (.topk 7 8 2 3 false) s2) (fun f => f.cause.toNat) = some [1, 1] := by decide
theorem test_topk_slot : lanes (exec (.topk 7 8 2 3 false) (stop_ 2 0x7F800001)) (fun f => 256 * f.cause.toNat + f.evalue.toNat) = some [0x300 + 65, 0x300 + 65] := by decide +kernel
/-- A list of two entries, the count of an XOP hint. -/
theorem wit_TopkResult : let s := { s2 with bundle := [.xop 2] }
    Ready (.topk 7 8 2 3 false) 7 s w2 grd ∧ grd.checkreg = false ∧ s.invOn w2 = false ∧
    (match s.hintXop with | some p => (p.extractLsb' 0 16 : BitVec 16).toNat | none => 32) ≤ w2.width ∧
    (lowLane (.topk 7 8 2 3 false) 7 s w2 grd).base + (8 : Reg).toNat + 2 ≤ w2.allot ∧ w2.fibres.length = w2.width :=
  ⟨⟨rfl, rfl, rfl, rfl, by decide, by decide⟩, rfl, rfl, by decide, by decide, by decide⟩
theorem wit_HintWord : (Instr.ximm 5).isHint = true ∧ (Instr.xop 5).isHint = true ∧ (Instr.xoff 5).isHint = true ∧
    (Instr.mod true false false false .rtz).isHint = true ∧ (Instr.sched true 0 0).isHint = true := by decide
def w1f : Wave := wav [fib, Fibre.empty]
theorem wit_ForkStarts_free : Ready (.fork 7 1 2 3) 7 (st w1f) w1f grd ∧
    execLanes (kindsOf (st w1f) (.fork 7 1 2 3) 7 w1f grd) = [0] ∧ w1f.fibres[0]? = some fib ∧ w1f.freeSlot = some 1 :=
  ⟨⟨rfl, rfl, rfl, rfl, by decide, by decide⟩, by decide, rfl, by decide⟩
theorem wit_ForkStarts_full : Ready (.fork 7 1 2 3) 7 s1 w1 grd ∧ execLanes (kindsOf s1 (.fork 7 1 2 3) 7 w1 grd) = [0] ∧
    w1.fibres[0]? = some fib ∧ w1.freeSlot = none := ⟨ready1 (by decide) (by decide), by decide, rfl, by decide⟩
theorem wit_FibreEnds : let w := wav [fib, { fib with pc := 9 }]
    Ready (.fend 7) 7 (st w) w grd ∧ (∃ l f, w.fibres[l]? = some f ∧ f.live = true ∧ f.park = none ∧
      l ∉ execLanes (kindsOf (st w) (.fend 7) 7 w grd)) ∧ grd.det = false ∧ (st w).phases[grd.phase]? = some phase :=
  ⟨⟨rfl, rfl, rfl, rfl, by decide, by decide⟩, ⟨1, _, rfl, rfl, rfl, by decide⟩, rfl, rfl⟩
/-- A store of the wave is on its way. -/
theorem wit_FibreEnds_owes : let w := { wav [fib, { fib with pc := 9 }] with stores := 1 }
    let s := { st w with pend := [{ wave := 0, bytes := [(0x200000, 7)], selfinv := [], ids := [5], called := false }] }
    Ready (.fend 7) 7 s w grd ∧ (∃ l f, w.fibres[l]? = some f ∧ f.live = true ∧ f.park = none ∧ l ∉ execLanes (kindsOf s (.fend 7) 7 w grd)) ∧
    grd.det = false ∧ (∀ t0, s.teamOf w = some t0 → t0.stage = []) ∧ s.owes 0 = true :=
  ⟨⟨rfl, rfl, rfl, rfl, by decide, by decide⟩, ⟨1, _, rfl, rfl, rfl, by decide⟩, rfl, (fun _ h => by cases h; rfl), by decide⟩
/-- R300: no weight is back while the store is on its way. -/
theorem test_fend_owes : sv (exec (.fend 7) { st { wav [fib, { fib with pc := 9 }] with stores := 1 } with
    pend := [{ wave := 0, bytes := [(0x200000, 7)], selfinv := [], ids := [5], called := false }] }) (fun t => t.phases.map (·.returned)) = some [0] := by decide
theorem wit_FibreEnds_ret : Ready (.ret 7) 7 s1 w1 grd ∧ ∀ l f, w1.fibres[l]? = some f →
    (kindsOf s1 (.ret 7) 7 w1 grd).getD l .out = .exec → (f.get w1.zen 63).toNat / 256 = 0 :=
  ⟨ready1 (by decide) (by decide), one fun _ => by decide⟩
theorem wit_JoinMasks : w1.masks.length = 16 ∧ Ready (.join 7 3) 7 s1 w1 grd ∧ Ready (.jclr 7 3) 7 s1 w1 grd :=
  ⟨rfl, ready1 (by decide) (by decide), ready1 (by decide) (by decide)⟩
def parkedOn (y : Wait) : Fibre := { fib with park := some { why := y, next := 2, last := 1, word := 0 } }
theorem wit_JoinMasks_parked : let w := wav [fib, parkedOn (.mask 3)]
    Ready (.jclr 7 3) 7 (st w) w grd ∧ ∃ (l : Nat) (f : Fibre), w.fibres[l]? = some f ∧ f.live = true ∧ f.park.map (·.why) = some (.mask 3) :=
  ⟨⟨rfl, rfl, rfl, rfl, by decide, by decide⟩, 1, _, rfl, rfl, rfl⟩
theorem wit_WaitOnMask_waits : let w := { wav [fib, { fib with pc := 9 }] with masks := [3] }
    Ready (.waitj 7 0) 7 (st w) w grd ∧ ∃ l f, w.fibres[l]? = some f ∧ (w.masks.getD 0 0).getLsbD l = true ∧ f.live = true ∧
      f.park = none ∧ l ∉ execLanes (kindsOf (st w) (.waitj 7 0) 7 w grd) :=
  ⟨⟨rfl, rfl, rfl, rfl, by decide, by decide⟩, 1, _, rfl, by decide, rfl, rfl, by decide⟩
theorem wit_WaitOnMask_goes : let w := { w1 with masks := [1] }
    Ready (.waitj 7 0) 7 (st w) w grd ∧ ∀ l f, w.fibres[l]? = some f → (w.masks.getD 0 0).getLsbD l = true →
      l ∈ execLanes (kindsOf (st w) (.waitj 7 0) 7 w grd) ∨ parkedOnMask 0 f = true :=
  ⟨⟨rfl, rfl, rfl, rfl, by decide, by decide⟩, one fun _ => .inl (by decide)⟩
theorem wit_DecisionQueue_pop : let w := { w1 with decisions := [5, 6] }
    Ready (.ubr 7 4) 7 (st w) w grd ∧ Ready (.popd 7 1) 7 (st w) w grd ∧ w.decisions = 5 :: [6] :=
  ⟨⟨rfl, rfl, rfl, rfl, by decide, by decide⟩, ⟨rfl, rfl, rfl, rfl, by decide, by decide⟩, rfl⟩
/-- A wave and the Zenith thread of one team. -/
def sPair : State := { stz zfib with
  waves := [w1, zen zfib], teams := [{ team with waves := [0], zen := some 1 }], cur := { wave := 1, pc := 0 } }
theorem wit_DecisionQueue_push : let g := grd; let t0 : Team := { team with waves := [0], zen := some 1 }
    Ready (.dpush 7 1 0 3) 7 sPair (zen zfib) g ∧ sPair.teamOf (zen zfib) = some t0 ∧
    sPair.liveWave t0 ((lowLane (.dpush 7 1 0 3) 7 sPair (zen zfib) g).getPair true (0 : Reg).toNat).toNat = some 0 ∧
    sPair.waves[0]? = some w1 ∧ w1.decisions.length < 32 :=
  ⟨⟨rfl, rfl, rfl, rfl, by decide, by decide⟩, rfl, by decide, rfl, by decide⟩
theorem wit_DecisionQueue_count : Ready (.dcnt 7 1 0) 7 s1 w1 grd ∧ w1.zen = false ∧ Ready (.dcnt 7 1 0) 7 sPair (zen zfib) grd :=
  ⟨ready1 (by decide) (by decide), rfl, ⟨rfl, rfl, rfl, rfl, by decide, by decide⟩⟩
theorem wit_DecisionQueue_empty : Ready (.popd 7 1) 7 s1 w1 grd ∧ w1.decisions = [] ∧ s1.teamOf w1 = some team ∧
    s1.zenLive team = false ∧ CanTrap (kindsOf s1 (.popd 7 1) 7 w1 grd) w1 grd 0x40 :=
  ⟨ready1 (by decide) (by decide), rfl, rfl, by decide, canTrap1 _⟩
theorem wit_DecisionQueue_waits : let s := { sPair with cur := { wave := 0, pc := 0 } }
    Ready (.ubr 7 4) 7 s w1 grd ∧ w1.decisions = [] ∧ s.zenLive { team with waves := [0], zen := some 1 } = true :=
  ⟨⟨rfl, rfl, rfl, rfl, by decide, by decide⟩, rfl, by decide⟩
theorem wit_BarrierWords : Ready (.bara 7 0) 7 s1 w1 grd ∧ Ready (.barw 7 0) 7 s1 w1 grd ∧ Ready (.bars 7 15) 7 s1 w1 grd :=
  ⟨ready1 (by decide) (by decide), ready1 (by decide) (by decide), ready1 (by decide) (by decide)⟩
/-- Generation 7 with one more arrival to come, and with the last; the wave has not arrived in it, or has; an ATOM is under way. -/
def tbar (arr : Nat) : Team := { team with bars := List.replicate 16 { expected := 2, arrivals := arr, gen := 7 } }
def wbar (a : Option Nat) : Wave := { w1 with arrived := List.replicate 16 a }
def sbar (arr : Nat) (a : Option Nat) : State := { st (wbar a) with teams := [tbar arr] }
theorem wit_BarrierWords_arrival : (∀ arr a, (sbar arr a).teamOf (wbar a) = some (tbar arr)) ∧ (tbar 0).bars[(15 : BitVec 4).toNat]? = some { expected := 2, arrivals := 0, gen := 7 } ∧
    (15 : BitVec 4).toNat < (wbar none).arrived.length ∧ (0 : Nat) + 1 < 2 ∧ ¬ ((1 : Nat) + 1 < 2) ∧ Ready (.bars 7 15) 7 (sbar 1 none) (wbar none) grd ∧
    Ready (.barw 7 15) 7 (sbar 1 (some 6)) (wbar (some 6)) grd ∧ (wbar (some 7)).arrived.getD 15 none = some 7 ∧
    (∃ f ∈ (wav [fib, parkedOn (.freeze 7)]).fibres, ∃ n, f.park.map (·.why) = some (.freeze n)) ∧ w1.held = false ∧ { w1 with held := true }.held = true :=
  ⟨fun _ _ => rfl, by decide, by decide, by decide, by decide, ⟨rfl, rfl, rfl, rfl, by decide, by decide⟩, ⟨rfl, rfl, rfl, rfl, by decide, by decide⟩, by decide,
    ⟨_, List.Mem.tail _ (List.Mem.head _), 7, rfl⟩, rfl, rfl⟩
def bar0 (o : Out) : Option (List Nat) := sv o fun t => (t.teams.flatMap fun x => (x.bars.take 1).flatMap fun b => [b.arrivals, b.gen]) ++
  t.waves.flatMap fun w => ((w.arrived.getD 0 none).getD 99) :: w.fibres.map fun f => if f.park.isSome then 1 else 0
/-- R80, R81: an arrival is counted; the last one opens the next generation; the one that waits goes on with it. -/
theorem test_bara : bar0 (exec (.bara 7 0) (sbar 0 none)) = some [1, 7, 7, 0] := by decide
theorem test_bars : (bar0 (exec (.bars 7 0) (sbar 1 none)), bar0 (exec (.bars 7 0) (sbar 0 none))) = (some [0, 8, 7, 0], some [1, 7, 7, 1]) := by decide
theorem test_barw : (bar0 (exec (.barw 7 0) (sbar 1 (some 6))), bar0 (exec (.barw 7 0) (sbar 1 none))) = (some [1, 7, 6, 0], some [1, 7, 99, 1]) := by decide
theorem wit_BarrierWords_barc_traps : Ready (.barc 7 1 0) 7 (st (wav [{ fib with regs := fib.regs.set 1 0 }])) (wav [{ fib with regs := fib.regs.set 1 0 }]) grd ∧
    Ready (.barc 7 2 0) 7 s1 w1 grd ∧ team.waves.length < ((lowLane (.barc 7 2 0) 7 s1 w1 grd).get w1.zen (2 : Reg).toNat).toNat ∧
    CanTrap (kindsOf s1 (.barc 7 2 0) 7 w1 grd) w1 grd 0x40 :=
  ⟨⟨rfl, rfl, rfl, rfl, by decide, by decide⟩, ready1 (by decide) (by decide), by decide, canTrap1 _⟩
theorem wit_BarrierWords_barc : Ready (.barc 7 1 0) 7 s1 w1 grd ∧ s1.teamOf w1 = some team ∧
    team.bars[0]? = some { expected := 1, arrivals := 0, gen := 0 } ∧
    1 ≤ ((lowLane (.barc 7 1 0) 7 s1 w1 grd).get w1.zen (1 : Reg).toNat).toNat ∧
    ((lowLane (.barc 7 1 0) 7 s1 w1 grd).get w1.zen (1 : Reg).toNat).toNat ≤ team.waves.length :=
  ⟨ready1 (by decide) (by decide), rfl, rfl, by decide, by decide⟩
theorem wit_BarrierGeneration : let t := { team with bars := [{ expected := 2, arrivals := 0, gen := 7 }, { expected := 2, arrivals := 1, gen := 7 }] }
    let s := { s1 with teams := [t] }
    s.teams[0]? = some t ∧ (∃ b, t.bars[0]? = some b ∧ b.arrivals + 1 < b.expected) ∧ (∃ b, t.bars[1]? = some b ∧ b.expected ≤ b.arrivals + 1) ∧
    s.waves[0]? = some w1 ∧ w1.team = 0 ∧ w1.zen = false ∧ w1.fibres[0]? = some fib :=
  ⟨rfl, ⟨_, rfl, by decide⟩, ⟨_, rfl, by decide⟩, rfl, rfl, rfl, rfl⟩
theorem wit_QueueRegisters : Ready (.qpush 7 0 2) 7 s1 w1 grd ∧ (0 : BitVec 4).toNat < 4 ∧
    w1.k0.length + (execLanes (kindsOf s1 (.qpush 7 0 2) 7 w1 grd)).length < 4 ∧
    (s1.engine.filter fun c => c.core == w1.core).length ≤ 1024 ∧ Ready (.qcnt 7 1 3) 7 s1 w1 grd ∧
    (w1.queue 3).entries.length < 2 ^ 31 ∧ Ready (.qtry 7 2 1) 7 s1 w1 grd ∧ Ready (.qpush 7 1 2) 7 s1 w1 grd :=
  ⟨ready1 (by decide) (by decide), by decide, by decide, by decide, ready1 (by decide) (by decide), by decide,
    ready1 (by decide) (by decide), ready1 (by decide) (by decide)⟩
/-- Three words of a copy command stand on k0; the pair v2 gives the fourth. -/
def wq : Wave := { wav [{ fib with regs := (fib.regs.set 2 0x10002).set 3 0 }] with k0 := [0x0009000000000009, 8, 16] }
def sq : State := st wq
theorem wit_QueueRegisters_accept : Ready (.qpush 7 0 2) 7 sq wq grd ∧ wq.k0.length = 3 ∧ execLanes (kindsOf sq (.qpush 7 0 2) 7 wq grd) = [0] ∧
    sq.teamOf wq = some team ∧ (readCmd (wq.k0 ++ [(wq.lane 0).getPair false 2])).ob = false ∧ wq.copies < 63 ∧ 63 ≤ { wq with copies := 63 }.copies ∧
    (sq.engine.filter fun c => c.core == wq.core && c.done.isNone).length < 1024 ∧ sq.slotQueue = [] ∧
    sq.acceptStatus wq team grd (readCmd (wq.k0 ++ [(wq.lane 0).getPair false 2])) 0x0009000000000009 = none ∧
    (∀ y, sq.engine.find? (·.charged == sq.cur.wave) = some y → y.done = none) :=
  ⟨⟨rfl, rfl, rfl, rfl, by decide, by decide⟩, rfl, by decide, rfl, by decide, by decide, by decide, by decide, rfl, by decide, fun _ h => nomatch h⟩
/-- R188, R189, R197: the engine has the command, the counter counts it, k0 is empty and k1 has its promise. -/
theorem test_qpush_accept : sv (exec (.qpush 7 0 2) sq) (fun t => (t.engine.length, t.waves.map fun w => [w.copies, w.k0.length, w.k1.entries.length])) = some (1, [[1, 0, 1]]) := by decide +kernel
theorem wit_QueueRegisters_pop : let w := { w1 with k1 := { entries := [7], lost := true } }
    Ready (.qpop 7 2 1) 7 (st w) w grd ∧ (execLanes (kindsOf (st w) (.qpop 7 2 1) 7 w grd)).length ≤ (w.queue 1).entries.length :=
  ⟨⟨rfl, rfl, rfl, rfl, by decide, by decide⟩, by decide⟩
theorem wit_CounterWaits : Ready (.waitn 7 0 0 31 31) 7 s1 w1 grd ∧
    (under 0 w1.loads && under 0 w1.stores && under 31 w1.copies && under 31 w1.tiles) = true :=
  ⟨ready1 (by decide) (by decide), by decide⟩
theorem wit_CounterWaits_waits : let w := { w1 with stores := 1 }
    Ready (.waitn 7 31 0 31 31) 7 (st w) w grd ∧
    (under 31 w.loads && under 0 w.stores && under 31 w.copies && under 31 w.tiles) = false :=
  ⟨⟨rfl, rfl, rfl, rfl, by decide, by decide⟩, by decide⟩
theorem wit_CounterWaits_sleep : Ready (.sleept 7 0) 7 s1 w1 grd ∧ s1.missed s1.cur.wave = none ∧
    (lo32 s1.time - (lowLane (.sleept 7 0) 7 s1 w1 grd).get w1.zen (0 : Reg).toNat).toNat < 2 ^ 31 ∧
    2 ^ 31 ≤ (lo32 s1.time - (lowLane (.sleept 7 1) 7 s1 w1 grd).get w1.zen (1 : Reg).toNat).toNat :=
  ⟨ready1 (by decide) (by decide), by decide, by decide, by decide⟩
/-- A failed copy with one younger copy: required by a threshold of 1, and not by one of 2. -/
def wfail : Wave := { w1 with fails := [{ tag := 9, status := 6, cause := 0x04, younger := 1 }] }
theorem wit_CounterWaits_fails : Ready (.waitn 7 31 31 1 31) 7 (st wfail) wfail grd ∧
    (under 31 wfail.loads && under 31 wfail.stores && under 1 wfail.copies && under 31 wfail.tiles) = true ∧ (1 : BitVec 5) ≠ 31#5 ∧
    (∃ x, wfail.fails = [] ++ x :: [] ∧ (1 : BitVec 5).toNat ≤ x.younger ∧ x.cause ≠ 0x07) ∧ (∀ f ∈ wfail.fails, f.younger < (2 : BitVec 5).toNat) ∧
    CanTrap (kindsOf (st wfail) (.waitn 7 31 31 1 31) 7 wfail grd) wfail grd 0x40 :=
  ⟨⟨rfl, rfl, rfl, rfl, by decide, by decide⟩, by decide, by decide, ⟨_, rfl, by decide, by decide⟩, by decide, ⟨rfl, one fun _ => rfl⟩⟩
/-- R200: trap 0x04 with the status and the tag; the failure is consumed. -/
theorem test_waitn_fails : sv (exec (.waitn 7 31 31 1 31) (st wfail)) (fun t => t.waves.map fun w => (w.fails.length, w.fibres.map fun f => (f.cause.toNat, f.evalue.toNat))) =
    some [(0, [(4, 0x60009)])] := by decide
/-- A copy of system scope stands among those that the thresholds ask about (R204). -/
theorem wit_CounterWaits_system : ({ w1 with sysCopies := [1] }.sysCopies.any fun n => (1 : BitVec 5) != 31#5 && decide ((1 : BitVec 5).toNat ≤ n)) = true := by decide
theorem wit_MeridianToken : Ready (.tokw 7) 7 s1 w1 grd ∧ s1.tokenHere w1 grd = true ∧ Ready (.tokp 7) 7 s1 w1 grd ∧ w1.held = false :=
  ⟨ready1 (by decide) (by decide), by decide, ready1 (by decide) (by decide), rfl⟩
theorem wit_MeridianToken_det : let g := { grd with det := true }; let w := { w1 with held := true }; let s := { st w with grids := [g] }
    Ready (.tokw 7) 7 s w g ∧ s.tokenHere w g = true ∧ Ready (.tokp 7) 7 s w g ∧ w.held = true :=
  ⟨⟨rfl, rfl, rfl, rfl, by decide, by decide⟩, by decide, ⟨rfl, rfl, rfl, rfl, by decide, by decide⟩, rfl⟩

/-! ### Scratchpad, global memory, atomics, monitors, buckets, steps -/

theorem wit_ScratchAccess : let i := Instr.lds 7 4 2 .none .team .b32 .normal
    let w := wav [{ fib with regs := (fib.regs.set 2 8).set 3 0 }]
    Ready i 7 (st w) w grd ∧ (st w).teams[w.team]? = some team ∧ w.loads < 63 ∧ w.stores < 63 ∧ (st w).loadWaits 0 w = false ∧
    ∀ l f, w.fibres[l]? = some f → (kindsOf (st w) i 7 w grd).getD l .out = .exec →
      scrPlace team grd w 4 (f.getPair w.zen (2 : Reg).toNat + (st w).hintXoff) = some (false, 8) :=
  ⟨⟨rfl, rfl, rfl, rfl, by decide, by decide⟩, rfl, by decide, by decide, by decide, one fun _ => by decide⟩
theorem wit_ScratchAccess_store : let i := Instr.sts 7 4 2 .none .team .b32 .normal
    let w := wav [{ fib with regs := (fib.regs.set 2 16380).set 3 0 }]
    Ready i 7 (st w) w grd ∧ (∀ l ∈ execLanes (kindsOf (st w) i 7 w grd),
      scrPlace team grd w 4 ((w.lane l).getPair w.zen (2 : Reg).toNat + (st w).hintXoff) = some (false, 16380)) :=
  ⟨⟨rfl, rfl, rfl, rfl, by decide, by decide⟩, by decide⟩
theorem wit_ScratchAtomic : let i := Instr.atoms 7 4 2 6 .cas
    let w := wav [{ fib with regs := (fib.regs.set 2 8).set 3 0 }]
    Ready i 7 (st w) w grd ∧ execLanes (kindsOf (st w) i 7 w grd) = [0] ∧ (∀ l ∈ execLanes (kindsOf (st w) i 7 w grd),
      scrPlace team grd w 4 ((w.lane l).getPair w.zen (2 : Reg).toNat) = some (false, 8)) :=
  ⟨⟨rfl, rfl, rfl, rfl, by decide, by decide⟩, by decide, by decide⟩
theorem wit_ScratchTrap : let i := Instr.lds 7 4 2 .none .team .b32 .normal
    scrAccess s1 i = some (7, 2, 0, 4, .none, Scope.team.narrow) ∧ Ready i 7 s1 w1 grd ∧ s1.teams[w1.team]? = some team ∧
    w1.loads < 63 ∧ w1.stores < 63 ∧ s1.loadWaits 0 w1 = false ∧ CanTrap (kindsOf s1 i 7 w1 grd) w1 grd 0x40 ∧
    ∀ l f, w1.fibres[l]? = some f → (kindsOf s1 i 7 w1 grd).getD l .out = .exec →
      scrPlace team grd w1 4 (f.getPair w1.zen (2 : Reg).toNat + 0) = none :=
  ⟨rfl, ready1 (by decide) (by decide), rfl, by decide, by decide, by decide, canTrap1 _, one fun _ => by decide⟩

/-- A page of data at 0x100000, at physical 0x200000; the pair v2 holds its address. -/
def dpage : Page := { demoPage 1 with va := 0x100000, tgt := 0x200000, rd := true, wr := true, x := false }
def fmem : Fibre := { fib with regs := (fib.regs.set 2 0x100000).set 3 0 }
def wm : Wave := wav [fmem]
def sm : State := { st wm with pages := [demoPage 1, dpage], mem := [(0x200000, 0x2A)] }
theorem readym {i : Instr} {gd : Guard} (h : execLanes (kindsOf sm i gd wm grd) ≠ [])
    (h' : (kindsOf sm i gd wm grd).any LaneKind.isBad = false) : Ready i gd sm wm grd := ⟨rfl, rfl, rfl, rfl, h, h'⟩
theorem stageless : ∀ t ∈ [team], t.stage = [] := by decide
theorem onBounds : ∀ p ∈ [demoPage 1, dpage], p.va % 65536 = 0 ∧ p.tgt.toNat % 65536 = 0 := by decide
theorem named0 {f0 : Fibre} (h : f0.names = []) (n : Nat) : (wav [f0]).named n := fun f m k hk => by
  cases m with
  | head => rw [h] at hk; cases hk
  | tail _ m => cases m
theorem fresh1 {f0 : Fibre} (h : f0.names = []) (s : State) {on : List Nat} (o : ∀ l ∈ on, ((wav [f0]).lane l).owed = none) :
    Fresh s (wav [f0]) on := ⟨o, named0 h _⟩
theorem quietm : Quiet sm := ⟨rfl, rfl, (fun _ h => nomatch h), stageless, rfl, by decide⟩

theorem wit_GlobalLoad : let i := Instr.ldg 7 4 2 .none .team .b32 .normal
    Ready i 7 sm wm grd ∧ wm.loads < 63 ∧ sm.loadWaits 0 wm = false ∧ Fresh sm wm (execLanes (kindsOf sm i 7 wm grd)) ∧ Quiet sm ∧
    ∀ l ∈ execLanes (kindsOf sm i 7 wm grd), sm.lands grd false 4 (sm.ea wm.zen (wm.lane l) 2) = some (dpage, 0x200000) :=
  ⟨readym (by decide) (by decide), by decide, by decide, fresh1 rfl _ (by decide), quietm, by decide⟩
/-- v2 gives 0x100002, 2^57, 0x300000 (no page), and 0x100000 in a fixed block: for each access the trap or the fault. -/
def wat (lo hi : Word) : Wave := wav [{ fib with regs := (fib.regs.set 2 lo).set 3 hi }]
def sat (w : Wave) (mbx : Option Nat) : State := { st w with
  pages := [demoPage 1, dpage], frozen := [(32, 1)], spaces := [{ asid := 1, mbx := mbx, table := 0 }] }
def ldg0 : Instr := .ldg 7 4 2 .none .team .b32 .normal
def stg0 : Instr := .stg 7 4 2 .none .team .b32 .normal
theorem wit_GlobalLoad_traps : (∀ i ∈ [ldg0, stg0], Ready i 7 (sat (wat 0x100002 0) none) (wat 0x100002 0) grd) ∧
    (∃ x, globalAccess (sat (wat 0x100002 0) none) (wat 0x100002 0) stg0 = some (7, 2, 4, true, .store, some true, x)) ∧
    (globalAccess sm wm (.waitc 7 4 2 .acq .device .geu false)).isSome = true ∧
    Fresh (sat (wat 0x100002 0) none) (wat 0x100002 0) [0] ∧ CanTrap (kindsOf (sat (wat 0x100002 0) none) ldg0 7 (wat 0x100002 0) grd) (wat 0x100002 0) grd 0x40 ∧
    ((sat wm none).ea false ((wat 0x100002 0).lane 0) 2).toNat % 4 ≠ 0 ∧ 2 ^ 57 ≤ ((sat wm none).ea false ((wat 0 0x02000000).lane 0) 2).toNat ∧
    faultOf (sat wm none) grd false 0x300000 = some (.notMapped, 0x300000, 0) ∧ faultOf (sat wm none) grd true 0x100000 = some (.wFix, 0x100000, 0) ∧
    faultOf (sat wm none) grd false 0x100000 = none := by
  refine ⟨fun i h => ?_, ⟨_, rfl⟩, by decide, fresh1 rfl _ (by decide), ⟨rfl, one fun _ => rfl⟩, by decide, by decide, by decide, by decide, by decide⟩
  fin_cases h <;> exact ⟨rfl, rfl, rfl, rfl, by decide, by decide⟩
def traps (o : Out) : Option (List Nat) := lanes o fun f => 2 ^ 32 * f.cause.toNat + f.evalue.toNat
/-- R227, R258, R271: misaligned 0x08, at 2^57 and on an unmapped page 0x04, in a fixed block 0x05 for a store. -/
theorem test_global_traps : (traps (exec ldg0 (sat (wat 0x100002 0) none)), traps (exec ldg0 (sat (wat 0 0x02000000) none)),
    traps (exec ldg0 (sat (wat 0x300000 0) none)), traps (exec stg0 (sat wm none))) =
    (some [0x800100002], some [0x400000000], some [0x400300000], some [0x500100000]) := by decide +kernel
/-- With a fault mailbox the fault joins a record of its page and kind, or takes a new one. -/
def recw : FaultRec := { die := 0, index := 0, seq := 1, kind := .notMapped, cls := .load, asid := 1, va := 0x300000, page := 0x300000, sz := 0, merged := 0,
                         count := 1, time := 0, region := 0, posted := false }
theorem wit_GlobalLoad_records : let w := wat 0x300004 0; let s := { sat w (some 3) with records := [recw] }
    ((s.spaces.find? fun x => x.asid == grd.asid).bind (·.mbx)) ≠ none ∧ joins s grd w.core (.notMapped, 0x300000, 0) = some recw ∧
    joins { s with records := [] } grd w.core (.notMapped, 0x300000, 0) = none ∧ Ready ldg0 7 s w grd ∧ execLanes (kindsOf s ldg0 7 w grd) = [0] ∧
    (s.records.any fun r => r.die == w.core / 16 && r.index == 0) = true ∧ (s.records.any fun r => r.die == w.core / 16 && r.index == 1) = false :=
  ⟨by decide, by decide, by decide, ⟨rfl, rfl, rfl, rfl, by decide, by decide⟩, by decide, by decide, by decide⟩
/-- R268: the lane is parked, the load is counted, and the outstanding record serves both. -/
theorem test_global_records : (sv (exec ldg0 { sat (wat 0x300004 0) (some 3) with records := [recw] }) fun t => (t.records.length, t.waves.map fun w => (w.loads, w.fibres.map fun f => f.park.isSome))) =
    some (1, [(1, [true])]) ∧ (sv (exec ldg0 (sat (wat 0x300004 0) (some 3))) fun t => t.records.map fun r => (r.index, r.page, r.count)) = some [(0, 0x300000, 1)] := by decide +kernel
/-- All 4,096 records of the die are in use. -/
theorem wit_GlobalLoad_full : ∀ k < 4096, (((List.range 4096).map fun n => { recw with index := n }).any fun r => r.die == 0 && r.index == k) = true := by
  intro k h; simp only [List.any_map, List.any_eq_true, List.mem_range]; exact ⟨k, h, by simp [recw]⟩
theorem wit_GlobalStore : let i := Instr.stg 7 4 2 .rel .system .b64 .normal
    Ready i 7 sm wm grd ∧ grd.det = false ∧ wm.stores < 63 ∧ Fresh sm wm (execLanes (kindsOf sm i 7 wm grd)) ∧ Quiet sm ∧ (∀ p ∈ sm.pages, p.coh = 0) ∧ (∀ x ∈ sm.leaders, x.coh = 0) ∧
    ∀ l ∈ execLanes (kindsOf sm i 7 wm grd), sm.lands grd true 8 (sm.ea wm.zen (wm.lane l) 2) = some (dpage, 0x200000) :=
  ⟨readym (by decide) (by decide), rfl, by decide, fresh1 rfl _ (by decide), quietm, by decide, by decide, by decide⟩
/-- Eight lanes of 16 bytes cover one line. -/
def wline : Wave := { wav ((List.range 8).map fun l => { fib with regs := (fib.regs.set 2 (BitVec.ofNat 32 (0x100000 + 16 * l))).set 3 0 }) with width := 8 }
theorem wit_GlobalStore_clrpoison : let i := Instr.stgClrpoison 7 4 2 .none .team .b128 .normal
    let s := { st wline with pages := [demoPage 1, dpage], bundle := [.mod false false true false .rne], poison := [0x200000 / 128] }
    let on := execLanes (kindsOf s i 7 wline grd)
    Ready i 7 s wline grd ∧ coversLine (on.map fun l => (s.ea wline.zen (wline.lane l) 2).toNat) 16 = true ∧
    ∀ l ∈ on, s.lands grd true 16 (s.ea wline.zen (wline.lane l) 2) = some (dpage, 0x200000 + 16 * l) :=
  ⟨⟨rfl, rfl, rfl, rfl, by decide, by decide⟩, by decide, by decide⟩
theorem wit_MessageStore : let i := Instr.stgMsg 7 4 2 .none .team .b64 .normal
    let w := wav [{ fib with regs := (fib.regs.set 2 0xFFFF0000).set 3 0x01FFFFFF }]
    let s := { st w with bundle := [.mod false true false false .rne] }
    Ready i 7 s w grd ∧ grd.det = false ∧ w.stores < 63 ∧ s.teams[w.team]? = some team ∧ grd.priv = true ∧
    ∀ l ∈ execLanes (kindsOf s i 7 w grd), (s.ea w.zen (w.lane l) 2).toNat % 8 = 0 ∧
      (s.ea w.zen (w.lane l) 2).toNat / 64 * 64 = 0x01FFFFFFFFFF0000 :=
  ⟨⟨rfl, rfl, rfl, rfl, by decide, by decide⟩, rfl, by decide, rfl, rfl, by decide⟩
theorem wit_MessageStore_mailbox : let i := Instr.stgMsg 7 4 2 .none .team .b64 .normal
    let mb : Mailbox := { num := 3, asid := 1, addr := 0x100000, slots := 4, gridMode := false, record := 0, prio := 0, priv := false,
                          status := 0, pending := [], launched := [], drops := 0 }
    let s := { sm with bundle := [.mod false true false false .rne], mailboxes := [mb] }
    Ready i 7 s wm grd ∧ s.translate grd.asid grd.priv false needStore 0x100000 = .ok dpage 0x200000 ∧
    s.mailboxAt 0x200000 = some 3 := ⟨⟨rfl, rfl, rfl, rfl, by decide, by decide⟩, by decide, by decide⟩
theorem wit_GlobalAtomic : let i := Instr.atom 7 4 2 .acqrel .device .cas
    Ready i 7 sm wm grd ∧ grd.det = false ∧ sm.defer = false ∧ wm.loads < 63 ∧ sm.loadWaits 0 wm = false ∧ Fresh sm wm (execLanes (kindsOf sm i 7 wm grd)) ∧ Quiet sm ∧ plainKey 0x200000 ∧
    ∀ l ∈ execLanes (kindsOf sm i 7 wm grd), sm.lands grd true 4 (sm.ea wm.zen (wm.lane l) 2) = some (dpage, 0x200000) :=
  ⟨readym (by decide) (by decide), rfl, rfl, by decide, by decide, fresh1 rfl _ (by decide), quietm, by decide, by decide⟩
theorem wit_GlobalAtomic_reduction : let i := Instr.redm 7 4 2 .none .device .faddBf16
    Ready i 7 sm wm grd ∧ isNarrow .faddBf16 = true ∧ isNarrow .add = false ∧ execLanes (kindsOf sm i 7 wm grd) = [0] ∧
    ∀ l ∈ execLanes (kindsOf sm i 7 wm grd), sm.lands grd true 2 (sm.ea wm.zen (wm.lane l) 2) = some (dpage, 0x200000) :=
  ⟨readym (by decide) (by decide), rfl, rfl, by decide, by decide⟩
theorem wit_MonitorWait : let i := Instr.waitc 7 4 2 .acq .device .geu false
    Ready i 7 sm wm grd ∧ Quiet sm ∧
    ∀ l ∈ execLanes (kindsOf sm i 7 wm grd), sm.lands grd false 4 (sm.ea wm.zen (wm.lane l) 2) = some (dpage, 0x200000) :=
  ⟨readym (by decide) (by decide), quietm, by decide⟩
/-- A bucket for 4 entries at 0x100000, its array at 0x100100; count n, FINAL f. -/
def bucketMem (n f : Nat) : Memory :=
  Memory.writeN (Memory.writeN (Memory.writeN (Memory.writeN [] 0x200000 (leBytes 4 4)) 0x200008 (leBytes 8 0x100100)) 0x200018
    (leBytes 4 n)) 0x200020 (leBytes 4 f)
def sb (n f : Nat) : State := { sm with mem := bucketMem n f }
theorem quietb (n f : Nat) : Quiet (sb n f) :=
  ⟨rfl, rfl, (fun _ h => nomatch h), stageless, rfl, onBounds⟩
theorem wit_BucketReduction_final : let i := Instr.scatb 7 2 5
    let field := fun (o n : Nat) => leNat ((sb 2 1).mem.readN (0x200000 + o) n)
    Ready i 7 (sb 2 1) wm grd ∧ Quiet (sb 2 1) ∧ plainKey 0x200000 ∧ execLanes (kindsOf (sb 2 1) i 7 wm grd) = [0] ∧
    (sb 2 1).lands grd true 64 ((wm.lane 0).getPair wm.zen (2 : Reg).toNat) = some (dpage, 0x200000) ∧
    field 32 4 % 2 = 1 ∧ field 36 4 < 2 ^ 32 - 1 ∧ Ready (.scatf 7 1 2) 7 (sb 2 1) wm grd :=
  ⟨⟨rfl, rfl, rfl, rfl, by decide, by decide⟩, quietb _ _, by decide, by decide, by decide, by decide, by decide,
    ⟨rfl, rfl, rfl, rfl, by decide, by decide⟩⟩
theorem fresh_wm (s : State) : Fresh s wm [0] := fresh1 rfl s (by decide)
theorem wit_BucketReduction_open : let i := Instr.scatb 7 2 5
    let field := fun (o n : Nat) => leNat ((sb 1 0).mem.readN (0x200000 + o) n)
    let ents := [0x200100, 0x200104]
    Ready i 7 (sb 1 0) wm grd ∧ Quiet (sb 1 0) ∧ execLanes (kindsOf (sb 1 0) i 7 wm grd) = [0] ∧ field 32 4 = 0 ∧ field 40 24 = 0 ∧
    field 24 4 < field 0 4 ∧ (sb 1 0).arrayTry grd.asid grd.priv .loses (BitVec.ofNat 64 (field 8 8)) (field 24 4 + 1) = .keys ents ∧
    (∀ e ∈ ents, plainKey e ∧ (e + 4 ≤ 0x200000 ∨ 0x200000 + 64 ≤ e)) ∧ ents.Pairwise (fun e f => e + 4 ≤ f ∨ f + 4 ≤ e) :=
  ⟨⟨rfl, rfl, rfl, rfl, by decide, by decide⟩, quietb _ _, by decide, by decide, by decide, by decide, by decide, by decide, by decide⟩
theorem wit_BucketReduction_scatf : let i := Instr.scatf 7 1 2
    let field := fun (o n : Nat) => leNat ((sb 2 0).mem.readN (0x200000 + o) n)
    Ready i 7 (sb 2 0) wm grd ∧ (sb 2 0).lands grd true 64 ((lowLane i 7 (sb 2 0) wm grd).getPair wm.zen (2 : Reg).toNat) = some (dpage, 0x200000) ∧
    field 32 4 = 0 ∧ field 28 4 = 0 ∧ (sb 2 0).arrayTry grd.asid grd.priv .traps (BitVec.ofNat 64 (field 8 8)) (field 24 4) = .keys [0x200100, 0x200104] :=
  ⟨⟨rfl, rfl, rfl, rfl, by decide, by decide⟩, by decide, by decide, by decide, by decide⟩

def ep : Episode :=
  { num := 1, st := .running, asid := 1, va := 0, size := 0, entry := 0, budget := 0, active := 0, cause := 0, code := 0,
    hart := Hart.clear, onCore := true, waiting := none, record := none, clock := 0, ran := 0 }
/-- Pair 5 of episode 1; v5 holds 5. -/
def pr : StepPair :=
  { num := 5, ep := 1, slot := 0, asid := 1, ring := List.replicate 16 (List.replicate 64 0), atail := 0, ahead := 0,
    weights := [], obs := [], sdrop := 0, last := 0, staging := List.replicate 64 0 }
def sp (p : StepPair) (e : Episode) : State := { sm with pairs := [p], episodes := [e] }
theorem quietp (p : StepPair) (e : Episode) : Quiet (sp p e) :=
  ⟨rfl, rfl, (fun _ h => nomatch h), stageless, rfl, onBounds⟩
theorem wit_StepPost : let i := Instr.stepp 7 4 2 5
    let n := ((wm.lane 0).get wm.zen (5 : Reg).toNat).toNat % 8192
    Ready i 7 (sp pr ep) wm grd ∧ wm.zen = false ∧ grd.det = false ∧ execLanes (kindsOf (sp pr ep) i 7 wm grd) = [0] ∧
    ((wm.lane 0).getPair wm.zen (2 : Reg).toNat).toNat % 64 = 0 ∧ (sp pr ep).pairOf n = some pr ∧ pr.asid = grd.asid ∧
    (sp pr ep).episodeOf pr.ep = some ep ∧ ep.st ≠ .ended ∧ pr.unanswered + pr.m + (sp pr ep).stagedActions n < 16 ∧ Quiet (sp pr ep) ∧
    (sp pr ep).translate grd.asid grd.priv false needLoad ((wm.lane 0).getPair wm.zen (2 : Reg).toNat) = .ok dpage 0x200000 ∧
    wm.fibres[0]? = some fmem :=
  ⟨⟨rfl, rfl, rfl, rfl, by decide, by decide⟩, rfl, rfl, by decide, by decide, by decide, rfl, by decide, by decide, by decide, quietp _ _,
    by decide, rfl⟩
theorem wit_StepPost_fresh : Fresh (sp pr ep) wm [0] := fresh_wm _
theorem wit_StepPost_codes : let pf := { pr with atail := 16 }
    (∀ p, sm.pairOf 5 = some p → p.asid ≠ grd.asid) ∧ (∀ e, (sp pr { ep with st := .ended }).episodeOf 1 = some e → e.st = .ended) ∧
    16 ≤ pf.unanswered + pf.m + (sp pf ep).stagedActions 5 :=
  ⟨(fun _ h => nomatch h), fun e h => by cases h; rfl, by decide⟩
theorem wit_StepReceive : let i := Instr.stepr 7 4 2 5; let p := { pr with obs := [{ bytes := List.replicate 64 0, weight := none }] }
    Ready i 7 (sp p ep) wm grd ∧ (sp p ep).lands grd true 64 ((wm.lane 0).getPair wm.zen (2 : Reg).toNat) = some (dpage, 0x200000) ∧
    (sp p ep).pairOf 5 = some p ∧ (∃ h rest, p.obs = h :: rest ∧ h.status ≠ 1 ∧ h.step ≠ 4) :=
  ⟨⟨rfl, rfl, rfl, rfl, by decide, by decide⟩, by decide, by decide, _, _, rfl, by decide, by decide⟩
theorem wit_StepReceive_head : let h : Obs := { bytes := leBytes 4 4 ++ List.replicate 60 0, weight := none }
    let p := { pr with obs := [h] }
    (sp p ep).pairOf 5 = some p ∧ h.step = ((wm.lane 0).get wm.zen (4 : Reg).toNat).toNat ∧ Quiet (sp p ep) ∧ h.bytes.length = 64 :=
  ⟨by decide, by decide, quietp _ _, by decide⟩
/-- An unanswered action of step 4, and none. -/
theorem wit_StepReceive_empty : let p := { pr with ring := pr.ring.set 0 (leBytes 4 4 ++ List.replicate 60 0), atail := 1 }
    p.obs = [] ∧ (∃ y ∈ p.open_, leNat (y.take 4) = 4) ∧ (∀ y ∈ pr.open_, leNat (y.take 4) ≠ 4) :=
  ⟨rfl, by decide, by decide⟩

/-! ### Queries, matrix words, fixed stars -/

theorem wit_StateQueries : s1.teamOf w1 = some team ∧ team.grid < s1.grids.length ∧ Ready (.fquery 7 1 2) 7 s1 w1 grd ∧
    Ready (.stepq 7 2 5) 7 s1 w1 grd ∧ Ready (.mstat 7 1 0) 7 s1 w1 grd ∧ s1.liveWave team 1 = none ∧ s1.liveWave team 0 = some 0 ∧
    s1.waves[0]? = some w1 :=
  ⟨rfl, by decide, ready1 (by decide) (by decide), ready1 (by decide) (by decide), ready1 (by decide) (by decide), by decide, by decide, rfl⟩
/-- Four waves of one team, one in each partition of quad 0, and its Zenith thread, which executes. -/
def zsig : Wave := zen { zfib with sregs := zfib.sregs.set 2 0x03020100 }
def tfour : Team := { team with waves := [0, 1, 2, 3], zen := some 4 }
def four : State := { s1 with
  waves := ((List.range 4).map fun k => launchWave grd 0 k 0 k 0 false [fib]) ++ [zsig], teams := [tfour], cur := { wave := 4, pc := 0 } }
theorem wit_ConvergenceRegisters :
    let ids := (List.range 4).map fun k => ((lowLane (.signset 7 0 2 4) 7 four zsig grd).getPair true (2 : Reg).toNat).toNat / 256 ^ k % 256
    four.teamOf zsig = some tfour ∧ Ready (.signset 7 0 2 4) 7 four zsig grd ∧ grd.width ≠ 16 ∧
    ((lowLane (.signset 7 0 2 4) 7 four zsig grd).getPair true (4 : Reg).toNat).toNat % 65536 ≠ 0 ∧
    four.quads[0]? = some Quad.clear ∧ Quad.clear.conv[0]? = some Conv.clear ∧ ids = [0, 1, 2, 3] ∧
    ((four.waves.take 4).map fun x => (x.quadPos, x.quadIndex)) = [(0, 0), (1, 0), (2, 0), (3, 0)] ∧
    (∀ k < 4, four.liveWave tfour (ids.getD k 0) = some k) ∧ Conv.clear.remaining = 0 ∧ Ready (.signclr 7 0) 7 four zsig grd :=
  ⟨rfl, ⟨rfl, rfl, rfl, rfl, by decide, by decide⟩, by decide, by decide, by decide, by decide, by decide, by decide, by decide, rfl,
    ⟨rfl, rfl, rfl, rfl, by decide, by decide⟩⟩
def g32 : Grid := { grd with width := 32 }
def w32 : Wave := launchWave g32 0 0 0 0 0 false (List.replicate 32 fib)
/-- A header of an s8 tile of 64 rows at offset 0. -/
def t32 : Team := { team with scratch := [(0, 3), (2, 64), (4, BitVec.ofNat 8 (MmqTy.k .s8))] }
def armed : Conv := { Conv.clear with set := [0, 1, 2, 3], remaining := 1 }
def q32 : Quad := { Quad.clear with conv := Quad.clear.conv.set 0 armed, owner := some 0 }
def s32 : State := { st w32 with grids := [g32], teams := [t32], quads := State.reset.quads.set 0 q32 }
theorem wit_MatrixSigning : let i := Instr.mmq 7 0 1 2 8 .s8; let h := (t32.scr false).readN 0 64
    Ready i 7 s32 w32 g32 ∧ s32.teams[0]? = some t32 ∧ s32.quads[w32.quadIndex]? = some q32 ∧ q32.conv[0]? = some armed ∧
    w32.tiles < 63 ∧ s32.signWait w32.quadIndex = false ∧ g32.width ≠ 16 ∧ (∀ l < 32, l ∈ execLanes (kindsOf s32 i 7 w32 g32)) ∧
    0 < armed.remaining ∧ armed.set[w32.quadPos]? = some w32.idx ∧ armed.signed.length = 4 ∧ (∀ y ∈ armed.signed, y = none) ∧
    ((s32.teamSregs t32).getD 2 0).toNat = 0 ∧ mmqInside g32.scratch 0 h .s8 = true ∧ mmqHeaderOk h .s8 = true ∧ q32.failed = [] :=
  ⟨⟨rfl, rfl, rfl, rfl, by decide, by decide⟩, rfl, rfl, rfl, by decide, by decide, by decide, by decide, by decide, by decide, by decide,
    by decide, by decide, by decide, by decide, rfl⟩
theorem wit_MatrixSigning_traps : let h0 := (team.scr false).readN 0 64
    let f : FailedSlice := { tile := 1, slice := 0, code := 1, row := 0, col := 0, inj := false }
    ((s32.teamSregs { t32 with sregs := [8] }).getD 0 0).toNat % 64 ≠ 0 ∧
    g32.scratch < ((s32.teamSregs { t32 with sregs := [16384] }).getD 0 0).toNat + 64 ∧
    mmqInside g32.scratch 0 h0 .s8 = true ∧ mmqHeaderOk h0 .s8 = false ∧ { q32 with failed := [f] }.failOf 1 0 = some f ∧
    CanTrap (kindsOf s32 (.mmq 7 0 1 2 8 .s8) 7 w32 g32) w32 g32 0x40 :=
  ⟨by decide, by decide, by decide, by decide, by decide, rfl, fun l f h _ => by
    have := List.mem_of_getElem? h
    exact List.eq_of_mem_replicate this ▸ rfl⟩
theorem wit_AccumulatorAccess : s1.quads[w1.quadIndex]? = some Quad.clear ∧ s1.accWait w1.quadIndex 3 = false ∧
    Ready (.accz 7 3) 7 s1 w1 grd ∧ Ready (.accrd 7 1 2 3) 7 s1 w1 grd ∧ Quad.clear.failOf 3 w1.quadPos = none ∧
    (∀ l f, w1.fibres[l]? = some f → (kindsOf s1 (.accrd 7 1 2 3) 7 w1 grd).getD l .out = .exec → accBad false (f.get false (2 : Reg).toNat) = false) ∧
    s1.invOn w1 = false ∧ Ready (.accwr 7 1 2 3) 7 s1 w1 grd ∧ grd.checkreg = false ∧
    (∀ l f, w1.fibres[l]? = some f → (kindsOf s1 (.accwr 7 1 2 3) 7 w1 grd).getD l .out = .exec → accBad true (f.get false (2 : Reg).toNat) = false) :=
  ⟨by decide, by decide, ready1 (by decide) (by decide), ready1 (by decide) (by decide), by decide, one fun _ => by decide, rfl,
    ready1 (by decide) (by decide), rfl, one fun _ => by decide⟩
/-- The header of an f32 tile for ACCCV at offset 0, and the pair v2 at 0. -/
def wcv : Wave := wav [{ fib with regs := (fib.regs.set 2 0).set 3 0 }]
def tcv : Team := { team with scratch := [(0, 4), (2, 64), (4, 96)] }
def gcv : Grid := { grd with scratch := 65536 }
def scv : State := { st wcv with teams := [tcv], grids := [gcv] }
theorem wit_TileOperations_acccv : let i := Instr.acccv 7 2 3; let h := (tcv.scr false).readN 0 64
    scv.teams[wcv.team]? = some tcv ∧ scv.quads[wcv.quadIndex]? = some Quad.clear ∧ wcv.tiles < 63 ∧ Ready i 7 scv wcv gcv ∧
    scv.accWait wcv.quadIndex 3 = false ∧ ((lowLane i 7 scv wcv gcv).getPair false (2 : Reg).toNat).toNat = 0 ∧
    0 + 64 + 6144 * hdrSize (hdrNat h 0 1) ≤ gcv.scratch ∧ acccvHeaderOk h = true ∧ scv.invOn wcv = false :=
  ⟨rfl, by decide, by decide, ⟨rfl, rfl, rfl, rfl, by decide, by decide⟩, by decide, by decide, by decide, by decide, rfl⟩
theorem wit_TileOperations_mdrain : Ready (.mdrain 7 2) 7 sm wm grd ∧
    ((lowLane (.mdrain 7 2) 7 sm wm grd).getPair false (2 : Reg).toNat).toNat % 256 = 0 := ⟨readym (by decide) (by decide), by decide⟩
theorem wit_TileOperations_misaligned : Ready (.mdrain 7 2) 7 (st (wat 0x100080 0)) (wat 0x100080 0) grd ∧ Ready (.mrest 7 2) 7 (st (wat 0x100080 0)) (wat 0x100080 0) grd ∧
    ((lowLane (.mdrain 7 2) 7 (st (wat 0x100080 0)) (wat 0x100080 0) grd).getPair false (2 : Reg).toNat).toNat % 256 ≠ 0 :=
  ⟨⟨rfl, rfl, rfl, rfl, by decide, by decide⟩, ⟨rfl, rfl, rfl, rfl, by decide, by decide⟩, by decide⟩
theorem test_mdrain_misaligned : traps (exec (.mdrain 7 2) (st (wat 0x100080 0))) = some [0x800100080] := by decide
theorem test_mrest_misaligned : traps (exec (.mrest 7 2) (st (wat 0x100080 0))) = some [0x800100080] := by decide
theorem wit_TileOperations_mrest : let s := { sm with mem := Memory.writeN [] 0x20C000 [1, 0, 0, 0, 0, 0] }
    Ready (.mrest 7 2) 7 s wm grd ∧ s.restoring wm.quadIndex = false ∧ Quiet s ∧
    s.translate grd.asid grd.priv false needLoad ((lowLane (.mrest 7 2) 7 s wm grd).getPair false (2 : Reg).toNat + 0xC000) = .ok dpage 0x20C000 ∧
    s.homeRead 0x20C000 6 = [1, 0, 0, 0, BitVec.ofNat 8 wm.idx, BitVec.ofNat 8 wm.quadPos] :=
  ⟨⟨rfl, rfl, rfl, rfl, by decide, by decide⟩, by decide, ⟨rfl, rfl, (fun _ h => nomatch h), stageless, rfl, by decide⟩, by decide, by decide⟩
/-- A range of one 64 KiB block at 0x100000: v2 the base, v4 the size. -/
def wfz : Wave := wav [{ fmem with regs := (fmem.regs.set 4 65536).set 5 0 }]
def sfz : State := { st wfz with pages := [demoPage 1, dpage] }
theorem wit_FreezeAndThaw_freeze : let i := Instr.freeze 7 6 2 4
    Ready i 7 sfz wfz grd ∧ grd.det = false ∧ sfz.defer = false ∧ (lowLane i 7 sfz wfz grd).getPair false (2 : Reg).toNat = 0x100000 ∧
    (lowLane i 7 sfz wfz grd).getPair false (4 : Reg).toNat = 65536 ∧
    sfz.translate grd.asid grd.priv true needLoad (BitVec.ofNat 64 0x100000) = .ok dpage 0x200000 ∧
    sfz.rangeBlocks grd.asid 0x100000 65536 = some [32] ∧ (∀ x ∈ [32], (sfz.frozen.get x).toNat < 255) ∧
    (∀ p ∈ sfz.pages, p.st ≠ .thawing) ∧ sfz.atomicIn [32] = false ∧ (sfz.regionWord 0).toNat % 4 = 0 :=
  ⟨⟨rfl, rfl, rfl, rfl, by decide, by decide⟩, rfl, rfl, by decide, by decide, by decide, by decide, by decide, by decide, by decide, by decide⟩
theorem wit_FreezeAndThaw_misaligned : Ready (.freeze 7 6 2 4) 7 sm wm grd ∧
    ((lowLane (.freeze 7 6 2 4) 7 sm wm grd).getPair false (4 : Reg).toNat).toNat % 65536 ≠ 0 := ⟨readym (by decide) (by decide), by decide⟩
def region (st : BitVec 2) (asid : Nat) : Region := { id := 4, gen := 1, st := st, asid := asid, blocks := [32], withdrawn := [], thaw := [] }
def sth (r : Region) : State := { s1 with regions := [r], frozen := [(32, 1)] }
theorem wit_FreezeAndThaw_thaw : Ready (.thaw 7 6 4) 7 (sth (region 1 1)) w1 grd ∧ ((lowLane (.thaw 7 6 4) 7 (sth (region 1 1)) w1 grd).get false (4 : Reg).toNat).toNat % 65536 = 4 ∧
    (sth (region 1 1)).regions.find? (fun r => r.id == 4) = some (region 1 1) ∧ (sth (region 1 1)).mayThaw grd (region 1 1) = true ∧
    (region 1 1).blocks.Nodup ∧ (∀ x ∈ (region 1 1).blocks, 0 < ((sth (region 1 1)).frozen.get x).toNat) ∧
    (sth (region 1 7)).mayThaw grd (region 1 7) = false ∧ (sth (region 2 1)).mayThaw grd (region 2 1) = true ∧ (s1.regionWord 4).toNat % 4 = 0 :=
  ⟨⟨rfl, rfl, rfl, rfl, by decide, by decide⟩, by decide, by decide, by decide, by decide, by decide, by decide, by decide, by decide⟩

/-! ### Traps beside completions, stages, buckets -/

/-- TRAP and BRK inside a trap path, and without a trap section, end the wave. -/
def wtrap : Wave := wav [{ fib with intrap := true }]
def gnone : Grid := { grd with trapEntry := none }
theorem wit_SoftwareTrap_ends : Ready (.brk 7) 7 (st wtrap) wtrap grd ∧ (lowLane (.brk 7) 7 (st wtrap) wtrap grd).intrap = true ∧
    Ready (.trap 7 5) 7 { s1 with grids := [gnone] } w1 gnone ∧ (lowLane (.trap 7 5) 7 { s1 with grids := [gnone] } w1 gnone).intrap = false ∧
    gnone.trapEntry = none :=
  ⟨⟨rfl, rfl, rfl, rfl, by decide, by decide⟩, by decide, ⟨rfl, rfl, rfl, rfl, by decide, by decide⟩, by decide, rfl⟩
/-- R311, R320: the wave has ended, and its grid says where and why. -/
theorem test_brk_nested : sv (exec (.brk 7) (st wtrap)) (fun t => (t.waves.map (·.stat), t.grids.map fun g => (g.terms, g.term.map fun x => (x.cause.toNat, x.nested)))) =
    some ([.ended], [(1, some (0x0B, true))]) := by decide
/-- A register of the fibre's lane has failed: v2, which IADD reads. -/
def sfail (f : Fibre) : State := { st (wav [f]) with faulty := [.lane 0 0 2] }
def serr : SilentErr := { syn := 0x204, unit := 0, tile := 0 }
theorem wit_SoftwareTrap_silent : let f := { fib with intrap := true }; let i := Instr.iadd 7 1 2 3
    i.guard? = some 7 ∧ (sfail f).waves[(sfail f).cur.wave]? = some (wav [f]) ∧ (sfail f).gridOf (wav [f]) = some grd ∧
    kindsOf (sfail f) i 7 (wav [f]) grd = [.bad (trapSilent serr)] ∧ f.intrap = true ∧ f.queued = none ∧ { f with queued := some serr }.queued ≠ none ∧
    grd.det = false ∧ (sfail f).faulty = [.lane (sfail f).cur.wave 0 (f.base + (2 : Reg).toNat)] ∧ (wav [f]).zen = false ∧
    (wav [f]).inPath (sfail f).cur.pc 0 f = true ∧ f.guardTrue 7 = true ∧ brokenRule (sfail f) i (wav [f]) grd f = none :=
  ⟨rfl, rfl, rfl, by decide, rfl, rfl, by decide, rfl, by decide, rfl, by decide, by decide, by decide⟩
/-- R319: the silent error of a handler is queued, and the second one ends the wave with cause 0x0E. -/
theorem test_silent_queue : (sv (exec (.iadd 7 1 2 3) (sfail { fib with intrap := true })) fun t => t.waves.map fun w => (w.xq, w.fibres.map fun f => f.queued.map (·.syn.toNat))) =
      some [(true, [some 0x204])] ∧
    (sv (exec (.iadd 7 1 2 3) (sfail { fib with intrap := true, queued := some serr })) fun t => t.grids.map fun g => g.term.map fun x => x.cause.toNat) = some [some 0x0E] := by decide
/-- Lane 1's window, moved by a trap, puts its v8 outside the allotment; lane 0 executes. -/
def wmix : Wave := wav [fib, { fib with base := 60 }]
theorem onMix {p : Nat → Fibre → Prop} {a b : Fibre} (h : p 0 a) (h' : p 1 b) : ∀ (l : Nat) (f : Fibre), [a, b][l]? = some f → p l f
  | 0, _, e => by cases e; exact h
  | 1, _, e => by cases e; exact h'
  | _ + 2, _, e => by cases e
theorem wit_ContextRuleTrap_mixed : (∃ val, intResult (st wmix) false (.iadd 7 1 2 8) = some (7, 1, val)) ∧ Begins (.iadd 7 1 2 8) 7 (st wmix) wmix grd ∧
    CanTrap (kindsOf (st wmix) (.iadd 7 1 2 8) 7 wmix grd) wmix grd 0x40 ∧
    (kindsOf (st wmix) (.iadd 7 1 2 8) 7 wmix grd).map LaneKind.isBad = [false, true] ∧ (∃ op, moveFibre false (.icmp 7 1 2 3 4 .lt) = some (7, op)) :=
  ⟨⟨_, rfl⟩, ⟨rfl, rfl, rfl, rfl, by decide⟩, ⟨rfl, onMix (fun _ => rfl) (fun _ => rfl)⟩, by decide, ⟨_, rfl⟩⟩
/-- R38: lane 0 has its sum, lane 1 its trap. -/
theorem test_mixed : lanes (exec (.iadd 7 1 2 8) (st wmix)) (fun f => 256 * f.cause.toNat + v 1 f) = some [10, 256 + 61] := by decide

theorem canTrapMix {ks : List LaneKind} {a b : Fibre} (h : a.intrap = false) (h' : b.intrap = false) : CanTrap ks (wav [a, b]) grd 0x40 :=
  ⟨rfl, onMix (fun _ => h) (fun _ => h')⟩

/-- Lane 0 reads a marker, or adds infinities of unlike signs; lane 1 completes. -/
def gmark : Grid := { grd with checkreg := true }
def wmark : Wave := { wav [fmark, fib] with inven := true }
def smark : State := { st wmark with grids := [gmark] }
theorem beginsMark {i : Instr} {gd : Guard} (h : execLanes (kindsOf smark i gd wmark gmark) ≠ []) : Begins i gd smark wmark gmark := ⟨rfl, rfl, rfl, rfl, h⟩
theorem canTrapMark (ks : List LaneKind) : CanTrap ks wmark gmark 0x40 := ⟨rfl, onMix (fun _ => rfl) (fun _ => rfl)⟩
theorem wit_FloatTrap_mixed : (∃ (reads : Fibre → List Word) (op : Fibre → List (BitVec 6) × Fibre), floatFibre smark false (.fadd 7 1 2 3 .f32) = some (7, reads, op) ∧
      (reads fmark).find? isMarker = some 0x7F800105 ∧ (reads fib).find? isMarker = none) ∧
    Begins (.fadd 7 1 2 3 .f32) 7 smark wmark gmark ∧ CanTrap (kindsOf smark (.fadd 7 1 2 3 .f32) 7 wmark gmark) wmark gmark 0x40 ∧
    smark.invOn wmark = true ∧ gmark.checkreg = true :=
  ⟨⟨_, _, rfl, by decide, by decide⟩, beginsMark (by decide), canTrapMark _, rfl, rfl⟩
/-- R38, R122: lane 0 alone traps. -/
theorem test_float_mixed : lanes (exec (.fadd 7 1 2 3 .f32) smark) (fun f => f.cause.toNat) = some [2, 0] := by decide +kernel
theorem wit_ScanResult_marked : Begins (.scan 7 1 2 .addF false) 7 smark wmark gmark ∧ CanTrap (kindsOf smark (.scan 7 1 2 .addF false) 7 wmark gmark) wmark gmark 0x40 ∧
    ([0, 1].map fun l => ScanOp.addF.float && gmark.checkreg && isMarker ((wmark.lane l).get false 2)) = [true, false] ∧
    (∀ l ∈ [0, 1], (ScanOp.addS.float && gmark.checkreg && isMarker ((wmark.lane l).get false 2)) = false) :=
  ⟨beginsMark (by decide), canTrapMark _, by decide, by decide⟩
/-- R123, R135: the marker's lane traps and takes no part: the other keeps its own v2. -/
theorem test_scan_marked : lanes (exec (.scan 7 1 2 .addF false) smark) (fun f => 256 * f.cause.toNat + v 1 f) = some [0x201, 2] := by decide +kernel
theorem wit_ReduceResult_marked : Begins (.wred 7 1 2 .addF) 7 smark wmark gmark ∧ execLanes (kindsOf smark (.wred 7 1 2 .addF) 7 wmark gmark) = [0, 1] ∧
    wmark.fibres.length ≤ wmark.width ∧ wmark.width ≤ 64 ∧ wmark.width = 2 ^ 1 ∧
    Begins (.wred 7 1 2 .addF) 7 (st wnv) wnv grd ∧ (0 : Nat) ∈ execLanes (kindsOf (st wnv) (.wred 7 1 2 .addF) 7 wnv grd) :=
  ⟨beginsMark (by decide), by decide, by decide, by decide, rfl, ⟨rfl, rfl, rfl, rfl, by decide⟩, by decide⟩
theorem test_wred_marked : lanes (exec (.wred 7 1 2 .addF) smark) (fun f => 256 * f.cause.toNat + v 1 f) = some [0x201, 2] := by decide +kernel

/-- A partition whose limit admits no wave, and a full counter: a word that no fibre executes waits. -/
def slim : State := { st w1 with parts := State.reset.parts.set 0 { Part.clear with limit := 0 } }
theorem wit_FalseGuard_waits : limited (.ldg 0 4 2 .none .team .b32 .normal) = true ∧ slim.loadWaits slim.cur.wave w1 = true ∧
    countWaits (.stg 0 4 2 .none .team .b32 .normal) { w1 with stores := 63 } = true ∧
    .skip ∈ kindsOf slim (.ldg 0 4 2 .none .team .b32 .normal) 0 w1 grd :=
  ⟨rfl, by decide, by decide, by decide⟩
/-- R64: the load of a wave outside the limit waits, whatever its guard. -/
theorem test_lds_limit : sv (exec (.lds 0 4 2 .none .team .b32 .normal) slim) (fun t => (t.tried.length, t.waves.map fun w => w.fibres.map (·.pc.toNat))) = some (1, [[0]]) := by decide

/-- Lane 0's query lies beyond the allotment and lane 1's within it, with a marker; v60 would lie beyond it in both. -/
def wdist : Wave := { wav [{ fib with base := 16 }, { fib with regs := fib.regs.set 41 0x7F800105 }] with inven := true }
def sdist : State := { st wdist with grids := [gmark] }
theorem wit_DistResult_pre : let i := Instr.dist 7 1 40 8 .f16 .l2; let ks := kindsOf sdist i 7 wdist gmark
    Begins i 7 sdist wdist gmark ∧ CanTrap ks wdist gmark 0x40 ∧ execLanes ks = [0] ++ 1 :: [] ∧
    wdist.allot < (wdist.lane 0).base + (40 : Reg).toNat + sdist.distRegs .f16 ∧ ¬ wdist.allot < (wdist.lane 1).base + (40 : Reg).toNat + sdist.distRegs .f16 ∧
    wdist.allot < (wdist.lane 1).base + (60 : Reg).toNat + sdist.distRegs .f16 ∧ isMarker ((wdist.lane 1).get false 41) = true ∧ sdist.invOn wdist = true :=
  ⟨⟨rfl, rfl, rfl, rfl, by decide⟩, ⟨rfl, onMix (fun _ => rfl) (fun _ => rfl)⟩, by decide, by decide, by decide, by decide, by decide, rfl⟩
/-- R123, R140: lane 0 traps 0x01, and lane 1, whose query has the marker, 0x02; without it lane 1 completes. -/
theorem test_dist_pre : lanes (exec (.dist 7 1 40 8 .f16 .l2) sdist) (fun f => f.cause.toNat) = some [1, 2] ∧
    lanes (exec (.dist 7 1 40 8 .f16 .l2) { sdist with grids := [grd] }) (fun f => f.cause.toNat) = some [1, 0] := by decide +kernel
/-- Lane 1's key is a marker, in a list of two. -/
def stopm : State := { stop_ 0x7F800105 8 with grids := [gmark] }
theorem wit_TopkResult_marked : Ready (.topk 7 8 2 3 false) 7 stopm (wtop 0x7F800105 8) gmark ∧ (wtop 0x7F800105 8).fibres.length = (wtop 0x7F800105 8).width ∧
    CanTrap (kindsOf stopm (.topk 7 8 2 3 false) 7 (wtop 0x7F800105 8) gmark) (wtop 0x7F800105 8) gmark 0x40 ∧
    ([0, 1].map fun l => gmark.checkreg && isMarker (((wtop 0x7F800105 8).lane l).get false 2)) = [false, true] ∧
    (∀ l < 2, snanW (((wtop 0x7F800105 8).lane l).regs.getD 8 0) = false) :=
  ⟨⟨rfl, rfl, rfl, rfl, by decide, by decide⟩, by decide, ⟨rfl, onMix (fun _ => rfl) (fun _ => rfl)⟩, by decide, by decide⟩
/-- R123, R135, R142: its lane traps; of the keys 8, 8 and 2 the list keeps the lowest two. -/
theorem test_topk_marked : lanes (exec (.topk 7 8 2 3 false) stopm) (fun f => 256 * f.cause.toNat + v 8 f) = some [2, 0x208] := by decide +kernel

/-- Lane 0 executes a WAITJ on a mask that the ended lane 2 never joins; lane 1 waits on one that lane 0 would have to reach. -/
def wdead : Wave := { wav [fib, parkedOn (.mask 1), Fibre.empty] with masks := [5, 3] }
theorem wit_WaitOnMask_deadlock : Ready (.waitj 7 0) 7 (st wdead) wdead grd ∧ grd.trapEntry = some 0x40 ∧ execLanes (kindsOf (st wdead) (.waitj 7 0) 7 wdead grd) = [0] ∧
    (∀ f ∈ wdead.fibres, f.live = true → f.intrap = false) ∧ (parkedOn (.mask 1)).park.map (·.why) = some (.mask 1) ∧
    (wdead.masks.getD 0 0).getLsbD 2 = true ∧ (wdead.masks.getD 1 0).getLsbD 0 = true ∧ Fibre.empty.park = none :=
  ⟨⟨rfl, rfl, rfl, rfl, by decide, by decide⟩, rfl, by decide, by decide, rfl, by decide, by decide, rfl⟩
/-- R73: both trap. -/
theorem test_waitj_deadlock : lanes (exec (.waitj 7 0) (st wdead)) (fun f => f.cause.toNat) = some [1, 1, 0] := by decide
theorem wit_DecisionQueue_full : let x := { w1 with decisions := List.replicate 32 0 }; let s := { sPair with waves := [x, zen zfib] }
    let t0 : Team := { team with waves := [0], zen := some 1 }
    Ready (.dpush 7 1 0 3) 7 s (zen zfib) grd ∧ s.teamOf (zen zfib) = some t0 ∧ s.liveWave t0 ((lowLane (.dpush 7 1 0 3) 7 s (zen zfib) grd).getPair true (0 : Reg).toNat).toNat = some 0 ∧
    s.waves[0]? = some x ∧ 32 ≤ x.decisions.length ∧ Ready (.dpush 7 1 9 3) 7 s (zen zfib) grd ∧ Ready (.dcnt 7 1 9) 7 s (zen zfib) grd ∧
    s.liveWave t0 ((lowLane (.dpush 7 1 9 3) 7 s (zen zfib) grd).getPair true (9 : Reg).toNat).toNat = none :=
  ⟨⟨rfl, rfl, rfl, rfl, by decide, by decide⟩, rfl, by decide, rfl, by decide, ⟨rfl, rfl, rfl, rfl, by decide, by decide⟩, ⟨rfl, rfl, rfl, rfl, by decide, by decide⟩, by decide⟩
/-- R77: no wave 9 lives. -/
theorem test_dpush_none : sv (exec (.dpush 7 1 9 3) sPair) (fun t => t.waves.map fun w => w.fibres.map fun f => (f.get true 1).toNat) = some [[0], [2 ^ 32 - 1]] := by decide

/-- The first wave of a DET team; the token is at the second, whose index is 1. -/
def gtok : Grid := { grd with det := true }
def stok (turn : Nat) : State := { sm with waves := [wm, launchWave grd 0 1 0 1 0 false [fib]], grids := [{ gtok with turn := turn }], teams := [{ team with waves := [0, 1], token := if turn = 0 then 1 else 0 }] }
theorem readyTok {i : Instr} {gd : Guard} {n : Nat} (h : execLanes (kindsOf (stok n) i gd wm { gtok with turn := n }) ≠ [])
    (h' : (kindsOf (stok n) i gd wm { gtok with turn := n }).any LaneKind.isBad = false) : Ready i gd (stok n) wm { gtok with turn := n } := ⟨rfl, rfl, rfl, rfl, h, h'⟩
theorem wit_MeridianToken_waits : (stok 0).tokenHere wm { gtok with turn := 0 } = false ∧ (stok 1).tokenHere wm { gtok with turn := 1 } = true ∧ (stok 1).staging wm.team = true ∧
    Ready (.redm 7 4 2 .none .device .add) 7 (stok 0) wm { gtok with turn := 0 } ∧ Ready (.scatb 7 2 5) 7 (stok 0) wm { gtok with turn := 0 } ∧
    Ready (.atom 7 4 2 .none .device .add) 7 (stok 1) wm { gtok with turn := 1 } ∧ Ready (.scatf 7 1 2) 7 (stok 1) wm { gtok with turn := 1 } ∧
    Ready (.freeze 7 6 2 4) 7 (stok 1) wm { gtok with turn := 1 } ∧ Ready (.thaw 7 6 4) 7 (stok 1) wm { gtok with turn := 1 } :=
  ⟨by decide, by decide, by decide, readyTok (by decide) (by decide), readyTok (by decide) (by decide), readyTok (by decide) (by decide),
    readyTok (by decide) (by decide), readyTok (by decide) (by decide), readyTok (by decide) (by decide)⟩
/-- R289, R295: the REDM waits for the token, the ATOM for the turn. -/
theorem test_token_waits : ([exec (.redm 7 4 2 .none .device .add) (stok 0), exec (.atom 7 4 2 .none .device .add) (stok 1)]).map (fun o => sv o fun t => (t.tried.length, t.pend.length)) =
    [some (1, 0), some (1, 0)] := by decide +kernel

/-- Lane 0 at offset 8, and lane 1 at offset 8 or the misaligned 9. -/
def at8 (n : Nat) : Fibre := { fib with regs := (fib.regs.set 2 (BitVec.ofNat 32 n)).set 3 0 }
def watoms (n : Nat) : Wave := wav [at8 8, at8 n]
def satoms (n : Nat) : State := { st (watoms n) with teams := [{ team with scratch := [(8, 0xFF), (9, 0xFF), (10, 0xFF), (11, 0xFF)] }] }
theorem wit_ScratchAtomic_lanes : let i := Instr.atoms 7 4 2 6 .add
    Ready i 7 (satoms 8) (watoms 8) grd ∧ (satoms 8).teams[(watoms 8).team]? = some { team with scratch := [(8, 0xFF), (9, 0xFF), (10, 0xFF), (11, 0xFF)] } ∧
    (watoms 8).loads < 63 ∧ (satoms 8).loadWaits 0 (watoms 8) = false ∧ execLanes (kindsOf (satoms 8) i 7 (watoms 8) grd) = [0, 1] ∧
    scrPlace team grd (watoms 8) 4 (((watoms 8).lane 1).getPair false 2) = some (false, 8) ∧ scrPlace team grd (watoms 9) 4 (((watoms 9).lane 1).getPair false 2) = none ∧
    Begins i 7 (satoms 9) (watoms 9) grd ∧ CanTrap (kindsOf (satoms 9) i 7 (watoms 9) grd) (watoms 9) grd 0x40 :=
  ⟨⟨rfl, rfl, rfl, rfl, by decide, by decide⟩, rfl, by decide, by decide, by decide, by decide, by decide, ⟨rfl, rfl, rfl, rfl, by decide⟩, canTrapMix rfl rfl⟩
/-- R151, R154: lane 1 sees lane 0's sum of -1 and 6; or traps, and the sum stands. -/
theorem test_atoms_lanes : ([8, 9].map fun n => sv (exec (.atoms 7 4 2 6 .add) (satoms n)) fun t => t.waves.flatMap (fun w => w.fibres.flatMap fun f => [v 4 f, f.cause.toNat]) ++ t.teams.map fun x => (x.scratch.readN 8 1).headD 0 |>.toNat) =
    [some [2 ^ 32 - 1, 0, 5, 0, 11], some [2 ^ 32 - 1, 0, 4, 8, 5]] := by decide
/-- R154: in Zenith code the old word arrives zero-extended. -/
theorem test_atoms_zen : sv (exec (.atoms 7 4 8 6 .add) { sz with teams := [{ team with waves := [], zen := some 0, scratch := [(8, 0xFF), (9, 0xFF), (10, 0xFF), (11, 0xFF)] }] })
    (fun t => t.waves.flatMap fun w => w.fibres.map fun f => (f.getPair true 4).toNat) = some [2 ^ 32 - 1] := by decide
theorem wit_ScratchTrap_mixed : let i := Instr.lds 7 4 2 .none .team .b32 .normal; let j := Instr.sts 7 4 2 .none .team .b32 .normal
    Begins i 7 (satoms 9) (watoms 9) grd ∧ Begins j 7 (satoms 9) (watoms 9) grd ∧ (watoms 9).loads < 63 ∧ (watoms 9).stores < 63 ∧ (satoms 9).loadWaits 0 (watoms 9) = false ∧
    CanTrap (kindsOf (satoms 9) i 7 (watoms 9) grd) (watoms 9) grd 0x40 ∧
    scrPlace team grd (watoms 9) 4 (((watoms 9).lane 0).getPair false 2 + (satoms 9).hintXoff) = some (false, 8) ∧
    scrPlace team grd (watoms 9) 4 (((watoms 9).lane 1).getPair false 2 + (satoms 9).hintXoff) = none :=
  ⟨⟨rfl, rfl, rfl, rfl, by decide⟩, ⟨rfl, rfl, rfl, rfl, by decide⟩, by decide, by decide, by decide, canTrapMix rfl rfl, by decide, by decide⟩
/-- R38, R153: lane 0 loads, lane 1 traps. -/
theorem test_lds_mixed : lanes (exec (.lds 7 4 2 .none .team .b32 .normal) (satoms 9)) (fun f => 256 * v 4 f + f.cause.toNat) = some [256 * (2 ^ 32 - 1), 1032] := by decide

/-- Lane 0's address is on the data page; lane 1's on no page. -/
def fhole : Fibre := { fib with regs := (fib.regs.set 2 0x300004).set 3 0 }
def whalf : Wave := wav [fmem, fhole]
def shalf (mbx : Option Nat) (rs : List FaultRec) : State := { st whalf with
  pages := [demoPage 1, dpage], mem := [(0x200000, 0x2A)], spaces := [{ asid := 1, mbx := mbx, table := 0 }], records := rs }
theorem quiethalf (mbx : Option Nat) (rs : List FaultRec) : Quiet (shalf mbx rs) := ⟨rfl, rfl, (fun _ h => nomatch h), stageless, rfl, onBounds⟩
theorem freshhalf (s : State) : Fresh s whalf [0, 1] :=
  ⟨by decide, fun f m k hk => by
    have h : f.names = [] := by
      cases m with
      | head => rfl
      | tail _ m => cases m with
        | head => rfl
        | tail _ m => cases m
    rw [h] at hk; cases hk⟩
def atom0 : Instr := .atom 7 4 2 .none .device .add
theorem wit_GlobalLoad_mixed : (∀ i ∈ [ldg0, stg0, atom0], Begins i 7 (shalf none []) whalf grd ∧ execLanes (kindsOf (shalf none []) i 7 whalf grd) = [0, 1]) ∧
    (∀ ks, CanTrap ks whalf grd 0x40) ∧ faultBox (shalf none []) grd = none ∧ whalf.loads < 63 ∧ whalf.stores < 63 ∧ (shalf none []).loadWaits 0 whalf = false ∧
    (shalf none []).lands grd false 4 ((shalf none []).ea false (whalf.lane 0) 2) = some (dpage, 0x200000) ∧
    (shalf none []).lands grd true 4 ((shalf none []).ea false (whalf.lane 0) 2) = some (dpage, 0x200000) ∧
    settled (shalf none []) grd false 4 ((shalf none []).ea false (whalf.lane 1) 2) ∧ settled (shalf none []) grd true 4 ((shalf none []).ea false (whalf.lane 1) 2) ∧
    grd.det = false ∧ (shalf none []).defer = false ∧ (∀ p ∈ (shalf none []).pages, p.coh = 0) ∧ (∀ x ∈ (shalf none []).leaders, x.coh = 0) ∧ plainKey 0x200000 := by
  refine ⟨fun i h => ?_, fun _ => ⟨rfl, onMix (fun _ => rfl) (fun _ => rfl)⟩, by decide, by decide, by decide, by decide, by decide, by decide, by decide, by decide, rfl, rfl, by decide, by decide, by decide⟩
  fin_cases h <;> exact ⟨⟨rfl, rfl, rfl, rfl, by decide⟩, by decide⟩
theorem wit_GlobalLoad_parks : let s := shalf (some 3) [recw]
    Ready ldg0 7 s whalf grd ∧ faultBox s grd ≠ none ∧ execLanes (kindsOf s ldg0 7 whalf grd) = [0, 1] ∧
    s.lands grd false 4 (s.ea false (whalf.lane 1) 2) = none ∧ faultOf s grd false 0x300004 = some (.notMapped, 0x300000, 0) ∧
    joins s grd whalf.core (.notMapped, 0x300000, 0) = some recw :=
  ⟨⟨rfl, rfl, rfl, rfl, by decide, by decide⟩, by decide, by decide, by decide, by decide, by decide⟩
/-- R38, R268, R271: lane 0 completes; lane 1 traps, or with a fault mailbox is parked, the load still counted. -/
theorem test_global_mixed : [ldg0, stg0, atom0].map (fun i => lanes (exec i (shalf none [])) fun f => 256 * (v 4 f) + f.cause.toNat) =
      [some [0x2A00, 0x404], some [0x400, 0x404], some [0x2A00, 0x404]] ∧
    sv (exec ldg0 (shalf (some 3) [recw])) (fun t => t.waves.map fun w => (w.loads, w.fibres.map fun f => (v 4 f, f.park.isSome))) =
      some [(1, [(0x2A, false), (4, true)])] := by decide +kernel

/-- A stage of 2,048 messages has no room: not for a store's line, not for an operation, not for a message. -/
def smsg0 : Flight := { target := .mailbox 3, words := List.replicate 8 0, weight := none, team := some 0, sender := none }
def fullStage (n : Nat) : List Staged := List.replicate n (.message smsg0)
theorem full_store (n : Nat) : n < stageUsed (fullStage n ++ [.store 0x200000 [4, 0, 0, 0]]) := by
  simp [stageUsed, fullStage, List.range_succ]; decide
theorem full_op (n k : Nat) (x : DWord) (w : Option Nat) (c : Nat) : n < stageUsed (fullStage n ++ [.redm k .add x w c]) := by
  simp [stageUsed, fullStage]
theorem full_scatb (n a k : Nat) (x : Word) (w : Option Nat) (c : Nat) : n < stageUsed (fullStage n ++ [.scatb a k x w c false]) := by
  simp [stageUsed, fullStage]
theorem full_message (n : Nat) (f : Flight) : n < stageUsed (fullStage n ++ [.message f]) := by
  simp [stageUsed, fullStage]
/-- A wave of a DET team that holds the token, and not the turn. -/
def gturn : Grid := { gtok with turn := 1 }
def tturn (es : List Staged) : Team := { team with waves := [0, 1], stage := es }
def sturn (es : List Staged) : State := { stok 1 with teams := [tturn es] }
def redm0 : Instr := .redm 7 4 2 .none .device .add
theorem wit_stages (es : List Staged) (i : Instr) (h : i ∈ [stg0, redm0, .scatb 7 2 5]) : Ready i 7 (sturn es) wm gturn ∧ execLanes (kindsOf (sturn es) i 7 wm gturn) = [0] := by
  fin_cases h <;> exact ⟨⟨rfl, rfl, rfl, rfl, List.cons_ne_nil _ _, rfl⟩, rfl⟩
theorem wit_GlobalStore_stages : gturn.det = true ∧ (sturn []).staging wm.team = true ∧ (sturn []).tokenHere wm gturn = true ∧ (sturn []).teams[wm.team]? = some (tturn []) ∧
    (sturn []).lands gturn true 4 ((sturn []).ea false (wm.lane 0) 2) = some (dpage, 0x200000) ∧ (sturn []).lands gturn true 64 ((wm.lane 0).getPair false 2) = some (dpage, 0x200000) ∧
    (wm.lane 0).getBytes false 4 4 = [4, 0, 0, 0] ∧ wm.stores < 63 ∧ Fresh (sturn []) wm [0] ∧ stageUsed ([] ++ [.store 0x200000 [4, 0, 0, 0]]) ≤ 2048 :=
  ⟨rfl, by decide, by decide, rfl, by decide, by decide, by decide, by decide, fresh_wm _, by decide⟩
/-- R289: the bytes, the operation and the entry are in the stage, and memory stands. -/
theorem test_stages : [stg0, redm0, .scatb 7 2 5].map (fun i => sv (exec i (sturn [])) fun t => (t.teams.map fun x => (x.stage.length, x.token), bytesAt t 0x200000 1)) =
    [some ([(1, 0)], [0x2A]), some ([(1, 1)], [0x2A]), some ([(1, 1)], [0x2A])] := by decide +kernel
theorem wit_MessageStore_stages : let i := Instr.stgMsg 7 4 2 .none .team .b64 .normal
    let w := wav [{ fib with regs := (fib.regs.set 2 0xFFFF0000).set 3 0x01FFFFFF }]
    let s := { sturn [] with waves := [w], bundle := [.mod false true false false .rne] }
    Ready i 7 s w gturn ∧ gturn.det = true ∧ s.staging w.team = true ∧ s.teams[w.team]? = some (tturn []) ∧ gturn.priv = true ∧
    (∀ l ∈ execLanes (kindsOf s i 7 w gturn), (s.ea false (w.lane l) 2).toNat % 8 = 0 ∧ (s.ea false (w.lane l) 2).toNat / 64 * 64 = 0x01FFFFFFFFFF0000) ∧
    ∀ f, stageUsed ([] ++ [.message f]) ≤ 2048 :=
  ⟨⟨rfl, rfl, rfl, rfl, by decide, by decide⟩, rfl, by decide, rfl, rfl, by decide, fun _ => by simp [stageUsed]⟩

/-- Buckets at 0x100000: cap, dcap, their arrays at 0x100100 and 0x100200, count, drops, STATE, and words of the arrays. -/
def bucketOf (cap dcap count drops state : Nat) (ents dl : List Nat) : Memory :=
  Memory.writeN (Memory.writeN (Memory.writeN [] 0x200000 (leBytes 4 cap ++ leBytes 4 dcap ++ leBytes 8 0x100100 ++ leBytes 8 0x100200 ++
    leBytes 4 count ++ leBytes 4 drops ++ leBytes 4 state)) 0x200100 (ents.flatMap (leBytes 4))) 0x200200 (dl.flatMap (leBytes 4))
def sbk (cap dcap count drops state : Nat) (ents dl : List Nat) : State := { sm with mem := bucketOf cap dcap count drops state ents dl }
def bk (s : State) (o : Nat) : Nat := leNat (s.mem.readN (0x200000 + o) 4)
theorem quietbk (a b c d e : Nat) (x y : List Nat) : Quiet (sbk a b c d e x y) := ⟨rfl, rfl, (fun _ h => nomatch h), stageless, rfl, onBounds⟩
theorem readybk {i : Instr} (h : i ∈ [Instr.scatb 7 2 5, .scatf 7 1 2]) (a b c d e : Nat) (x y : List Nat) : Ready i 7 (sbk a b c d e x y) wm grd := by
  fin_cases h <;> exact ⟨rfl, rfl, rfl, rfl, List.cons_ne_nil _ _, rfl⟩
/-- Two entries of two, two dropped of two: the index 5 displaces 9, and 9 displaces 30 on the drop list. -/
def sfull : State := sbk 2 2 2 2 0 [9, 3] [30, 20]
theorem wit_BucketReduction_full : bk sfull 24 = bk sfull 0 ∧ bk sfull 32 = 0 ∧ bk sfull 0 ≠ 0 ∧ bk sfull 28 < 2 ^ 32 - 1 ∧ leNat (sfull.mem.readN 0x200028 24) = 0 ∧
    sfull.arrayTry grd.asid grd.priv .loses (BitVec.ofNat 64 (leNat (sfull.mem.readN 0x200008 8))) (bk sfull 0) = .keys [0x200100, 0x200104] ∧
    sfull.arrayTry grd.asid grd.priv .loses (BitVec.ofNat 64 (leNat (sfull.mem.readN 0x200010 8))) (min (bk sfull 4) (min (bk sfull 4) (bk sfull 28) + 1)) = .keys [0x200200, 0x200204] ∧
    (∀ e ∈ [0x200100, 0x200104, 0x200200, 0x200204], plainKey e ∧ (e + 4 ≤ 0x200000 ∨ 0x200000 + 64 ≤ e)) ∧
    [0x200100, 0x200104, 0x200200, 0x200204].Pairwise (fun e f => e + 4 ≤ f ∨ f + 4 ≤ e) ∧ sfull.lands grd true 64 ((wm.lane 0).getPair false 2) = some (dpage, 0x200000) :=
  ⟨by decide, by decide, by decide, by decide, by decide, by decide, by decide, by decide, by decide, by decide⟩
/-- An array whose address lies on no page: the entry, or the one dropped, is lost. -/
def slost (s : State) (o : Nat) : State := { s with mem := s.mem.writeN (0x200000 + o) (leBytes 8 0x500000) }
theorem wit_BucketReduction_lost : (slost sfull 8).arrayTry grd.asid grd.priv .loses 0x500000 (min (bk sfull 0) (bk sfull 24 + 1)) = .lost ∧
    (slost sfull 16).arrayTry grd.asid grd.priv .loses 0x500000 (min (bk sfull 4) (min (bk sfull 4) (bk sfull 28) + 1)) = .lost ∧
    bk (sbk 0 2 0 0 0 [] []) 0 = 0 ∧ bk (sbk 2 2 0 0 4 [] []) 32 = 4 ∧ bk (sbk 2 2 0 0 0 [] []) 28 < 2 ^ 32 - 1 := by decide
/-- R255: a bucket of no capacity counts the index as dropped and sets ERR. -/
theorem test_scatb_err : sv (exec (.scatb 7 2 5) (sbk 0 2 0 0 0 [] [])) (fun t => [bk t 24, bk t 28, bk t 32]) = some [0, 1, 2] := by decide +kernel
/-- A bucket in ERR with entries and a drop list out of order. -/
def sfinal : State := sbk 2 2 2 1 2 [9, 3] [30]
theorem wit_BucketReduction_drops : bk sfinal 32 % 2 = 0 ∧
    sfinal.arrayTry grd.asid grd.priv .traps (BitVec.ofNat 64 (leNat (sfinal.mem.readN 0x200008 8))) (bk sfinal 24) = .keys [0x200100, 0x200104] ∧
    sfinal.arrayTry grd.asid grd.priv .traps (BitVec.ofNat 64 (leNat (sfinal.mem.readN 0x200010 8))) (min (bk sfinal 4) (bk sfinal 28)) = .keys [0x200200] ∧
    [0x200100, 0x200104, 0x200200].Pairwise (fun e f => e + 4 ≤ f ∨ f + 4 ≤ e) := by decide
/-- R257: both are sorted, and FINAL joins ERR. -/
theorem test_scatf_drops : sv (exec (.scatf 7 1 2) (sbk 2 2 2 2 2 [9, 3] [30, 20])) (fun t => [bk t 0x100, bk t 0x104, bk t 0x200, bk t 0x204, bk t 32]) =
    some [3, 9, 20, 30, 3] := by decide +kernel

/-- Nothing to sign: a count of 0, ids of no live wave, ids out of partition order, and W = 16. -/
def zsigOf (a b : DWord) : Wave := zen { zfib with sregs := (zfib.sregs.set 2 a).set 4 b }
def fourOf (a b : DWord) : State := { four with waves := ((List.range 4).map fun k => launchWave grd 0 k 0 k 0 false [fib]) ++ [zsigOf a b] }
theorem wit_ConvergenceRegisters_traps : (∀ x ∈ [(0x03020100, 0), (0x07020100, 1), (0x02030100, 1)], Ready (.signset 7 0 2 4) 7 (fourOf x.1 x.2) (zsigOf x.1 x.2) grd) ∧
    (∀ ks, CanTrap ks (zsigOf 0x07020100 1) grd 0x40) ∧ four.liveWave tfour 7 = none ∧ (four.waves.map (·.quadPos)).take 4 = [0, 1, 2, 3] ∧ (demoGrid 0 1 0).width = 16 := by
  refine ⟨fun x h => ?_, fun _ => ⟨rfl, one fun _ => rfl⟩, by decide, by decide, rfl⟩
  fin_cases h <;> exact ⟨rfl, rfl, rfl, rfl, by decide, by decide⟩
theorem test_signset_traps : [(0x03020100, 0), (0x07020100, 1), (0x02030100, 1)].map (fun (x : DWord × DWord) => sv (exec (.signset 7 0 2 4) (fourOf x.1 x.2)) fun t =>
    (t.waves.drop 4).flatMap fun w => w.fibres.map fun f => f.cause.toNat) = [some [1], some [1], some [1]] := by decide
/-- Slot 31 is empty; W is 16; another accumulator is signed. -/
def w31 : Wave := launchWave g32 0 0 0 0 0 false (List.replicate 31 fib)
def s31 : State := { s32 with waves := [w31] }
def g16 : Grid := { grd with width := 16 }
theorem wit_MatrixSigning_rules : let i := Instr.mmq 7 0 1 2 8 .s8; let cv : Conv := { armed with signed := [none, some { off := 0, header := [], b := [] }, none, none] }
    Ready i 7 s31 w31 g32 ∧ (∃ l < 32, l ∉ execLanes (kindsOf s31 i 7 w31 g32)) ∧ s31.quads[w31.quadIndex]? = some q32 ∧ s31.signWait w31.quadIndex = false ∧ g16.width = 16 ∧
    ((∃ y ∈ cv.signed, y ≠ none) ∧ cv.acc ≠ 1) ∧ w31.tiles < 63 ∧ CanTrap (kindsOf s31 i 7 w31 g32) w31 g32 0x40 :=
  ⟨⟨rfl, rfl, rfl, rfl, by decide, by decide⟩, ⟨31, by decide, by decide⟩, rfl, by decide, rfl, ⟨⟨_, List.Mem.tail _ (List.Mem.head _), by decide⟩, by decide⟩, by decide,
    rfl, fun l f h _ => by
      have := List.mem_of_getElem? h
      exact List.eq_of_mem_replicate this ▸ rfl⟩
/-- R166: trap 0x01 in every lane. -/
theorem test_mmq_slot : lanes (exec (.mmq 7 0 1 2 8 .s8) s31) (fun f => f.cause.toNat) = some (List.replicate 31 1) := by decide
/-- Lane 0 reads element 2; lane 1 converts a signalling NaN, or names a reserved bit. -/
def wacc (x : Word) : Wave := { wav [{ fib with regs := fib.regs.set 2 0x200 }, { fib with regs := fib.regs.set 2 x }] with inven := true }
def qacc : Quad := { Quad.clear with acc := [(18432, 0x7F800001), (18434, 7)] }
def sacc (x : Word) (fs : List FailedSlice) : State := { st (wacc x) with quads := State.reset.quads.set 0 { qacc with failed := fs }, grids := [gmark] }
def fslice : FailedSlice := { tile := 3, slice := 0, code := 1, row := 0, col := 0, inj := false }
theorem wit_AccumulatorAccess_traps : (∀ x ∈ [0x10000, 0x01000000], Begins (.accrd 7 1 2 3) 7 (sacc x []) (wacc x) gmark ∧ Begins (.accwr 7 1 2 3) 7 (sacc x []) (wacc x) gmark ∧
      CanTrap (kindsOf (sacc x []) (.accrd 7 1 2 3) 7 (wacc x) gmark) (wacc x) gmark 0x40) ∧
    accBad false 0x01000000 = true ∧ accBad true 0x10000 = true ∧ (sacc 0 []).invOn (wacc 0) = true ∧
    (accRead .rne false ((List.range 1536).map fun x => qacc.acc.get (18432 + x)) 0x10000).1.findIdx? (fun fl => fl.getLsbD 0) = some 0 ∧
    { qacc with failed := [fslice] }.failOf 3 0 = some fslice ∧ qacc.failOf 3 0 = none := by
  refine ⟨fun x h => ?_, by decide, by decide, rfl, by decide +kernel, rfl, rfl⟩
  fin_cases h <;> exact ⟨⟨rfl, rfl, rfl, rfl, by decide⟩, ⟨rfl, rfl, rfl, rfl, by decide⟩, ⟨rfl, onMix (fun _ => rfl) (fun _ => rfl)⟩⟩
/-- R176: the one lane traps 0x03, or 0x01; on a failed slice the other traps 0x07. -/
theorem test_accrd_traps : [sacc 0x10000 [], sacc 0x01000000 [], sacc 0x01000000 [fslice]].map (fun s => lanes (exec (.accrd 7 1 2 3) s) fun f => 256 * v 1 f + f.cause.toNat) =
    [some [0x700, 0x103], some [0x700, 0x101], some [0x107, 0x101]] := by decide +kernel
/-- R123, R176: lane 0 writes the element 2; lane 1's word is a marker. -/
theorem test_accwr_traps : sv (exec (.accwr 7 2 4 3) { sacc 0 [] with waves := [wav [{ fmark with regs := (fmark.regs.set 2 5).set 4 0x200 }, { fmark with regs := fmark.regs.set 4 0x300 }]] })
    (fun t => (t.quads.take 1).flatMap (fun q => q.acc.map fun x => (x.1, x.2.toNat)) ++ t.waves.flatMap fun w => w.fibres.map fun f => (f.cause.toNat, 0)) =
    some [(18432, 0x7F800001), (18434, 5), (0, 0), (2, 0)] := by decide

/-! ### Completions, wakes, engines -/

def owed : PendStore := { wave := 0, bytes := [(0x200000, 7), (0x200001, 9)], selfinv := [], ids := [5], called := false }
def spend : State := { st { wm with stores := 1 } with pages := [demoPage 1, dpage], pend := [owed] }
theorem wit_WaitEvents_store : spend.dev = .running ∧ spend.injects = [] ∧ spend.faulty = [] ∧ spend.pend[0]? = some owed ∧ owed.wave = 0 ∧ owed.selfinv = [] ∧ owed.ids = [5] ∧ spend.shadows = [] ∧
    (∀ j q, j ≠ 0 → spend.pend[j]? = some q → 5 ∉ q.ids) ∧ (∀ x ∈ wm.fibres, x.counts 5 = false) ∧ (∀ x ∈ spend.l1, x.selfinv = false) ∧
    spend.linkUp = true ∧ spend.waves[0]? = some { wm with stores := 1 } ∧ wm.fibres[0]? = some fmem ∧ fmem.live = true :=
  ⟨rfl, rfl, rfl, rfl, rfl, rfl, rfl, rfl, (fun j q h e => by match j, h, e with | j + 1, _, e => cases e), by decide, (fun _ h => nomatch h), rfl, rfl, rfl, rfl⟩
/-- R225: the store's bytes are in memory and the counter is back. -/
theorem test_storeCompletion : sv (exec (.storeCompletion 0) spend) (fun t => (bytesAt t 0x200000 2, t.pend.length, t.waves.map (·.stores))) =
    some ([7, 9], 0, [0]) := by decide
def req : AtomReq := { d := 4, va := 0x100000, key := 0x200000, op := .add, x := 5, e := 0, ord := .none, scp := .device, id := 0, tracked := true }
def satom : State := { st { wav [{ fmem with park := some { why := .atomic req, next := 2, last := 1, word := 0 } }] with loads := 1 } with
  pages := [demoPage 1, dpage], mem := [(0x200000, 3)] }
theorem wit_WaitEvents_atomic : ∃ f, (satom.waves.getD 0 w1).fibres[0]? = some f ∧ f.park.map (·.why) = some (.atomic req) ∧ Quiet satom ∧
    plainKey req.key ∧ satom.poisoned req.key = false ∧
    ∀ (k : Nat) (x : Fibre), (satom.waves.getD 0 w1).fibres[k]? = some x → k ≠ 0 → x.counts req.id = false ∧ ∀ q, x.park.map (·.why) = some (.atomic q) → q.id ≠ req.id :=
  ⟨_, rfl, rfl, ⟨rfl, rfl, (fun _ h => nomatch h), stageless, rfl, by decide⟩, by decide, by decide, one fun h => absurd rfl h⟩
/-- R236, R239: the sum is in memory, the old value in the register, the fibre after its bundle. -/
theorem test_atomicCompletion : sv (exec (.atomicCompletion 0 0) satom) (fun t =>
    bytesAt t 0x200000 1 ++ t.waves.flatMap fun w => w.loads :: w.fibres.flatMap fun f => [v 4 f, f.pc.toNat]) =
    some [8, 0, 3, 2] := by decide
def mon (x : Nat) (d : Option Nat) (e : Bool) : Monitor := {
  d := 4, va := 0x100000, cond := .eq, w64 := false, x := BitVec.ofNat 64 x, ord := .none, scp := .device, deadline := d
  key := 0x200000, entry := e, next := 0, met := none, id := 5, psn := false }
def smon (x : Nat) (d : Option Nat) (e : Bool) : State := { st (wav [{ fmem with park := some { why := .monitor (mon x d e), next := 2, last := 1, word := 0 } }]) with
  pages := [demoPage 1, dpage], mem := [(0x200000, 3)] }
theorem quietmon (x : Nat) (d : Option Nat) (e : Bool) : Quiet (smon x d e) :=
  ⟨rfl, rfl, (fun _ h => nomatch h), stageless, rfl, onBounds⟩
theorem wit_WaitEvents_monitor : let s := smon 3 (some 0) true; let w := s.waves.getD 0 w1
    (∃ f pk, w.fibres[0]? = some f ∧ f.park = some pk ∧ pk.why = .monitor (mon 3 (some 0) true)) ∧ s.gridOf w = some grd ∧ w.stat = .resident ∧
    s.translate grd.asid grd.priv false needLoad 0x100000 = .ok dpage 0x200000 ∧ Quiet s ∧ s.poisoned 0x200000 = false ∧
    waitHolds .eq 32 (leNat (s.homeRead 0x200000 4)) 3 = true ∧ waitHolds .eq 32 (leNat (s.homeRead 0x200000 4)) 4 = false ∧
    (mon 3 (some 0) true).entry = true ∧ (mon 3 (some 0) false).entry = false ∧ (mon 3 (some 0) false).next ≤ s.time.toNat :=
  ⟨⟨_, _, rfl, rfl, rfl⟩, rfl, rfl, by decide, quietmon _ _ _, by decide, by decide, by decide, rfl, rfl, by decide⟩
def answer (o : Out) : Option (List Nat) := sv o fun t => t.waves.flatMap fun w => w.fibres.flatMap fun f => [v 4 f, f.pc.toNat]
/-- R249 to R251: a satisfied monitor answers the value; an unsatisfied one stays; an expired one answers all the same. -/
theorem test_waitcRelease : answer (exec (.waitcRelease 0 0) (smon 3 none true)) = some [3, 2] := by decide
theorem test_monitorPoll : answer (exec (.monitorPoll 0 0) (smon 4 none false)) = some [4, 0] := by decide
theorem test_waitcTimeout : answer (exec (.waitcTimeout 0 0) (smon 4 (some 0) true)) = some [3, 2] := by decide
theorem test_waitcTimeout_early : answer (exec (.waitcTimeout 0 0) (smon 4 (some 9) true)) = some [4, 0] := by decide
def ssleep (n : Word) : State := st (wav [parkedOn (.sleep n)])
theorem wit_WaitEvents_sleep : ∃ f ∈ ((ssleep 0).waves.getD 0 w1).fibres, f.live = true ∧
    ∃ x, f.park.map (·.why) = some (.sleep x) ∧ (lo32 (ssleep 0).time - x).toNat < 2 ^ 31 :=
  ⟨_, List.Mem.head _, rfl, 0, rfl, by decide⟩
theorem wit_WaitEvents_sleep' : (ssleep 0).missed 0 = none ∧ ((ssleep 0).waves.getD 0 w1).stat = .resident := ⟨by decide, rfl⟩
/-- R202: chip time 0 has reached promise 0 and not promise 1. -/
theorem test_sleeptWake : answer (exec (.sleeptWake 0) (ssleep 0)) = some [4, 2] := by decide
theorem test_sleeptWake_early : answer (exec (.sleeptWake 0) (ssleep 1)) = some [4, 0] := by decide
def wend : Wave := { wav [Fibre.empty] with psn := true }
theorem wit_WaitEvents_end : wend.stat ≠ .ended ∧ (∀ f ∈ wend.fibres, f.live = false) ∧ wend.loads = 0 ∧ wend.stores = 0 ∧ wend.copies = 0 ∧
    wend.tiles = 0 ∧ (st wend).teams[wend.team]? = some team ∧ (st wend).grids[team.grid]? = some grd ∧ (∃ f ∈ w1.fibres, f.live = true) :=
  ⟨by decide, by decide, rfl, rfl, rfl, rfl, rfl, rfl, _, List.Mem.head _, rfl⟩
/-- R54, R337: the wave has ended, and its poison bit is its grid's. -/
theorem test_waveEnd : sv (exec (.waveEnd 0) (st wend)) (fun t => (t.waves.map (·.stat), t.grids.map (·.psn))) = some ([.ended], [true]) := by decide
theorem wit_WaitEvents_swap : let w := (smon 4 none true).waves.getD 0 w1; let y := { w1 with stat := .swapped }
    w.zen = false ∧ w.stat = .resident ∧ w.allWaiting = true ∧ (st y).parts[y.partIndex]? = some Part.clear ∧ y.stat = .swapped ∧
    (∃ f ∈ y.fibres, f.live = true ∧ f.park = none) ∧ Part.clear.inService = true ∧ Part.clear.halt = .none ∧
    (st y).lanesUsed y.core y.part + y.width ≤ 512 ∧ (st y).regsUsed y.core y.part + y.width * y.allot ≤ 98304 ∧ (st y).quadTakes y.partIndex y = true :=
  ⟨rfl, rfl, by decide, by decide, rfl, ⟨_, List.Mem.head _, rfl, rfl⟩, rfl, rfl, by decide, by decide, by decide⟩
/-- R252. -/
theorem test_waveSwapOut : sv (exec (.waveSwapOut 0) (smon 4 none true)) (fun t => t.waves.map (·.stat)) = some [.swapped] := by decide
theorem test_waveReturn : sv (exec (.waveReturn 0) (st { w1 with stat := .swapped })) (fun t => t.waves.map (·.stat)) = some [.resident] := by decide

/-- A complete register of q32: three waves' signatures are enough for the test of the order. -/
def sig : Signature := { off := 0, header := (t32.scr false).readN 0 64, b := List.replicate 1536 1 }
def qready : Quad := { q32 with conv := Quad.clear.conv.set 0 { armed with signed := [some sig, some sig, some sig, some sig], ty := .s8 }, ready := [0] }
def sready : State := { s32 with quads := State.reset.quads.set 0 qready }
theorem wit_EngineEvents_issue : sready.quads[0]? = some qready ∧ qready.ready = 0 :: [] ∧ qready.frozen = false ∧ sready.signWait 0 = false ∧
    qready.owner = some 0 ∧ sready.teams[0]? = some t32 ∧ qready.conv[0]? = some { armed with signed := [some sig, some sig, some sig, some sig], ty := .s8 } :=
  ⟨rfl, rfl, rfl, by decide, rfl, rfl, rfl⟩
/-- R168: the register's count falls, its signatures are gone, one MMQ is in the pipeline. -/
theorem test_mmqIssue : sv (exec (.mmqIssue 0) sready) (fun t => (t.quads.take 1).map fun q => (q.ready, q.pipe.length, q.conv.map (·.remaining))) =
    some [([], 1, [0, 0, 0, 0, 0, 0, 0, 0])] := by decide
/-- An issued MMQ of zeros. -/
def issued : Issued :=
  { acc := 1, ty := .s8, set := [0, 1, 2, 3], sigs := [sig, sig, sig, sig], a := List.replicate 4 (List.replicate 1024 0),
    bs := [[], [], [], []], force := 0 }
def scommit : State := { s32 with quads := State.reset.quads.set 0 { q32 with pipe := [issued] } }
theorem wit_EngineEvents_commit : scommit.quads[0]? = some { q32 with pipe := [issued] } ∧ issued.force = 0 ∧ scommit.teams[0]? = some t32 ∧
    t32.waves = [0] ∧ (∃ (w : Wave) (f : Fibre), scommit.waves[0]? = some w ∧ f ∈ w.fibres ∧ f.live = true) :=
  ⟨rfl, rfl, rfl, rfl, _, fib, rfl, by decide, rfl⟩
/-- R172: a failed check leaves the tile and marks its four slices. -/
theorem test_mmqCommit : sv (exec (.mmqCommit 0 (.columnFails 5)) scommit) (fun t =>
    (t.quads.take 1).map fun q => q.pipe.length :: q.acc.length :: q.failed.flatMap fun f => [f.tile, f.slice, f.col]) =
    some [[0, 0, 1, 0, 5, 1, 1, 5, 1, 2, 5, 1, 3, 5]] := by decide
def convOp : TileOp := { wave := 0, lanes := [0], work := .convert [(64, 5), (65, 6)], record := none, unread := none, psn := false }
def sconv : State := { st { w1 with tiles := 1 } with tileOps := [convOp] }
theorem wit_EngineEvents_tiles : sconv.tileOps[0]? = some convOp ∧ convOp.record = none ∧ sconv.waves[0]? = some { w1 with tiles := 1 } ∧
    sconv.teams[0]? = some team ∧ sconv.grids[team.grid]? = some grd ∧ convOp.work = .convert [(64, 5), (65, 6)] ∧ (∃ f ∈ w1.fibres, f.live = true) :=
  ⟨rfl, rfl, rfl, rfl, rfl, rfl, _, List.Mem.head _, rfl⟩
/-- R178: the bytes are in the scratchpad, and the counter is back. -/
theorem test_tilesOperationComplete : sv (exec (.tilesOperationComplete 0) sconv) (fun t => (t.teams.map fun x => x.scratch.map fun c => (c.1, c.2.toNat), t.tileOps, t.waves.map (·.tiles))) =
    some ([[(64, 5), (65, 6)]], [], [0]) := by decide
/-- A copy of one row of two bytes from offset 8 of the scratchpad to offset 16. -/
def cmdw : List DWord := [0x0009000000000009, 8, 16, 0x10002]
def copy1 : Copy := { core := 0, issuer := 0, charged := 0, cw := cmdw, promise := 0, weight := 0, phase := 0, priv := true, asid := 1, done := none, record := none, doneAt := 0, stop := none }
def scopy : State := { st { w1 with copies := 2 } with teams := [{ team with scratch := [(8, 5), (9, 6)] }], engine := [copy1, copy1] }
theorem wit_EngineEvents_copy : scopy.engine[1]? = some copy1 ∧ copy1.done = none ∧ copy1.record = none ∧ copy1.stop = none ∧ (readCmd cmdw).dkind = 1 ∧ (readCmd cmdw).x = false ∧
    (readCmd cmdw).skind = 1 ∧ scopy.engine[0]? = some copy1 ∧ (∀ i x, i < 0 → scopy.engine[i]? = some x → x.charged ≠ copy1.charged) ∧
    ({ team with scratch := [(8, 5), (9, 6)] } : Team).scrRead grd.scratch 0 (readCmd cmdw).off1 ((readCmd cmdw).rows * (readCmd cmdw).cols) = some [5, 6] :=
  ⟨rfl, rfl, rfl, rfl, by decide, by decide, by decide, rfl, fun _ _ h => absurd h (Nat.not_lt_zero _), by decide⟩
/-- R197, R198: the bytes are there, and the younger copy is not released before the older. -/
theorem test_copyCompletion : sv (exec (.copyCompletion 1 .moved) scopy) (fun t => (t.teams.flatMap fun x => (x.scratch.readN 16 2).map (·.toNat)) ++ t.waves.map (·.copies) ++
      t.engine.map fun c => if c.done.isSome then 1 else 0) = some [5, 6, 2, 0, 1] := by decide
/-- A copy from storage window 0, charged to the same context. -/
def copy2 : Copy := { copy1 with cw := [0x000900000000000A, 0, 16, 0x10002] }
def sstor : State := { st { w1 with copies := 1 } with engine := [copy2] }
theorem wit_EngineEvents_storage : sstor.engine[0]? = some copy2 ∧ copy2.stop = none ∧ (readCmd copy2.cw).dkind = 1 ∧ (readCmd copy2.cw).skind = 2 ∧ (readCmd copy2.cw).note = false ∧
    (∀ j c', sstor.engine[j]? = some c' → c'.charged = copy2.charged → j = 0) ∧ sstor.waves[0]? = some { w1 with copies := 1 } ∧ (∃ f ∈ w1.fibres, f.live = true) :=
  ⟨rfl, rfl, by decide, by decide, by decide, (fun j _ h _ => by match j, h with | 0, _ => rfl), rfl, fib, List.Mem.head _, rfl⟩
/-- R200: a storage error is status 6 and waits for a WAITN with cause 0x04. -/
theorem test_copyCompletion_ioError : sv (exec (.copyCompletion 0 (.ioError 2 0x81 0)) sstor) (fun t =>
    (t.engine, t.waves.map fun w => (w.copies, w.fails, w.k3.entries))) =
    some ([], [(0, [{ tag := 9, status := 6, cause := 0x04, younger := 0 }], [0x0000028100000009])]) := by decide
/-- All 1,024 slots of a core are taken; a storage copy of the wave can still post to k3; the promise of a copy, chip time 0, has passed. -/
theorem wit_QueueRegisters_full : 1024 ≤ (({ sq with engine := List.replicate 1024 copy1 } : State).engine.filter fun c => c.core == wq.core && c.done.isNone).length := by
  rw [List.filter_eq_self.2 fun c m => by rw [List.eq_of_mem_replicate m]; rfl, List.length_replicate]
theorem wit_QueueRegisters_waits : let s := { s1 with engine := [copy2] }
    Ready (.qpop 7 2 3) 7 s w1 grd ∧ (w1.queue 3).entries.length < (execLanes (kindsOf s (.qpop 7 2 3) 7 w1 grd)).length ∧
    ∃ x ∈ s.engine, x.issuer = s.cur.wave ∧ (readCmd x.cw).skind = 2 :=
  ⟨⟨rfl, rfl, rfl, rfl, by decide, by decide⟩, by decide, copy2, List.Mem.head _, rfl, by decide⟩
theorem wit_CounterWaits_missed : let s := { s1 with engine := [copy1] }
    Ready (.sleept 7 0) 7 s w1 grd ∧ (lo32 s.time - (lowLane (.sleept 7 0) 7 s w1 grd).get w1.zen (0 : Reg).toNat).toNat < 2 ^ 31 ∧ s.engine = [] ++ copy1 :: [] ∧
    copy1.charged = s.cur.wave ∧ (lo32 s.time - copy1.promise).toNat < 2 ^ 31 ∧ CanTrap (kindsOf s (.sleept 7 0) 7 w1 grd) w1 grd 0x40 :=
  ⟨⟨rfl, rfl, rfl, rfl, by decide, by decide⟩, by decide, rfl, rfl, by decide, canTrap1 _⟩
/-- R202: trap 0x06 with the promise; sr.prom names the copy. -/
theorem test_sleept_missed : sv (exec (.sleept 7 0) { s1 with engine := [copy1] }) (fun t => t.waves.map fun w => (w.prom.toNat, w.fibres.map (·.cause.toNat))) =
    some [(0x80000009, [6])] := by decide
/-- The source of copy3 is an address without a page; a record of that page waits. -/
def copy3 : Copy := { copy1 with cw := [0x0009000000000008, 0x400000, 16, 0x10002] }
def rec0 : FaultRec := { die := 0, index := 2, seq := 1, kind := .notMapped, cls := .load, asid := 1, va := 0x400000, page := 0x400000, sz := 0, merged := 0,
                         count := 1, time := 0, region := 0, posted := false }
def sfault : State := { st w1 with engine := [copy3], records := [rec0], spaces := [{ asid := 1, mbx := some 2, table := 0 }] }
theorem wit_EngineEvents_fault : sfault.engine[0]? = some copy3 ∧
    (sfault.copySource (sfault.teamId 0) copy3).2.2.1 = some (.fault 0x400000 .notMapped 0x400000 0 0) ∧
    (∃ x m, sfault.spaces.find? (fun x => x.asid == 1) = some x ∧ x.mbx = some m) ∧
    sfault.records.find? (fun x => x.die == 0 && x.asid == 1 && x.page == 0x400000 && x.kind == .notMapped) = some rec0 :=
  ⟨rfl, by decide, ⟨_, 2, rfl, rfl⟩, by decide⟩
/-- R268: the engine's fault joins the record. -/
theorem test_asynchronousEngineFault : sv (exec (.asynchronousEngineFault (.copy 0)) sfault) (fun t =>
    (t.records.map (·.count), t.engine.map fun c => c.record.isSome)) = some ([2], [true]) := by decide

/-! ### The host port, the device, commands -/

def watch (en : Bool) (x : Nat) : Watch := { Watch.clear with
  en := en, armed := some { va := 0x100000, val := BitVec.ofNat 64 x, dest := 0x40, cond := 0, w := 0, asid := 1, vec := 3, msi := true
                            key := 0x200000, entry := true, next := 0, met := none } }
def swatch (en : Bool) (x : Nat) : State := { sm with watches := [watch en x] }
theorem wit_HostPort_watch : (swatch true 0x2A).dev = .running ∧ (swatch true 0x2A).watches[0]? = some (watch true 0x2A) ∧ (watch true 0x2A).en = true ∧
    (watch true 0x2A).record = none ∧ (swatch true 0x2A).translate 1 true false needLoad 0x100000 = .ok dpage 0x200000 ∧ (swatch true 0x2A).shadows = [] ∧
    (swatch true 0x2A).linkUp = true ∧ waitHolds (watchCond 0) 32 (leNat ((swatch true 0x2A).homeRead 0x200000 4)) 0x2A = true ∧
    waitHolds (watchCond 0) 32 (leNat ((swatch true 1).homeRead 0x200000 4)) 1 = false ∧ (watch false 0).en = false :=
  ⟨rfl, rfl, rfl, rfl, by decide, rfl, rfl, by decide, by decide, rfl⟩
/-- The same watch without a monitor entry, which reads at chip time 0 or 5; and one whose record lies in a fixed block. -/
def watchN (x n : Nat) : Watch := { watch true x with armed := (watch true x).armed.map fun a => { a with entry := false, next := n } }
theorem wit_HostPort_entry : (∃ a, (watchN 1 5).armed = some a ∧ a.entry = false ∧ sm.time.toNat < a.next) ∧ (∃ a, (watchN 1 0).armed = some a ∧ a.next ≤ sm.time.toNat) ∧
    (swatch true 1).entries.length = 1 ∧ sm.entries = [] ∧
    (∀ i < 16, 0 < { sm with frozen := [(hostKey 0x40 / 65536, 1)] }.frozenAt (hostKey 0x40 + i)) :=
  ⟨⟨_, rfl, rfl, by decide⟩, ⟨_, rfl, by decide⟩, by decide, by decide, by decide⟩
/-- R250: without an entry, a word that does not satisfy is read again a microsecond later. -/
theorem test_watchFire_poll : sv (exec (.watchFire 0) { sm with watches := [watchN 1 0] }) (fun t => t.watches.map fun x => x.armed.map (·.next)) = some [some 1000] := by decide +kernel
/-- R254: the record holds the value, the sequence 1 and a one; MSI-X vector 3 is raised. -/
theorem test_watchFire : sv (exec (.watchFire 0) (swatch true 0x2A)) (fun t => bytesAt t (hostKey 0x40) 16 ++
    t.watches.flatMap fun x => [x.seq.toNat, if x.fired then 1 else 0, if x.en then 1 else 0]) =
    some [0x2A, 0, 0, 0, 0, 0, 0, 0, 1, 0, 0, 0, 1, 0, 0, 0, 1, 1, 0] := by decide +kernel
/-- R249, R254: arming reads the word 0x2A at once; a watch for 0 stays armed, one at an odd address fails. -/
def wnew (a : Nat) : Watch := { Watch.clear with waddr := BitVec.ofNat 64 a, wasid := 1 }
theorem test_watchArm : sv (exec (.watchArm 0) { sm with watches := [wnew 0x100000] }) (fun t => t.watches.map fun x => (x.en, x.armed.isSome)) =
    some [(true, true)] ∧ sv (exec (.watchArm 0) { sm with watches := [wnew 0x100001] }) (fun t => t.watches.map fun x => (x.en, x.err)) = some [(false, true)] := by
  decide +kernel
theorem wit_HostPort_fails : let x := { watch true 1 with armed := (watch true 1).armed.map fun (a : Armed) => { a with va := 0x100001 } }
    x.en = true ∧ x.record = none ∧ (∃ a : Armed, x.armed = some a ∧ a.va.toNat % (if a.w = 1 then 8 else 4) ≠ 0) ∧ sm.shadows = [] ∧ sm.linkUp = true ∧
    (∀ y < 16, sm.frozenAt (hostKey 0x40 + y) = 0 ∧ sm.codeAt (hostKey 0x40 + y) = false ∧ sm.thawingAt (hostKey 0x40 + y) = false) ∧
    ((0 : DWord).getLsbD 31 = false ∧ (0x80000000 : DWord).getLsbD 31 = true) :=
  ⟨rfl, rfl, ⟨_, rfl, by decide⟩, rfl, rfl, by decide, by decide⟩
theorem test_watchDisarm : sv (exec (.watchDisarm 0) (swatch true 1)) (fun t => t.watches.map fun x => (x.en, x.armed.isSome)) = some [(false, false)] := by decide
def sring : State := { sm with ring := { base := 0x1000, lsize := 4, tail := 1, head := 0, err := false, en := true } }
theorem wit_HostPort_ring : sring.ring.en = true ∧ sring.ring.err = false ∧ sring.ring.head.toNat % 2 ^ sring.ring.lsize.toNat ≠ (1 : BitVec 16).toNat % 2 ^ sring.ring.lsize.toNat ∧
    (∀ c ∈ sring.commands, c.queue ≠ 0) ∧ sring.shadows = [] ∧ sring.poisoned (hostKey 0x1000) = false ∧
    { sring with poison := [hostKey 0x1000 / 128] }.poisoned (hostKey 0x1000) = true ∧ sm.ring.en = false :=
  ⟨rfl, rfl, by decide, by decide, rfl, by decide, by decide, rfl⟩
/-- R340: the ring's entry becomes the command. -/
theorem test_commandRingTail : sv (exec (.commandRingTail 1) sring) (fun t => (t.ring.tail.toNat, t.commands.map (·.queue))) = some (1, [0]) := by decide
theorem test_commandRingEnable : sv (exec (.commandRingEnable true) { sring with ring := { sring.ring with en := false } }) (fun t => (t.ring.en, t.commands.length)) =
    some (true, 1) := by decide
theorem test_registerWrite : sv (exec (.registerWrite .ringBase 0x12345) sm) (fun t => t.ring.base.toNat) = some 0x12000 := by decide
theorem wit_DeviceEvents : let s := { sm with hostMod := [lineOf (hostKey (4 * 128))], modified := [{ agent := .hostCache, line := 9, home := [] }], peers := 2 }
    s.linkUp = true ∧ s.dev = .running ∧ s.shadows = [] ∧ s.hostMod.contains (lineOf (hostKey (4 * 128))) = true ∧ (∃ m ∈ s.modified, m.agent = .hostCache) ∧
    s.modified.filter (fun m => m.agent == .hostCache) = [{ agent := .hostCache, line := 9, home := [] }] ∧ 1 < 64 ∧ s.peers.getLsbD 1 = true ∧
    s.isFatal s.failing = true ∧ s.isFatal (.restore 0) = false ∧ Quiet sm :=
  ⟨rfl, rfl, rfl, by decide, ⟨_, List.Mem.head _, rfl⟩, by decide, by decide, by decide, by decide, by decide, quietm⟩
def oreq (wr : Option (List Byte)) : OutsideReq := { asid := 1, va := 0x100000, n := 2, wr := wr, from_ := .hostCache, episode := none }
/-- A dirty self-invalidating host line in an L1, and a pending store to it, when the link is lost (R342). -/
def hline : L1Line := { core := 0, line := lineOf (hostKey 0), asid := 1, va := 0x700000, selfinv := true, holder := none, tagged := false, replica := false,
                        bytes := List.replicate 128 1, dirty := [0] }
theorem test_linkLoss_l1 : sv (exec .hostLinkLoss { sm with l1 := [hline], pend := [{ owed with bytes := [(hostKey 4, 7)] }] })
    (fun t => (t.l1.length, t.pend.flatMap (·.bytes))) = some (0, []) := by decide +kernel
theorem wit_DeviceEvents_request : (oreq none).episode = none ∧ sm.parkedReqs = [] ∧ Quiet sm ∧ 0 < reqSize (oreq none) ∧
    (oreq none).va.toNat % 128 + reqSize (oreq none) ≤ 128 ∧ sm.translate 1 true true needLoad 0x100000 = .ok dpage 0x200000 ∧
    sm.translate 1 true true needStore 0x100000 = .ok dpage 0x200000 := ⟨rfl, rfl, quietm, by decide, by decide, by decide, by decide⟩
theorem test_hostSnoop : sv (exec (.hostSnoop 4) { sm with hostMod := [lineOf (hostKey (4 * 128)), 5] }) (fun t => t.hostMod) = some [5] := by decide
theorem test_hostLinkLoss : sv (exec .hostLinkLoss { sm with modified := [{ agent := .hostCache, line := 9, home := [] }] }) (fun t => (t.linkUp, t.poison)) =
    some (false, [9]) := by decide
theorem test_agentDeath : sv (exec (.agentDeath (.core 3)) { sm with modified := [{ agent := .core 3, line := 9, home := [] }] }) (fun t => t.poison) = some [9] := by decide
theorem test_reset : sv (exec .reset sm) (fun t => (t.waves.length, t.pages.length)) = some (0, 0) := by decide
theorem test_powerGating : sv (exec .powerGating sm) (fun t => decide (t.dev = .gated)) = some true := by decide
theorem test_fatalError : sv (exec .fatalError sm) (fun t => decide (t.dev = .fatal)) = some true := by decide
theorem test_peerLeave : sv (exec (.peerLeave 1) { sm with peers := 6 }) (fun t => t.peers.toNat) = some 4 := by decide
theorem test_spdmRequest : sv (exec (.spdmRequest 7) sm) (fun t => t.outputs.length) = some 1 := by decide
theorem test_hostOrPeerRequest : sv (exec (.hostOrPeerRequest (oreq (some [1, 2]))) sm) (fun t => bytesAt t 0x200000 2) = some [1, 2] := by decide +kernel

def cmd (op va target size attr status arg tag : Nat) : List DWord :=
  [BitVec.ofNat 64 (op + 2 ^ 32), BitVec.ofNat 64 va, BitVec.ofNat 64 target, BitVec.ofNat 64 size, BitVec.ofNat 64 attr, BitVec.ofNat 64 status,
    BitVec.ofNat 64 arg, BitVec.ofNat 64 tag]
/-- A command at the head of queue q, in a device with the data page of space 1. -/
def sc (q : Nat) (ws : List DWord) : State := { sm with
  commands := [{ queue := q, words := ws, asid := 1, weight := none, scan := none, done := none }] }
def ends (o : Out) : Option (List Nat) := sv o fun t => t.commands.flatMap fun c => match c.done with | some (a, b) => [a.toNat, b.toNat] | none => []
def map1 : List DWord := cmd 1 0x200000 0x300000 0x20000 0x3 0 0 0
theorem wit_MappingPort_map : (2 : Nat) ≠ 1 ∧ (sc 2 map1).pendingCmd 2 1 = some (readCommand map1) ∧ (sc 2 map1).checkMapping (readCommand map1) = none ∧
    (sc 2 map1).scanWanted 2 = none ∧ (sc 2 map1).scanResult 2 (mapPieces (readCommand map1)) = none ∧
    attrX (readCommand map1).attr = false := ⟨by decide, by decide, by decide, by decide, by decide, by decide⟩
theorem wit_MappingPort_bad : let ws := cmd 1 0x200001 0x300000 0x20000 0x3 0 0 0
    (sc 2 ws).pendingCmd 2 1 = some (readCommand ws) ∧ (sc 2 ws).checkMapping (readCommand ws) = some 1 := ⟨by decide, by decide⟩
theorem wit_MappingPort_scan : let ws := cmd 1 0x200000 0x300000 0x10000 0x4 0 0 0
    (sc 2 ws).scanWanted 2 = some [(0, 0x300000, 65536)] ∧ attrX (readCommand ws).attr = true ∧
      (sc 2 ws).still (pieceBlocks (mapPieces (readCommand ws))) = true := ⟨by decide, by decide, by decide⟩
/-- R263, R276: two new owned pages. -/
theorem test_map : sv (exec (.map 2) (sc 2 map1)) (fun t => (t.pages.drop 2).map fun p => (p.va, p.tgt.toNat)) =
    some [(0x200000, 0x300000), (0x210000, 0x310000)] := by decide
theorem test_map_overlap : ends (exec (.map 2) (sc 2 (cmd 1 0x100000 0x300000 0x20000 0x3 0 0 0))) = some [2, 0] := by decide
def unmap1 : List DWord := cmd 2 0x100000 0 0x10000 0 0 0 0
theorem wit_MappingPort_unmap : (sc 2 unmap1).pendingCmd 2 2 = some (readCommand unmap1) ∧ (sc 2 unmap1).checkMapping (readCommand unmap1) = none ∧
    (sc 2 unmap1).scanWanted 2 = none ∧ (sc 2 unmap1).quiet (readCommand unmap1) = true ∧
    (∀ b ∈ (sc 2 unmap1).blocksIn (readCommand unmap1), ((sc 2 unmap1).frozen.get b).toNat = 0) ∧
    (∃ b ∈ (sc 2 unmap1).blocksIn (readCommand unmap1), 0 < ({ sc 2 unmap1 with frozen := [(32, 1)] }.frozen.get b).toNat) :=
  ⟨by decide, by decide, by decide, by decide, by decide, by decide⟩
theorem test_unmap : sv (exec (.unmap 2) (sc 2 unmap1)) (fun t => t.pages.map (·.va)) = some [0x10000] := by decide
theorem test_unmap_fixed : ends (exec (.unmap 2) { sc 2 unmap1 with frozen := [(32, 1)] }) = some [4, 0] := by decide
def protect1 : List DWord := cmd 3 0x100000 0 0x10000 0x1 0 0 0
theorem wit_MappingPort_protect : (sc 2 protect1).pendingCmd 2 3 = some (readCommand protect1) ∧ (sc 2 protect1).checkMapping (readCommand protect1) = none ∧
    (sc 2 protect1).scanWanted 2 = none ∧ (sc 2 protect1).quiet (readCommand protect1) = true ∧ (sc 2 protect1).protectAgrees (readCommand protect1) = true ∧
    (sc 2 (cmd 3 0x100000 0 0x10000 0x9 0 0 0)).protectAgrees (readCommand (cmd 3 0x100000 0 0x10000 0x9 0 0 0)) = false ∧
    (sc 2 protect1).scanResult 2 ((sc 2 protect1).rangePieces (readCommand protect1)) = none := ⟨by decide, by decide, by decide, by decide, by decide, by decide, by decide⟩
theorem test_protect : sv (exec (.protect 2) (sc 2 protect1)) (fun t => (t.pages.drop 1).map fun p => (p.rd, p.wr)) = some [(true, false)] := by decide
def big : Page := { dpage with sz := 1, va := 0x200000, tgt := 0x400000 }
def ssplit : State := { sc 2 (cmd 4 0x200000 0 0x200000 0 0 0 0) with pages := [big] }
theorem wit_MappingPort_split : ssplit.pendingCmd 2 4 = some (readCommand (cmd 4 0x200000 0 0x200000 0 0 0 0)) ∧
    ssplit.checkMapping (readCommand (cmd 4 0x200000 0 0x200000 0 0 0 0)) = none ∧ ssplit.scanWanted 2 = none ∧
    big.inRange (readCommand (cmd 4 0x200000 0 0x200000 0 0 0 0)) = true ∧ big.sz = 1 := ⟨by decide, by decide, by decide, by decide, rfl⟩
theorem test_split : sv (exec (.split 2) ssplit) (fun t => (t.pages.length, (t.pages.take 2).map (·.va))) = some (32, [0x200000, 0x210000]) := by decide
def unfix1 : List DWord := cmd 5 0x100000 0 0 0 0 0 0
def sunfix : State := { sc 2 unfix1 with frozen := [(32, 1)], regions := [{ id := 4, gen := 1, st := 1, asid := 1, blocks := [32], withdrawn := [], thaw := [] }], pages := [demoPage 1, { dpage with st := .fixed }] }
theorem wit_MappingPort_unfix : sunfix.pendingCmd 2 5 = some (readCommand unfix1) ∧ sunfix.checkMapping (readCommand unfix1) = none ∧ sunfix.scanWanted 2 = none ∧
    sunfix.findPage 1 0x100000 = some { dpage with st := .fixed } ∧ 0 < (sunfix.frozen.get (blockOf (dpage.key 0x100000))).toNat ∧ dpage.sz = 0 ∧
    (∀ r ∈ sunfix.regions, r.withdrawn.length < 256) := ⟨by decide, by decide, by decide, by decide, by decide, rfl, by decide⟩
theorem test_unfix : sv (exec (.unfix 2) sunfix) (fun t => (t.frozen.length, t.regions.map (·.withdrawn), t.pages.map fun p => decide (p.st = .thawing))) =
    some (0, [[32]], [false, true]) := by decide
/-- A fibre parked on record 1:0; its handle is die 0, sequence 1, index 0. -/
def rec1 : FaultRec :=
  { die := 0, index := 0, seq := 1, kind := .notMapped, cls := .load, asid := 1, va := 0x400008, page := 0x400000, sz := 0, merged := 0,
    count := 1, time := 0, region := 0, posted := false }
def sres (attr : Nat) : State :=
  let ws := cmd 6 0 rec1.handle.toNat 0 attr 0 0 0
  { st (wav [parkedOn (.record rec1.handle 0x400008)]) with
    records := [rec1]
    commands := [{ queue := 2, words := ws, asid := 1, weight := none, scan := none, done := none }] }
theorem wit_MappingPort_resolve : let c := readCommand (cmd 6 0 rec1.handle.toNat 0 1 0 0 0)
    (sres 1).pendingCmd 2 6 = some c ∧ (sres 1).checkMapping c = none ∧ (sres 1).scanWanted 2 = none ∧
    (sres 1).records.find? (fun r => decide (r.handle.toNat = c.target)) = some rec1 ∧
    (∀ w ∈ (sres 1).waves, ∀ f ∈ w.fibres, f.completes w.zen rec1.handle = false ∧ f.live = true ∧ f.onRecord rec1.handle = some 0x400008) :=
  ⟨by decide, by decide, by decide, by decide, by decide⟩
/-- R271: a replay frees the fibre; a fault owes it trap 0x04 with its address. -/
theorem test_resolve_replay : sv (exec (.resolve 2) (sres 0)) (fun t => t.records.length :: t.waves.flatMap fun w => w.fibres.map fun f => f.due.length) = some [0, 0] := by decide
theorem test_resolve_fault : sv (exec (.resolve 2) (sres 1)) (fun t => t.waves.flatMap fun w => w.fibres.flatMap fun f => f.due.map fun d => (d.1.toNat, d.2.toNat)) =
    some [(4, 0x400008)] := by decide +kernel
def asidnew1 : List DWord := (BitVec.ofNat 64 (7 + 2 * 2 ^ 32)) :: (cmd 7 0x800000 0 0 0 0 4096 0).drop 1
theorem wit_MappingPort_asidnew : (sc 2 asidnew1).pendingCmd 2 7 = some (readCommand asidnew1) ∧ (sc 2 asidnew1).checkMapping (readCommand asidnew1) = none ∧
    (sc 2 asidnew1).scanWanted 2 = none := ⟨by decide, by decide, by decide⟩
theorem test_asidnew : sv (exec (.asidnew 2) (sc 2 asidnew1)) (fun t => (t.spaces.map (·.asid), t.pages.length)) = some ([1, 2], 6) := by decide
def sfree : State := { sc 2 (cmd 8 0 0 0 0 0 0 0) with grids := [{ grd with final := true }] }
theorem wit_MappingPort_asidfree : sfree.pendingCmd 2 8 = some (readCommand (cmd 8 0 0 0 0 0 0 0)) ∧ sfree.checkMapping (readCommand (cmd 8 0 0 0 0 0 0 0)) = none ∧
    sfree.scanWanted 2 = none ∧ sfree.spaceBusy 1 = false ∧ (∃ g ∈ (sc 2 (cmd 8 0 0 0 0 0 0 0)).grids, g.asid = 1 ∧ g.final = false) :=
  ⟨by decide, by decide, by decide, by decide, _, List.Mem.head _, rfl, rfl⟩
theorem test_asidfree : sv (exec (.asidfree 2) sfree) (fun t => (t.spaces.length, t.pages.length)) = some (0, 0) := by decide
theorem test_asidfree_busy : ends (exec (.asidfree 2) (sc 2 (cmd 8 0 0 0 0 0 0 0))) = some [6, 0] := by decide
def sdone : State := { sm with commands := [{ queue := 2, words := cmd 2 0 0 0 0 0x100010 0 77, asid := 1, weight := none, scan := none, done := some (3, 0x11) }] }
theorem wit_MappingPort_completion : (∃ h, sdone.headCommand 2 = some h ∧ h.done = some (3, 0x11) ∧ h.weight = none) ∧ Quiet sdone ∧
    (∀ i < 16, sdone.findPage 1 (0x100010 + i) = some dpage ∧ sdone.frozenAt (dpage.key (0x100010 + i)) = 0 ∧
      sdone.thawingAt (dpage.key (0x100010 + i)) = false ∧ sdone.codeAt (dpage.key (0x100010 + i)) = false) :=
  ⟨⟨_, rfl, rfl, rfl⟩, ⟨rfl, rfl, (fun _ h => nomatch h), stageless, rfl, by decide⟩, by decide⟩
/-- R264: status, tag, detail. -/
theorem test_mappingCompletion : sv (exec (.mappingCompletion 2) sdone) (fun t => bytesAt t 0x200010 16) =
    some [3, 0, 0, 0, 77, 0, 0, 0, 0x11, 0, 0, 0, 0, 0, 0, 0] := by decide
def mb0 : Mailbox := { num := 3, asid := 1, addr := 0x100000, slots := 4, gridMode := false, record := 0, prio := 0, priv := false,
                       status := 0, pending := [], launched := [], drops := 0 }
def spost : State := { sm with records := [rec1], mailboxes := [mb0], spaces := [{ asid := 1, mbx := some 3, table := 0 }] }
theorem wit_MappingPort_post : spost.canPost 0 = true ∧ spost.records[0]? = some rec1 := ⟨by decide, rfl⟩
/-- R269: the record's message waits in the mailbox of its space. -/
theorem test_faultRecordPost : sv (exec (.faultRecordPost 0) spost) (fun t => (t.records.map (·.posted), t.mailboxes.map (·.pending.length))) = some ([true], [1]) := by decide
theorem test_codePageScan : sv (exec (.codePageScan 2) (sc 2 map1)) (fun t => t.commands.map (·.scan.isSome)) = some [false] := by decide

/-! ### Fixed stars, launches, grids, partitions, power, episodes -/

def fzreq : FreezeReq := { num := 7, wave := 0, d := 6, base := 0x100000, size := 65536, asid := 1, record := none }
def sfzr : State := { st (wav [parkedOn (.freeze 7)]) with pages := [demoPage 1, dpage], freezes := [fzreq] }
theorem wit_FixedStarEvents_freeze : sfzr.dev = .running ∧ sfzr.freezes[0]? = some fzreq ∧ fzreq.record = none ∧ sfzr.gridOf (wav [parkedOn (.freeze 7)]) = some grd ∧
    (∀ n < 1, sfzr.translate 1 grd.priv true needLoad (BitVec.ofNat 64 (0x100000 + 65536 * n)) = .ok dpage 0x200000) ∧ sfzr.rangeBlocks 1 0x100000 65536 = some [32] ∧
    (∀ x ∈ [32], (sfzr.frozen.get x).toNat < 255) ∧ (∀ p ∈ sfzr.pages, p.st ≠ .thawing) ∧ sfzr.atomicIn [32] = false ∧ (sfzr.regionWord 0).toNat % 4 = 0 :=
  ⟨rfl, rfl, rfl, rfl, by decide, by decide, by decide, by decide, by decide, by decide⟩
/-- R273, R276: the block counts one freeze, the page is fixed, the fibre has gone on. -/
theorem test_freezeComplete : sv (exec (.freezeComplete 0) sfzr) (fun t => (t.frozen.get 32).toNat :: (t.regionWord 0).toNat :: (t.pages.map fun p => if p.st = .fixed then 1 else 0) ++
    t.waves.flatMap fun w => w.fibres.map fun f => f.pc.toNat) = some [1, 0x10001, 0, 1, 2] := by decide
def srep (st : PageSt) (reps : List Nat) : State := { sm with pages := [{ dpage with st := st, reps := reps }], frozen := [(32, 1)], peers := 4 }
theorem wit_FixedStarEvents_replica : (srep .fixed []).pages[0]? = some { dpage with st := .fixed, reps := [] } ∧ (srep .fixed []).peers.getLsbD 2 = true ∧
    (∃ b ∈ dpage.blocks, 0 < ((srep .fixed []).frozen.get b).toNat) ∧ 0 = (srep .fixed []).devNum.toNat % 64 := ⟨rfl, by decide, by decide, by decide⟩
theorem test_replicaMake : sv (exec (.replicaMake 0 2) (srep .fixed [])) (fun t => t.pages.map fun p => (p.reps, decide (p.st = .readDup))) = some [([2], true)] := by decide
theorem test_replicaDrop : sv (exec (.replicaDrop 0 2) (srep .readDup [2])) (fun t => t.pages.map fun p => (p.reps, decide (p.st = .fixed))) = some [([], true)] := by decide
theorem test_replicaCollect : sv (exec (.replicaCollect 0 2) (srep .thawing [2])) (fun t => t.pages.map fun p => (p.reps, decide (p.st = .thawing))) = some [([], true)] := by decide
theorem test_thawComplete : sv (exec (.thawComplete 0) { srep .thawing [] with frozen := [] }) (fun t => t.pages.map fun p => decide (p.st = .owned)) = some [true] := by decide
/-- An L1 line of this device is a replica of the page (R275): dropping the device's own replica takes it. -/
def repLine : L1Line := { hline with line := 0x200000 / 128, va := 0x100000, selfinv := false, replica := true, dirty := [] }
theorem wit_FixedStarEvents_own : let s := { srep .fixed [] with l1 := [repLine] }
    s.devNum.toNat % 64 = 0 ∧ (∃ x ∈ s.l1, (x.replica && decide (dpage.tgt.toNat ≤ x.line * 128 ∧ x.line * 128 < dpage.tgt.toNat + dpage.size)) = true) ∧
    (∀ x ∈ ([] : List L1Line), x.replica = true → x.line * 128 < dpage.tgt.toNat) := ⟨by decide, ⟨_, List.Mem.head _, by decide⟩, fun _ h => nomatch h⟩
theorem test_replicaDrop_own : sv (exec (.replicaDrop 0 0) { srep .fixed [] with l1 := [repLine] }) (fun t => t.l1.length) = some 0 := by decide
theorem wit_FixedStarEvents_thaw : (srep .thawing []).pages[0]? = some { dpage with st := .thawing, reps := [] } := rfl

def msg : Flight := { target := .mailbox 3, words := List.replicate 8 0, weight := none, team := none, sender := none }
def smsg (m : Mailbox) : State := { sm with flights := [msg], mailboxes := [m] }
theorem wit_LaunchEvents_message : (smsg mb0).flights[0]? = some msg ∧ msg.target = .mailbox 3 ∧ (smsg mb0).mailboxOf 3 = some mb0 ∧ mb0.pending.length + mb0.launched.length < mb0.slots ∧
    { mb0 with slots := 0 }.slots ≤ mb0.pending.length + mb0.launched.length ∧ sm.mailboxOf 3 = none := ⟨rfl, rfl, by decide, by decide, by decide, by decide⟩
/-- Two messages of the deterministic team 4: the second stands behind the first (R290). -/
theorem wit_LaunchEvents_behind : let f := { msg with team := some 4 }
    f.team ≠ none ∧ (∃ j < 1, ∃ x, ([f, f] : List Flight)[j]? = some x ∧ x.team = f.team) ∧ ¬ (∃ j < 0, ∃ x, ([f, f] : List Flight)[j]? = some x ∧ x.team = f.team) ∧ msg.team = none :=
  ⟨by decide, ⟨0, by decide, _, rfl, rfl⟩, fun ⟨_, h, _⟩ => absurd h (Nat.not_lt_zero _), rfl⟩
theorem test_mailboxMessage : sv (exec (.mailboxMessage (.inFlight 1)) { smsg mb0 with flights := [{ msg with team := some 4 }, { msg with team := some 4 }] })
    (fun t => (t.flights.length, t.mailboxes.map (·.pending.length))) = some (2, [0]) ∧
    sv (exec (.mailboxMessage (.inFlight 0)) (smsg mb0)) (fun t => (t.flights.length, t.mailboxes.map (·.pending.length))) = some (0, [1]) ∧
    sv (exec (.mailboxMessage (.inFlight 1)) { smsg mb0 with flights := [{ msg with sender := some (0, 5) }, { msg with sender := some (0, 6) }] }) (fun t => t.flights.length) = some 2 := by decide
theorem test_mailboxMessage_full : sv (exec (.mailboxMessage (.inFlight 0)) (smsg { mb0 with slots := 0 })) (fun t => t.mailboxes.map fun m => (m.pending.length, m.drops.toNat)) =
    some [(0, 1)] := by decide
/-- A grid-mode mailbox whose message names a record that is not mapped. -/
def slaunch : State := { sm with mailboxes := [{ mb0 with gridMode := true, pending := [{ words := [0x700000, 1, 0, 0, 0, 0, 0, 0], weight := none, seq := 0 }] }] }
theorem wit_LaunchEvents_launch : ∃ m x, slaunch.mailboxOf 3 = some m ∧ m.pending = [x] ∧ x.weight = none ∧ m.gridMode = true ∧
    slaunch.readVa m.asid (BitVec.ofNat 64 (fieldAt (dwordBytes x.words) 0 8)) 64 = none := ⟨_, _, rfl, rfl, rfl, rfl, by decide⟩
/-- R333, R334: refused with code 1. -/
theorem test_launch : sv (exec (.launch 3) slaunch) (fun t => (t.grids.drop 1).map fun g => (g.refusal, g.gx, decide (g.stat = .refused))) = some [(1, 1, true)] := by decide
/-- A running grid with one team to place on an empty device. -/
def gplace : Grid := { grd with next := 0, rootHome := false, root := 50, zenEntry := none }
def splace : State := { sm with waves := [], teams := [], grids := [gplace] }
theorem wit_LaunchEvents_placement : splace.head = some (.next 0) ∧ splace.grids[0]? = some gplace ∧ splace.waveFirst gplace.prio = none ∧ splace.bestCore gplace none = some 0 :=
  ⟨by decide +kernel, rfl, by decide, by decide +kernel⟩
/-- A pre-empted team that waits to be placed again. -/
def sagain : State := { sm with waves := [{ w1 with stat := .saved }], teams := [{ team with placed := false }], grids := [{ gplace with next := 1 }], requeue := [0] }
theorem wit_LaunchEvents_again : sagain.head = some (.again 0) ∧ sagain.teams[0]? = some { team with placed := false } ∧ sagain.waveFirst gplace.prio = none ∧
    sagain.bestCore { gplace with next := 1 } (some 0) = some 0 ∧ sagain.waves[0]? = some { w1 with stat := .saved } ∧ w1.zen = false :=
  ⟨by decide +kernel, rfl, by decide, by decide +kernel, rfl, rfl⟩
/-- Two ports, a peer, and the fault mailbox of a space. -/
theorem wit_LaunchEvents_targets : let f := fun (t : Target) => ({ msg with target := t } : Flight)
    let s := { sm with flights := [f (.mapping 0), f (.orrery 0), f (.peer 1 0x40)] }
    let full := { mb0 with slots := 0 }
    s.flights[0]? = some (f (.mapping 0)) ∧ s.flights[1]? = some (f (.orrery 0)) ∧ s.flights[2]? = some (f (.peer 1 0x40)) ∧ msg.weight = none ∧
    full.slots ≤ full.pending.length + full.launched.length ∧ (∃ x ∈ ({ sm with spaces := [{ asid := 1, mbx := some 3, table := 0 }] }).spaces, x.mbx = some 3) ∧
    (∀ x ∈ sm.spaces, x.mbx ≠ some 3) := ⟨rfl, rfl, rfl, rfl, by decide, ⟨_, List.Mem.head _, rfl⟩, by decide⟩
theorem wit_LaunchEvents_outside : let s := { sm with mailboxes := [mb0] }
    s.mailboxOf 3 = some mb0 ∧ (3 : Nat) < 4096 ∧ (60 : Nat) < 64 ∧ ([1, 2, 3, 4] : List Byte) ≠ [] ∧ s.linkUp = true ∧ 60 + 4 ≤ 64 ∧ 64 < 60 + 8 ∧
    mb0.pending.length + mb0.launched.length < mb0.slots := ⟨rfl, by decide, by decide, by decide, rfl, by decide, by decide, by decide⟩
theorem test_teamPlacement : sv (exec .teamPlacement splace) (fun t => (t.teams.map (·.core), t.waves.map (·.fibres.length))) = some ([0], [2]) := by decide +kernel
theorem test_scratchpadAllotmentCleared : sv (exec (.scratchpadAllotmentCleared 0) { sm with teams := [{ team with cleared := false }] }) (fun t => t.teams.map (·.cleared)) = some [true] := by decide

def gdet : Grid := { grd with det := true, next := 1 }
def sdet (tm : Team) : State := { sm with teams := [tm], grids := [gdet] }
def tstage : Team := { team with stage := [.store 0x200000 [5, 6]] }
theorem wit_GridEvents_stage : (sdet tstage).teams[0]? = some tstage ∧ (sdet tstage).grids[tstage.grid]? = some gdet ∧ gdet.det = true ∧ gdet.turn = tstage.idx ∧ tstage.passed = false ∧
    tstage.drain = none ∧ tstage.stage = [.store 0x200000 [5, 6]] ∧ (sdet tstage).frozenAt 0x200000 = 0 ∧ (sdet tstage).shadows = [] ∧ (sdet tstage).linkUp = true :=
  ⟨rfl, rfl, rfl, rfl, rfl, rfl, rfl, by decide, rfl, rfl⟩
/-- The stage's store meets a block without freezes of a Thawing page: it waits (R276). -/
theorem wit_GridEvents_thawing : let s := { sdet tstage with pages := [demoPage 1, { dpage with st := .thawing }] }
    s.frozenAt 0x200000 = 0 ∧ s.thawingAt 0x200000 = true ∧ (sdet tstage).thawingAt 0x200000 = false := by decide
/-- R289: the holder's store is at its home, or waits. -/
theorem test_stageRelease : sv (exec (.stageRelease 0) (sdet tstage)) (fun t => bytesAt t 0x200000 2) = some [5, 6] ∧ sv (exec (.stageRelease 0) { sdet tstage with pages := [demoPage 1, { dpage with st := .thawing }] })
    (fun t => (t.mem.length, t.teams.map (·.stage.length))) = some (1, [1]) := by decide
theorem wit_GridEvents_turn : let tm := { team with ended := true }
    tm.stage = [] ∧ tm.ended = true ∧ (sdet tm).teamAt tm.grid gdet.turn = some 0 ∧ (sdet tm).grids[tm.grid]? = some gdet ∧ (sdet tm).homing = [] ∧ (sdet tm).flights = [] := ⟨rfl, rfl, by decide, rfl, rfl, rfl⟩
theorem test_stageRelease_turn : sv (exec (.stageRelease 0) (sdet { team with ended := true })) (fun t => t.grids.map (·.turn)) = some [1] := by decide
def swdog : State := { smon 4 none true with grids := [gdet], time := 1000000 }
theorem wit_GridEvents_watchdog : swdog.teams[0]? = some team ∧ team.ended = false ∧ team.lastRetire + 1000000 ≤ swdog.time.toNat ∧
    (∃ wid ∈ team.waves, ∃ (w : Wave) (f : Fibre) (x : Monitor), swdog.waves[wid]? = some w ∧ f ∈ w.fibres ∧ f.live = true ∧ f.park.map (·.why) = some (.monitor x)) :=
  ⟨rfl, rfl, by decide, 0, List.Mem.head _, _, _, _, rfl, List.Mem.head _, rfl, rfl⟩
/-- R294: trap 0x0F is owed with the monitored address. -/
theorem test_deterministicWatchdog : sv (exec (.deterministicWatchdog 0) swdog) (fun t => t.waves.flatMap fun w => w.fibres.flatMap fun f => f.due.map fun d => (d.1.toNat, d.2.toNat)) =
    some [(0x0F, 0x100000)] := by decide
def gover : Grid := { grd with next := 1, rootHome := true, cstat := 0x100000, isRoot := false }
def sover : State := { sm with waves := [], teams := [{ team with ended := true }], grids := [gover] }
theorem quietover : Quiet sover := ⟨rfl, rfl, (fun _ h => nomatch h), (fun t h => by cases h with | head => rfl | tail _ h => cases h), rfl, onBounds⟩
theorem wit_GridEvents_over : sover.grids[0]? = some gover ∧ gover.stat = .running ∧ gover.total ≤ gover.next ∧ gover.rootHome = true ∧
    (∀ t ∈ sover.teams, t.ended = true ∧ (gover.det = true → t.passed = true)) ∧ gover.isRoot = false ∧ gover.cstat ≠ 0 ∧ gover.cstat.toNat < 2 ^ 57 ∧
    (∀ i < 128, sover.findPage gover.asid (gover.cstat.toNat + i) = some dpage ∧ sover.frozenAt (dpage.key (gover.cstat.toNat + i)) = 0 ∧
      sover.thawingAt (dpage.key (gover.cstat.toNat + i)) = false ∧ sover.codeAt (dpage.key (gover.cstat.toNat + i)) = false) ∧ Quiet sover :=
  ⟨rfl, rfl, by decide, rfl, by decide, rfl, by decide, by decide, by decide, quietover⟩
/-- R337: state 1, done, in the first word of the status. -/
theorem test_gridCompletion : sv (exec (.gridCompletion 0) sover) (fun t => bytesAt t 0x200000 4) = some [1, 0, 0, 0] := by decide +kernel
def sphase : State := { sm with phases := [{ phase with returned := 100 }], grids := [{ grd with stat := .done, cmbx := 5 }] }
theorem wit_GridEvents_phase : sphase.phases[0]? = some { phase with returned := 100 } ∧ (∃ g, sphase.grids[0]? = some g ∧ g.cstat = 0) ∧
    (∀ x ∈ sphase.grids, x.phase = 0 → x.stat ≠ .running ∧ x.stat ≠ .pending ∧ (x.isRoot = true ∨ x.final = true)) :=
  ⟨rfl, ⟨_, rfl, rfl⟩, by decide⟩
/-- R301, R338: the phase has ended, and its message is on its way to mailbox 5. -/
theorem test_phaseEnd : sv (exec (.phaseEnd 0) sphase) (fun t => (t.phases.map (·.ended), t.flights.map fun f => decide (f.target = .mailbox 5))) = some ([true], [true]) := by decide

def part (h : HaltSt) : Part := { Part.clear with halt := h, whole := h != .none }
def spart (w : Wave) (h : HaltSt) : State := { st w with parts := [part h], quads := [Quad.clear] }
theorem wit_PartitionEvents_halt : (spart w1 .requested).parts[0]? = some (part .requested) ∧ (spart w1 .requested).quads[0 / 4]? = some Quad.clear ∧ Quad.clear.owner = none ∧
    (part .requested).halt = .requested ∧ (part .requested).whole = true ∧
    (∀ w ∈ (spart w1 .requested).waves, w.nopre = none) ∧ (∃ w ∈ (spart { w1 with nopre := some { left := 5, until_ := 9 } } .requested).waves, w.zen = false ∧
      8 * w.core + w.part = 0 ∧ w.stat = .resident ∧ w.nopre ≠ none) ∧ (part .halted).whole = true ∧ { part .halted with whole := false }.whole = false ∧
    (∀ tm ∈ (spart w1 .halted).teams, tm.evict = false) := ⟨rfl, rfl, rfl, rfl, rfl, by decide, by decide, rfl, rfl, by decide⟩
theorem test_partitionHalt : sv (exec (.partitionHalt 0) (spart w1 .requested)) (fun t => (t.waves.map fun w => decide (w.stat = .halted), t.parts.map fun p => decide (p.halt = .halted))) =
    some ([true], [true]) := by decide
theorem wit_PartitionEvents_save : (spart { w1 with stat := .halted } .halted).canSave 0 = true := by decide
theorem test_contextSave : sv (exec (.contextSave 0) (spart { w1 with stat := .halted } .halted)) (fun t => (t.waves.map fun w => decide (w.stat = .saved), t.parts.map fun p => decide (p.halt = .saved))) =
    some ([true], [true]) := by decide
theorem wit_PartitionEvents_restore : (spart { w1 with stat := .saved } .saved).canRestore 0 = true ∧ 0 ∈ (spart { w1 with stat := .saved } .saved).savedIn 0 :=
  ⟨by decide, by decide⟩
theorem test_contextRestore : sv (exec (.contextRestore 0) (spart { w1 with stat := .saved } .saved)) (fun t => (t.waves.map fun w => decide (w.stat = .resident), t.parts.map fun p => decide (p.halt = .none))) =
    some ([true], [true]) := by decide
def wwin : Wave := { w1 with nopre := some { left := 0, until_ := 9 } }
theorem wit_PartitionEvents_overrun : (spart wwin .none).waves[0]? = some wwin ∧ wwin.stat = .resident ∧ wwin.nopre = some { left := 0, until_ := 9 } := ⟨rfl, rfl, rfl⟩
/-- R325: trap 0x0D is owed, bit 0: the instructions ran out. -/
theorem test_nopreOverrun : sv (exec (.nopreOverrun 0) (spart wwin .none)) (fun t => t.waves.flatMap fun w => w.fibres.flatMap fun f => f.due.map fun d => (d.1.toNat, d.2.toNat)) =
    some [(0x0D, 1)] := by decide
theorem wit_PartitionEvents_test : (part .none).inService = true ∧ (part .none).testing = false ∧ (part .none).bankTest = none ∧ { part .none with testing := true }.testing = true ∧
    { part .none with bankTest := some 1 }.bankTest ≠ none := ⟨rfl, rfl, rfl, rfl, by decide⟩
theorem test_inFieldTest : sv (exec (.inFieldTest 0) (spart w1 .none)) (fun t => t.parts.map fun p => (p.testing, p.led.toNat)) = some [(true, 128)] := by decide
theorem test_vesperBankTest : sv (exec (.vesperBankTest 0 1) (spart w1 .none)) (fun t => t.parts.map (·.bankTest)) = some [some 1] := by decide
theorem test_inFieldTestResult : sv (exec (.inFieldTestResult 0 false) { spart w1 .none with parts := [{ part .none with testing := true }] }) (fun t => t.parts.map fun p => (p.inService, p.testing)) =
    some [(false, false)] := by decide
/-- Three waves, one with a score of 40: the limit falls to two (R64). -/
theorem test_throttleHalving : sv (exec (.throttleHalving 0) { spart w1 .none with waves := [{ w1 with score := 40 }, w1, w1] }) (fun t => (t.parts.map (·.limit), t.waves.map (·.score))) =
    some ([2], [20, 0, 0]) := by decide
theorem wit_PartitionEvents_throttle : (spart w1 .none).dev = .running ∧ (spart w1 .none).parts[0]? = some (part .none) := ⟨rfl, rfl⟩

def clu (c : Cluster) : State := { sm with clusters := [c], time := 20000000 }
def ccool : Cluster := { Cluster.clear with hr := 2, coolSince := some 0 }
theorem wit_PowerEvents : (clu ccool).dev = .running ∧ (clu ccool).clusters[0]? = some ccool ∧ (∀ g ∈ (clu ccool).grids, g.det = false ∨ g.stat ≠ .running) ∧ 0 < ccool.hr ∧
    ccool.coolSince = some 0 ∧ 0 + 1000000 ≤ (clu ccool).time.toNat ∧ (clu ccool).nextCheck ≤ (clu ccool).time.toNat ∧ sm.time.toNat < sm.nextCheck ∧ (clu ccool).limit < 2700 ∧ ccool.floor < max ccool.floor (15 - ccool.pr - ccool.hr) :=
  ⟨rfl, rfl, by decide, by decide, rfl, by decide, by decide, by decide, by decide, by decide⟩
theorem wit_PowerEvents_change : let c := { Cluster.clear with change := some { target := 9, start := 0, switched := some 0, resynced := false }, hold := some 5, pr := 1 }
    (∃ h, c.change = some h ∧ h.switched = some 0 ∧ h.resynced = false) ∧ c.hold = some 5 ∧ 5 ≤ (clu c).time.toNat ∧ 0 < c.pr ∧
    2000 * 100 ≤ (clu c).limit * 95 ∧ { clu c with lowSince := some 0 }.lowSince = some 0 := ⟨⟨_, rfl, rfl, rfl⟩, rfl, by decide, by decide, by decide, rfl⟩
/-- A lowering, and a raise whose clock switches later than its start; a sample that is due with a wave resident, or none. -/
theorem wit_PowerEvents_switch : let h : Change := { target := 9, start := 20000000, switched := none, resynced := false }
    h.target < Cluster.clear.level ∧ ¬ (16 < Cluster.clear.level) ∧ h.start ≤ (clu Cluster.clear).time.toNat ∧ ({ h with start := 5 } : Change).start < (clu Cluster.clear).time.toNat ∧
    Cluster.clear.busy = false ∧ Cluster.clear.nextSample ≤ (clu Cluster.clear).time.toNat ∧ Cluster.clear.change = none ∧
    (∃ w ∈ (clu Cluster.clear).waves, w.zen = false ∧ w.core / 4 = 0 ∧ (w.stat = .resident ∨ w.stat = .halted)) ∧ ¬ (∃ w ∈ ([] : List Wave), w.zen = false) ∧
    (∃ g ∈ [{ grd with det := true }], g.det = true ∧ g.stat = .running) ∧ State.reset.isModule = sm.isModule :=
  ⟨by decide, by decide, by decide, by decide, rfl, by decide, rfl, ⟨_, List.Mem.head _, rfl, rfl, .inl rfl⟩, (fun ⟨_, h, _⟩ => nomatch h), ⟨_, List.Mem.head _, rfl, rfl⟩, rfl⟩
/-- R370: the clock of a raise does not switch at its start. -/
theorem test_clockSwitch_early : sv (exec (.clockSwitch 0) (clu { Cluster.clear with level := 3, change := some { target := 9, start := 20000000, switched := none, resynced := false } }))
    (fun t => t.clusters.map fun c => (c.change.bind (·.switched)).isSome) = some [false] := by decide
theorem test_powerLimitSet_module : sv (exec (.powerLimitSet 999) { sm with isModule := true, limit := 2600 }) (fun t => t.limit) = some 2600 := by decide
def clv (o : Out) : Option (List Nat) := sv o fun t => t.clusters.flatMap fun c => [c.level, c.target, c.pr, c.hr]
/-- R369, R372: 110 degrees C raise Hr; a stall ratio of 154/256 lowers the target by one more than the new cap allows. -/
theorem test_stallSample : clv (exec (.stallSample 0 { ratio := 154, temp := 880, mv := 900, osc := 3 }) (clu { Cluster.clear with span := 1000, stalls := (0, 32000) })) = some [15, 13, 0, 1] := by decide
theorem test_clockSwitch : sv (exec (.clockSwitch 0) (clu { Cluster.clear with change := some { target := 9, start := 0, switched := none, resynced := false } }))
    (fun t => t.clusters.map fun c => (c.change.bind (·.switched)).isSome) = some [true] := by decide
theorem test_crossingResync : sv (exec (.crossingResync 0) (clu { Cluster.clear with change := some { target := 9, start := 0, switched := some 0, resynced := false } }))
    (fun t => t.clusters.map fun c => (c.change.map (·.resynced))) = some [some true] := by decide
theorem test_levelChangeComplete : clv (exec (.levelChangeComplete 0) (clu { Cluster.clear with target := 9, change := some { target := 9, start := 0, switched := some 0, resynced := true } })) =
    some [9, 9, 0, 0] := by decide
theorem test_perfqHoldExpiry : sv (exec (.perfqHoldExpiry 0) (clu { Cluster.clear with hold := some 5 })) (fun t => t.clusters.map (·.hold.isSome)) = some [false] := by decide
theorem test_powerLimitCheck : clv (exec (.powerLimitCheck 2700) (clu Cluster.clear)) = some [15, 14, 1, 0] := by decide
theorem test_heatReductionFall : clv (exec (.heatReductionFall 0) (clu ccool)) = some [15, 15, 0, 1] := by decide
theorem test_powerLimitSet : sv (exec (.powerLimitSet 2000) sm) (fun t => t.limit) = some 2000 := by decide

def epc (op attr arg : Nat) : List DWord := (BitVec.ofNat 64 op) :: (cmd op 0 0 0 attr 0 arg 0).drop 1
def sep (ws : List DWord) (es : List Episode) (ps : List StepPair) : State := { sc 1 ws with episodes := es, pairs := ps }
def epnew1 : List DWord := cmd 1 0x200000 0x40 0x200000 0 0 0 0
/-- A mapped window of 2 MiB. -/
def swin : State := { sep epnew1 [] [] with pages := [{ dpage with va := 0x200000, sz := 1 }] }
theorem wit_Orrery_epnew : swin.pendingCmd 1 1 = some (readCommand epnew1) ∧ epnewOk (readCommand epnew1) = true ∧ (∃ x ∈ swin.spaces, x.asid = 1) ∧
    swin.episodeOf 0 = none ∧ swin.allMapped 1 0x200000 0x200000 = true ∧ epnewOk (readCommand (cmd 1 1 0x40 0x200000 0 0 0 0)) = false :=
  ⟨by decide, by decide, ⟨_, List.Mem.head _, rfl⟩, by decide, by decide, by decide⟩
theorem test_epnew : sv (exec .epnew swin) (fun t => t.episodes.map fun e => (e.num, e.entry.toNat)) = some [(0, 0x40)] := by decide
def estop : Episode := { ep with st := .stopped, onCore := false }
def eend : Episode := { ep with st := .ended, onCore := false, cause := 2, code := 7 }
theorem wit_Orrery_epgo : (sep (epc 2 0 1) [estop] []).pendingCmd 1 2 = some (readCommand (epc 2 0 1)) ∧ onlyEpisode (readCommand (epc 2 0 1)) = true ∧
    (sep (epc 2 0 1) [estop] []).episodeOf 1 = some estop ∧ estop.st = .stopped ∧ (sep (epc 2 0 1) [] []).episodeOf 1 = none ∧ ep.st ≠ .stopped :=
  ⟨by decide, by decide, by decide, rfl, by decide, by decide⟩
/-- R349: a0 is the episode, sp the window's end. -/
theorem test_epgo : sv (exec .epgo (sep (epc 2 0 1) [estop] [])) (fun t => t.episodes.map fun e => ((e.hart.get 10).toNat, (e.hart.get 2).toNat, decide (e.st = .running))) =
    some [(1, 0x0000400000000000, true)] := by decide
theorem wit_Orrery_epkill : (sep (epc 3 0 1) [ep] [pr]).pendingCmd 1 3 = some (readCommand (epc 3 0 1)) ∧ onlyEpisode (readCommand (epc 3 0 1)) = true ∧ ep.st ≠ .ended ∧
    (([pr] : List StepPair).map (·.num)).Nodup ∧ (∀ y ∈ [pr], ∀ a ∈ y.ring, a.length = 64) ∧ pr.ep = 1 := ⟨by decide, by decide, by decide, by decide, by decide, rfl⟩
theorem test_epkill : sv (exec .epkill (sep (epc 3 0 1) [ep] [pr])) (fun t => t.episodes.map fun e => (e.cause, decide (e.st = .ended))) = some [(1, true)] := by decide
theorem wit_Orrery_epfree : (sep (epc 4 0 1) [eend] []).pendingCmd 1 4 = some (readCommand (epc 4 0 1)) ∧ onlyEpisode (readCommand (epc 4 0 1)) = true ∧
    (sep (epc 4 0 1) [eend] []).episodeOf 1 = some eend ∧ eend.st = .ended := ⟨by decide, by decide, by decide, rfl⟩
theorem test_epfree : ends (exec .epfree (sep (epc 4 0 1) [eend] [])) = some [0, 0x200000007] := by decide
def bind1 : List DWord := cmd 5 0 0 0 0 0 (5 + 1 * 65536 + 3 * 2 ^ 32) 0
theorem wit_Orrery_pairbind : (sep bind1 [ep] []).pendingCmd 1 5 = some (readCommand bind1) ∧ noWindow (readCommand bind1) = true ∧ (readCommand bind1).attr = 0 ∧
    bits (readCommand bind1).arg 13 3 = 0 ∧ bits (readCommand bind1).arg 28 4 = 0 ∧ bits (readCommand bind1).arg 38 26 = 0 ∧ (sep bind1 [ep] []).pairOf 5 = none ∧
    (sep bind1 [ep] []).episodeOf 1 = some ep := ⟨by decide, by decide, by decide, by decide, by decide, by decide, by decide, by decide⟩
theorem test_pairbind : sv (exec .pairbind (sep bind1 [ep] [])) (fun t => t.pairs.map fun p => (p.num, p.ep, p.slot)) = some [(5, 1, 3)] := by decide
theorem test_pairbind_overlap : ends (exec .pairbind (sep bind1 [ep] [{ pr with num := 6, slot := 3 }])) = some [2, 0] := by decide
theorem wit_Orrery_pairfree : (sep (epc 6 0 5) [eend] [pr]).pendingCmd 1 6 = some (readCommand (epc 6 0 5)) ∧ noWindow (readCommand (epc 6 0 5)) = true ∧
    (readCommand (epc 6 0 5)).asid = 0 ∧ (sep (epc 6 0 5) [eend] [pr]).pairOf 5 = some pr ∧ (sep (epc 6 0 5) [eend] [pr]).episodeOf 1 = some eend :=
  ⟨by decide, by decide, by decide, by decide, by decide⟩
theorem test_pairfree : sv (exec .pairfree (sep (epc 6 0 5) [eend] [pr])) (fun t => t.pairs.length) = some 0 := by decide
theorem test_pairfree_busy : ends (exec .pairfree (sep (epc 6 0 5) [ep] [pr])) = some [6, 0] := by decide
theorem wit_Orrery_epbudget : (sep (epc 7 99 1) [ep] []).pendingCmd 1 7 = some (readCommand (epc 7 99 1)) ∧ noWindow (readCommand (epc 7 99 1)) = true ∧
    (readCommand (epc 7 99 1)).attr < 2 ^ 48 ∧ ((sep (epc 7 99 1) [ep] []).episodeOf 1).isSome = true := ⟨by decide, by decide, by decide, by decide⟩
theorem test_epbudget : sv (exec .epbudget (sep (epc 7 99 1) [ep] [])) (fun t => t.episodes.map fun e => (e.budget, e.active)) = some [(99, 0)] := by decide
def eps (e : Episode) (y : StepPair) : State := { sm with episodes := [e], pairs := [y] }
theorem wit_Orrery_calls : (eps ep pr).episodeOf 1 = some ep ∧ ep.st = .running ∧ ep.onCore = true ∧ ep.waiting = none ∧ ep.record = none ∧ (eps ep pr).pendingSlot 1 = none ∧
    (eps ep { pr with atail := 1 }).pendingSlot 1 = some 0 ∧ (eps ep pr).ready = [] ∧ ((eps ep pr).episodes.filter (·.onCore)).length ≤ 128 :=
  ⟨by decide, rfl, rfl, rfl, rfl, by decide, by decide, rfl, by decide⟩
/-- The episode with a function and an argument in a7 and a0. -/
def epa (a7 a0 : Nat) : Episode := { ep with hart := { ep.hart with x := (ep.hart.x.set 17 (BitVec.ofNat 64 a7)).set 10 (BitVec.ofNat 64 a0) } }
def epv (o : Out) : Option (List Nat) := sv o fun t => t.episodes.flatMap fun e => [if e.st = .ended then 1 else 0, e.cause, (e.hart.get 10).toNat, if e.onCore then 1 else 0]
theorem test_ecallWait : epv (exec (.ecallWait 1 9) (eps (epa 0 9) { pr with atail := 1 })) = some [0, 0, 0, 1] := by decide
theorem test_ecallWait_waits : epv (exec (.ecallWait 1 0) (eps ep pr)) = some [0, 0, 0, 0] := by decide
theorem test_ecallExit : sv (exec (.ecallExit 1 7) (eps (epa 1 7) pr)) (fun t => t.episodes.map fun e => (e.cause, e.code.toNat, decide (e.st = .ended))) = some [(0, 7, true)] := by decide
theorem wit_Orrery_functions : [epa 0 9, epa 1 7, epa 2 0, epa 3 0].map (fun e => ((e.hart.x.getD 17 0).toNat, (e.hart.x.getD 10 0).toNat)) = [(0, 9), (1, 7), (2, 0), (3, 0)] := by decide
/-- R350: a call that the registers do not name does not happen. -/
theorem test_ecallExit_other : epv (exec (.ecallExit 1 8) (eps (epa 1 7) pr)) = some [0, 0, 7, 1] := by decide
theorem test_ecallYield : epv (exec (.ecallYield 1) (eps (epa 2 0) pr)) = some [0, 0, 0, 1] := by decide
theorem test_ecallOther : epv (exec (.ecallOther 1) (eps (epa 3 0) pr)) = some [0, 0, 2 ^ 64 - 1, 1] := by decide
theorem test_episodeWaitLimit : epv (exec (.episodeWaitLimit 1) (eps { ep with waiting := some (some 0), onCore := false } pr)) = some [0, 0, 2 ^ 64 - 1, 1] := by decide
theorem wit_Orrery_limit : { ep with waiting := some (some 0) }.waiting = some (some 0) ∧ 0 ≤ (eps ep pr).time.toNat := ⟨rfl, by decide⟩
theorem test_episodeQuantum : sv (exec (.episodeQuantum 1) { eps { ep with ran := 1000000 } pr with episodes := [{ ep with ran := 1000000 }, { ep with num := 2, onCore := false }], ready := [2] })
    (fun t => t.episodes.map fun e => (e.num, e.onCore)) = some [(1, true), (2, true)] := by decide
theorem test_episodeAccessDenied : epv (exec (.episodeAccessDenied 1) (eps ep pr)) = some [1, 1, 0, 0] := by decide
theorem test_episodeException : epv (exec (.episodeException 1) (eps ep pr)) = some [1, 1, 0, 0] := by decide
theorem test_stepWatchdog : epv (exec (.stepWatchdog 1) (eps { ep with active := 5, clock := 5 } pr)) = some [1, 2, 0, 0] := by decide
theorem wit_Orrery_watchdog : let e := { ep with active := 5, clock := 5 }
    e.st = .running ∧ 0 < e.active ∧ e.active ≤ e.clock ∧ ep.active = 0 := ⟨rfl, by decide, by decide, rfl⟩
theorem wit_Orrery_post : (eps ep { pr with atail := 1 }).pairOf 5 = some { pr with atail := 1 } ∧ pr.ep = 1 ∧ ep.st = .running ∧
    (({ pr with atail := 1 } : StepPair).unanswered ≠ 0 ∧ pr.staging.take 8 = (pr.action pr.ahead.toNat).take 8) ∧ ¬ (pr.unanswered ≠ 0) ∧ pr.sd < 16 :=
  ⟨by decide, rfl, rfl, ⟨by decide, by decide⟩, by decide, by decide⟩
/-- R356: a matching observation answers the action. -/
theorem test_observationPost : sv (exec (.observationPost 5) (eps ep { pr with atail := 1 })) (fun t => t.pairs.map fun p => (p.ahead.toNat, p.obs.length, p.last.toNat)) = some [(1, 1, 1)] := by decide
theorem test_observationPost_stray : sv (exec (.observationPost 5) (eps ep pr)) (fun t => t.pairs.map fun p => (p.ahead.toNat, p.obs.length, p.last.toNat)) = some [(0, 1, 2)] := by decide

/-! ### Ring commands -/

def bind0 : List DWord := cmd 0x100 0x100000 0 0x100100 0x21 0 9 0
theorem wit_RingCommands_mbbind : (sc 0 bind0).pendingCmd 0 0x100 = some (readCommand bind0) ∧ (readCommand bind0).zero = 0 ∧ (readCommand bind0).arg < 4096 ∧
    (readCommand bind0).attr < 512 ∧ 0 < (readCommand bind0).attr / 16 ∧ (readCommand bind0).attr / 16 ≤ 16 ∧ (readCommand bind0).va % 64 = 0 ∧
    (readCommand bind0).target = 0 ∧ (∃ x ∈ (sc 0 bind0).spaces, x.asid = (readCommand bind0).asid) ∧ (sc 0 bind0).mailboxOf 9 = none ∧
    (sc 0 bind0).findPage 1 0x100000 = some dpage ∧ (sc 0 bind0).findPage 1 0x500000 = none :=
  ⟨by decide, by decide, by decide, by decide, by decide, by decide, by decide, by decide, ⟨_, List.Mem.head _, by decide⟩, by decide, by decide, by decide⟩
/-- R330: mailbox 9 has two slots and priority 1. -/
theorem test_mbbind : sv (exec .mbbind (sc 0 bind0)) (fun t => t.mailboxes.map fun m => [m.num, m.slots, m.prio]) = some [[9, 2, 1]] := by decide
theorem test_mbbind_busy : ends (exec .mbbind { sc 0 bind0 with mailboxes := [{ mb0 with num := 9 }] }) = some [6, 0] := by decide
def smb (m : Mailbox) : State := { sc 0 (cmd 0x101 0 0 0 0 0 3 0) with mailboxes := [m] }
theorem wit_RingCommands_mbfree : (smb mb0).pendingCmd 0 0x101 = some (readCommand (cmd 0x101 0 0 0 0 0 3 0)) ∧ plainArg (readCommand (cmd 0x101 0 0 0 0 0 3 0)) = true ∧
    (smb mb0).mailboxOf 3 = some mb0 ∧ mb0.pending = [] ∧ mb0.launched = [] := ⟨by decide, by decide, by decide, rfl, rfl⟩
theorem test_mbfree : sv (exec .mbfree (smb mb0)) (fun t => t.mailboxes.length) = some 0 := by decide
theorem test_mbfree_busy : ends (exec .mbfree (smb { mb0 with launched := [0] })) = some [6, 0] := by decide
def win0 : List DWord := cmd 0x102 0x8000 0x9000 4096 (0x1_0000_0002_0007) 0 (4 + 15 * 65536) 0
theorem wit_RingCommands_swbind : (sc 0 win0).pendingCmd 0 0x102 = some (readCommand win0) ∧ (readCommand win0).zero = 0 ∧ bits (readCommand win0).arg 12 4 = 0 ∧
    bits (readCommand win0).arg 28 36 = 0 ∧ bits (readCommand win0).arg 16 12 ≠ 0 ∧ bits (readCommand win0).attr 48 16 ≤ 3 ∧ (sc 0 win0).windowOf 4 = none :=
  ⟨by decide, by decide, by decide, by decide, by decide, by decide, by decide⟩
theorem test_swbind : sv (exec .swbind (sc 0 win0)) (fun t => t.windows.map fun w => [w.num, w.depth, w.route.toNat, w.nsid.toNat, w.code]) = some [[4, 16, 7, 2, 1]] := by decide
def win4 : StoreWin := { num := 4, depth := 16, va := 0x8000, doorbell := 0x9000, route := 7, nsid := 2, code := 1, cap := 4096 }
def swf : State := { sc 0 (cmd 0x103 0 0 0 0 0 4 0) with windows := [win4] }
theorem wit_RingCommands_swfree : swf.pendingCmd 0 0x103 = some (readCommand (cmd 0x103 0 0 0 0 0 4 0)) ∧ plainArg (readCommand (cmd 0x103 0 0 0 0 0 4 0)) = true ∧
    swf.windowOf 4 = some win4 ∧ (∀ x ∈ swf.engine, usesWindow 4 x = false) := ⟨by decide, by decide, by decide, by decide⟩
theorem test_swfree : sv (exec .swfree swf) (fun t => t.windows.length) = some 0 := by decide
theorem test_swfree_unbound : ends (exec .swfree { swf with windows := [] }) = some [1, 0] := by decide
def scrub1 : List DWord := cmd 0x104 0x100000 0 128 0 0 0 0
def sscrub : State := { sc 0 scrub1 with mem := [(0x200000, 0x2A)], poison := [0x200000 / 128] }
theorem quietscrub : Quiet sscrub := ⟨rfl, rfl, (fun _ h => nomatch h), (fun t h => by cases h with | head => rfl | tail _ h => cases h), rfl, onBounds⟩
theorem wit_RingCommands_scrub : sscrub.pendingCmd 0 0x104 = some (readCommand scrub1) ∧ plainArg (readCommand scrub1) = true ∧
    (∃ x ∈ sscrub.spaces, x.asid = (readCommand scrub1).asid) ∧ (∀ i < 1, ∃ p, sscrub.findPage 1 (0x100000 + 128 * i) = some p ∧ p.key (0x100000 + 128 * i) = 0x200000) ∧
    (∀ i < 1, sscrub.frozenAt 0x200000 = 0) ∧ 0 < { sscrub with frozen := [(32, 1)] }.frozenAt 0x200000 ∧ Quiet sscrub :=
  ⟨by decide, by decide, ⟨_, List.Mem.head _, by decide⟩, fun i h => ⟨dpage, by interval_cases i; decide⟩, by decide, by decide, quietscrub⟩
/-- R144: the line is zero and no longer poisoned. -/
theorem test_scrub : sv (exec .scrub sscrub) (fun t => (t.poison, t.mem)) = some ([], []) := by decide +kernel
theorem test_scrub_frozen : ends (exec .scrub { sscrub with frozen := [(32, 1)] }) = some [4, 0] ∧
    sv (exec .scrub { sscrub with pages := [demoPage 1, { dpage with st := .thawing }] }) (fun t => t.commands.map (·.done.isSome)) = some [false] := by decide
def skill (g : Grid) (t : Team) : State := { sc 0 (cmd 0x105 0 0 0 0 0 0 0) with grids := [g], teams := [t] }
theorem wit_RingCommands_kill : (skill grd team).pendingCmd 0 0x105 = some (readCommand (cmd 0x105 0 0 0 0 0 0 0)) ∧ plainArg (readCommand (cmd 0x105 0 0 0 0 0 0 0)) = true ∧
    (skill grd team).grids.findIdx? (fun g => g.handle == 0 % 2 ^ 32) = some 0 ∧ 0 < grd.total ∧ grd.stat = .running ∧ (skill grd team).teamAt 0 0 = some 0 ∧
    (skill grd { team with idx := 7 }).teamAt 0 0 = none ∧ 0 ∉ grd.killed ∧ { grd with stat := .done }.stat ≠ .running :=
  ⟨by decide, by decide, by decide, by decide, rfl, by decide, by decide, by decide, by decide⟩
/-- KILL of the placed live team 0, and of all teams. -/
theorem wit_RingCommands_kill_live : let s := skill grd team
    s.teamAt 0 0 = some 0 ∧ s.teams[0]? = some team ∧ team.ended = false ∧ team.killed = false ∧ grd.term = none ∧ (0 : Nat) < 2 ^ 32 - 1 ∧
    (team.waves ++ team.zen.toList).find? (fun n => (s.waves[n]?).any fun w => w.fibres.any (·.live)) = some 0 ∧ w1.fibres.find? (·.live) = some fib ∧
    (readCommand (cmd 0x105 0 0 0 0 0 ((2 ^ 32 - 1) * 2 ^ 32) 0)).arg / 2 ^ 32 = 2 ^ 32 - 1 ∧
    (∀ (tid : Nat) (tm : Team), s.teams[tid]? = some tm → ∀ n ∈ tm.waves ++ tm.zen.toList, ∀ w : Wave, s.waves[n]? = some w → w.team = tid) := by
  refine ⟨by decide, rfl, rfl, rfl, rfl, by decide, by decide, rfl, by decide, fun tid tm h n m w e => ?_⟩
  match tid, h with
  | 0, h => cases h; cases m with
    | head => cases e; rfl
    | tail _ m => cases m
theorem test_kill : sv (exec .kill { skill grd team with commands := [{ queue := 0, words := cmd 0x105 0 0 0 0 0 ((2 ^ 32 - 1) * 2 ^ 32) 0, asid := 1, weight := none, scan := none, done := none }] })
    (fun t => (t.grids.map (·.killed), t.waves.map fun w => w.fibres.map (·.live))) = some ([[0]], [[false]]) ∧
    sv (exec .kill (skill grd team)) (fun t => t.waves.map fun w => decide (w.stat = .ended)) = some [true] := by decide
theorem test_kill_unplaced : sv (exec .kill (skill grd { team with idx := 7 })) (fun t => t.grids.map (·.killed)) = some [[0]] := by decide
def inj1 : List DWord := cmd 0x106 0 0 0 0 0 0xA0000000 0
theorem wit_RingCommands_inject : (sc 0 inj1).pendingCmd 0 0x106 = some (readCommand inj1) ∧ plainArg (readCommand inj1) = true ∧ (readCommand inj1).arg < 2 ^ 32 :=
  ⟨by decide, by decide, by decide⟩
/-- R321: kind 2 of class 0 is armed. -/
def inj2 : List DWord := cmd 0x106 0 0 0 0 0 0xA0000000 0
theorem test_inject : sv (exec .inject (sc 0 inj2)) (fun t => t.injects.map (·.toNat)) = some [0x20000000] := by decide
theorem test_inject_bad : ends (exec .inject (sc 0 (cmd 0x106 0 0 0 0 0 0xA0000008 0))) = some [1, 0] := by decide
def spre (x : Part) : State := { sc 0 (cmd 0x107 0 0 0 0 0 0 0) with parts := [x], quads := [Quad.clear] }
theorem wit_RingCommands_preempt : (spre Part.clear).pendingCmd 0 0x107 = some (readCommand (cmd 0x107 0 0 0 0 0 0 0)) ∧ plainArg (readCommand (cmd 0x107 0 0 0 0 0 0 0)) = true ∧
    (spre Part.clear).parts[0]? = some Part.clear ∧ (spre Part.clear).quads[0 / 4]? = some Quad.clear ∧ Quad.clear.owner = none ∧
    (spre Part.clear).handlers11 0 = false ∧ Part.clear.halt ≠ .halted := ⟨by decide, by decide, rfl, rfl, rfl, by decide, by decide⟩
theorem test_preempt : sv (exec .preempt (spre Part.clear)) (fun t => t.parts.map fun p => decide (p.halt = .requested)) = some [true] := by decide
theorem test_preempt_bad : ends (exec .preempt (sc 0 (cmd 0x107 0 0 0 0 0 256 0))) = some [1, 0] := by decide
/-! ### Bytes that engines move, and what waits -/

/-- ACCCV: v2 off a boundary, a header beyond the allotment, no header, a tile beyond it, a failed slice, and an element that raises NV. -/
def fcv (n : Nat) : Fibre := { fib with regs := (fib.regs.set 2 (BitVec.ofNat 32 n)).set 3 0 }
def scvOf (n : Nat) (g : Grid) (q : Quad) (t : Team) : State := { st (wav [fcv n]) with teams := [t], grids := [g], quads := State.reset.quads.set 0 q }
def tbf : Team := { team with scratch := [(0, 1), (2, 64), (4, 96)] }
def cvBad : List (Nat × Grid × Quad × Team × Nat) :=
  [(8, gcv, Quad.clear, tcv, 0x08), (65536, gcv, Quad.clear, tcv, 0x09), (64, gcv, Quad.clear, tcv, 0x10), (0, grd, Quad.clear, tcv, 0x09),
   (0, gcv, { Quad.clear with failed := [fslice] }, tcv, 0x07), (0, { gcv with invtrap := true }, qacc, tbf, 0x03)]
theorem wit_TileOperations_acccv_traps : let h := (tcv.scr false).readN 0 64; let w := { wav [fcv 0] with inven := true }
    (∀ x ∈ cvBad, Ready (.acccv 7 2 3) 7 (scvOf x.1 x.2.1 x.2.2.1 x.2.2.2.1) (wav [fcv x.1]) x.2.1 ∧ CanTrap (kindsOf (scvOf x.1 x.2.1 x.2.2.1 x.2.2.2.1) (.acccv 7 2 3) 7 (wav [fcv x.1]) x.2.1) (wav [fcv x.1]) x.2.1 0x40) ∧
    (scvOf 0 gcv qacc tbf).accWait 0 3 = false ∧ gcv.scratch < 65536 + 64 ∧ acccvHeaderOk ((tcv.scr false).readN 64 64) = false ∧ grd.scratch < 0 + (64 + 6144 * hdrSize (hdrNat h 0 1)) ∧
    64 ≤ grd.scratch ∧ (scvOf 0 gcv qacc tbf).invOn w = true ∧ acccvHeaderOk ((tbf.scr false).readN 0 64) = true ∧
    (acccvElt 1 0 .rne false (qacc.acc.get (18432 + 0))).2.getLsbD 0 = true := by
  refine ⟨fun x h => ?_, by decide, by decide, by decide, by decide, by decide, rfl, by decide, by decide⟩
  fin_cases h <;> exact ⟨⟨rfl, rfl, rfl, rfl, by decide, by decide⟩, ⟨rfl, one fun _ => rfl⟩⟩
theorem test_acccv_traps : cvBad.map (fun x => lanes (exec (.acccv 7 2 3) { scvOf x.1 x.2.1 x.2.2.1 x.2.2.2.1 with waves := [{ wav [fcv x.1] with inven := true }] }) fun f => f.cause.toNat) =
    cvBad.map fun x => some [x.2.2.2.2] := by decide +kernel
def srest (bs : List Byte) : State := { sm with mem := Memory.writeN [] 0x20C000 bs }
theorem wit_TileOperations_mrest_traps : let va := (lowLane (.mrest 7 2) 7 (st (wat 0 0x02000000)) (wat 0 0x02000000) grd).getPair false (2 : Reg).toNat
    va.toNat % 256 = 0 ∧ 2 ^ 57 ≤ (va + 0xC000).toNat ∧ (st (wat 0 0x02000000)).restoring 0 = false ∧ Quiet (srest []) ∧
    (srest []).translate grd.asid grd.priv false needLoad (0x100000 + 0xC000) = .ok dpage 0x20C000 ∧ leNat ((srest []).homeRead 0x20C000 4) ≠ 1 ∧
    leNat ((srest [1, 0, 0, 0, 9, 0]).homeRead 0x20C000 4) = 1 ∧ leNat ((srest [1, 0, 0, 0, 9, 0]).homeRead 0x20C004 1) ≠ wm.idx % 256 ∧
    leNat ((srest [1, 0, 0, 0, 0, 2]).homeRead 0x20C005 1) % 4 ≠ wm.quadPos :=
  ⟨by decide, by decide, by decide, ⟨rfl, rfl, (fun _ h => nomatch h), stageless, rfl, onBounds⟩, by decide, by decide, by decide, by decide, by decide⟩
/-- R180: no save area there, and another wave's. -/
theorem test_mrest_traps : [srest [], srest [1, 0, 0, 0, 9, 0]].map (fun s => lanes (exec (.mrest 7 2) s) fun f => f.cause.toNat) = [some [0x10], some [0x01]] := by decide +kernel

/-- A drain whose range begins at 2^57. -/
def drainOp : TileOp := { convOp with work := .drain 0x0200000000000000 }
def sdrain : State := { st { w1 with tiles := 1 } with tileOps := [drainOp] }
theorem wit_EngineEvents_far : sdrain.tileOps[0]? = some drainOp ∧ drainOp.record = none ∧ sdrain.gridOf { w1 with tiles := 1 } = some grd ∧
    sdrain.reach grd.asid grd.priv needStore (cutLines (2 ^ 57) 62528) = ([], some (.far 0x0200000000000000)) ∧ (∃ f ∈ w1.fibres, f.live = true) :=
  ⟨rfl, rfl, rfl, by decide +kernel, _, List.Mem.head _, rfl⟩
/-- R179, R258: the issuing fibre is owed trap 0x04, and the counter is back. -/
theorem test_tilesFar : sv (exec (.asynchronousEngineFault (.tiles 0)) sdrain) (fun t => t.waves.map fun w => (w.tiles, w.fibres.map fun f => f.due.map fun d => d.1.toNat)) =
    some [(0, [[4]])] := by decide +kernel
/-- Copies behind an older one: raw from the data page, gathered by the list at 32, expanded from ternary, raw to the data page, and packed in fours. -/
def rawIn : List DWord := [0x0009000000000008, 0x100000, 16, 0x10002]
def gatherIn : List DWord := [0x000900000000000B, 0x100000, 0x2000000010, 0x20002]
def ternIn : List DWord := [0x0009000000000448, 0x100000, 64, 0x10005]
def rawOut : List DWord := [0x0009000000000001, 8, 0x100000, 0x10002]
def packOut : List DWord := [0x0009000000000341, 64, 0x100000, 0x10002]
def tmove (h : Byte) : Team := { team with scratch := Memory.writeN (Memory.writeN (Memory.writeN [] 8 [5, 6]) 32 (leBytes 4 1 ++ leBytes 4 0)) 64 ([h, 0, 1, 0, 2] ++ List.replicate 59 0 ++ [5, 0xFF]) }
def smove (cw : List DWord) (h b : Byte) : State := { st { w1 with copies := 2 } with
  pages := [demoPage 1, dpage], teams := [tmove h], mem := Memory.writeN [] 0x200000 [b, 2, 3, 4], engine := [copy1, { copy1 with cw := cw }] }
theorem quietmove (cw : List DWord) (h b : Byte) : Quiet (smove cw h b) :=
  ⟨rfl, rfl, (fun _ h => nomatch h), (fun t h => by cases h with | head => rfl | tail _ h => cases h), rfl, onBounds⟩
theorem wit_EngineEvents_moved : [rawIn, gatherIn, ternIn, rawOut, packOut].map (fun cw => ((readCmd cw).skind, (readCmd cw).dkind, (readCmd cw).x, (readCmd cw).scl)) =
      [(0, 1, false, false), (3, 1, false, false), (0, 1, true, false), (1, 0, false, false), (1, 0, true, false)] ∧
    (smove gatherIn 3 1).teams[0]? = some (tmove 3) ∧ (tmove 3).scrRead grd.scratch 0 (readCmd gatherIn).list 8 = some (leBytes 4 1 ++ leBytes 4 0) ∧
    (smove rawIn 3 1).reach 1 true needLoad (cutLines (0x100000 + 0 * 2) 2 ++ []) = ([(0x200000, 2)], none) ∧
    (smove rawOut 3 1).reach 1 true needStore (cutLines (0x100000 + 0 * 2) 2 ++ []) = ([(0x200000, 2)], none) ∧
    (smove rawOut 3 1).discards 0 = false ∧ (smove rawOut 3 1).staging 0 = false ∧ (tmove 3).scrRead grd.scratch 0 8 2 = some [5, 6] ∧
    ((tmove 3).scrRead grd.scratch 0 64 64).map (·.take 7) = some ((readCmd packOut).header.take 7) ∧ ((tmove 2).scrRead grd.scratch 0 64 64).map (·.take 7) ≠ some ((readCmd packOut).header.take 7) ∧
    (widen 8 false [0]).2 = false ∧ (widen 8 false [243]).2 = true := by decide +kernel
def moved (cw : List DWord) (h b : Byte) (at_ n : Nat) : Option (List (List Nat)) := sv (exec (.copyCompletion 1 .moved) (smove cw h b)) fun t =>
  [t.teams.flatMap (fun x => (x.scratch.readN at_ n).map (·.toNat)), bytesAt t 0x200000 2, t.engine.map fun c => match c.done with | some d => d.1.toNat + 1 | none => 0]
/-- R126, R193, R195: the bytes in the scratchpad and on the data page, and the status plus 1. -/
theorem test_copy_in : moved rawIn 3 1 16 2 = some [[1, 2], [1, 2], [0, 1]] ∧ moved gatherIn 3 1 16 4 = some [[3, 4, 1, 2], [1, 2], [0, 1]] ∧
    moved ternIn 3 1 128 5 = some [[0, 255, 255, 255, 255], [1, 2], [0, 1]] ∧ moved ternIn 3 243 128 1 = some [[5], [243, 2], [0, 2]] := by decide +kernel
theorem test_copy_out : moved rawOut 3 1 8 2 = some [[5, 6], [5, 6], [0, 1]] ∧ moved packOut 3 1 8 2 = some [[5, 6], [0xF5, 2], [0, 1]] ∧
    moved packOut 2 1 8 2 = some [[5, 6], [1, 2], [0, 3]] := by decide +kernel

/-- R228: a store whose message is still under way is not complete, and a later message of its wave to the same mailbox waits for the earlier one. -/
def mine : Flight := { msg with sender := some (0, 5) }
theorem wit_WaitEvents_sender : (∃ x ∈ ({ spend with flights := [mine] } : State).flights, x.sender = some (0, 5)) ∧ (∀ x ∈ spend.flights, x.sender ≠ some (0, 5)) ∧
    (∃ j < 1, ∃ x, [mine, mine][j]? = some x ∧ mine.sender ≠ none ∧ x.sender.map (·.1) = mine.sender.map (·.1) ∧ x.target = mine.target) :=
  ⟨⟨mine, List.Mem.head _, rfl⟩, (fun _ h => nomatch h), 0, by decide, mine, rfl, by decide, rfl, rfl⟩
theorem test_storeCompletion_sender : sv (exec (.storeCompletion 0) { spend with flights := [mine] }) (fun t => (t.pend.length, t.waves.map (·.stores))) = some (1, [1]) := by decide
/-- R276: an ATOM in flight, and a SCRUB, wait at a block of count 0 of a Thawing page. -/
def tpages : List Page := [demoPage 1, { dpage with st := .thawing }]
theorem wit_WaitEvents_thaws : ({ satom with pages := tpages } : State).frozenAt req.key = 0 ∧ ({ satom with pages := tpages } : State).thawingAt req.key = true ∧ satom.thawingAt req.key = false ∧
    ({ sscrub with pages := tpages } : State).frozenAt 0x200000 = 0 ∧ ({ sscrub with pages := tpages } : State).thawingAt 0x200000 = true ∧ sscrub.thawingAt 0x200000 = false := by decide
theorem test_atomicCompletion_thaws : sv (exec (.atomicCompletion 0 0) { satom with pages := tpages }) (fun t => bytesAt t 0x200000 1 ++ t.waves.map (·.loads)) = some [3, 1] := by decide
/-- An episode on no core, in WAIT, or parked on a record. -/
theorem wit_Orrery_idle : ∀ e ∈ [{ ep with onCore := false }, { ep with waiting := some none }, { ep with record := some 7 }], (eps e pr).episodeOf 1 = some e ∧ e.st = .running ∧
    (e.onCore = false ∨ e.waiting ≠ none ∨ e.record ≠ none) := by decide

/-! ### Steps -/

/-- The small state with IADD v1, v2, v3 (0x72410830, R23) where its path is, and the path that issues next. -/
def sstep : State := { s1 with mem := [(0, 0x30), (1, 0x08), (2, 0x41), (3, 0x72)], parts := [], quads := [], agenda := [.issue 0 0] }
theorem wit_StepRunsDecoded : sstep.dev = .running ∧ sstep.bundle = [] ∧ sstep.agenda = [.issue 0 0] ∧ sstep.choosable 0 0 = true ∧
    sstep.becoming 1 0x10000 = false ∧ { sstep with agenda := [.tick 1] }.room 1 = 1 ∧
    sstep.waves[0]? = some w1 ∧ sstep.gridOf w1 = some grd ∧ sstep.dueLanes w1 = [] ∧
    sstep.translate 1 grd.priv false needFetch (grd.codeBase + BitVec.ofNat 64 (4 * ((0 : Pc) + BitVec.ofNat 24 0).toNat)) = .ok (demoPage 1) 0 ∧
    sstep.scanning 0 = false ∧ decode (sstep.wordAt 0) = some (.iadd 7 1 2 3) ∧ isHintWord (sstep.wordAt 0) = false :=
  ⟨rfl, rfl, rfl, by decide, by decide, by decide +kernel, rfl, rfl, by decide, by decide, by decide, by decide, by decide⟩
/-- A hint word (XIMM 5, 0xF0000005), and the word under it. -/
def shint : State := { sstep with mem := [(0, 0x05), (3, 0xF0), (4, 0x30), (5, 0x08), (6, 0x41), (7, 0x72)] }
theorem wit_StepRunsDecoded_hint : decode (shint.wordAt 0) = some (.ximm 5) ∧ isHintWord (shint.wordAt 0) = true ∧
    hintKind (shint.wordAt 0) ∉ ([] : List Word).map hintKind := ⟨by decide, by decide, by decide⟩
theorem wit_StepRunsDecoded_bundle : let s : State := { shint with agenda := [], bundle := [.sched false 0 2] }
    s.bundle ≠ [] ∧ s.translate 1 grd.priv false needFetch (grd.codeBase + BitVec.ofNat 64 (4 * (s.cur.pc + BitVec.ofNat 24 s.bundle.length).toNat)) = .ok (demoPage 1) 4 ∧
    decode (s.wordAt 4) = some (.iadd 7 1 2 3) ∧ s.dueLanes w1 = [] := ⟨by decide, by decide, by decide, by decide⟩
theorem wit_StepRunsDecoded_auto : let s : State := { sstep with agenda := [] }
    s.bundle = [] ∧ s.agenda = [] ∧ (s.elapse 1).autoEvent = none ∧ (s.elapse 1).nextPath = some (0, 0, 0) := ⟨rfl, rfl, by decide +kernel, by decide +kernel⟩
/-- A move that chip time may not make, since the wave's bound of 1,024 clocks is over: the machine goes on by itself. -/
theorem wit_StepRunsDecoded_stands : let s : State := { sstep with agenda := [.tick 5], clusters := sstep.clusters.map fun c => { c with clk := 2000000000 } }
    s.bundle = [] ∧ (∃ n rest, s.agenda = .tick n :: rest ∧ n ≠ 0 ∧ s.room n = 0) ∧ s.autoEvent = none ∧ s.nextPath = some (0, 0, 0) :=
  ⟨rfl, ⟨5, [], rfl, by decide, by decide +kernel⟩, by decide +kernel, by decide +kernel⟩
theorem test_step_word : lanes (step sstep) (v 1) = some [5] := by decide +kernel
theorem test_step_hint : sv (step shint) (fun t => t.bundle) = some [.ximm 5] := by decide +kernel
/-- After its hint, the word issues in the same bundle, and the fibre moves past both (R19). -/
theorem test_step_bundle : lanes (step { shint with agenda := [], bundle := [.sched false 0 2] }) (fun f => f.pc.toNat) = some [2] := by decide +kernel
/-- A disabled event leaves the machine where it is. -/
theorem test_step_disabled : sv (step { sstep with agenda := [.event (.freezeComplete 0)] }) (fun t => (t.waves.map (·.perf), t.agenda.length)) = some ([0], 0) := by decide +kernel
/-- From reset, a placed word runs in the very next step. -/
theorem test_withFetchWord : lanes (step (State.reset.withFetchWord 32 0x72410830)) (fun f => f.pc.toNat) = some (1 :: List.replicate 15 0) := by decide +kernel
/-! ### Words written out from the tables of R22 to R26 and R32 to R34 -/

def reads (ws : List (Nat × Instr)) : Prop := ∀ x ∈ ws, decodeTableWord 32 x.1 = some x.2

theorem test_decode_sys : reads [
    (0x70000000, .nop 7),
    (0x7000ABC1, .trap 7 0xABC),
    (0x70000002, .rte 7),
    (0x70001412, .rteReg 7 5),
    (0x70000003, .brk 7),
    (0x70000004, .yield 7),
    (0x70000005, .fend 7),
    (0x70090006, .chkerr 7 9),
    (0x70000007, .nopre 7),
    (0x70000008, .preon 7),
    (0x70092009, .perfq 7 9 8),
    (0x7000005A, .livetile 7 5),
    (0x7000100B, .errinj 7 4)] := by unfold reads; decide

theorem test_decode_control : reads [
    (0x707FFFFE, .bra 7 0x3FFFFE),
    (0x70851234, .call 7 5 0x1234),
    (0x70C02400, .jmpi 7 9),
    (0x70C02431, .calli 7 9 3),
    (0x70C00002, .ret 7),
    (0x71010BFF, .fork 7 1 2 0x3FF),
    (0x71580000, .join 7 6),
    (0x71580001, .waitj 7 6),
    (0x71580002, .jclr 7 6),
    (0x71822500, .loop 7 2 9 256),
    (0x71C00201, .ubr 7 0x201),
    (0x72060000, .popd 7 6),
    (0x72010831, .dpush 7 1 2 3),
    (0x72010802, .dcnt 7 1 2)] := by unfold reads; decide

theorem test_decode_ialu : reads [
    (0x72410830, .iadd 7 1 2 3),
    (0x72410831, .isub 7 1 2 3),
    (0x72410832, .and 7 1 2 3),
    (0x72410833, .or 7 1 2 3),
    (0x72410834, .xor 7 1 2 3),
    (0x72410835, .andn 7 1 2 3),
    (0x72410836, .shl 7 1 2 3),
    (0x72410837, .shr 7 1 2 3),
    (0x72410838, .sar 7 1 2 3),
    (0x72410839, .rotl 7 1 2 3),
    (0x7241083A, .imin 7 1 2 3),
    (0x7241083B, .imax 7 1 2 3),
    (0x7241083C, .umin 7 1 2 3),
    (0x7241083D, .umax 7 1 2 3),
    (0x7241083E, .iadds 7 1 2 3),
    (0x7241083F, .iabsd 7 1 2 3)] := by unfold reads; decide

theorem test_decode_immediate : reads [
    (0x32841464, .iaddi 3 4 5 100),
    (0x72820960, .iaddi 7 2 2 0x160),
    (0x72C417FF, .andi 7 4 5 0x3FF),
    (0x73041401, .ori 7 4 5 1),
    (0x73441402, .xori 7 4 5 2),
    (0x73841607, .shfi 7 4 5 .sar 7),
    (0x73C3FFFE, .movi 7 3 0xFFFE),
    (0x73C75678, .movi 7 7 0x5678),
    (0x7403ABCD, .movhi 7 3 0xABCD)] := by unfold reads; decide

theorem test_decode_mul : reads [
    (0x744824A0, .imul 7 8 9 10),
    (0x744824A1, .imulhs 7 8 9 10),
    (0x744824A2, .imulhu 7 8 9 10),
    (0x744824A3, .imad 7 8 9 10),
    (0x744824A4, .idp4s 7 8 9 10),
    (0x744824A5, .idp4u 7 8 9 10),
    (0x74882400, .popc 7 8 9),
    (0x74882401, .clz 7 8 9),
    (0x74882402, .brev 7 8 9),
    (0x748824A3, .bfe 7 8 9 10),
    (0x748824A4, .bfes 7 8 9 10),
    (0x748824A5, .bfi 7 8 9 10),
    (0x748824A6, .bpick 7 8 9 10),
    (0x74C828C0, .iadd64 7 8 10 12),
    (0x74C828C1, .isub64 7 8 10 12),
    (0x74C828C2, .lea64s0 7 8 10 12),
    (0x74C828C3, .lea64s1 7 8 10 12),
    (0x74C828C4, .lea64s2 7 8 10 12),
    (0x74C828C5, .lea64s3 7 8 10 12),
    (0x74C828C6, .imulw 7 8 10 12),
    (0x74C828C7, .shl64 7 8 10 12),
    (0x74C828C8, .shr64 7 8 10 12)] := by unfold reads; decide

theorem test_decode_move : reads [
    (0x75041800, .mov 7 4 6 false),
    (0x75041810, .mov 7 4 6 true),
    (0x75041811, .movs 7 4 6 .high),
    (0x75041821, .movs 7 4 6 .pair),
    (0x75040C02, .movsr 7 4 3 false),
    (0x75063022, .movsr 7 6 12 true),
    (0x75011803, .movsw 7 true 6),
    (0x75040004, .movpw 7 4),
    (0x75001805, .movwp 7 6),
    (0x7541083A, .sel 7 1 2 3 true 2),
    (0x758A1052, .icmp 7 1 2 4 5 .lt),
    (0x75CA105D, .fcmp 7 1 2 4 5 .geu),
    (0x76070423, .plop 7 0 7 1 2 .andn)] := by unfold reads; decide

theorem test_decode_float : reads [
    (0x76410830, .fadd 7 1 2 3 .f32),
    (0x76410835, .fsub 7 1 2 3 .f16x2),
    (0x76810832, .fmul 7 1 2 3 .bf16x2),
    (0x76C10830, .fma 7 1 2 3 .f32),
    (0x76C10834, .fnma 7 1 2 3 .f32),
    (0x76C10838, .fms 7 1 2 3 .f32),
    (0x76C1083C, .fnms 7 1 2 3 .f32),
    (0x77010830, .fmin 7 1 2 3 .f32),
    (0x77010834, .fmax 7 1 2 3 .f32),
    (0x77010838, .fminn 7 1 2 3 .f32),
    (0x7701083C, .fmaxn 7 1 2 3 .f32),
    (0x774109C4, .cvt 7 1 2 (.f32ToB8 { p := 4, uns := true, fin := true })),
    (0x77410807, .cvt 7 1 2 .f32ToU32),
    (0x77810800, .rcp 7 1 2),
    (0x77810801, .rsq 7 1 2),
    (0x77810802, .sqrt 7 1 2),
    (0x77810803, .exp2 7 1 2),
    (0x77810804, .log2 7 1 2),
    (0x77810805, .sinpi 7 1 2),
    (0x77810806, .cospi 7 1 2),
    (0x77810807, .tanh 7 1 2),
    (0x77810808, .fclass 7 1 2)] := by unfold reads; decide

theorem test_decode_lanes : reads [
    (0x77C10833, .shfl 7 1 2 3 .swap),
    (0x78010800, .voteAll 7 1 2),
    (0x78010801, .voteAny 7 1 2),
    (0x78090802, .voteBallot 7 9 2 false),
    (0x78090812, .voteBallot 7 9 2 true),
    (0x7841080D, .scan 7 1 2 .minS true),
    (0x78410802, .scan 7 1 2 .maxF false),
    (0x7881080B, .wred 7 1 2 .orS),
    (0x78C1083D, .dist 7 1 2 3 .b8p4 .ip),
    (0x79040831, .topk 7 4 2 3 true)] := by unfold reads; decide

theorem test_decode_scratch : reads [
    (0x79442928, .lds 7 4 10 .acq .team .b32 .normal),
    (0x79842A2F, .sts 7 4 10 .rel .team .b64 .lastUse),
    (0x79C52869, .atoms 7 5 10 6 .cas),
    (0x7A0000C0, .bara 7 12),
    (0x7A0000C1, .barw 7 12),
    (0x7A0000C2, .bars 7 12),
    (0x7A0024C3, .barc 7 9 12)] := by unfold reads; decide

theorem test_decode_global : reads [
    (0xAA462988, .ldg 0xA 6 10 .acq .device .b32 .normal),
    (0x7A882AB1, .stg 7 8 10 .rel .system .b128 .stream),
    (0x7AC02862, .pref 7 10 .die .b8 .noL1),
    (0x7B062B8D, .atom 7 6 10 .acqrel .device .addD),
    (0x7B462854, .redm 7 6 10 .none .cluster .faddB8p4),
    (0x7B8629B9, .waitc 7 6 10 .acq .system .anyset true),
    (0x7BC02830, .scatb 7 10 3),
    (0x7BC52801, .scatf 7 5 10)] := by unfold reads; decide

theorem test_decode_queue : reads [
    (0x7C002890, .qpush 7 9 10),
    (0x7C040091, .qpop 7 4 9),
    (0x7C040092, .qtry 7 4 9),
    (0x7C050093, .qcnt 7 5 9),
    (0x7C43F190, .waitn 7 1 31 3 4),
    (0x7C802800, .sleept 7 10)] := by unfold reads; decide

theorem test_decode_matrix : reads [
    (0x7CC31050, .signset 7 3 4 5),
    (0x7CC30001, .signclr 7 3),
    (0x7D1D2741, .mmq 7 3 5 9 52 .bf16),
    (0x7D400050, .accz 7 5),
    (0x7D441851, .accrd 7 4 6 5),
    (0x7D441852, .accwr 7 4 6 5),
    (0x7D401853, .acccv 7 6 5),
    (0x7D801800, .mdrain 7 6),
    (0x7D801801, .mrest 7 6),
    (0x7D851802, .mstat 7 5 6)] := by unfold reads; decide

theorem test_decode_fixed : reads [
    (0x7DC41880, .freeze 7 4 6 8),
    (0x7DC41801, .thaw 7 4 6),
    (0x7DC51802, .fquery 7 5 6),
    (0x7E000000, .tokw 7),
    (0x7E000001, .tokp 7),
    (0x7E451870, .stepp 7 5 6 7),
    (0x7E451871, .stepr 7 5 6 7),
    (0x7E440072, .stepq 7 4 7)] := by unfold reads; decide

theorem test_decode_hint : reads [
    (0xF03FFF9E, .ximm 0x3FFF9E),
    (0xF1240000, .xop 0x240000),
    (0xF200004B, .mod true false false true .rup),
    (0xF2000020, .mod false true false false .rne),
    (0xF30001A5, .sched true 0xA 5),
    (0xF4000040, .xoff 0x40)] := by unfold reads; decide

/-- R19, R25, R32: a hint kind, a major, a function and a type that no table lists decode to nothing. -/
theorem test_decode_refused : ([0xF5000000, 0x7E800000, 0x7000000C, 0x76400003] : List Nat).map (fun w => (decodeTableWord 32 w).isSome) =
    [false, false, false, false] := by decide
/-- R38: events have no word; STG under MOD MSG has the word of STG. -/
theorem test_encode_pairs : encode (.stgMsg 7 8 10 .none .system .b64 .normal) = encode (.stg 7 8 10 .none .system .b64 .normal) := by decide

/-! ### Ill-formed terms, one for each check of `Instr.wf` -/

def refusedAll (is : List Instr) : Prop := ∀ i ∈ is, i.wf = false
/-- The guard N = 1, G = 7 marks a hint word (R19). -/
theorem test_wf_guard : refusedAll [.iadd 0xF 1 2 3, .nop 0xF] := by unfold refusedAll; decide
/-- Field limits (R32, R102, R105, R33, R34, R27). -/
theorem test_wf_limits : refusedAll [.loop 7 3 9 5, .loop 7 0 9 0, .loop 7 0 9 257, .topk 7 5 2 3 true, .plop 7 0 1 2 3 .not, .movsr 7 6 63 true,
    .cvt 7 1 2 (.f32ToB8 { p := 0, uns := false, fin := false }), .redm 7 6 10 .none .device .cas, .mod true true false false .rne] := by unfold refusedAll; decide
/-- Alignment of register operands (R24). -/
theorem test_wf_pairs : refusedAll [.iadd64 7 1 2 4, .freeze 7 2 3 4, .lea64s1 7 2 3 4, .shl64 7 3 2 4, .imulw 7 1 2 3, .thaw 7 1 2, .qpop 7 1 0, .qtry 7 1 0, .stepq 7 1 2,
    .mov 7 2 3 true, .movs 7 3 4 .pair, .movsr 7 3 4 true] := by unfold refusedAll; decide
theorem test_wf_addresses : refusedAll [.lds 7 1 3 .none .team .b32 .normal, .ldg 7 1 4 .none .system .b64 .normal, .stg 7 2 4 .none .system .b128 .normal, .pref 7 3 .system .b32 .normal, .scatb 7 3 1,
    .scatf 7 1 3, .qpush 7 0 3, .acccv 7 3 0, .mdrain 7 3, .mrest 7 3, .fquery 7 2 3, .stepp 7 2 3 4, .stepr 7 2 3 4, .atoms 7 63 2 4 .cas, .atoms 7 1 3 4 .add,
    .atom 7 63 2 .none .system .cas, .atom 7 1 2 .none .system .addD, .atom 7 62 2 .none .system .casD, .redm 7 1 2 .none .system .addD, .waitc 7 1 2 .none .system .eq true,
    .mmq 7 0 0 1 53 .b8] := by unfold refusedAll; decide
/-- The longest B quarter, and the other fields at their limits, are well formed. -/
theorem test_wf_accepts : ∀ i ∈ ([.mmq 7 7 7 63 52 .s8, .loop 7 2 9 256, .atom 7 60 2 .none .system .casD, .stg 7 60 62 .none .system .b128 .normal, .movsr 7 62 62 true] : List Instr), i.wf = true := by decide
theorem wit_EncodeDecode : (Instr.iadd 7 1 2 3).wf = true ∧ (Instr.iadd 7 1 2 3).isWord = true := by decide
theorem wit_StepInvariant_canonical : sstep.canonical ∧ (∀ w ∈ sstep.waves, w.named sstep.freeCtr) ∧ State.reset.canonical :=
  ⟨⟨by decide, by decide⟩, (fun w h => by cases h with | head => exact named0 rfl _ | tail _ h => cases h), by decide, fun _ h => nomatch h⟩
theorem wit_StepInvariant : ∃ t, step sstep = .next t := by
  have h := test_step_word
  revert h
  cases step sstep with
  | next t => exact fun _ => ⟨t, rfl⟩
  | fault e => exact fun h => nomatch h
  | refused r => exact fun h => nomatch h
end Sys2Proof.Tests
end

section
/-! Integer values (03 R95 to R101): what the machine's operations on bit vectors are over the numbers that the rows of
the tables are written in. -/

namespace Sys2Proof.Machine

/-! ### Sums, differences and products wrap (R95, R99, R101) -/

theorem add_eq_ofNat {n : Nat} (x y : BitVec n) : x + y = BitVec.ofNat n (x.toNat + y.toNat) := by
  rw [BitVec.ofNat_add, BitVec.ofNat_toNat, BitVec.ofNat_toNat]; simp

theorem sub_eq_ofInt {n : Nat} (x y : BitVec n) : x - y = BitVec.ofInt n ((x.toNat : Int) - y.toNat) := by
  rw [Int.sub_eq_add_neg, BitVec.ofInt_add, BitVec.ofInt_neg]; simp [BitVec.sub_eq_add_neg]

theorem mul_eq_ofNat {n : Nat} (x y : BitVec n) : x * y = BitVec.ofNat n (x.toNat * y.toNat) := by
  rw [BitVec.ofNat_mul]; simp

theorem mul_add_eq_ofNat {n : Nat} (x y o : BitVec n) : x * y + o = BitVec.ofNat n (x.toNat * y.toNat + o.toNat) := by
  rw [BitVec.ofNat_add, BitVec.ofNat_mul]; simp

theorem imulwVal_eq (x y : Word) : imulwVal x y = BitVec.ofNat 64 (x.toNat * y.toNat) := by
  rw [BitVec.ofNat_mul, BitVec.ofNat_toNat, BitVec.ofNat_toNat, imulwVal]

theorem lea64Val_eq (k : Nat) (x : DWord) (y : Word) :
    lea64Val k x y = BitVec.ofInt 64 ((x.toNat : Int) + y.toInt * 2 ^ k) := by
  have hk : BitVec.ofInt 64 (2 ^ k) = BitVec.twoPow 64 k := by
    apply BitVec.eq_of_toNat_eq
    rw [BitVec.toNat_ofInt, BitVec.toNat_twoPow]; norm_cast
  rw [BitVec.ofInt_add, BitVec.ofInt_mul, hk, BitVec.mul_twoPow_eq_shiftLeft, BitVec.ofInt_natCast, BitVec.ofNat_toNat]
  simp [lea64Val, BitVec.signExtend]

theorem idp4Val_signed (x y o : Word) : idp4Val true x y o =
    BitVec.ofInt 32 (o.toInt + (byteOf x 0).toInt * (byteOf y 0).toInt + (byteOf x 1).toInt * (byteOf y 1).toInt
      + (byteOf x 2).toInt * (byteOf y 2).toInt + (byteOf x 3).toInt * (byteOf y 3).toInt) := by
  simp only [BitVec.ofInt_add, BitVec.ofInt_mul, BitVec.ofInt_toInt]; rfl

theorem idp4Val_unsigned (x y o : Word) : idp4Val false x y o =
    BitVec.ofNat 32 (o.toNat + (byteOf x 0).toNat * (byteOf y 0).toNat + (byteOf x 1).toNat * (byteOf y 1).toNat
      + (byteOf x 2).toNat * (byteOf y 2).toNat + (byteOf x 3).toNat * (byteOf y 3).toNat) := by
  simp only [BitVec.ofNat_add, BitVec.ofNat_mul, BitVec.ofNat_toNat, BitVec.setWidth_eq]; rfl

/-! ### Shifts by the whole of y (R95, R97, R101) -/

theorem shiftLeft_eq_ofNat {n : Nat} (x : BitVec n) (k : Nat) : x <<< k = BitVec.ofNat n (x.toNat * 2 ^ k) := by
  apply BitVec.eq_of_toNat_eq
  rw [BitVec.toNat_shiftLeft, BitVec.toNat_ofNat, Nat.shiftLeft_eq]

theorem ushiftRight_eq_ofNat {n : Nat} (x : BitVec n) (k : Nat) : x >>> k = BitVec.ofNat n (x.toNat / 2 ^ k) := by
  apply BitVec.eq_of_toNat_eq
  rw [BitVec.toNat_ushiftRight, BitVec.toNat_ofNat, Nat.shiftRight_eq_div_pow,
    Nat.mod_eq_of_lt ((Nat.div_le_self _ _).trans_lt x.isLt)]

theorem sshiftRight_eq_ofInt {n : Nat} (x : BitVec n) (k : Nat) : x.sshiftRight k = BitVec.ofInt n (x.toInt / 2 ^ k) := by
  rw [BitVec.sshiftRight, Int.shiftRight_eq_div_pow]; norm_cast

theorem shlVal_eq (x y : Word) : shlVal x y = if y.toNat < 32 then BitVec.ofNat 32 (x.toNat * 2 ^ y.toNat) else 0 := by
  rw [shlVal, shiftLeft_eq_ofNat]

theorem shrVal_eq (x y : Word) : shrVal x y = if y.toNat < 32 then BitVec.ofNat 32 (x.toNat / 2 ^ y.toNat) else 0 := by
  rw [shrVal, ushiftRight_eq_ofNat]

/-- A count of 32 or more leaves copies of the sign. -/
theorem sshiftRight_31 (x : Word) : x.sshiftRight 31 = if x.getLsbD 31 then 0xFFFFFFFF#32 else 0 := by
  have hm : x.msb = x.getLsbD 31 := BitVec.msb_eq_getLsbD_last x
  apply BitVec.eq_of_getLsbD_eq
  intro i hi
  rw [BitVec.getLsbD_sshiftRight, hm]
  by_cases h0 : i = 0
  · subst h0; cases x.getLsbD 31 <;> simp
  · cases h : x.getLsbD 31
    · simp [show ¬ 31 + i < 32 by omega]
    · have hall : (0xFFFFFFFF#32) = BitVec.allOnes 32 := rfl
      rw [if_pos rfl, hall, BitVec.getLsbD_allOnes]; simp [hi, show ¬ 31 + i < 32 by omega]

theorem sarVal_eq (x y : Word) : sarVal x y = if y.toNat < 32 then BitVec.ofInt 32 (x.toInt / 2 ^ y.toNat)
    else if x.getLsbD 31 then 0xFFFFFFFF#32 else 0 := by
  unfold sarVal
  split
  · rw [sshiftRight_eq_ofInt, min_eq_left (by omega)]
  · rw [min_eq_right (by omega), sshiftRight_31]

theorem shl64Val_eq (x : DWord) (y : Word) :
    shl64Val x y = if y.toNat < 64 then BitVec.ofNat 64 (x.toNat * 2 ^ y.toNat) else 0 := by
  rw [shl64Val, shiftLeft_eq_ofNat]

theorem shr64Val_eq (x : DWord) (y : Word) :
    shr64Val x y = if y.toNat < 64 then BitVec.ofNat 64 (x.toNat / 2 ^ y.toNat) else 0 := by
  rw [shr64Val, ushiftRight_eq_ofNat]

/-- The count of SHFI is below 32, so none of its shifts runs past the word. -/
theorem shfiVal_eq (k : ShfKind) (x : Word) (m : BitVec 5) : shfiVal k x (m.setWidth 32) =
    match k with
    | .shl => BitVec.ofNat 32 (x.toNat * 2 ^ m.toNat)
    | .shr => BitVec.ofNat 32 (x.toNat / 2 ^ m.toNat)
    | .sar => BitVec.ofInt 32 (x.toInt / 2 ^ m.toNat)
    | .rotl => x.rotateLeft m.toNat := by
  have hm : m.toNat < 32 := m.isLt
  have hn : (m.setWidth 32).toNat = m.toNat := BitVec.toNat_setWidth_of_le (by omega)
  cases k with
  | shl => rw [shfiVal, shlVal_eq, hn, if_pos hm]
  | shr => rw [shfiVal, shrVal_eq, hn, if_pos hm]
  | sar => rw [shfiVal, sarVal_eq, hn, if_pos hm]
  | rotl => rw [shfiVal, rotlVal, hn, Nat.mod_eq_of_lt hm]

/-! ### Minimum, maximum, clamping (R95) -/

theorem iminVal_eq (x y : Word) : iminVal x y = BitVec.ofInt 32 (min x.toInt y.toInt) := by
  unfold iminVal
  split
  · next h => rw [min_eq_right (BitVec.slt_iff_toInt_lt.mp h).le, BitVec.ofInt_toInt]
  · next h => rw [min_eq_left (not_lt.mp (mt BitVec.slt_iff_toInt_lt.mpr h)), BitVec.ofInt_toInt]

theorem imaxVal_eq (x y : Word) : imaxVal x y = BitVec.ofInt 32 (max x.toInt y.toInt) := by
  unfold imaxVal
  split
  · next h => rw [max_eq_right (BitVec.slt_iff_toInt_lt.mp h).le, BitVec.ofInt_toInt]
  · next h => rw [max_eq_left (not_lt.mp (mt BitVec.slt_iff_toInt_lt.mpr h)), BitVec.ofInt_toInt]

theorem uminVal_eq (x y : Word) : uminVal x y = BitVec.ofNat 32 (min x.toNat y.toNat) := by
  unfold uminVal
  split
  · next h => rw [min_eq_right (BitVec.ult_iff_lt.mp h).le, BitVec.ofNat_toNat, BitVec.setWidth_eq]
  · next h => rw [min_eq_left (not_lt.mp (mt BitVec.ult_iff_lt.mpr h)), BitVec.ofNat_toNat, BitVec.setWidth_eq]

theorem umaxVal_eq (x y : Word) : umaxVal x y = BitVec.ofNat 32 (max x.toNat y.toNat) := by
  unfold umaxVal
  split
  · next h => rw [max_eq_right (BitVec.ult_iff_lt.mp h).le, BitVec.ofNat_toNat, BitVec.setWidth_eq]
  · next h => rw [max_eq_left (not_lt.mp (mt BitVec.ult_iff_lt.mpr h)), BitVec.ofNat_toNat, BitVec.setWidth_eq]

theorem iaddsVal_eq (x y : Word) :
    iaddsVal x y = BitVec.ofInt 32 (max (-(2 ^ 31)) (min (2 ^ 31 - 1) (x.toInt + y.toInt))) := by
  simp only [iaddsVal]
  split
  · next h => rw [min_eq_left h.le]; rfl
  · next h =>
    rw [min_eq_right (not_lt.mp h)]
    split
    · next h2 => rw [max_eq_left h2.le]; rfl
    · next h2 => rw [max_eq_right (not_lt.mp h2)]

/-! ### Counts and bit fields (R98, R100) -/

theorem movhiVal_eq (m : BitVec 16) (x : Word) : movhiVal m x = BitVec.ofNat 32 (m.toNat * 2 ^ 16 + x.toNat % 2 ^ 16) := by
  apply BitVec.eq_of_toNat_eq
  have hm := m.isLt
  have hlow : (x.extractLsb' 0 16).toNat = x.toNat % 2 ^ 16 := by simp
  have hx := Nat.mod_lt x.toNat (show 2 ^ 16 > 0 by omega)
  have hsum : m.toNat * 2 ^ 16 + x.toNat % 2 ^ 16 < 2 ^ 32 := by omega
  rw [movhiVal, BitVec.toNat_append, hlow, BitVec.toNat_ofNat, Nat.mod_eq_of_lt hsum, Nat.shiftLeft_eq, mul_comm,
    Nat.two_pow_add_eq_or_of_lt hx]

theorem countP_range (p : Nat → Bool) (n : Nat) : (List.range n).countP p = ∑ k ∈ Finset.range n, (p k).toNat := by
  induction n with
  | zero => rfl
  | succ n ih => rw [List.range_succ, List.countP_append, ih, Finset.sum_range_succ]; cases h : p n <;> simp [h]

theorem popcVal_eq (x : Word) : popcVal x = BitVec.ofNat 32 (∑ k ∈ Finset.range 32, (x.getLsbD k).toNat) := by
  rw [popcVal, countP_range]

/-- The first 1 bit from the top is bit log2 x. -/
theorem clzVal_eq (x : Word) : clzVal x = if x = 0 then 32 else BitVec.ofNat 32 (31 - x.toNat.log2) := by
  unfold clzVal
  split
  · next h => subst h; rfl
  · next h =>
    have h0 : x.toNat ≠ 0 := fun e => h (BitVec.eq_of_toNat_eq e)
    have hlog : x.toNat.log2 < 32 := (Nat.log2_lt h0).mpr x.isLt
    have hfind : (List.range 32).find? (fun i => x.getLsbD (31 - i)) = some (31 - x.toNat.log2) := by
      rw [List.find?_range_eq_some]
      refine ⟨?_, List.mem_range.mpr (by omega), fun j hj => ?_⟩
      · rw [BitVec.getLsbD, show 31 - (31 - x.toNat.log2) = x.toNat.log2 by omega, Nat.testBit_log2 h0]
      · rw [BitVec.getLsbD, Nat.testBit_lt_two_pow ((Nat.log2_lt h0).mp (by omega))]; rfl
    rw [hfind]; rfl

theorem fieldPos_eq (c : Word) : fieldPos c = c.toNat % 256 := by
  simp [fieldPos]

theorem fieldLen_eq (c : Word) (h : c.toNat % 256 < 32) : fieldLen c = min (c.toNat / 256 % 256) (32 - c.toNat % 256) := by
  simp [fieldLen, fieldPos_eq, h, Nat.shiftRight_eq_div_pow]

theorem toNat_lowMask {n : Nat} (h : n ≤ 32) : (lowMask n).toNat = 2 ^ n - 1 := by
  have := Nat.pow_le_pow_right (n := 2) (by omega) h
  rw [lowMask, BitVec.toNat_ofNat, Nat.mod_eq_of_lt (by omega)]

theorem and_lowMask (x : Word) {n : Nat} (h : n ≤ 32) : x &&& lowMask n = BitVec.ofNat 32 (x.toNat % 2 ^ n) := by
  apply BitVec.eq_of_toNat_eq
  rw [BitVec.toNat_and, toNat_lowMask h, Nat.and_two_pow_sub_one_eq_mod, BitVec.toNat_ofNat,
    Nat.mod_eq_of_lt ((Nat.mod_le _ _).trans_lt x.isLt)]

theorem getLsbD_lowMask {n : Nat} (h : n ≤ 32) (i : Nat) : (lowMask n).getLsbD i = decide (i < n) := by
  rw [BitVec.getLsbD, toNat_lowMask h, Nat.testBit_two_pow_sub_one]

/-- A field of n bits of x from p on, its top bit copied above it, is the field sign-extended. -/
theorem signExtend_field (x : Word) (p : Nat) {n : Nat} (h0 : n ≠ 0) (h : n ≤ 32) :
    (if ((x >>> p) &&& lowMask n).getLsbD (n - 1) then ((x >>> p) &&& lowMask n) ||| ~~~(lowMask n)
      else (x >>> p) &&& lowMask n) = (BitVec.ofNat n (x.toNat / 2 ^ p)).signExtend 32 := by
  have hbit : ∀ i, (BitVec.ofNat n (x.toNat / 2 ^ p)).getLsbD i = (decide (i < n) && x.getLsbD (p + i)) := by
    intro i
    rw [BitVec.getLsbD_ofNat, Nat.testBit_div_two_pow, add_comm]; rfl
  apply BitVec.eq_of_getLsbD_eq
  intro i hi
  rw [BitVec.getLsbD_signExtend, BitVec.msb_eq_getLsbD_last, hbit, hbit, BitVec.getLsbD_and, getLsbD_lowMask h,
    BitVec.getLsbD_ushiftRight]
  have hn : n - 1 < n := by omega
  have hl := getLsbD_lowMask h i
  rw [BitVec.getLsbD_eq_getElem hi] at hl
  by_cases hin : i < n
  · cases x.getLsbD (p + (n - 1)) <;> simp [hl, hin, hi, hn]
  · cases x.getLsbD (p + (n - 1)) <;> simp [hl, hin, hi, hn]

theorem bfeVal_eq (x c : Word) : bfeVal x c =
    if c.toNat % 256 < 32 then
      BitVec.ofNat 32 (x.toNat / 2 ^ (c.toNat % 256) % 2 ^ min (c.toNat / 256 % 256) (32 - c.toNat % 256))
    else 0 := by
  unfold bfeVal
  rw [fieldPos_eq]
  by_cases hp : c.toNat % 256 < 32
  · rw [fieldLen_eq c hp, if_pos hp, and_lowMask _ (by omega), BitVec.toNat_ushiftRight, Nat.shiftRight_eq_div_pow]
    split
    · rfl
    · next h =>
      rw [not_and_not_right] at h
      rw [h hp, pow_zero, Nat.mod_one]
      rfl
  · rw [if_neg hp, if_neg (fun h => hp h.1)]


theorem bfesVal_eq (x c : Word) : bfesVal x c =
    if c.toNat % 256 < 32 then
      (BitVec.ofNat (min (c.toNat / 256 % 256) (32 - c.toNat % 256)) (x.toNat / 2 ^ (c.toNat % 256))).signExtend 32
    else 0 := by
  unfold bfesVal
  rw [fieldPos_eq]
  by_cases hp : c.toNat % 256 < 32
  · rw [fieldLen_eq c hp, if_pos hp]
    generalize hn : min (c.toNat / 256 % 256) (32 - c.toNat % 256) = n
    by_cases h0 : n = 0
    · rw [if_neg (fun h => h.2 h0)]; subst h0; rw [BitVec.eq_nil (BitVec.ofNat 0 _)]; rfl
    · rw [if_pos ⟨hp, h0⟩, signExtend_field x _ h0 (by omega)]
  · rw [if_neg hp, if_neg (fun h => hp h.1)]

theorem bfiVal_eq (x c o : Word) : bfiVal x c o =
    let m := BitVec.ofNat 32 (2 ^ min (c.toNat / 256 % 256) (32 - c.toNat % 256) - 1)
    if c.toNat % 256 < 32 then (o &&& ~~~(m <<< (c.toNat % 256))) ||| ((x &&& m) <<< (c.toNat % 256)) else o := by
  unfold bfiVal
  rw [fieldPos_eq]
  by_cases hp : c.toNat % 256 < 32
  · rw [fieldLen_eq c hp]
    dsimp only
    rw [if_pos hp]
    split
    · rfl
    · next h =>
      rw [not_and_not_right] at h
      rw [h hp, pow_zero, Nat.sub_self, BitVec.zero_shiftLeft, BitVec.not_zero, BitVec.and_allOnes, BitVec.and_zero,
        BitVec.zero_shiftLeft, BitVec.or_zero]
  · rw [if_neg (fun h => hp h.1)]; exact (if_neg hp).symm

end Sys2Proof.Machine
end

section
/-! Integer words over the frame of a wave instruction (03 R94 to R101): each operand form completes with the result of its
row in every executing fibre. -/

namespace Sys2Proof.Machine

/-- The word retires with `after` in every executing fibre, goes on at the next word, and raises no flag. -/
def Completes (i : Instr) (gd : Guard) (s : State) (w : Wave) (g : Grid) (after : Fibre → Fibre) : Prop :=
  ∃ t, exec i s = .next t ∧ Retired s t (kindsOf s i gd w g) 0 fun _ f => (after f).advance s.nextPc s.lastPc

section
variable {i : Instr} {gd : Guard} {d a b : Reg} {s : State} {w : Wave} {g : Grid}

theorem Completes.of_runPure {op : Bool → Fibre → Fibre} {after : Fibre → Fibre} (h : Ready i gd s w g)
    (hx : exec i s = runPure i gd op s) (ho : ∀ f, op w.zen f = after f) : Completes i gd s w g after := by
  obtain ⟨t, ht, hr⟩ := runPure_retired (op := op) h
  exact ⟨t, hx.trans ht, by simpa only [ho] using hr⟩

variable {val : Fibre → Word} {val64 : Fibre → DWord}

theorem Completes.alu2 {op : Word → Word} (h : Ready i gd s w g) (hx : exec i s = alu2 i gd d a op s)
    (hv : ∀ f, op (f.get w.zen a.toNat) = val f) : Completes i gd s w g fun f => f.set w.zen d.toNat (val f) :=
  .of_runPure h hx fun f => by rw [hv f]

theorem Completes.alu3 {op : Word → Word → Word} (h : Ready i gd s w g) (hx : exec i s = alu3 i gd d a b op s)
    (hv : ∀ f, op (f.get w.zen a.toNat) (f.get w.zen b.toNat) = val f) :
    Completes i gd s w g fun f => f.set w.zen d.toNat (val f) :=
  .of_runPure h hx fun f => by rw [hv f]

theorem Completes.alu4 {op : Word → Word → Word → Word} (h : Ready i gd s w g)
    (hx : exec i s = alu4 i gd d a b op s)
    (hv : ∀ f, op (f.get w.zen a.toNat) (f.get w.zen b.toNat) (f.get w.zen d.toNat) = val f) :
    Completes i gd s w g fun f => f.set w.zen d.toNat (val f) :=
  .of_runPure h hx fun f => by rw [hv f]

theorem Completes.alu64 {op : DWord → DWord → DWord} (h : Ready i gd s w g) (hx : exec i s = alu64 i gd d a b op s)
    (hv : ∀ f, op (f.getPair w.zen a.toNat) (f.getPair w.zen b.toNat) = val64 f) :
    Completes i gd s w g fun f => f.setPair w.zen d.toNat (val64 f) :=
  .of_runPure h hx fun f => by rw [hv f]

theorem Completes.alu64s {op : DWord → Word → DWord} (h : Ready i gd s w g) (hx : exec i s = alu64s i gd d a b op s)
    (hv : ∀ f, op (f.getPair w.zen a.toNat) (f.get w.zen b.toNat) = val64 f) :
    Completes i gd s w g fun f => f.setPair w.zen d.toNat (val64 f) :=
  .of_runPure h hx fun f => by rw [hv f]

/-- R95 to R100: the 32-bit words of the table. -/
theorem completes_of_intResult (hi : intResult s w.zen i = some (gd, d, val)) (h : Ready i gd s w g) :
    Completes i gd s w g fun f => f.set w.zen d.toNat (val f) := by
  cases i with
  | iadd => cases hi; exact .alu3 h rfl fun _ => add_eq_ofNat ..
  | isub => cases hi; exact .alu3 h rfl fun _ => sub_eq_ofInt ..
  | and => cases hi; exact .alu3 h rfl fun _ => rfl
  | or => cases hi; exact .alu3 h rfl fun _ => rfl
  | xor => cases hi; exact .alu3 h rfl fun _ => rfl
  | andn => cases hi; exact .alu3 (op := fun x y => x &&& ~~~y) h rfl fun _ => rfl
  | shl => cases hi; exact .alu3 h rfl fun _ => shlVal_eq ..
  | shr => cases hi; exact .alu3 h rfl fun _ => shrVal_eq ..
  | sar => cases hi; exact .alu3 h rfl fun _ => sarVal_eq ..
  | rotl => cases hi; exact .alu3 h rfl fun _ => rfl
  | imin => cases hi; exact .alu3 h rfl fun _ => iminVal_eq ..
  | imax => cases hi; exact .alu3 h rfl fun _ => imaxVal_eq ..
  | umin => cases hi; exact .alu3 h rfl fun _ => uminVal_eq ..
  | umax => cases hi; exact .alu3 h rfl fun _ => umaxVal_eq ..
  | iadds => cases hi; exact .alu3 h rfl fun _ => iaddsVal_eq ..
  | iabsd => cases hi; exact .alu3 h rfl fun _ => rfl
  | iaddi _ _ _ m => cases hi; exact .alu2 (op := (· + s.imm10 m)) h rfl fun _ => add_eq_ofNat ..
  | andi _ _ _ m => cases hi; exact .alu2 (op := (· &&& s.imm10 m)) h rfl fun _ => rfl
  | ori _ _ _ m => cases hi; exact .alu2 (op := (· ||| s.imm10 m)) h rfl fun _ => rfl
  | xori _ _ _ m => cases hi; exact .alu2 (op := (· ^^^ s.imm10 m)) h rfl fun _ => rfl
  | shfi _ _ _ k m => cases hi; exact .alu2 (op := (shfiVal k · (m.setWidth 32))) h rfl fun _ => shfiVal_eq ..
  | movi _ d m => cases hi; exact .of_runPure (op := fun z f => f.set z d.toNat (s.imm16 m)) h rfl fun _ => rfl
  | movhi _ d m =>
    cases hi
    exact .of_runPure (op := fun z f => f.set z d.toNat (movhiVal m (f.get z d.toNat))) h rfl fun _ =>
      congrArg _ (movhiVal_eq ..)
  | imul => cases hi; exact .alu3 h rfl fun _ => mul_eq_ofNat ..
  | imulhs => cases hi; exact .alu3 h rfl fun _ => rfl
  | imulhu => cases hi; exact .alu3 h rfl fun _ => rfl
  | imad => cases hi; exact .alu4 (op := fun x y o => x * y + o) h rfl fun _ => mul_add_eq_ofNat ..
  | idp4s => cases hi; exact .alu4 h rfl fun _ => idp4Val_signed ..
  | idp4u => cases hi; exact .alu4 h rfl fun _ => idp4Val_unsigned ..
  | popc => cases hi; exact .alu2 h rfl fun _ => popcVal_eq _
  | clz => cases hi; exact .alu2 h rfl fun _ => clzVal_eq _
  | brev => cases hi; exact .alu2 h rfl fun _ => rfl
  | bfe => cases hi; exact .alu3 h rfl fun _ => bfeVal_eq ..
  | bfes => cases hi; exact .alu3 h rfl fun _ => bfesVal_eq ..
  | bfi => cases hi; exact .alu4 h rfl fun _ => bfiVal_eq ..
  | bpick => cases hi; exact .alu4 h rfl fun _ => rfl
  | _ => cases hi

/-- R101: the words of the I64 group. -/
theorem completes_of_intResult64 (hi : intResult64 w.zen i = some (gd, d, val64)) (h : Ready i gd s w g) :
    Completes i gd s w g fun f => f.setPair w.zen d.toNat (val64 f) := by
  cases i with
  | iadd64 => cases hi; exact .alu64 h rfl fun _ => add_eq_ofNat ..
  | isub64 => cases hi; exact .alu64 h rfl fun _ => sub_eq_ofInt ..
  | lea64s0 => cases hi; exact .alu64s h rfl fun _ => lea64Val_eq ..
  | lea64s1 => cases hi; exact .alu64s h rfl fun _ => lea64Val_eq ..
  | lea64s2 => cases hi; exact .alu64s h rfl fun _ => lea64Val_eq ..
  | lea64s3 => cases hi; exact .alu64s h rfl fun _ => lea64Val_eq ..
  | imulw _ d a b =>
    cases hi
    exact .of_runPure (op := fun z f => f.setPair z d.toNat (imulwVal (f.get z a.toNat) (f.get z b.toNat))) h rfl fun _ =>
      congrArg _ (imulwVal_eq ..)
  | shl64 => cases hi; exact .alu64s h rfl fun _ => shl64Val_eq ..
  | shr64 => cases hi; exact .alu64s h rfl fun _ => shr64Val_eq ..
  | _ => cases hi

end

/-- Settles O1, row by row of the two tables; each word is the machine's operation over `runPure`. -/
theorem integerResult : Obligations.IntegerResult := by
  refine ⟨⟨fun i gd d val s w g hi h => completes_of_intResult hi h,
    fun i gd d val s w g hi h => completes_of_intResult64 hi h⟩, ?_⟩
  decide

end Sys2Proof.Machine
end

section
/-! Moves, selects, compares and predicate logic (03 R102 to R105), NOP, and the rotation after a YIELD (02 R58, R79). -/

namespace Sys2Proof.Machine

/-! ### Moves, selects and predicates -/

/-- The predicate word is p0 to p6 under a 1 in bit 7 (R91). -/
theorem Fibre.predWord_eq (f : Fibre) : f.predWord = BitVec.ofNat 32 (128 + f.preds.toNat) := by
  have hp := f.preds.isLt
  apply BitVec.eq_of_toNat_eq
  rw [Fibre.predWord, BitVec.toNat_append, BitVec.toNat_append, BitVec.toNat_ofNat (128 + _), Nat.mod_eq_of_lt (by omega)]
  have hor : 128 ||| f.preds.toNat = 128 + f.preds.toNat := by simpa using (Nat.two_pow_add_eq_or_of_lt hp 1).symm
  simp only [BitVec.toNat_ofNat]
  rw [← hor]; rfl

theorem extractLsb'_low {n : Nat} (x : BitVec n) (k : Nat) : x.extractLsb' 0 k = BitVec.ofNat k x.toNat := by
  apply BitVec.eq_of_toNat_eq; simp

/-- SEL copies b exactly where p equals the negation flag (R103). -/
theorem selFibre_eq (d a b : Reg) (neg : Bool) (p : PredNo) (z : Bool) (f : Fibre) : selFibre d a b neg p z f =
    let src := if f.pred p = neg then b else a
    if z then f.setPair z d.toNat (f.getPair z src.toNat) else f.set z d.toNat (f.get z src.toNat) := by
  have hsrc : (if f.pred p != neg then a else b) = if f.pred p = neg then b else a := by
    cases f.pred p <;> cases neg <;> rfl
  rw [selFibre, hsrc]

section
variable {i : Instr} {gd : Guard} {op : Fibre → Fibre} {s : State} {w : Wave} {g : Grid}

/-- R79, R102 to R105: the words of the table of moves. -/
theorem completes_of_moveFibre (hi : moveFibre w.zen i = some (gd, op)) (h : Ready i gd s w g) :
    Completes i gd s w g op := by
  cases i with
  | nop => cases hi; exact .of_runPure (op := fun _ f => f) h rfl fun _ => rfl
  | yield => cases hi; exact .of_runPure (op := fun _ f => f) h rfl fun _ => rfl
  | mov _ d a pair => cases hi; exact .of_runPure (op := movFibre d a pair) h rfl fun _ => rfl
  | movpw _ d =>
    cases hi
    exact .of_runPure (op := fun z f => f.set z d.toNat f.predWord) h rfl fun f => by rw [f.predWord_eq]
  | movwp _ a =>
    cases hi
    exact .of_runPure (op := fun z f => { f with preds := (f.get z a.toNat).extractLsb' 0 7 }) h rfl fun f => by
      rw [extractLsb'_low]
  | sel _ d a b neg p => cases hi; exact .of_runPure h rfl fun _ => selFibre_eq d a b neg p _ _
  | icmp _ pd pe a b cc => cases hi; exact .of_runPure (op := icmpFibre pd pe a b cc) h rfl fun _ => rfl
  | plop _ pd pe x y o =>
    cases hi
    exact .of_runPure (op := fun _ f => f.setPreds pd pe (plopVal o (f.pred x) (f.pred y))) h rfl fun _ => rfl
  | _ => cases hi

end

/-! ### Lists of distinct entries -/

theorem nodup_eraseDups {α : Type} [BEq α] [LawfulBEq α] (l : List α) : l.eraseDups.Nodup := by
  induction hn : l.length using Nat.strong_induction_on generalizing l with
  | _ n ih =>
    cases l with
    | nil => simp
    | cons a as =>
      have hlen := List.length_filter_le (fun b => !b == a) as
      rw [List.eraseDups_cons, List.nodup_cons]
      refine ⟨by simp, ih _ ?_ _ rfl⟩
      rw [List.length_cons] at hn
      omega

theorem eraseDups_eq_of_nodup {α : Type} [BEq α] [LawfulBEq α] {l : List α} (h : l.Nodup) : l.eraseDups = l := by
  induction l with
  | nil => rfl
  | cons a as ih =>
    obtain ⟨ha, has⟩ := List.nodup_cons.mp h
    have hf : as.filter (fun b => !b == a) = as :=
      List.filter_eq_self.mpr fun b hb => by simpa using fun e : b = a => ha (e ▸ hb)
    rw [List.eraseDups_cons, hf, ih has]

/-! ### What the scheduler makes of a wave whose path yields -/

section
variable (w : Wave) (pc : Pc) (cont : Option Pc) (yld point : Bool) (n : Nat)

theorem Wave.schedule_readyPcs : (w.schedule pc cont yld point n).readyPcs = w.readyPcs := by
  rw [Wave.schedule_eq]; rfl

/-- After a bundle the rotation turns, and otherwise at most serial mode changes (R58, R62, R63). -/
theorem Wave.schedule_eq_rotate : w.schedule pc cont yld point n =
    { w.rotate pc cont yld n with
      yielded := yld
      serial := (w.schedule pc cont yld point n).serial
      quota := (w.schedule pc cont yld point n).quota } := by
  unfold Wave.schedule Wave.switch Wave.enterSerial
  dsimp only
  (repeat' split) <;> rfl

theorem Wave.schedule_rot : (w.schedule pc cont yld point n).rot = (w.rotate pc cont yld n).rot := by
  rw [Wave.schedule_eq_rotate]

theorem Wave.schedule_yielded : (w.schedule pc cont yld point n).yielded = yld := by
  rw [Wave.schedule_eq_rotate]

/-- The paths of the rotation that stand before the path at `pc` when that joins the back: those still ready (R58). -/
def Wave.standing : List Pc := w.rot.filter fun p => p != pc && w.readyPcs.contains p

/-- The paths that have become ready and stand nowhere in the rotation yet (R58). -/
def Wave.appeared (own : Pc) : List Pc :=
  w.readyPcs.eraseDups.filter fun p => !(w.standing pc).contains p && p != own

theorem Wave.mem_standing {p : Pc} (h : p ∈ w.standing pc) : p ∈ w.rot ∧ p ∈ w.readyPcs := by
  simp only [Wave.standing, List.mem_filter, Bool.and_eq_true, List.contains_iff_mem] at h
  exact ⟨h.1, h.2.2⟩

theorem Wave.mem_appeared {own p : Pc} :
    p ∈ w.appeared pc own ↔ p ∈ w.readyPcs ∧ p ∉ w.standing pc ∧ p ≠ own := by
  simp [Wave.appeared, List.mem_filter, List.mem_eraseDups]

/-- The three parts of the rotation after a yield have no path in common. -/
theorem Wave.yield_nodup {own : Pc} (hd : w.rot.Nodup) (ho : own ∉ w.rot) :
    (w.standing pc ++ w.appeared pc own ++ [own]).Nodup := by
  have hst : (w.standing pc).Nodup := hd.filter _
  have hap : (w.appeared pc own).Nodup := (nodup_eraseDups _).filter _
  rw [List.nodup_append', List.nodup_append']
  refine ⟨⟨hst, hap, ?_⟩, List.nodup_singleton own, ?_⟩
  · exact fun p hp hq => ((w.mem_appeared pc).mp hq).2.1 hp
  · intro p hp hq
    rw [List.mem_singleton] at hq
    subst hq
    rcases List.mem_append.mp hp with hp | hp
    · exact ho (w.mem_standing pc hp).1
    · exact ((w.mem_appeared pc).mp hp).2.2 rfl

/-- Every ready path stands in the rotation after a yield, and no other. -/
theorem Wave.mem_yield {own p : Pc} (hr : own ∈ w.readyPcs) :
    p ∈ w.standing pc ++ w.appeared pc own ++ [own] ↔ p ∈ w.readyPcs := by
  rw [List.mem_append, List.mem_append, List.mem_singleton, Wave.mem_appeared]
  constructor
  · rintro ((h | h) | rfl)
    · exact (w.mem_standing pc h).2
    · exact h.1
    · exact hr
  · intro h
    by_cases h1 : p ∈ w.standing pc
    · exact .inl (.inl h1)
    · by_cases h2 : p = own
      · exact .inr h2
      · exact .inl (.inr ⟨h, h1, h2⟩)

/-- A path that yields and goes on at a ready `own` joins the back of the rotation (R58, R79). -/
theorem Wave.rotate_yield {own : Pc} (hd : w.rot.Nodup) (ho : own ∉ w.rot) (hr : own ∈ w.readyPcs) :
    (w.rotate pc (some own) true n).rot = w.standing pc ++ w.appeared pc own ++ [own] := by
  have hc : ∀ p, w.readyPcs.eraseDups.contains p = w.readyPcs.contains p := fun p => by
    rw [Bool.eq_iff_iff, List.contains_iff_mem, List.contains_iff_mem, List.mem_eraseDups]
  have hown : [own].filter w.readyPcs.eraseDups.contains = [own] := by simp [hr]
  have hnew : ∀ p, [own].contains p = (p == own) := fun p => by
    rw [List.contains_cons, List.contains_nil, Bool.or_false]
  rw [← eraseDups_eq_of_nodup (w.yield_nodup pc hd ho)]
  simp only [Wave.rotate, Bool.not_true, Bool.false_and, Bool.false_eq_true, if_false, Option.toList_some, hown, hnew, hc,
    List.nil_append]
  rfl
end

/-! ### The word after a bundle at which a path goes on -/

/-- A path some of whose fibres retire its bundle and stay ready goes on where they all stand. -/
theorem continuation_eq {es : List LaneEnd} {fs : List Fibre} {pc : Pc}
    (hx : ∃ p ∈ es.zip fs, p.1.retires = true ∧ p.2.live = true ∧ p.2.park = none)
    (ha : ∀ p ∈ es.zip fs, p.1.retires = true → p.2.pc = pc) : continuation es fs = some pc := by
  unfold continuation
  cases hf : (es.zip fs).find? fun p => p.1.retires && p.2.live && p.2.park.isNone with
  | none =>
    obtain ⟨p, hp, h1, h2, h3⟩ := hx
    simpa [h1, h2, h3] using List.find?_eq_none.mp hf p hp
  | some p =>
    have hret : p.1.retires = true := by
      have := List.find?_some hf
      simp only [Bool.and_eq_true] at this
      exact this.1.1
    rw [Option.map_some, ha p (List.mem_of_find?_eq_some hf) hret]

section
variable {i : Instr} {gd : Guard} {s : State} {w : Wave} {g : Grid}

/-- An executing lane holds a fibre of the path (R20). -/
theorem inPath_of_exec {l : Nat} {f : Fibre} (hf : w.fibres[l]? = some f)
    (h : (kindsOf s i gd w g).getD l .out = .exec) : w.inPath s.cur.pc l f = true := by
  by_contra hn
  simp [kindsOf, List.getD_eq_getElem?_getD, hf, kindOf, hn] at h

/-- The ends of a bundle that changes no register: every fibre of the path goes on. -/
abbrev goOn (_ : Nat) (f : Fibre) : LaneEnd := .done f 0

/-- The wave that such a bundle leaves to the scheduler. -/
def Wave.passed (w : Wave) (s : State) (i : Instr) (ks : List LaneKind) : Wave :=
  w.commit (laneEnds ks goOn w.fibres) s.nextPc s.lastPc (encode i) (s.bundle.length + 1)

/-- A fibre that retires such a bundle is one of the path. -/
theorem retires_goOn {ks : List LaneKind} {fs : List Fibre} {e : LaneEnd} (he : e ∈ laneEnds ks goOn fs)
    (hr : e.retires = true) : ∃ l f, fs[l]? = some f ∧ ks.getD l .out ≠ .out ∧ e = .done f 0 := by
  obtain ⟨l, f, hf, rfl⟩ := mem_laneEnds he
  cases hk : ks.getD l .out with
  | out => rw [hk] at hr; cases hr
  | bad t => rw [hk] at hr; cases hr
  | skip => exact ⟨l, f, hf, by rw [hk]; exact nofun, rfl⟩
  | exec => exact ⟨l, f, hf, by rw [hk]; exact nofun, rfl⟩

/-- An executing fibre retires such a bundle, and stays ready. -/
theorem Ready.goesOn (h : Ready i gd s w g) : ∃ f, f.live = true ∧ f.park = none ∧
    (∃ l : Nat, w.fibres[l]? = some f ∧ (kindsOf s i gd w g).getD l .out ≠ .out) ∧
    LaneEnd.done f 0 ∈ laneEnds (kindsOf s i gd w g) goOn w.fibres := by
  obtain ⟨l, f, hf, hk⟩ := h.lane
  have hp := inPath_of_exec hf hk
  simp only [Wave.inPath, Bool.and_eq_true, Option.isNone_iff_eq_none] at hp
  obtain ⟨⟨⟨⟨hlive, hpark⟩, -⟩, -⟩, -⟩ := hp
  refine ⟨f, hlive, hpark, ⟨l, hf, by rw [hk]; exact nofun⟩, List.mem_iff_getElem?.mpr ⟨l, ?_⟩⟩
  rw [getElem?_laneEnds, hf, hk]
  rfl

theorem mem_zip_map {α β : Type} {l : List α} {c : α → β} {p : α × β} :
    p ∈ l.zip (l.map c) ↔ ∃ e ∈ l, p = (e, c e) := by
  induction l with
  | nil => simp
  | cons a as ih => rw [List.map_cons, List.zip_cons_cons, List.mem_cons, ih]; simp

section
variable {pc : Pc} (h : Ready i gd s w g)
  (hp : ∀ l f, w.fibres[l]? = some f → (kindsOf s i gd w g).getD l .out ≠ .out → (f.advance s.nextPc s.lastPc).pc = pc)
include h hp

/-- The path of a bundle that goes on at one word is ready there. -/
theorem continuation_of_ready : continuation (laneEnds (kindsOf s i gd w g) goOn w.fibres)
    (w.passed s i (kindsOf s i gd w g)).fibres = some pc := by
  refine continuation_eq ?_ ?_
  · obtain ⟨f, hlive, hpark, -, hm⟩ := h.goesOn
    exact ⟨_, mem_zip_map.mpr ⟨_, hm, rfl⟩, rfl, (f.advance_live ..).trans hlive, (f.advance_park ..).trans hpark⟩
  · intro p hm hr
    obtain ⟨e, he, rfl⟩ := mem_zip_map.mp hm
    obtain ⟨l, f, hf, hk, rfl⟩ := retires_goOn he hr
    exact hp l f hf hk

theorem mem_readyPcs_passed : pc ∈ (w.passed s i (kindsOf s i gd w g)).readyPcs := by
  obtain ⟨f, hlive, hpark, ⟨l, hf, hk⟩, hm⟩ := h.goesOn
  have hready : (f.advance s.nextPc s.lastPc).live && (f.advance s.nextPc s.lastPc).park.isNone := by
    rw [Fibre.advance_live, Fibre.advance_park, hlive, hpark]; rfl
  exact List.mem_map.mpr ⟨_, List.mem_filter.mpr ⟨List.mem_map.mpr ⟨_, hm, rfl⟩, hready⟩, hp l f hf hk⟩
end

/-- The wave at `s.cur` after such a bundle. -/
theorem retire_goOn_wave {ks : List LaneKind} {yld point : Bool} (hw : s.waves[s.cur.wave]? = some w)
    (hk : ks.any LaneKind.isBad = false) : (s.retire (encode i) ks goOn yld point).waves[s.cur.wave]? =
      some ((w.passed s i ks).schedule s.cur.pc
        (continuation (laneEnds ks goOn w.fibres) (w.passed s i ks).fibres) yld point (s.bundle.length + 1)) := by
  have ht := trapsOf_laneEnds (w := w) (ends := goOn) hk (fun _ _ _ _ _ _ h => by cases h)
  have hf := finsOf_laneEnds (w := w) (ends := goOn) (ks := ks) (fun _ _ _ _ _ h => by cases h)
  obtain ⟨hlt, -⟩ := List.getElem?_eq_some_iff.mp hw
  simp only [State.retire, hw, ht, hf, State.takeTraps, State.reschedule, State.modWave_waves, State.setWave_waves, modAt,
    List.getElem?_modify, List.getElem?_set_self hlt]
  simp [Wave.passed]

end

/-- R58, R79: the path of a YIELD joins the back of its wave's rotation. -/
theorem yield_rotation {gd : Guard} {s : State} {w : Wave} {g : Grid} (h : Ready (.yield gd) gd s w g) (hd : w.rot.Nodup)
    (ho : s.nextPc ∉ w.rot)
    (hp : ∀ l f, w.fibres[l]? = some f → (kindsOf s (.yield gd) gd w g).getD l .out ≠ .out →
      (f.advance s.nextPc s.lastPc).pc = s.nextPc) :
    ∃ t w' new, exec (.yield gd) s = .next t ∧ t.waves[s.cur.wave]? = some w' ∧ w'.yielded = true ∧
      w'.rot = (w.rot.filter fun p => p != s.cur.pc && w'.readyPcs.contains p) ++ new ++ [s.nextPc] ∧ w'.rot.Nodup ∧
      ∀ p, p ∈ w'.rot ↔ p ∈ w'.readyPcs := by
  have hx : exec (.yield gd) s = .next (s.retire (encode (.yield gd)) (kindsOf s (.yield gd) gd w g) goOn true true) :=
    runPath_go (op := fun s _ _ _ => .go s goOn) h rfl h.sound
  have hw := retire_goOn_wave (i := .yield gd) (yld := true) (point := true) h.wave h.legal
  rw [continuation_of_ready h hp] at hw
  have hr := mem_readyPcs_passed h hp
  generalize hv : w.passed s (.yield gd) (kindsOf s (.yield gd) gd w g) = v at hw hr
  have hvr : v.rot = w.rot := by rw [← hv]; rfl
  have hrot := v.rotate_yield s.cur.pc (s.bundle.length + 1) (hvr ▸ hd) (hvr ▸ ho) hr
  refine ⟨_, _, v.appeared s.cur.pc s.nextPc, hx, hw, v.schedule_yielded .., ?_, ?_, fun p => ?_⟩
  · rw [Wave.schedule_rot, hrot, Wave.schedule_readyPcs, ← hvr]; rfl
  · rw [Wave.schedule_rot, hrot]
    exact v.yield_nodup _ (hvr ▸ hd) (hvr ▸ ho)
  · rw [Wave.schedule_rot, hrot, Wave.schedule_readyPcs]
    exact v.mem_yield _ hr

end Sys2Proof.Machine
end

section
/-! PREF (09 R230): what a prefetch can change of the machine, lane by lane, and that it brings no byte to memory while every
byte is at its home. -/

namespace Sys2Proof.Machine

/-! ### Caches at rest, and what moves a cached line -/

/-- No narrow sum is in a shadow and no cached byte has still to go home. -/
def State.clean (s : State) : Prop := s.shadows = [] ∧ ∀ x ∈ s.l1, x.dirty = []

theorem Quiet.clean {s : State} (h : Quiet s) : s.clean := ⟨h.shadows, fun x hx => (h.l1 x hx).2.1⟩

/-- `t` is `s` but for where lines are cached: the bytes and shadows of lines that have gone home, the L1s, the agents that
hold lines modified, the leaders, and the victim tags of waves (R157); and no byte of memory changes where the caches are at
rest. -/
structure Recached (s t : State) : Prop where
  frame : t = { s with
    waves := t.waves, mem := t.mem, l1 := t.l1, modified := t.modified, leaders := t.leaders, shadows := t.shadows }
  length : t.waves.length = s.waves.length
  victims : ∀ (k : Nat) (x : Wave), s.waves[k]? = some x → ∃ v, t.waves[k]? = some { x with victims := v }
  clean : s.clean → t.clean
  mem : s.clean → t.mem = s.mem

theorem Recached.refl (s : State) : Recached s s := ⟨rfl, rfl, fun _ x hx => ⟨x.victims, hx⟩, id, fun _ => rfl⟩

theorem Recached.trans {s t u : State} (h : Recached s t) (h' : Recached t u) : Recached s u where
  frame := by rw [h'.frame, h.frame]
  length := h'.length.trans h.length
  victims k x hx := by
    obtain ⟨v, hv⟩ := h.victims k x hx
    obtain ⟨v', hv'⟩ := h'.victims k _ hv
    exact ⟨v', hv'⟩
  clean hs := h'.clean (h.clean hs)
  mem hs := (h'.mem (h.clean hs)).trans (h.mem hs)

theorem Recached.foldl {α : Type} {f : State → α → State} (hf : ∀ s x, Recached s (f s x)) (l : List α) (s : State) :
    Recached s (l.foldl f s) := by
  induction l generalizing s with
  | nil => exact .refl s
  | cons x xs ih => exact (hf s x).trans (ih _)

/-- A change of the L1s, of the lines held modified and of the leaders, by which no copy turns dirty. -/
theorem Recached.of_lines {s : State} (l1 : List L1Line) (m : List Modified) (ld : List Leader)
    (h : s.clean → ∀ x ∈ l1, x.dirty = []) : Recached s { s with l1 := l1, modified := m, leaders := ld } :=
  ⟨rfl, rfl, fun _ x hx => ⟨x.victims, hx⟩, fun hs => ⟨hs.1, h hs⟩, fun _ => rfl⟩

/-- A change of one wave's victim tags. -/
theorem Recached.of_victims {s : State} {f : Wave → Wave} (k : Nat) (h : ∀ x, ∃ v, f x = { x with victims := v }) :
    Recached s (s.modWave k f) where
  frame := rfl
  length := List.length_modify ..
  victims n x hx := by
    rw [State.modWave_waves, modAt, List.getElem?_modify, hx]
    split
    · obtain ⟨v, hv⟩ := h x
      exact ⟨v, congrArg some hv⟩
    · exact ⟨x.victims, rfl⟩
  clean := id
  mem _ := rfl

/-! ### Lines that go home -/

/-- `t` is `s` but for bytes that have gone home, dirty ones of a line or sums of a shadow. -/
def Homed (s t : State) : Prop := t = { s with mem := t.mem, shadows := t.shadows }

theorem Homed.trans {s t u : State} (h : Homed s t) (h' : Homed t u) : Homed s u := by
  rw [Homed] at h h' ⊢; rw [h', h]

theorem Homed.foldl {α : Type} {f : State → α → State} (hf : ∀ s x, Homed s (f s x)) (l : List α) (s : State) :
    Homed s (l.foldl f s) := by
  induction l generalizing s with
  | nil => rfl
  | cons x xs ih => exact (hf s x).trans (ih _)

theorem homeWrite_homed (s : State) (key : Nat) (bs : List Byte) : Homed s (s.homeWrite key bs) := by
  unfold State.homeWrite; split <;> rfl

theorem flushShadow_homed (s : State) (x : Shadow) : Homed s (s.flushShadow x) := by
  refine Homed.foldl (fun s e => ?_) _ _
  split
  · exact homeWrite_homed ..
  · rfl

theorem flushLine_homed (s : State) (line : Nat) : Homed s (s.flushLine line) := by
  unfold State.flushLine
  split
  · rfl
  · next x _ => exact (flushShadow_homed s x).trans rfl

theorem writeBack_homed (s : State) (x : L1Line) : Homed s (s.writeBack x) :=
  (flushLine_homed s x.line).trans (Homed.foldl (fun s _ => homeWrite_homed s _ _) _ _)

/-- With the caches at rest nothing is left to write back. -/
theorem writeBack_clean {s : State} {x : L1Line} (hs : s.clean) (hx : x.dirty = []) : s.writeBack x = s := by
  simp [State.writeBack, State.flushLine, hx, hs.1]

theorem mem_of_l1Find {s : State} {core line : Nat} {x : L1Line} (h : s.l1Find core line = some x) : x ∈ s.l1 :=
  List.mem_of_find?_eq_some h

theorem writeBack_recached {s : State} {x : L1Line} (hx : x ∈ s.l1) : Recached s (s.writeBack x) := by
  have hh := writeBack_homed s x
  have hc : s.clean → s.writeBack x = s := fun hs => writeBack_clean hs (hs.2 x hx)
  have hw : (s.writeBack x).waves = s.waves := by rw [hh]
  exact
    { frame := by rw [hh]
      length := by rw [hw]
      victims := fun k y hy => ⟨y.victims, by rw [hw]; exact hy⟩
      clean := fun hs => by rw [hc hs]; exact hs
      mem := fun hs => by rw [hc hs] }

/-! ### The L1 under a prefetch (R156, R157) -/

theorem evictLine_recached (s : State) (core line : Nat) : Recached s (s.evictLine core line) := by
  unfold State.evictLine
  split
  · exact .refl s
  · next x hx =>
    have hdrop : ∀ u : State, Recached u ((u.l1Drop core line).endModified core line) := fun u =>
      .of_lines _ _ u.leaders fun hu y hy => hu.2 y (List.mem_of_mem_filter hy)
    have hgone := (writeBack_recached (mem_of_l1Find hx)).trans (hdrop _)
    dsimp only
    split
    · split
      · refine hgone.trans (.of_victims _ fun y => ?_)
        split
        · exact ⟨_, rfl⟩
        · exact ⟨y.victims, rfl⟩
      · exact hgone
    · exact hgone

theorem l1Fill_recached (s : State) {x : L1Line} (front : Bool) (hx : x.dirty = []) : Recached s (s.l1Fill x front) := by
  unfold State.l1Fill
  extract_lets set s1
  have hroom : Recached s s1 := by
    simp only [s1]
    split
    · split
      · exact evictLine_recached ..
      · exact .refl s
    · exact .refl s
  refine hroom.trans (.of_lines _ s1.modified s1.leaders fun hs y hy => ?_)
  have hy : y = x ∨ y ∈ s1.l1 := by
    split at hy
    · exact List.mem_cons.mp hy
    · rcases List.mem_append.mp hy with hy | hy
      · exact .inr hy
      · exact .inl (List.mem_singleton.mp hy)
  rcases hy with rfl | hy
  · exact hx
  · exact hs.2 y hy

theorem l1Move_recached (s : State) (x : L1Line) (ch : CacheHint) (hx : s.clean → x.dirty = []) :
    Recached s (s.l1Move x ch) := by
  have hset : Recached s (s.l1Set x) := .of_lines _ s.modified s.leaders fun hs y hy => by
    obtain ⟨z, hz, rfl⟩ := List.mem_map.mp hy
    split
    · exact hx hs
    · exact hs.2 z hz
  cases ch with
  | normal =>
    refine .of_lines _ s.modified s.leaders fun hs y hy => ?_
    rcases List.mem_cons.mp hy with rfl | hy
    · exact hx hs
    · exact hs.2 y (List.mem_of_mem_filter hy)
  | lastUse =>
    refine .of_lines _ s.modified s.leaders fun hs y hy => ?_
    rcases List.mem_append.mp hy with hy | hy
    · exact hs.2 y (List.mem_of_mem_filter hy)
    · rw [List.mem_singleton.mp hy]; exact hx hs
  | stream => exact hset
  | noL1 => exact hset

/-- An access of no wave's LDG, which raises no score. -/
theorem l1Use_recached (s : State) (core line asid va : Nat) (ch : CacheHint) (selfinv : Bool) :
    Recached s (s.l1Use none core line asid va ch selfinv) := by
  unfold State.l1Use
  split
  · next x hx => exact l1Move_recached s _ ch fun hs => hs.2 x (mem_of_l1Find hx)
  · dsimp only
    split
    · exact .refl s
    · exact l1Fill_recached s _ rfl

theorem share_recached (s : State) (a : Option Agent) (line : Nat) : Recached s (s.share a line) :=
  .of_lines s.l1 _ s.leaders fun hs => hs.2

theorem lead_recached (s : State) (line asid va : Nat) (coh : BitVec 2) : Recached s (s.lead line asid va coh).1 := by
  unfold State.lead
  split
  · exact .refl s
  · exact .of_lines s.l1 s.modified _ fun hs => hs.2

/-! ### PREF -/

theorem prefLane_recached (w : Wave) (g : Grid) (va : DWord) (ch : CacheHint) (s : State) :
    Recached s (prefLane w g va ch s) := by
  unfold prefLane
  split
  · extract_lets r s1
    split
    · exact .refl s
    · have hs1 : Recached s s1 := by
        simp only [s1]
        split
        · exact (lead_recached ..).trans (share_recached ..)
        · exact lead_recached ..
      exact hs1.trans (l1Use_recached ..)
  · exact .refl s

section
variable {s u t : State} {w : Wave} {ks : List LaneKind} {after : Nat → Fibre → Fibre}

theorem Recached.laneAfter_eq (h : Recached s u) : laneAfter u ks after = laneAfter s ks after := by
  funext l f
  unfold laneAfter State.nextPc State.lastPc
  rw [h.frame]

/-- A bundle that moves cached lines and then retires is a global access that touches no counter and no poison. -/
theorem Recached.memStep (h : Recached s u) (hw : s.waves[s.cur.wave]? = some w) (hr : Retired u t ks 0 after) :
    ∃ w', MemStep s t w w' ∧ w'.fibres = w.fibres.mapIdx (laneAfter s ks after) ∧ w'.loads = w.loads ∧
      w'.stores = w.stores ∧ w'.psn = w.psn ∧ t.poison = s.poison ∧ t.mem = u.mem := by
  obtain ⟨x, w', hx, ht, hw'⟩ := hr
  obtain ⟨v, hv⟩ := h.victims _ _ hw
  have hcur : u.cur = s.cur := by rw [h.frame]
  rw [hcur] at hx ht
  obtain rfl : { w with victims := v } = x := Option.some.inj (hv.symm.trans hx)
  have hlt : s.cur.wave < u.waves.length := (List.getElem?_eq_some_iff.mp hx).1
  have hwaves : t.waves = u.waves.set s.cur.wave w' := by rw [ht]
  have hnone : w.fpflags ||| 0 = w.fpflags := BitVec.or_zero
  rw [hnone, h.laneAfter_eq] at hw'
  refine ⟨w', ⟨?_, ?_, ?_, fun k y hk hy => ?_, ?_⟩, ?_, ?_, ?_, ?_, ?_, ?_⟩
  · rw [ht, h.frame]
  · rw [hwaves, List.length_set, h.length]
  · rw [hwaves, List.getElem?_set_self hlt]
  · rw [hwaves, List.getElem?_set_ne (Ne.symm hk)]; exact h.victims k y hy
  · rw [hw']
  · rw [hw']
  · rw [hw']
  · rw [hw']
  · rw [hw']
  · rw [ht, h.frame]
  · rw [ht]

end

/-- The state after the lanes of a PREF have fetched, one after another. -/
def prefLanes (s : State) (w : Wave) (g : Grid) (a : Reg) (ch : CacheHint) (ls : List Nat) : State :=
  ls.foldl (fun s' l => prefLane w g ((w.fibres.getD l Fibre.empty).getPair w.zen a.toNat + s.hintXoff) ch s') s

theorem prefLanes_recached (s : State) (w : Wave) (g : Grid) (a : Reg) (ch : CacheHint) (ls : List Nat) :
    Recached s (prefLanes s w g a ch ls) :=
  .foldl (fun s' _ => prefLane_recached w g _ ch s') ls s

/-- R230: what a prefetch of the path at `s.cur` leaves. -/
theorem pref_memStep {gd : Guard} {a : Reg} {c : Scope} {wd : Width} {ch : CacheHint} {s : State} {w : Wave} {g : Grid}
    (h : Ready (.pref gd a c wd ch) gd s w g) : ∃ t w', exec (.pref gd a c wd ch) s = .next t ∧ MemStep s t w w' ∧
      w'.fibres = w.fibres.mapIdx
        (laneAfter s (kindsOf s (.pref gd a c wd ch) gd w g) fun _ f => f.advance s.nextPc s.lastPc) ∧
      w'.loads = w.loads ∧ w'.stores = w.stores ∧ w'.psn = w.psn ∧ t.poison = s.poison ∧
      (Quiet s → t.mem = s.mem) := by
  have hu := prefLanes_recached s w g a ch (execLanes (kindsOf s (.pref gd a c wd ch) gd w g))
  generalize hs2 : prefLanes s w g a ch (execLanes (kindsOf s (.pref gd a c wd ch) gd w g)) = u at hu
  have hcur : u.cur = s.cur := by rw [hu.frame]
  have hsound : u.faulty = [] := by rw [hu.frame]; exact h.sound
  have hpc : u.nextPc = s.nextPc ∧ u.lastPc = s.lastPc := by rw [hu.frame]; exact ⟨rfl, rfl⟩
  obtain ⟨v, hv⟩ := hu.victims _ _ h.wave
  rw [← hcur] at hv
  obtain ⟨t, ht, hr⟩ := runPath_done
    (op := fun s w g ls => .go (prefLanes s w g a ch ls) fun _ f => .done f 0) (after := fun _ f => f) h
    (congrArg (PathRes.go · _) hs2) hsound hv rfl
  rw [hpc.1, hpc.2] at hr
  obtain ⟨w', hstep, hfib, hloads, hstores, hpsn, hpoison, hmem⟩ := hu.memStep h.wave hr
  exact ⟨t, w', ht, hstep, hfib, hloads, hstores, hpsn, hpoison, fun hq => hmem.trans (hu.mem hq.clean)⟩

/-- Settles O2: the words of the table over `runPure`, YIELD's rotation, and PREF lane by lane. -/
theorem moveResult : Obligations.MoveResult := by
  refine ⟨fun i gd op s w g hi h => completes_of_moveFibre hi h, fun gd s w g h hd ho hp => yield_rotation h hd ho hp,
    fun _ _ _ _ _ _ _ _ h => pref_memStep h, ?_⟩
  decide

end Sys2Proof.Machine
end

section
/-! Words across lanes that trap in no lane (05 R136, R137): SHFL and VOTE over the frame of a wave instruction, each value
as its rule writes it over the executing lanes. -/

namespace Sys2Proof.Machine

/-! ### What a bundle leaves rests on its executing lanes alone -/

section
variable {s s2 t : State} {w w2 : Wave} {ks : List LaneKind} {fl : BitVec 6} {after after' : Nat → Fibre → Fibre}

theorem Retired.congr (hr : Retired s t ks fl after) (hw : s.waves[s.cur.wave]? = some w)
    (h : ∀ l f, w.fibres[l]? = some f → ks.getD l .out = .exec → after l f = after' l f) : Retired s t ks fl after' := by
  obtain ⟨x, w', hx, ht, hw'⟩ := hr
  obtain rfl : w = x := Option.some.inj (hw.symm.trans hx)
  have hlanes : w.fibres.mapIdx (laneAfter s ks after) = w.fibres.mapIdx (laneAfter s ks after') := by
    refine List.mapIdx_eq_mapIdx_iff.mpr fun l hl => ?_
    cases hk : ks.getD l .out with
    | exec => simpa only [laneAfter, hk] using h l _ (List.getElem?_eq_getElem hl) hk
    | _ => simp only [laneAfter, hk]
  rw [hlanes] at hw'
  exact ⟨w, w', hx, ht, hw'⟩

/-- As `runPath_done`, of an operation whose executing lanes alone are known to complete. -/
theorem runPath_done_lanes {i : Instr} {gd : Guard} {g : Grid} {op : State → Wave → Grid → List Nat → PathRes}
    {ends : Nat → Fibre → LaneEnd} (h : Ready i gd s w g)
    (hop : op s w g (execLanes (kindsOf s i gd w g)) = .go s2 ends) (hs : s2.faulty = [])
    (hw2 : s2.waves[s2.cur.wave]? = some w2) (hlen : w2.fibres.length = w.fibres.length)
    (he : ∀ l f, w2.fibres[l]? = some f → (kindsOf s i gd w g).getD l .out = .exec → ends l f = .done (after l f) 0) :
    ∃ t, runPath i gd op s = .next t ∧
      Retired s2 t (kindsOf s i gd w g) 0 fun l f => (after l f).advance s2.nextPc s2.lastPc := by
  obtain ⟨t, ht, hr⟩ := runPath_retired h hop hs hw2 hlen fun l f hf hk => by rw [he l f hf hk]; rfl
  rw [flagsOf_quiet fun l f hf hk => by rw [he l f hf hk]; rfl] at hr
  exact ⟨t, ht, hr.congr hw2 fun l f hf hk => by rw [he l f hf hk]; rfl⟩

end

/-! ### One value to each executing lane -/

theorem Wave.lane_of_getElem? {w : Wave} {l : Nat} {f : Fibre} (h : w.fibres[l]? = some f) : w.lane l = f := by
  rw [Wave.lane, List.getD_eq_getElem?_getD, h, Option.getD_some]

theorem lookup_map_lane {α : Type} (v : Nat → α) {ls : List Nat} {l : Nat} (h : l ∈ ls) :
    (ls.map fun k => (k, v k)).lookup l = some (v l) := by
  induction ls with
  | nil => cases h
  | cons k ks ih =>
    rw [List.map_cons, List.lookup_cons]
    by_cases hk : l = k
    · subst hk; simp
    · rw [beq_false_of_ne hk]
      exact ih ((List.mem_cons.mp h).resolve_left hk)

/-- The end of a lane that has a value. -/
def LaneVal.laneEnd (d : Nat) (f : Fibre) : LaneVal → LaneEnd
  | .write x fl => .done (f.set false d x) fl
  | .same fl => .done f fl
  | .trap t => .trap f t

/-- A table over the executing lanes gives each of them the end of its own value. -/
theorem valEnd_map (d : Nat) (v : Nat → LaneVal) {ls : List Nat} {l : Nat} (h : l ∈ ls) (f : Fibre) :
    valEnd d (ls.map fun k => (k, v k)) l f = (v l).laneEnd d f := by
  rw [valEnd, lookup_map_lane v h]
  cases v l with
  | write x fl => rfl
  | same fl => rfl
  | trap t => rfl

/-! ### The mask of VOTE.BALLOT (R137) -/

theorem testBit_sum_two_pow (p : Nat → Prop) [DecidablePred p] (n i : Nat) :
    (∑ k ∈ Finset.range n, if p k then 2 ^ k else 0).testBit i = decide (i < n ∧ p i) := by
  rw [← Finset.sum_filter, Bool.eq_iff_iff, ← Nat.mem_bitIndices, ← List.mem_toFinset,
    Finset.toFinset_bitIndices_sum_two_pow, Finset.mem_filter, Finset.mem_range, decide_eq_true_iff]

/-- The bits that a list sets, one for each entry that counts. -/
theorem getLsbD_foldl_or (p : Nat → Bool) (e : Nat → Nat) (ls : List Nat) (m : Word) {i : Nat} (hi : i < 32) :
    (ls.foldl (fun m l => if p l then m ||| (1#32 <<< e l) else m) m).getLsbD i =
      (m.getLsbD i || ls.any fun l => p l && e l == i) := by
  induction ls generalizing m with
  | nil => simp
  | cons l ls ih =>
    have hbit : (1#32 <<< e l).getLsbD i = (e l == i) := by
      rw [BitVec.getLsbD_shiftLeft, BitVec.getLsbD_one, Bool.eq_iff_iff]
      simp [hi]; omega
    rw [List.foldl_cons, ih, List.any_cons]
    cases p l <;> simp [hbit, Bool.or_assoc]

theorem getLsbD_ballot (w : Wave) (ls : List Nat) (pa : PredNo) (base : Nat) {i : Nat} (hi : i < 32) :
    (ballot w ls pa base).getLsbD i = decide (base + i ∈ ls ∧ (w.lane (base + i)).pred pa = true) := by
  have hzero : BitVec.getLsbD (0 : Word) i = false := BitVec.getLsbD_zero
  rw [ballot, getLsbD_foldl_or _ _ _ _ hi, hzero, Bool.false_or, Bool.eq_iff_iff, List.any_eq_true, decide_eq_true_iff]
  constructor
  · rintro ⟨l, hl, h⟩
    simp only [Bool.and_eq_true, decide_eq_true_eq, beq_iff_eq] at h
    obtain ⟨⟨⟨hlo, -⟩, hp⟩, he⟩ := h
    obtain rfl : l = base + i := by omega
    exact ⟨hl, hp⟩
  · rintro ⟨hl, hp⟩
    exact ⟨base + i, hl, by simp [hi, hp]⟩

theorem ballot_eq (w : Wave) (ls : List Nat) (pa : PredNo) (base : Nat) : ballot w ls pa base = BitVec.ofNat 32
    (∑ k ∈ Finset.range 32, if base + k ∈ ls ∧ (w.lane (base + k)).pred pa = true then 2 ^ k else 0) := by
  apply BitVec.eq_of_getLsbD_eq
  intro i hi
  rw [getLsbD_ballot w ls pa base hi, BitVec.getLsbD_ofNat, testBit_sum_two_pow]
  simp [hi]

/-! ### SHFL and VOTE -/

section
variable {gd : Guard} {s : State} {w : Wave} {g : Grid}

/-- R136: a lane whose source is active takes its a; another keeps its fibre. -/
theorem shfl_retired {d a b : Reg} {m : ShflMode} (h : Ready (.shfl gd d a b m) gd s w g) :
    let on := execLanes (kindsOf s (.shfl gd d a b m) gd w g)
    let src := fun (l : Nat) (f : Fibre) => shflSrc m w.width l (f.get false b.toNat)
    ∃ t, exec (.shfl gd d a b m) s = .next t ∧
      Retired s t (kindsOf s (.shfl gd d a b m) gd w g) 0 fun l f =>
        (if src l f ∈ on then f.set false d.toNat ((w.lane (src l f)).get false a.toNat) else f).advance
          s.nextPc s.lastPc := by
  intro on src
  show ∃ t, execShfl gd d a b m s = .next t ∧ _
  unfold execShfl
  refine runPath_done_lanes h rfl h.sound h.wave rfl fun l f hf hk => ?_
  rw [valEnd_map _ _ (mem_execLanes hk), Wave.lane_of_getElem? hf]
  by_cases hs : src l f ∈ on
  · rw [if_pos (List.contains_iff_mem.mpr hs), if_pos hs]; rfl
  · rw [if_neg (mt List.contains_iff_mem.mp hs), if_neg hs]; rfl

/-- A word that gives every executing lane a new fibre, by what all of them hold. -/
theorem runPath_uniform {i : Instr} {op : Wave → List Nat → Fibre → Fibre} {after : Fibre → Fibre} (h : Ready i gd s w g)
    (hx : exec i s = runPath i gd (fun s w _ ls => .go s fun _ f => .done (op w ls f) 0) s)
    (ho : ∀ f, op w (execLanes (kindsOf s i gd w g)) f = after f) : Completes i gd s w g after := by
  obtain ⟨t, ht, hr⟩ := runPath_done
    (op := fun s w _ ls => .go s fun _ f => .done (op w ls f) 0) (after := fun _ f => after f) h
    (by simp only [ho]) h.sound h.wave rfl
  exact ⟨t, hx.trans ht, hr⟩

/-- R136, R137: the words of the table. -/
theorem retired_of_crossFibre {i : Instr} {op : Nat → Fibre → Fibre}
    (hi : crossFibre w (execLanes (kindsOf s i gd w g)) i = some (gd, op)) (h : Ready i gd s w g) :
    ∃ t, exec i s = .next t ∧ Retired s t (kindsOf s i gd w g) 0 fun l f => (op l f).advance s.nextPc s.lastPc := by
  cases i with
  | shfl _ d a b m => cases hi; cases m <;> exact shfl_retired h
  | voteAll _ pd pa =>
    cases hi
    refine runPath_uniform (op := fun w ls f => f.setPred pd (ls.all fun l => (w.lane l).pred pa)) h rfl fun f => ?_
    rw [List.all_eq]
  | voteAny _ pd pa =>
    cases hi
    refine runPath_uniform (op := fun w ls f => f.setPred pd (ls.any fun l => (w.lane l).pred pa)) h rfl fun f => ?_
    rw [List.any_eq]
  | voteBallot _ d pa high =>
    cases hi
    refine runPath_uniform (op := fun w ls f => f.set false d.toNat (ballot w ls pa (if high then 32 else 0))) h rfl
      fun f => ?_
    rw [ballot_eq]
  | _ => cases hi

end

/-- Settles O11: SHFL by its table of lanes, each VOTE by the one value that its executing lanes make. -/
theorem shuffleVote : Obligations.ShuffleVote := by
  refine ⟨fun _ _ _ _ _ _ hi h => retired_of_crossFibre hi h, ?_⟩
  decide

end Sys2Proof.Machine
end
